-- ==== Sys2Proof/Word.lean ====
section
/-! DEFINITION. The plainest data of the Vizwen 4170: line levels, units and five-unit codes. -/
namespace Sys2Proof

/-- The two levels of the line (R13); also the level a station drives in a cell. -/
inductive Level where
  | dominant
  | recessive
  deriving DecidableEq, Repr, Inhabited

/-- A unit's eight data cells, or a byte of the configuration image (R14, R191). -/
abbrev Byte := BitVec 8

/-- A five-unit code, 0 to 31 (R1). -/
abbrev Code := Fin 32

/-- Two drivers of the pair: dominant overrides recessive (R13). -/
def Level.wired : Level → Level → Level
  | .dominant, _ => .dominant
  | .recessive, l => l

end Sys2Proof
end

