-- ==== Sys2Proof/Config.lean ====
section
/-! DEFINITION. Sizes, times and the one free value of the model. The settings of the configuration
image are state (State.panel.settings), since the block reads them. -/
namespace Sys2Proof.Config

/-- Free value (log 2): the level the other stations of the circuit put on the line in the model's
n-th cell. The manual leaves the other stations open; nothing constrains it. -/
opaque otherLevel : Nat → Level

/-- Time is counted in units of 1/12000 s, so that a millisecond and a cell of either rate are whole
numbers of units (log 25). -/
def unitsPerMs : Nat := 12

/-- One second in units. -/
def second : Nat := 1000 * unitsPerMs

/-- A cell at 2400 cells per second, and at 1200 (R13). -/
def fastCell : Nat := 5
def slowCell : Nat := 10

/-- Quiet interval in cells (R16). -/
def quietCells : Nat := 14
/-- Dominant cells that make a break for a receiver, and those a station drives (R32, R31). -/
def breakRun : Nat := 12
def breakLength : Nat := 20
/-- The dominant cell on which LINE FAULT is entered (R33). -/
def faultRun : Nat := 201
/-- Cells of one load window (R40). -/
def windowLength : Nat := 256
/-- Latch thresholds (R44). -/
def latchSet : Nat := 3584
def latchClear : Nat := 2048
/-- Cells of the answer window, and recessive cells before AU1 (R30, R29). -/
def answerWindow : Nat := 6
def answerLead : Nat := 2

/-- The store: blocks, codes in a block, directory entries (R53, R56). -/
def blocks : Nat := 256
def blockCodes : Nat := 32
def entries : Nat := 32

/-- Reserves of R64. -/
def reserveFirst : Nat := 8
def reserveCircular : Nat := 16
def reserveFurther : Nat := 1

/-- Table sizes: circular records (R72), send list (R97), control queue (R108), reply watch (R111),
keystroke queue (R123), echo FIFO (R139), local punch FIFO (R138), notice queue (R162), journal ring (R185). -/
def circularRecords : Nat := 3
def sendPlaces : Nat := 4
def controlPlaces : Nat := 6
def watchPlaces : Nat := 4
def keyPlaces : Nat := 16
def heldKeys : Nat := 3
def echoPlaces : Nat := 256
def punchPlaces : Nat := 64
def noticePlaces : Nat := 16
def journalPlaces : Nat := 48

/-- Limits of WAIT and ENGAGED answers and their delays (R103). -/
def waitLimit : Nat := 30
def engagedLimit : Nat := 24
def waitDelay : Nat := 2 * second
def engagedDelay : Nat := 5 * second

/-- Timers: reassembly record (R72), reply watch (R111), auto end (R133), echo idle (R152), divider
(R189), flash (R197), retry of the configuration read (R191). -/
def recordTime : Nat := 120 * second
def replyTime : Nat := 10 * second
def autoEndTime : Nat := 90 * second
def echoIdleTime : Nat := 10 * second
def minuteTime : Nat := 60 * second
def flashTime : Nat := 250 * unitsPerMs
def retryTime : Nat := 10 * unitsPerMs

/-- Largest values of counters that stay there: discards (R26), W (R45), n (R46), lost notices (R162),
overwritten entries (R185). -/
def maxDiscarded : Nat := 65535
def maxWaiting : Nat := 65535
def maxLosses : Nat := 15
def maxLost : Nat := 255
def maxOverwritten : Nat := 255

end Sys2Proof.Config
end

