-- ==== Sys2Proof/Syntax.lean ====
section
/-! DEFINITION. The commands of the block: one constructor per row of spec/opcode_table.json, with the
data that the event brings from outside (log 8). -/
namespace Sys2Proof

/-- Frame kinds 0 to 5 (R23). -/
inductive FrameKind where
  | text | who | ident | enquire | status | release
  deriving DecidableEq, Repr

/-- The fields of a frame (R22). Numbers are the values of the fields; `frameWellFormed` bounds them. -/
structure Frame where
  rank : Nat
  origin : Nat
  kind : FrameKind
  seq : Nat
  dest : Nat
  cls : Nat
  number : Nat
  first : Bool
  final : Bool
  text : List Code
  deriving DecidableEq, Repr

/-- The positions of the key matrix by what sits there: 47 keys and 17 vacant positions (R120). -/
inductive Key where
  /-- The code key of code k + 4 (codes 4 to 29). -/
  | code (k : Fin 26)
  | space | ret | lineFeed | shift
  | erase | endKey | breakKey | dest | who | enq | hereIs | mode | time
  | attend | print | punch | level | paperFeed | tapeFeed | punchResume | journal
  | vacant (n : Fin 17)
  deriving DecidableEq, Repr

/-- A record of the reassembly table: the hold, or the circular record of this origin and message
number (R72: no two circular records have both equal). -/
inductive RecordRef where
  | hold
  | circular (origin number : Nat)
  deriving DecidableEq, Repr

/-- A frame under a WAIT or ENGAGED delay: the current section of the message of a directory entry, or
the control record at a place of the control queue (R100, R109). -/
inductive DelayRef where
  | message (entry : Nat)
  | control (place : Nat)
  deriving DecidableEq, Repr

/-- The commands. A name that Lean or another command uses takes the suffix Key. -/
inductive Instr where
  | powerOn
  | configReadAttemptFailed
  | configReadRetry
  | configReadEnd (image : List Byte)
  | restart
  | lineFree
  | lineFault
  | loadWindowEnd
  | framingError
  | truncation
  | malformedFrame
  | checkFailure
  | breakRead
  | textSection (f : Frame)
  | circularFirstSection (f : Frame)
  | circularContinuation (f : Frame)
  | who (f : Frame)
  | enquire (f : Frame)
  | ident (f : Frame)
  | status (f : Frame)
  | release (f : Frame)
  | recordTimerExpiry (r : RecordRef)
  | answerStart
  | answerEchoMismatch
  | startCellDriven
  | loss
  | arbitrationWon
  | collision
  | individualFrameSent
  | circularFrameCompleted
  | accept
  | duplicate
  | wait
  | engaged
  | refuse
  | answerGarbled
  | answerWindowEnd
  | breakSignalEnd
  | delayTimerExpiry (r : DelayRef)
  | replyWatchExpiry (slot : Nat)
  | keyClosure (k : Key)
  | keyRelease (k : Key)
  | textKey
  | hereIs
  | erase
  | endKey
  | dest
  | destinationDigit
  | whoKey
  | enq
  | mode
  | time
  | timeDigit
  | breakKey
  | openingRepeated
  | blockRequestRepeated
  | localCodeResumed
  | idleReleaseExpiry
  | autoEndExpiry
  | attend
  | print
  | punch
  | level
  | paperFeed
  | tapeFeed
  | tapeFeedRelease
  | punchResume
  | journal (shift : Bool)
  | printOperationComplete
  | motorStartComplete
  | motorStopComplete
  | motorIdleExpiry
  | echoIdleExpiry
  | paperOut
  | paperPresent
  | punchOperationComplete (sense : Code) (feedHole : Bool)
  | tapeOut
  | tapePresent
  | tapeLow
  | tapeLowCleared
  | dayClockDividerExpiry
  | lampFlash
  | frameStartCell
  | frameNotHandedOn (f : Frame)
  | answerComplete
  | restartContactOpened
  deriving DecidableEq, Repr

end Sys2Proof
end

