-- ==== Sys2Proof/Machine/State.lean ====
section
/-! DEFINITION. Every piece of state the manual gives the Vizwen 4170, block by block, and the state at
power-on. Plain data throughout. -/
namespace Sys2Proof.Machine

/-- No command of this block stops the machine: the manual gives every event its effect, and there is no
fault that ends operation. The type is empty (safe: nothing can raise it). -/
inductive Fault
  deriving DecidableEq, Repr

/-- Why a command has no meaning. -/
inductive Refusal where
  /-- A command whose meaning is not written yet; raised only by an arm of exec (safe). No arm raises it. -/
  | notModelled (mnemonic : String)
  deriving DecidableEq, Repr

/-! ### Line unit -/

/-- Receiver states (R17). -/
inductive RxState where
  | hunt | ready | frame | answer
  deriving DecidableEq, Repr

/-- Transmitter states (R21). -/
inductive TxState where
  | idle | contend | send | awaitAnswer | breaking
  deriving DecidableEq, Repr

/-- Answer codes 1 to 5 (R28). -/
inductive AnswerCode where
  | accept | duplicate | wait | engaged | refuse
  deriving DecidableEq, Repr

/-- What the receiver has read of the frame or answer under way (R14, R15, R17). -/
structure Assembly where
  /-- Data cells of the unit being read, most significant first; none between units. -/
  bits : Option (List Bool)
  /-- A dominant stop cell has been read and is not yet judged (R14). -/
  stopLow : Bool
  /-- Recessive cells since the last stop cell (R15). -/
  gap : Nat
  /-- Units received. -/
  units : List Byte
  deriving DecidableEq, Repr

/-- Nothing assembled: the state on entering HUNT (R17). -/
def Assembly.empty : Assembly := { bits := none, stopLow := false, gap := 0, units := [] }

structure LineUnit where
  rx : RxState
  tx : TxState
  quietRun : Nat
  domRun : Nat
  lineFault : Bool
  clash : Bool
  discarded : Nat
  busy : Nat
  windowCells : Nat
  loadE : Nat
  latch : Bool
  /-- The frame the transmitter carries (R21). -/
  outFrame : Option Frame
  txCells : List Level
  txSent : Nat
  breakCells : Nat
  /-- An attempt was cut at the boundary of its start cell, which the cell that begins still carries (R51). -/
  startOwed : Bool
  asm : Assembly
  winCells : Nat
  /-- The answer decided for the frame last handed over, with the sequence it answers (R29). -/
  answerDue : Option (AnswerCode × Nat)
  answering : Bool
  ansCells : List Level
  deriving DecidableEq, Repr

/-! ### Reception controller -/

/-- A record of the reassembly table (R72). Its kind is where it stands: the hold, or the circular list. -/
structure Record where
  origin : Nat
  number : Nat
  cls : Nat
  next : Nat
  entry : Nat
  /-- Time left of the 120 s. -/
  timer : Nat
  deriving DecidableEq, Repr

structure Reception where
  hold : Option Record
  circ : List Record
  /-- Origin, message number and final sequence (R75). -/
  completion : Option (Nat × Nat × Nat)
  /-- Origin, kind and sequence (R87). -/
  recent : Option (Nat × FrameKind × Nat)
  deriving DecidableEq, Repr

/-! ### Transmission controller -/

/-- Phases of a section or control frame (R100, R109). -/
inductive Phase where
  | pending | ready | onLine | delayed
  deriving DecidableEq, Repr

/-- W, n and the counts of answers of one section or control frame (R45, R46, R97). -/
structure Counts where
  w : Nat
  n : Nat
  tries : Nat
  waits : Nat
  engageds : Nat
  deriving DecidableEq, Repr

def Counts.zero : Counts := { w := 0, n := 0, tries := 0, waits := 0, engageds := 0 }

/-- A record of the send list (R97). The current section is `done` when a block beyond those done is
released; standing is a function of the list (R98). -/
structure SendRec where
  entry : Nat
  dest : Nat
  cls : Nat
  number : Nat
  phase : Phase
  done : Nat
  counts : Counts
  /-- Time left of a WAIT or ENGAGED delay; 0 when none runs. -/
  delay : Nat
  lastTried : Option Nat
  deriving DecidableEq, Repr

/-- A record of the control queue (R108). -/
structure ControlRec where
  kind : FrameKind
  dest : Nat
  seq : Nat
  number : Nat
  text : List Code
  phase : Phase
  counts : Counts
  delay : Nat
  /-- Place in the reply watch of a WHO or ENQUIRE (R108, R111). -/
  watch : Option Nat
  deriving DecidableEq, Repr

/-- A record of the reply watch (R111), oldest first in the list. `timer` is absent while RESERVED. -/
structure WatchRec where
  slot : Nat
  peer : Nat
  kind : FrameKind
  timer : Option Nat
  deriving DecidableEq, Repr

structure Transmission where
  sendList : List SendRec
  control : List ControlRec
  watch : List WatchRec
  msgCounter : Nat
  seqCounter : Nat
  deriving DecidableEq, Repr

/-! ### Message store -/

inductive BlockState where
  | free | live | spent
  deriving DecidableEq, Repr

/-- A block of the ring (R53); its length is the length of `codes`. -/
structure Block where
  state : BlockState
  owner : Nat
  secNo : Nat
  gap : Nat
  codes : List Code
  released : Bool
  deriving DecidableEq, Repr

/-- A FREE block: what a number the ring does not list reads as (R70). -/
def Block.blank : Block :=
  { state := .free, owner := 0, secNo := 0, gap := 0, codes := [], released := false }

inductive EntryState where
  | receiving | composing | closed
  deriving DecidableEq, Repr

/-- Incomplete reasons (R56). -/
inductive Reason where
  | holdTimeout | cancelled | superseded | outOfOrder | restart | gap
  deriving DecidableEq, Repr

/-- A directory entry in use (R56). -/
structure Entry where
  slot : Nat
  outgoing : Bool
  peer : Nat
  number : Nat
  cls : Nat
  state : EntryState
  chain : List Nat
  sections : Nat
  reason : Option Reason
  oblPrint : Bool
  oblPunch : Bool
  oblSend : Bool
  deriving DecidableEq, Repr

structure Store where
  ring : List (Nat × Block)
  head : Nat
  tail : Nat
  free : Nat
  dir : List Entry
  printQ : List Nat
  punchQ : List Nat
  deriving DecidableEq, Repr

/-! ### Keyboard unit -/

/-- The composer's case (1.7). -/
inductive CompCase where
  | letters | figures | unknown
  deriving DecidableEq, Repr

/-- A key with the SHIFT level taken at its closure (R121). -/
structure Keystroke where
  key : Key
  shift : Bool
  deriving DecidableEq, Repr

/-- Keys and releases handed on outside the keystroke queue (R120, R122; the model's own field, log 9). -/
inductive Handed where
  | key (k : Keystroke)
  | tapeFeedRelease
  deriving DecidableEq, Repr

/-- What a keystroke still has to emit: a letters or figures character (with a shift before it when the
case at that moment asks for one, R10), the leading shift of HERE IS (R12), a code as it stands, and the
release RETURN makes after its codes (R130). -/
inductive Emit where
  | letter (c : Code)
  | figure (c : Code)
  | leadShift
  | raw (c : Code)
  | returnRelease
  deriving DecidableEq, Repr

/-- What the composer waits for (R128, R129, R132, R133, R138). -/
inductive Hold where
  | none
  | opening
  | block (rest : List Emit)
  | endBlock
  | autoEnd
  | localCode (c : Code) (rest : List Emit)
  deriving DecidableEq, Repr

/-- The composer's states (7.3). DEST-ENTRY returns to LINE-READY when a destination is held and to
LINE-IDLE otherwise; TIME-ENTRY also keeps whether it was entered from LOCAL. -/
inductive CompState where
  | lineIdle
  | lineReady
  | composing
  /-- Class being entered; whether DEST or a digit was taken in this entry; the first digit. -/
  | destEntry (cls : Nat) (touched : Bool) (digit : Option Nat)
  | localMode
  | timeEntry (fromLocal : Bool) (digits : List Nat)
  deriving DecidableEq, Repr

structure Keyboard where
  down : List Key
  held : List Key
  handed : List Handed
  queue : List Keystroke
  hold : Hold
  comp : CompState
  /-- Destination and class, set together (7.3). -/
  dest : Option (Nat × Nat)
  case : CompCase
  current : Option Nat
  idleTimer : Option Nat
  autoEnd : Option Nat
  deriving DecidableEq, Repr

/-! ### Print unit -/

/-- The case of a print stream (1.5). -/
inductive PrintCase where
  | letters | figures
  deriving DecidableEq, Repr

inductive Motor where
  | off | starting | running
  deriving DecidableEq, Repr

/-- Mechanism operations (R144). -/
inductive MechOp where
  | glyph (n : Nat) | space | cr | feed | page
  deriving DecidableEq, Repr

inductive Stream where
  | notices | echo | copy | report
  deriving DecidableEq, Repr

/-- Whom an operation serves: a stream (with the margin bell when it strikes an item of the echo FIFO,
R150), the closing of another stream's line (R153), PAPER FEED (R166), the carriage return of R168, or an
echo operation in flight when RESTART took the printer from the echo (R167), which keeps its margin bell. -/
inductive OpFor where
  | stream (st : Stream) (item : Bool)
  | closing
  | paperFeed
  | initial
  | orphan (item : Bool)
  deriving DecidableEq, Repr

/-- What stands in flight at the mechanism (R144, R145). -/
inductive Flight where
  | none
  | op (o : MechOp) (why : OpFor)
  | motorStart
  | motorStop
  deriving DecidableEq, Repr

/-- An element of the echo line image (R155). -/
inductive Strike where
  | glyph (n : Nat) | space
  deriving DecidableEq, Repr

/-- An element of a generated line (R5); the bell stands only in the answerback of an IDENT notice (R8). -/
inductive Elem where
  | strike (x : Strike)
  | bell
  | cr
  | feed
  deriving DecidableEq, Repr

/-- Items of the echo FIFO (R139). -/
inductive EchoItem where
  | code (c : Code)
  | destMarker (dest cls : Nat)
  | eraseMarker (case : PrintCase)
  | autoEnd
  deriving DecidableEq, Repr

/-- The echo's context saved at an interjection (R157). -/
structure SavedLine where
  image : List Strike
  column : Nat
  case : PrintCase
  deriving DecidableEq, Repr

/-- Reasons printed in an abandonment notice (R107). -/
inductive NoticeReason where
  | storeFull | engaged | refused | noAnswer | break | breakNoRelease
  deriving DecidableEq, Repr

/-- Notices: a kind with its parameters (R162). -/
inductive Notice where
  | sent (number dest : Nat)
  | notSent (number dest cls : Nat) (sec : Option Nat) (reason : NoticeReason)
  | controlNotSent (kind : FrameKind) (dest : Nat) (reason : NoticeReason)
  | noReply (dest : Nat)
  | ident (origin : Nat) (codes : List Code)
  | status (origin : Nat) (figures : List Code)
  | lineFault
  | clash (own : Nat)
  | configFault
  | ready (own : Nat)
  | restart
  | tapeOut
  | punchFault
  | attended (on : Bool)
  | printSel (on : Bool)
  | punchSel (on : Bool)
  | level (v : Nat)
  deriving DecidableEq, Repr

/-- Phases of a store copy (R159 to R161). `finish` follows the last operation the copy needs. -/
inductive CopyPhase where
  | bell | page | banner | text | finish
  deriving DecidableEq, Repr

/-- The store copy in progress (R6, R159): the entry, the place in its chain and in the block, whether the
block's gap line has been given, the case, and the rest of a generated line begun. -/
structure CopyPos where
  entry : Nat
  phase : CopyPhase
  block : Nat
  code : Nat
  gapDone : Bool
  case : PrintCase
  script : List Elem
  deriving DecidableEq, Repr

structure PrintUnit where
  motor : Motor
  flight : Flight
  motorIdle : Nat
  column : Nat
  pageLine : Nat
  openLine : Bool
  owner : Option Stream
  paperPresent : Bool
  stalled : Bool
  owedFeeds : Nat
  /-- A PAPER FEED has been taken in the stall, which the completion of its feed ends (R166). -/
  stallFeed : Bool
  /-- The feed in flight was issued for an earlier PAPER FEED, so its completion does not end the stall. -/
  feedBefore : Bool
  firstCR : Bool
  holder : Option Stream
  grantDue : Bool
  /-- Carriage return and feed of a wrap or a line closing still to issue (R147, R148). -/
  pre : List MechOp
  /-- Whom they serve. -/
  preFor : OpFor
  echoFifo : List EchoItem
  echoLost : Bool
  echoCase : PrintCase
  echoImage : List Strike
  saved : Option SavedLine
  reprint : List Strike
  echoIdle : Option Nat
  echoScript : List Elem
  notices : List Notice
  lost : Nat
  lostDue : Bool
  noticeLine : Bool
  noticeScript : List Elem
  copy : Option CopyPos
  reportScript : List Elem
  deriving DecidableEq, Repr

/-! ### Punch unit -/

/-- The source a punch operation serves (9.1). -/
inductive PunchSource where
  | copy | mark | code | leader | closer | feed
  deriving DecidableEq, Repr

/-- Phases of a copy on tape (R171). `block b` stands before the b-th block of the chain, which is the
stored end when there is none. -/
inductive PunchPhase where
  | lead (left : Nat)
  | block (b : Nat)
  | gap (b left : Nat)
  | text (b i : Nat)
  | incomplete (left : Nat)
  | trail (left : Nat)
  deriving DecidableEq, Repr

structure PunchCopy where
  entry : Nat
  phase : PunchPhase
  deriving DecidableEq, Repr

/-- The LOCAL reservation (R177). -/
inductive Reservation where
  | none
  | waiting (sessionOpen : Bool)
  | active
  | closing (reopen : Bool)
  deriving DecidableEq, Repr

structure Punch where
  flight : Option (Code × PunchSource)
  stallTapeOut : Bool
  stallFault : Bool
  /-- TAPE OUT has begun with an operation in flight; the stall takes hold at its completion (R174). -/
  outPending : Bool
  tapeOut : Bool
  tapeLow : Bool
  copy : Option PunchCopy
  markLeft : Nat
  reservation : Reservation
  leadLeft : Nat
  /-- Codes left of the closing leader once it has begun (R177). -/
  closeLeft : Option Nat
  fifo : List Code
  redo : Option Code
  tapeFeed : Bool
  /-- PUNCH was turned off and R180 waits for the operation in flight. -/
  offDue : Bool
  deriving DecidableEq, Repr

/-! ### Journal unit -/

/-- The fourteen kinds of R184 (fifteen rows, SEND ABANDONED standing twice). -/
inductive JournalKind where
  | start | configFault | restart | received | receivedIncomplete | circularDeclined | circularMissed
  | whoAnswered | sent | sendAbandoned | clash | lineFault | punchFault | tapeOut
  deriving DecidableEq, Repr

/-- Reason words of R184. -/
inductive JournalReason where
  | incomplete (r : Reason)
  | storeFull | engaged | refused | noAnswer | break | restart
  deriving DecidableEq, Repr

/-- The fields a block reports (R184). -/
structure JournalFields where
  peer : Option Nat := none
  frame : Option FrameKind := none
  number : Option Nat := none
  cls : Option Nat := none
  sections : Option Nat := none
  reason : Option JournalReason := none
  deriving DecidableEq, Repr

/-- A journal entry (R183). -/
structure JournalEntry where
  entryNo : Nat
  time : Option Nat
  kind : JournalKind
  fields : JournalFields
  deriving DecidableEq, Repr

/-- The next line of a report (R187). -/
inductive ReportStage where
  | header | entries | footer | ended
  deriving DecidableEq, Repr

/-- The report in progress (R186): the numbers of the snapshot still in the ring, those of them not yet
printed, whether the snapshot was empty, the skip count, the clear request and the stage. -/
structure Report where
  snapshot : List Nat
  toPrint : List Nat
  wasEmpty : Bool
  skip : Nat
  clear : Bool
  stage : ReportStage
  deriving DecidableEq, Repr

structure Journal where
  ring : List JournalEntry
  nextNumber : Nat
  overwritten : Nat
  report : Option Report
  minute : Nat
  clockSet : Bool
  /-- Time left of the one-minute divider; absent while it is stopped. -/
  divider : Option Nat
  deriving DecidableEq, Repr

/-! ### Panel and configuration -/

/-- The settings of R193. -/
structure Settings where
  station : Option Nat
  unshiftOnSpace : Bool
  pagePerMessage : Bool
  returnReleases : Bool
  banner : Bool
  fastCells : Bool
  acceptLevel : Nat
  attended : Bool
  width : Nat
  pageLength : Nat
  leader : Nat
  tryLimit : Nat
  answerback : List Code
  attendedIdleMin : Nat
  unattendedIdle10s : Nat
  idleReleaseS : Nat
  printOn : Bool
  punchOn : Bool
  deriving DecidableEq, Repr

/-- The last column of R193's table: the values that stand in for the image in CONFIG FAULT. -/
def Settings.configFault : Settings :=
  { station := none, unshiftOnSpace := false, pagePerMessage := false, returnReleases := false
    banner := true, fastCells := false, acceptLevel := 2, attended := true, width := 72
    pageLength := 0, leader := 10, tryLimit := 4, answerback := List.replicate 20 0
    attendedIdleMin := 10, unattendedIdle10s := 6, idleReleaseS := 3, printOn := true, punchOn := false }

/-- The configuration read (R191): an attempt under way, the 10 ms wait after a failed one with the time
left, the memory taken as not responding, and the read ended. -/
inductive ReadPhase where
  | attempt (n : Nat)
  | retryWait (failed left : Nat)
  | notResponding
  | done
  deriving DecidableEq, Repr

structure Panel where
  phase : ReadPhase
  settings : Settings
  configFault : Bool
  attended : Bool
  printSel : Bool
  punchSel : Bool
  acceptLevel : Nat
  flashOn : Bool
  flashLeft : Nat
  /-- The RESTART contact has been taken and has not read open for 8 ms since (R199). -/
  restartTaken : Bool
  deriving DecidableEq, Repr

/-! ### The machine -/

structure State where
  line : LineUnit
  recv : Reception
  send : Transmission
  store : Store
  kb : Keyboard
  print : PrintUnit
  punch : Punch
  journal : Journal
  panel : Panel
  /-- Bell pulses asked for (R150; the model's own count, log 23). -/
  bell : Nat
  /-- Cells passed, which pick the free level of the other stations (log 2). -/
  cell : Nat
  /-- Commands waiting, first in first out. -/
  pending : List Instr
  deriving DecidableEq, Repr

/-! ### After power-on: the initial state of each block -/

/-- R38, R41, R44. -/
def LineUnit.initial : LineUnit :=
  { rx := .hunt, tx := .idle, quietRun := 0, domRun := 0, lineFault := false, clash := false
    discarded := 0, busy := 0, windowCells := 0, loadE := 0, latch := false, outFrame := none
    txCells := [], txSent := 0, breakCells := 0, startOwed := false, asm := Assembly.empty, winCells := 0
    answerDue := none, answering := false, ansCells := [] }

/-- R72, R96. -/
def Reception.initial : Reception := { hold := none, circ := [], completion := none, recent := none }

/-- R116, R118. -/
def Transmission.initial : Transmission :=
  { sendList := [], control := [], watch := [], msgCounter := 1, seqCounter := 0 }

/-- R70. -/
def Store.initial : Store :=
  { ring := [], head := 0, tail := 0, free := Config.blocks, dir := [], printQ := [], punchQ := [] }

/-- R143. -/
def Keyboard.initial : Keyboard :=
  { down := [], held := [], handed := [], queue := [], hold := .none, comp := .lineIdle, dest := none
    case := .unknown, current := none, idleTimer := none, autoEnd := none }

/-- R168, for the reading of the paper-present input. -/
def PrintUnit.initial (paperPresent : Bool) : PrintUnit :=
  { motor := .off, flight := .none, motorIdle := 0, column := 1, pageLine := 1, openLine := false
    owner := none, paperPresent := paperPresent, stalled := !paperPresent, owedFeeds := 0
    stallFeed := false, feedBefore := false, firstCR := true, holder := none, grantDue := false
    pre := [], preFor := .closing
    echoFifo := [], echoLost := false, echoCase := .letters, echoImage := [], saved := none
    reprint := [], echoIdle := none, echoScript := [], notices := [], lost := 0, lostDue := false
    noticeLine := false, noticeScript := [], copy := none, reportScript := [] }

/-- R182, for the readings of the two tape switches, which are acted on when the read has ended. -/
def Punch.initial (tapeOut tapeLow : Bool) : Punch :=
  { flight := none, stallTapeOut := false, stallFault := false, outPending := false, tapeOut := tapeOut
    tapeLow := tapeLow, copy := none, markLeft := 0, reservation := .none, leadLeft := 0
    closeLeft := none, fifo := [], redo := none, tapeFeed := false, offDue := false }

/-- R190. -/
def Journal.initial : Journal :=
  { ring := [], nextNumber := 1, overwritten := 0, report := none, minute := 0, clockSet := false
    divider := none }

/-- R191: the first attempt of the read is under way. Settings and selections hold the stand-in values
until the read ends (log 4). -/
def Panel.initial : Panel :=
  { phase := .attempt 1, settings := Settings.configFault, configFault := false, attended := true
    printSel := true, punchSel := false, acceptLevel := 2, flashOn := false
    flashLeft := Config.flashTime, restartTaken := false }

/-- The machine right after power is applied (R198), with the sensor inputs reading `paperPresent`,
`tapeOut` and `tapeLow` and the given commands waiting. -/
def State.poweredOn (paperPresent tapeOut tapeLow : Bool) (cell : Nat) (pending : List Instr) : State :=
  { line := LineUnit.initial, recv := Reception.initial, send := Transmission.initial
    store := Store.initial, kb := Keyboard.initial, print := PrintUnit.initial paperPresent
    punch := Punch.initial tapeOut tapeLow, journal := Journal.initial, panel := Panel.initial
    bell := 0, cell := cell, pending := pending }

/-- The machine at reset: power-on with paper and tape present (log 5) and no command waiting. -/
def State.reset : State := State.poweredOn true false false 0 []

end Sys2Proof.Machine
end

