-- ==== Sys2Proof/Machine/Journal.lean ====
section
/-! DEFINITION. The journal unit: entries and their ring, the report's bookkeeping, clearing, and the day
clock (chapter 10). -/
namespace Sys2Proof.Machine

/-- Entry numbers run 1 to 9999 (R185). -/
def nextEntryNumber (n : Nat) : Nat := if n ≥ 9999 then 1 else n + 1

/-- The time an entry, a banner or a report header reads: absent while the clock is unset (R189). -/
def Journal.time (j : Journal) : Option Nat := if j.clockSet then some j.minute else none

/-- A report in progress meets the overwriting of entry `n`: it raises the skip count when the entry lies
in the snapshot and is not yet printed (R185, R187). -/
def Report.overwrite (r : Report) (n : Nat) : Report :=
  { r with
    snapshot := r.snapshot.filter fun m => m != n
    toPrint := r.toPrint.filter fun m => m != n
    skip := if r.toPrint.contains n then r.skip + 1 else r.skip }

/-- The oldest entry leaves a full ring and is counted (R185). -/
def Journal.makeRoom (j : Journal) : Journal :=
  if j.ring.length ≥ Config.journalPlaces then
    match j.ring with
    | [] => j
    | oldest :: rest =>
      { j with ring := rest
               overwritten := min Config.maxOverwritten (j.overwritten + 1)
               report := j.report.map fun r => r.overwrite oldest.entryNo }
  else j

/-- Make one journal entry: it takes the next number and the current time and joins the newest end
(R184, R185). -/
def Journal.add (j : Journal) (kind : JournalKind) (fields : JournalFields) : Journal :=
  let j' := j.makeRoom
  { j' with ring := j'.ring ++ [{ entryNo := j.nextNumber, time := j.time, kind := kind, fields := fields }]
            nextNumber := nextEntryNumber j.nextNumber }

/-- JOURNAL begins a report with a snapshot of the ring and its clear request (R186). -/
def Journal.beginReport (j : Journal) (clear : Bool) : Journal :=
  let numbers := j.ring.map fun e => e.entryNo
  { j with report := some { snapshot := numbers, toPrint := numbers, wasEmpty := numbers.isEmpty
                            skip := 0, clear := clear, stage := .header } }

/-- The report has ended: when its clear was requested, the snapshot's entries still in the ring leave it
and the overwritten count becomes 0 (R187, R188). -/
def Journal.endReport (j : Journal) : Journal :=
  match j.report with
  | none => j
  | some r =>
    if r.clear then
      { j with ring := j.ring.filter fun e => !r.snapshot.contains e.entryNo
               overwritten := 0, report := none }
    else { j with report := none }

/-- Setting the clock: the minute, the flag, and a fresh divider (R189). -/
def Journal.setClock (j : Journal) (minute : Nat) : Journal :=
  { j with minute := minute, clockSet := true, divider := some Config.minuteTime }

/-- The divider expires: the minute rises by one, from 1439 to 0, and the divider starts again. While the
clock is unset the divider does not run, and a setting taken before the waiting expiry has restarted it at its
full minute, so that the expiry does not happen (R189; log 26). -/
def Journal.divide (j : Journal) : Journal :=
  match j.divider with
  | none => j
  | some n =>
    if n ≥ Config.minuteTime then j
    else { j with minute := if j.minute ≥ 1439 then 0 else j.minute + 1, divider := some Config.minuteTime }

end Sys2Proof.Machine
end

