-- ==== Sys2Proof/Machine/Operands.lean ====
section
/-! DEFINITION. The forms data takes on the line and in the image: units and cells, the frame layout, the
double-sum check, answers, and the configuration image. -/
namespace Sys2Proof.Machine

/-! ### Kinds and answer codes as numbers -/

/-- The kind field (R23). -/
def kindNumber : FrameKind → Nat
  | .text => 0
  | .who => 1
  | .ident => 2
  | .enquire => 3
  | .status => 4
  | .release => 5

/-- Kinds 6 and 7 are malformed (R23). -/
def kindOfNumber : Nat → Option FrameKind
  | 0 => some .text
  | 1 => some .who
  | 2 => some .ident
  | 3 => some .enquire
  | 4 => some .status
  | 5 => some .release
  | _ => none

/-- The fixed text length of a control kind; absent for TEXT (R23). -/
def fixedLength : FrameKind → Option Nat
  | .text => none
  | .who => some 0
  | .ident => some 20
  | .enquire => some 0
  | .status => some 6
  | .release => some 0

/-- Answer codes (R28). -/
def answerNumber : AnswerCode → Nat
  | .accept => 1
  | .duplicate => 2
  | .wait => 3
  | .engaged => 4
  | .refuse => 5

/-- Codes 0, 6 and 7 are invalid (R28). -/
def answerOfNumber : Nat → Option AnswerCode
  | 1 => some .accept
  | 2 => some .duplicate
  | 3 => some .wait
  | 4 => some .engaged
  | 5 => some .refuse
  | _ => none

/-! ### Units and cells -/

def byteOf (n : Nat) : Byte := BitVec.ofNat 8 n

/-- A data value 0 is a dominant cell, a 1 a recessive one (R13). -/
def levelOfBit (b : Bool) : Level := if b then .recessive else .dominant

/-- The ten cells of a unit: start, eight data cells most significant first, stop (R14). -/
def unitCells (u : Byte) : List Level :=
  .dominant :: ([7, 6, 5, 4, 3, 2, 1, 0].map fun i => levelOfBit (u.getLsbD i)) ++ [.recessive]

/-- The value of data cells read most significant first. -/
def byteOfBits (bits : List Bool) : Byte :=
  byteOf (bits.foldl (fun n b => 2 * n + (if b then 1 else 0)) 0)

/-! ### The double-sum check (R25, R192) -/

/-- One step of the sums: A takes the value, then B takes the new A, each mod 251. -/
def sumStep (ab : Nat × Nat) (v : Nat) : Nat × Nat :=
  ((ab.1 + v) % 251, (ab.2 + (ab.1 + v) % 251) % 251)

/-- The final sums A and B over the units in the order sent; A starts at 1 and B at 0. -/
def doubleSum (units : List Byte) : Nat × Nat :=
  units.foldl (fun ab u => sumStep ab u.toNat) (1, 0)

/-! ### The frame (R22) -/

def flagBit (b : Bool) : Nat := if b then 1 else 0

/-- The five header units. -/
def headerUnits (f : Frame) : List Byte :=
  [ byteOf (f.rank * 16 + f.origin / 4)
  , byteOf (f.origin % 4 * 64 + kindNumber f.kind * 8 + f.seq)
  , byteOf (f.dest * 4 + f.cls)
  , byteOf f.number
  , byteOf (flagBit f.first * 128 + flagBit f.final * 64 + f.text.length) ]

def textUnits (text : List Code) : List Byte := text.map fun c => byteOf c.val

/-- Header, text and the two check units, in the order sent. -/
def frameUnits (f : Frame) : List Byte :=
  let body := headerUnits f ++ textUnits f.text
  body ++ [byteOf (doubleSum body).1, byteOf (doubleSum body).2]

/-- The cells of a frame, its units back to back (R14). -/
def frameCells (f : Frame) : List Level := (frameUnits f).flatMap unitCells

/-- Fields read from the header units; units not yet received read as 0. -/
def unitAt (us : List Byte) (i : Nat) : Nat := (us.getD i 0).toNat

def originField (us : List Byte) : Nat := unitAt us 0 % 16 * 4 + unitAt us 1 / 64
def kindField (us : List Byte) : Nat := unitAt us 1 / 8 % 8
def seqField (us : List Byte) : Nat := unitAt us 1 % 8
def destField (us : List Byte) : Nat := unitAt us 2 / 4
def classField (us : List Byte) : Nat := unitAt us 2 % 4
def numberField (us : List Byte) : Nat := unitAt us 3
def lengthField (us : List Byte) : Nat := unitAt us 4 % 64
def firstField (us : List Byte) : Bool := unitAt us 4 / 128 == 1
def finalField (us : List Byte) : Bool := unitAt us 4 / 64 % 2 == 1

/-- R24, judged at U2: origin 0 or 63, kind 6 or 7. -/
def badAtU2 (us : List Byte) : Bool :=
  originField us == 0 || originField us == 63 || (kindOfNumber (kindField us)).isNone

/-- R24, judged at U3: destination 63, class 3, destination 0 with a kind other than TEXT or RELEASE, a
control kind with a class other than 0. -/
def badAtU3 (us : List Byte) : Bool :=
  destField us == 63 || classField us == 3 ||
  (destField us == 0 && kindField us != 0 && kindField us != 5) ||
  (kindField us != 0 && classField us != 0)

/-- R24, judged at U4: TEXT with message number 0. -/
def badAtU4 (us : List Byte) : Bool := kindField us == 0 && numberField us == 0

/-- R24, judged at U5: length above 32, a control kind with another length or without both flags, TEXT of
length 0 without the final flag. -/
def badAtU5 (us : List Byte) : Bool :=
  decide (lengthField us > 32) ||
  (match kindOfNumber (kindField us) with
   | none => true
   | some k =>
     match fixedLength k with
     | some n => lengthField us != n || !(firstField us && finalField us)
     | none => lengthField us == 0 && !finalField us)

/-- The condition of R24 that the unit received last carries, if any. -/
def malformedNow (us : List Byte) : Bool :=
  match us.length with
  | 0 => false
  | 1 => false
  | 2 => badAtU2 us
  | 3 => badAtU3 us
  | 4 => badAtU4 us
  | 5 => badAtU5 us
  | n => decide (n ≤ 5 + lengthField us) && decide (unitAt us (n - 1) ≥ 32)

/-- The number of units of the frame, known once U5 has been received (R15). -/
def frameComplete (us : List Byte) : Bool :=
  decide (us.length ≥ 5) && us.length == 7 + lengthField us

/-- The check units agree with the sums over header and text (R25). -/
def checkPassed (us : List Byte) : Bool :=
  let n := us.length
  let body := us.take (n - 2)
  unitAt us (n - 2) == (doubleSum body).1 && unitAt us (n - 1) == (doubleSum body).2

/-- The code of a text unit with bits 7 to 5 zero. -/
def codeOfUnit (u : Byte) : Code := Fin.ofNat 32 u.toNat

/-- The fields of a complete frame's units. -/
def frameOfUnits (us : List Byte) : Option Frame :=
  match kindOfNumber (kindField us) with
  | none => none
  | some k =>
    some { rank := unitAt us 0 / 16, origin := originField us, kind := k, seq := seqField us
           dest := destField us, cls := classField us, number := numberField us
           first := firstField us, final := finalField us
           text := ((us.drop 5).take (lengthField us)).map codeOfUnit }

/-- No prefix of the units carries a condition of R24. -/
def wellFormedUnits (us : List Byte) : Bool :=
  (List.range (us.length + 1)).all fun n => !malformedNow (us.take n)

/-- Reading a whole frame: well-formed, complete and check-passed, or nothing. -/
def readFrame (us : List Byte) : Option Frame :=
  if wellFormedUnits us && frameComplete us && checkPassed us then frameOfUnits us else none

/-- A frame's fields within their ranges and with none of R24's conditions. -/
def frameWellFormed (f : Frame) : Bool :=
  decide (f.rank ≤ 15) && decide (1 ≤ f.origin) && decide (f.origin ≤ 62) && decide (f.seq ≤ 7) &&
  decide (f.dest ≤ 62) && decide (f.cls ≤ 2) && decide (f.number ≤ 255) &&
  decide (f.text.length ≤ 32) &&
  (match fixedLength f.kind with
   | some n => f.text.length == n && f.first && f.final && f.cls == 0 &&
               (f.dest != 0 || f.kind == .release)
   | none => f.number != 0 && (f.text.length != 0 || f.final))

/-- Circular: destination 0. -/
def isCircular (f : Frame) : Bool := f.dest == 0

/-! ### Answers (R28, R30) -/

def answerAU1 (c : AnswerCode) (seq : Nat) : Byte := byteOf (answerNumber c * 32 + seq * 4)

/-- AU2 is the complement of AU1: 255 less its value. -/
def answerAU2 (c : AnswerCode) (seq : Nat) : Byte := byteOf (255 - (answerNumber c * 32 + seq * 4))

/-- The twenty cells of an answer. -/
def answerCells (c : AnswerCode) (seq : Nat) : List Level :=
  unitCells (answerAU1 c seq) ++ unitCells (answerAU2 c seq)

/-- The code of two answer units for a frame of sequence `seq`, or nothing when the answer is garbled by
one of R30's tests of its units. -/
def judgeAnswer (au1 au2 : Byte) (seq : Nat) : Option AnswerCode :=
  if au2.toNat = 255 - au1.toNat ∧ au1.toNat / 4 % 8 = seq ∧ au1.toNat % 4 = 0 then
    answerOfNumber (au1.toNat / 32)
  else none

/-! ### The configuration image (R192, R193) -/

/-- A complete image is valid when its check bytes match and byte 0 holds a station number. -/
def imageValid (image : List Byte) : Bool :=
  image.length == 32 &&
  (let ab := doubleSum (image.take 30)
   unitAt image 30 == ab.1 && unitAt image 31 == ab.2 &&
   decide (1 ≤ unitAt image 0) && decide (unitAt image 0 ≤ 62))

def imageBit (image : List Byte) (byte bit : Nat) : Bool := (image.getD byte 0).getLsbD bit

def clamp (lo hi v : Nat) : Nat := max lo (min hi v)

/-- Page length: 0 stays 0, 1 to 19 is taken as 20, above 99 as 99. -/
def clampPage (v : Nat) : Nat := if v = 0 then 0 else clamp 20 99 v

/-- An answerback byte above 31 is taken as a blank. -/
def answerbackCode (u : Byte) : Code := if u.toNat ≤ 31 then Fin.ofNat 32 u.toNat else 0

/-- The settings a valid image gives, each brought into its range (R193). -/
def settingsOf (image : List Byte) : Settings :=
  { station := some (unitAt image 0)
    unshiftOnSpace := imageBit image 1 0
    pagePerMessage := imageBit image 1 1
    returnReleases := imageBit image 1 2
    banner := imageBit image 1 5
    fastCells := imageBit image 1 4
    acceptLevel := min 2 (unitAt image 1 / 64)
    attended := imageBit image 1 3
    width := clamp 64 80 (unitAt image 2)
    pageLength := clampPage (unitAt image 3)
    leader := min 60 (unitAt image 4)
    tryLimit := clamp 1 8 (unitAt image 5)
    answerback := ((image.drop 6).take 20).map answerbackCode
    attendedIdleMin := clamp 1 30 (unitAt image 26)
    unattendedIdle10s := clamp 1 30 (unitAt image 27)
    idleReleaseS := clamp 1 9 (unitAt image 28)
    printOn := imageBit image 29 0
    punchOn := imageBit image 29 1 }

/-! ### Keys (R125) -/

/-- The code of a code key. -/
def keyCode (k : Fin 26) : Code := ⟨k.val + 4, by omega⟩

/-- The digit of a keystroke: a code key of codes 4 to 13 with SHIFT down, by its figures meaning. -/
def digitOf (k : Keystroke) : Option Nat :=
  match k.key, k.shift with
  | .code i, true => if i.val ≤ 8 then some (i.val + 1) else if i.val = 9 then some 0 else none
  | _, _ => none

/-- Text keys: the code keys, SPACE, RETURN and LINE FEED (R124). -/
def isTextKey : Key → Bool
  | .code _ => true
  | .space => true
  | .ret => true
  | .lineFeed => true
  | _ => false

end Sys2Proof.Machine
end

