-- ==== Sys2Proof/Machine/Store.lean ====
section
/-! DEFINITION. The message store: the block ring, the directory and its obligations, the copy queues,
the reserves and the draining test (chapter 4). -/
namespace Sys2Proof.Machine

/-! ### The ring as a canonical list -/

/-- The block of a number; an unlisted number reads as a FREE block (R70). -/
def ringGet : List (Nat × Block) → Nat → Block
  | [], _ => Block.blank
  | (k, b) :: rest, n => if k = n then b else ringGet rest n

/-- Write one block, keeping the numbers strictly rising and listing no FREE block. -/
def ringPut : List (Nat × Block) → Nat → Block → List (Nat × Block)
  | [], n, b => if b = Block.blank then [] else [(n, b)]
  | (k, c) :: rest, n, b =>
    if n < k then (if b = Block.blank then (k, c) :: rest else (n, b) :: (k, c) :: rest)
    else if n = k then (if b = Block.blank then rest else (n, b) :: rest)
    else (k, c) :: ringPut rest n b

/-- The canonical form: numbers strictly rising and no FREE block listed. -/
def ringWf : List (Nat × Block) → Bool
  | [] => true
  | [(_, b)] => b != Block.blank
  | (k, b) :: (k', b') :: rest => decide (k < k') && b != Block.blank && ringWf ((k', b') :: rest)

def Store.block (st : Store) (n : Nat) : Block := ringGet st.ring n

def Store.setBlock (st : Store) (n : Nat) (b : Block) : Store := { st with ring := ringPut st.ring n b }

/-- The next number in ring order: block 0 follows block 255 (R53). -/
def ringNext (n : Nat) : Nat := (n + 1) % Config.blocks

/-! ### The directory -/

def findSlot (dir : List Entry) (slot : Nat) : Option Entry := dir.find? fun e => e.slot == slot

def Store.entry (st : Store) (slot : Nat) : Option Entry := findSlot st.dir slot

def Store.updateEntry (st : Store) (slot : Nat) (f : Entry → Entry) : Store :=
  { st with dir := st.dir.map fun e => if e.slot == slot then f e else e }

/-- The lowest slot of the 32 not in use (log 6). -/
def Store.freeSlot (st : Store) : Nat :=
  ((List.range Config.entries).find? fun n => !(st.dir.any fun e => e.slot == n)).getD 0

def Store.dirFull (st : Store) : Bool := decide (st.dir.length ≥ Config.entries)

def hasObligation (e : Entry) : Bool := e.oblPrint || e.oblPunch || e.oblSend

/-! ### Freeing and reclamation (R55, R57) -/

/-- The tail passes SPENT blocks, each of which becomes FREE, and stops at the first block that is not
SPENT (R55). -/
def Store.reclaim : Nat → Store → Store
  | 0, st => st
  | k + 1, st =>
    match (st.block st.tail).state with
    | .spent =>
      Store.reclaim k { st.setBlock st.tail Block.blank with tail := ringNext st.tail, free := st.free + 1 }
    | _ => st

/-- The blocks of a chain become SPENT. -/
def Store.spend (st : Store) : List Nat → Store
  | [] => st
  | b :: rest => (st.setBlock b { st.block b with state := .spent }).spend rest

/-- An entry that is CLOSED and has no obligations is freed at once: it leaves the directory and its
blocks become SPENT, with reclamation (R57, R55). -/
def Store.freeIfDone (st : Store) (slot : Nat) : Store :=
  match st.entry slot with
  | none => st
  | some e =>
    if e.state = .closed ∧ hasObligation e = false then
      ({ st with dir := st.dir.filter fun x => x.slot != slot }.spend e.chain).reclaim Config.blocks
    else st

/-- Close an entry, with the incomplete reason where the closing gives one: it replaces an earlier one
(R57, R74). -/
def Store.closeEntry (st : Store) (slot : Nat) (reason : Option Reason) : Store :=
  (st.updateEntry slot fun e =>
    { e with state := .closed, reason := match reason with | some r => some r | none => e.reason }).freeIfDone slot

/-- The obligations of R56. -/
inductive Obligation where
  | print | punch | send
  deriving DecidableEq, Repr

def clearObligation (o : Obligation) (e : Entry) : Entry :=
  match o with
  | .print => { e with oblPrint := false }
  | .punch => { e with oblPunch := false }
  | .send => { e with oblSend := false }

def Store.leaveQueue (st : Store) (o : Obligation) (slot : Nat) : Store :=
  match o with
  | .print => { st with printQ := st.printQ.filter fun x => x != slot }
  | .punch => { st with punchQ := st.punchQ.filter fun x => x != slot }
  | .send => st

/-- Remove an obligation; the entry leaves the matching queue and is freed when nothing is left of a
CLOSED entry (R59, R62). -/
def Store.removeObligation (st : Store) (o : Obligation) (slot : Nat) : Store :=
  ((st.updateEntry slot (clearObligation o)).leaveQueue o slot).freeIfDone slot

def freeAll (st : Store) : List Nat → Store
  | [] => st
  | slot :: rest => freeAll (st.freeIfDone slot) rest

/-- PUNCH turned off: the obligation leaves every entry in use and the punch queue becomes empty (R63). An entry
received with PUNCH alone is then left with no obligation and no copy of it is made, as R63 and its Caution say. R195
says of an entry created just before PUNCH off that the result is the same as if it were created after, which with
PRINT off would give it PRINT (R58): DEDUCED, the model follows R63 (log 49). -/
def Store.removePunchAll (st : Store) : Store :=
  let slots := st.dir.map fun e => e.slot
  freeAll { st with dir := st.dir.map fun e => { e with oblPunch := false }, punchQ := [] } slots

/-- A message abandoned or withdrawn: SEND is removed and the entry, CLOSED by this or already, is freed
with its open block (R59, R61). -/
def Store.abandonEntry (st : Store) (slot : Nat) : Store :=
  (st.updateEntry slot fun e => { e with state := .closed, oblSend := false }).freeIfDone slot

/-! ### Reserves (R64, R66) -/

/-- What a request lacks. -/
structure Shortage where
  blocks : Bool
  directory : Bool
  deriving DecidableEq, Repr

/-- The reserve test of a request that needs this many free blocks and perhaps an entry (R64). -/
def Store.shortage (st : Store) (need : Nat) (needEntry : Bool) : Shortage :=
  { blocks := decide (st.free < need), directory := needEntry && st.dirFull }

def Shortage.isShort (sh : Shortage) : Bool := sh.blocks || sh.directory

/-! ### Allocation and writing (R54, R60, R61) -/

/-- The section number of an entry's next block: the previous number plus 1 plus the gap-before, and 0
for the first (R60). -/
def Store.nextSection (st : Store) (e : Entry) (gap : Nat) : Nat :=
  match e.chain.getLast? with
  | none => 0
  | some b => (st.block b).secNo + 1 + gap

/-- Allocate the block at the head to an entry (R54), with these codes and this released mark; the block
becomes LIVE and joins the end of the chain. -/
def Store.allocate (st : Store) (slot gap : Nat) (codes : List Code) (released : Bool) : Store :=
  match st.entry slot with
  | none => st
  | some e =>
    let b : Block := { state := .live, owner := slot, secNo := st.nextSection e gap, gap := gap
                       codes := codes, released := released }
    { (st.setBlock st.head b).updateEntry slot fun e => { e with chain := e.chain ++ [st.head] } with
      head := ringNext st.head, free := st.free - 1 }

/-- Store a received section in an entry: one released block, the section count, and the gap reason for a
gap-before above 0 (R60). -/
def Store.storeSection (st : Store) (slot gap : Nat) (codes : List Code) : Store :=
  (st.allocate slot gap codes true).updateEntry slot fun e =>
    { e with sections := e.sections + 1, reason := if gap > 0 then some .gap else e.reason }

/-- Obligations of a received entry at its creation: by the panel selections, PRINT when neither is on (R58). -/
def receivedPrint (printSel punchSel : Bool) : Bool := printSel || !punchSel

/-- Create an entry RECEIVING; it joins its copy queues in the same step (R57, R58, R62). -/
def Store.createReceived (st : Store) (origin number cls : Nat) (printSel punchSel : Bool) : Store :=
  let slot := st.freeSlot
  let e : Entry :=
    { slot := slot, outgoing := false, peer := origin, number := number, cls := cls, state := .receiving
      chain := [], sections := 0, reason := none, oblPrint := receivedPrint printSel punchSel
      oblPunch := punchSel, oblSend := false }
  { st with
    dir := st.dir ++ [e]
    printQ := if receivedPrint printSel punchSel then st.printQ ++ [slot] else st.printQ
    punchQ := if punchSel then st.punchQ ++ [slot] else st.punchQ }

/-- A first section stored: the entry is created and holds the section as section number 0 (R60). -/
def Store.storeFirst (st : Store) (origin number cls : Nat) (printSel punchSel : Bool)
    (codes : List Code) : Store :=
  (st.createReceived origin number cls printSel punchSel).storeSection st.freeSlot 0 codes

/-- The composer opens a message: an entry COMPOSING with SEND and its first block, open (R61). -/
def Store.openMessage (st : Store) (dest number cls : Nat) : Store :=
  let slot := st.freeSlot
  let e : Entry :=
    { slot := slot, outgoing := true, peer := dest, number := number, cls := cls, state := .composing
      chain := [], sections := 0, reason := none, oblPrint := false, oblPunch := false, oblSend := true }
  { st with dir := st.dir ++ [e] }.allocate slot 0 [] false

/-- The open block of an outgoing entry: the last of its chain, when it is not released (R61). -/
def Store.openBlock (st : Store) (slot : Nat) : Option Nat :=
  match st.entry slot with
  | none => none
  | some e =>
    match e.chain.getLast? with
    | none => none
    | some b => if (st.block b).released then none else some b

/-- The codes of the open block; none when there is no open block. -/
def Store.openCodes (st : Store) (slot : Nat) : Option (List Code) :=
  (st.openBlock slot).map fun b => (st.block b).codes

def Store.setOpenCodes (st : Store) (slot : Nat) (codes : List Code) : Store :=
  match st.openBlock slot with
  | none => st
  | some b => st.setBlock b { st.block b with codes := codes }

/-- Release the open block as a section (R61); the final release also closes the entry. -/
def Store.releaseOpen (st : Store) (slot : Nat) (final : Bool) : Store :=
  match st.openBlock slot with
  | none => st
  | some b =>
    (st.setBlock b { st.block b with released := true }).updateEntry slot fun e =>
      { e with sections := e.sections + 1, state := if final then .closed else e.state }

/-! ### The draining test (R66, R67, R68) -/

/-- Which obligations belong to a unit able to progress (R67). -/
structure Able where
  print : Bool
  punch : Bool
  send : Bool
  deriving DecidableEq, Repr

/-- Every pending obligation of the entry belongs to a unit able to progress. -/
def entryProgresses (able : Able) (e : Entry) : Bool :=
  (!e.oblPrint || able.print) && (!e.oblPunch || able.punch) && (!e.oblSend || able.send)

/-- The entry named for a shortage of blocks: the owner of the block at the tail (R66). -/
def Store.tailOwner (st : Store) : Option Entry := st.entry (st.block st.tail).owner

/-- A blocking entry that is absent has no obligation to wait for. -/
def blockingProgresses (able : Able) : Option Entry → Bool
  | none => true
  | some e => entryProgresses able e

/-- Draining for a request with this shortage (R67). -/
def Store.draining (st : Store) (able : Able) (sh : Shortage) : Bool :=
  (!sh.blocks || blockingProgresses able st.tailOwner) &&
  (!sh.directory || blockingProgresses able st.dir.head?)

/-- The draining figure outside any request: the owner of the tail block when the free count is below
256, and the oldest entry when the directory is full (R68). -/
def Store.drainingFigure (st : Store) (able : Able) : Bool :=
  st.draining able { blocks := decide (st.free < Config.blocks), directory := st.dirFull }

/-- STORE FULL (R69). -/
def Store.full (st : Store) : Bool := decide (st.free < Config.reserveFirst) || st.dirFull

end Sys2Proof.Machine
end

