-- ==== Sys2Proof/Machine/Ops.lean ====
section
/-! DEFINITION. Shared operations over the whole state: the bell, notices, journal entries, the echo FIFO,
the composer's closing, and readings of the settings. -/
namespace Sys2Proof.Machine

/-! ### Readings -/

/-- The configuration read has ended, so the blocks that waited for it act (R198). -/
def State.live (s : State) : Bool := s.panel.phase == .done

/-- The station's own number; none in CONFIG FAULT (R193). -/
def State.own (s : State) : Option Nat := s.panel.settings.station

/-- LOCAL mode: the composer is in LOCAL, or in TIME-ENTRY entered from LOCAL (7.3). -/
def Keyboard.inLocal (kb : Keyboard) : Bool :=
  match kb.comp with
  | .localMode => true
  | .timeEntry fromLocal _ => fromLocal
  | _ => false

/-- The duration of a cell in time units (R13). -/
def State.cellTime (s : State) : Nat :=
  if s.panel.settings.fastCells then Config.fastCell else Config.slowCell

/-! ### Bell, notices, journal, echo -/

/-- One pulse of the bell output (R150). -/
def State.ring (s : State) : State := { s with bell := s.bell + 1 }

/-- A notice joins the queue, or is dropped and counted when 16 are in it (R162). -/
def PrintUnit.place (p : PrintUnit) (n : Notice) : PrintUnit :=
  if p.notices.length < Config.noticePlaces then { p with notices := p.notices ++ [n] }
  else { p with lost := min Config.maxLost (p.lost + 1) }

def State.notice (s : State) (n : Notice) : State := { s with print := s.print.place n }

/-- A block reports an event to the journal unit (R184). -/
def State.log (s : State) (kind : JournalKind) (fields : JournalFields) : State :=
  { s with journal := s.journal.add kind fields }

/-- An item is placed in the echo FIFO, where it stops the echo idle timer, or is discarded with the
echo-lost flag set when 256 are in it (R139, R152). -/
def PrintUnit.echo (p : PrintUnit) (i : EchoItem) : PrintUnit :=
  if p.echoFifo.length < Config.echoPlaces then
    { p with echoFifo := p.echoFifo ++ [i], echoIdle := none }
  else { p with echoLost := true }

def State.placeEcho (s : State) (i : EchoItem) : State := { s with print := s.print.echo i }

/-! ### The station's conditions as other blocks read them -/

/-- The punch is stalled, with either cause (R170). -/
def Punch.stalled (p : Punch) : Bool := p.stallTapeOut || p.stallFault

/-- LOCAL RESERVED: the reservation is ACTIVE or CLOSING (R170). -/
def Reservation.holdsPunch : Reservation → Bool
  | .active => true
  | .closing _ => true
  | _ => false

/-- Which obligations can progress now (R67). -/
def State.able (s : State) : Able :=
  { print := s.print.paperPresent
    punch := !s.punch.stalled && !s.punch.reservation.holdsPunch
    send := !s.line.lineFault && !s.line.clash }

/-! ### The composer's closing (R140) -/

/-- The composer is closed: LINE-IDLE without destination, the queue emptied with any held keystroke, both
timers stopped. -/
def Keyboard.close (kb : Keyboard) : Keyboard :=
  { kb with comp := .lineIdle, dest := none, queue := [], hold := .none, idleTimer := none, autoEnd := none }

/-- The message of an entry is no longer current; when the composer was composing it, the composer is
closed (R140). -/
def Keyboard.loseMessage (kb : Keyboard) (slot : Nat) : Keyboard :=
  if kb.current = some slot then
    match kb.comp with
    | .composing => { kb.close with current := none }
    | _ => { kb with current := none }
  else kb

/-- Whether the loss of this entry's message closes the composer. -/
def Keyboard.isComposing (kb : Keyboard) (slot : Nat) : Bool :=
  kb.current == some slot && kb.comp == .composing

end Sys2Proof.Machine
end

