-- ==== Sys2Proof/Machine/Flags.lean ====
section
/-! DEFINITION. Figures and flags computed from state: the load estimate, the punch state, the STATUS
report, the eight lamps, and the line's busy judgement. -/
namespace Sys2Proof.Machine

/-! ### Load (R40 to R44) -/

/-- The window's load figure x = 16 × s (R40). -/
def loadFigure (busy : Nat) : Nat := 16 * busy

/-- The new E: the old E plus floor((x − E) / 8), floor towards minus infinity (R41). -/
def loadUpdate (e x : Nat) : Nat := ((e : Int) + ((x : Int) - (e : Int)) / 8).toNat

/-- The latch after a replacement of E (R44). -/
def latchUpdate (old : Bool) (e : Nat) : Bool :=
  if e ≥ Config.latchSet then true else if e ≥ Config.latchClear then old else false

/-- The load percentage (R43). -/
def loadPercent (e : Nat) : Nat := e * 100 / 4096

/-- A cell is busy when the receiver is in FRAME or ANSWER, the transmitter is not IDLE, or the cell is
dominant (R37). -/
def cellBusy (l : LineUnit) (read : Level) : Bool :=
  l.rx == .frame || l.rx == .answer || l.tx != .idle || read == .dominant

/-! ### The punch state (R170) -/

inductive PunchState where
  | fault | tapeOut | localReserved | tapeLow | punching | ready
  deriving DecidableEq, Repr

def Punch.busy (p : Punch) : Bool :=
  p.flight.isSome || p.copy.isSome || decide (p.markLeft > 0) || p.tapeFeed

/-- The first entry of R170's table whose condition holds. -/
def Punch.state (p : Punch) : PunchState :=
  if p.stallFault then .fault
  else if p.stallTapeOut then .tapeOut
  else if p.reservation.holdsPunch then .localReserved
  else if p.tapeLow then .tapeLow
  else if p.busy then .punching
  else .ready

/-! ### The STATUS report (R90) -/

def one (b : Bool) (v : Nat) : Nat := if b then v else 0

def punchReady : PunchState → Bool
  | .ready => true
  | .punching => true
  | .tapeLow => true
  | _ => false

def State.holdOrigin (s : State) : Nat :=
  match s.recv.hold with
  | none => 0
  | some r => r.origin

/-- The six codes T1 to T6. -/
def State.statusCodes (s : State) : List Code :=
  [ Fin.ofNat 32 (one s.panel.attended 16 + one s.print.paperPresent 8 + one (s.print.motor == .running) 4
      + one (punchReady s.punch.state) 2 + one (s.punch.state == .tapeLow) 1)
  , Fin.ofNat 32 (s.panel.acceptLevel + one (s.store.drainingFigure s.able) 4 + one s.line.latch 8)
  , Fin.ofNat 32 (min 31 (s.store.free / 8))
  , Fin.ofNat 32 (min 31 (Config.entries - s.store.dir.length))
  , Fin.ofNat 32 (s.holdOrigin % 32)
  , Fin.ofNat 32 (s.holdOrigin / 32 + 2 * (s.line.loadE / 512)) ]

/-! ### The lamps (R197) -/

inductive Lamp where
  | line | engagedIn | storeFull | paper | punch | fault | attended | localMode
  deriving DecidableEq, Repr

inductive LampShow where
  | dark | steady | flashing
  deriving DecidableEq, Repr

def steadyIf (b : Bool) : LampShow := if b then .steady else .dark

/-- What a lamp's condition asks of it once the read has ended. -/
def State.lampCondition (s : State) : Lamp → LampShow
  | .line => if s.line.lineFault then .flashing else steadyIf s.line.latch
  | .engagedIn => steadyIf s.recv.hold.isSome
  | .storeFull => steadyIf s.store.full
  | .paper => steadyIf (!s.print.paperPresent)
  | .punch => if s.punch.stalled then .steady else if s.punch.tapeLow then .flashing else .dark
  | .fault => steadyIf (s.line.clash || s.panel.configFault)
  | .attended => steadyIf s.panel.attended
  | .localMode => steadyIf s.kb.inLocal

/-- The drive of a lamp: every lamp is lit during the read (R191); a flashing lamp follows the 250 ms
phase. -/
def State.lampLit (s : State) (l : Lamp) : Bool :=
  if s.live then
    match s.lampCondition l with
    | .dark => false
    | .steady => true
    | .flashing => s.panel.flashOn
  else true

end Sys2Proof.Machine
end

