-- ==== Sys2Proof/Machine/PrintText.lean ====
section
/-! DEFINITION. Generated text: the glyphs of characters, and the lines the print unit generates (R2, R3,
R5, R8, R88, R89, R107, R155, R159, R161 to R163, R187, R195). -/
namespace Sys2Proof.Machine

/-! ### Characters and numbers (R2, R3, R5) -/

/-- The gap bar and the erase mark (R3). -/
def gapBar : Nat := 53
def eraseMark : Nat := 52

/-- The letters and figures of generated text in the order of their glyphs; the bell's number 47 has no
character (R2). -/
def glyphTable : List (Char × Nat) :=
  [('A', 0), ('B', 1), ('C', 2), ('D', 3), ('E', 4), ('F', 5), ('G', 6), ('H', 7), ('I', 8), ('J', 9),
   ('K', 10), ('L', 11), ('M', 12), ('N', 13), ('O', 14), ('P', 15), ('Q', 16), ('R', 17), ('S', 18),
   ('T', 19), ('U', 20), ('V', 21), ('W', 22), ('X', 23), ('Y', 24), ('Z', 25)] ++
  [('1', 26), ('2', 27), ('3', 28), ('4', 29), ('5', 30), ('6', 31), ('7', 32), ('8', 33), ('9', 34),
   ('0', 35), ('-', 36), ('?', 37), (':', 38), ('(', 39), (')', 40), ('.', 41), (',', 42), ('\'', 43),
   ('=', 44), ('/', 45), ('+', 46), ('%', 48), ('!', 49), ('&', 50), ('*', 51)]

/-- A character as an element of a generated line; a character without a glyph is a space. -/
def charElem (c : Char) : Elem :=
  match glyphTable.find? fun p => p.1 == c with
  | some p => .strike (.glyph p.2)
  | none => .strike .space

def words (s : String) : List Elem := s.toList.map charElem

/-- A digit's glyph: 1 to 9 are 26 to 34, 0 is 35 (R2). -/
def digitElem (d : Nat) : Elem := .strike (.glyph (if d = 0 then 35 else 25 + d))

/-- A number in exactly k digits. -/
def digits (k n : Nat) : List Elem :=
  ((List.range k).map fun i => digitElem (n / 10 ^ (k - 1 - i) % 10))

/-- A number in as many digits as it needs, up to five. -/
def plain (n : Nat) : List Elem :=
  digits (if n < 10 then 1 else if n < 100 then 2 else if n < 1000 then 3 else if n < 10000 then 4 else 5) n

def oneDigit (b : Bool) : List Elem := digits 1 (if b then 1 else 0)

/-- Two gap bars, as a line writes them at its start or end (R5). -/
def bars : List Elem := [.strike (.glyph gapBar), .strike (.glyph gapBar)]

/-- A generated line ends with a carriage return and a feed (R5). -/
def generated (text : List Elem) : List Elem := text ++ [.cr, .feed]

/-- hhmm of a minute of day, or four hyphens when there is none (R159, R187). -/
def timeText : Option Nat → List Elem
  | some m => digits 2 (m / 60) ++ digits 2 (m % 60)
  | none => words "----"

/-! ### Codes in a print stream (R4) -/

/-- What a code asks for. -/
inductive CodeAct where
  | nothing
  | ring
  | op (o : MechOp)
  deriving DecidableEq, Repr

/-- The action column of R4 in a case. -/
def codeAct (c : Code) (cs : PrintCase) : CodeAct :=
  if c.val = 0 ∨ c.val = 30 ∨ c.val = 31 then .nothing
  else if c.val = 1 then .op .space
  else if c.val = 2 then .op .cr
  else if c.val = 3 then .op .feed
  else
    match cs with
    | .letters => .op (.glyph (c.val - 4))
    | .figures => if c.val = 25 then .ring else .op (.glyph (c.val + 22))

/-- The column "Case afterwards" of R4. -/
def codeCase (unshift : Bool) (c : Code) (cs : PrintCase) : PrintCase :=
  if c.val = 30 then .figures
  else if c.val = 31 then .letters
  else if c.val = 1 ∧ unshift = true then .letters
  else cs

/-- The answerback codes of an IDENT notice from a case: a carriage return or line feed is struck as a
space (R8). -/
def answerbackElems (unshift : Bool) : PrintCase → List Code → List Elem
  | _, [] => []
  | cs, c :: rest =>
    (match codeAct c cs with
     | .nothing => []
     | .ring => [Elem.bell]
     | .op (.glyph n) => [.strike (.glyph n)]
     | .op _ => [.strike .space]) ++ answerbackElems unshift (codeCase unshift c cs) rest

/-! ### Notices -/

/-- The reasons of R107. -/
def noticeReasonText (dest : Nat) : NoticeReason → List Elem
  | .storeFull => words "STORE FULL AT " ++ digits 2 dest
  | .engaged => words "ENGAGED"
  | .refused => words "REFUSED BY " ++ digits 2 dest
  | .noAnswer => words "NO ANSWER"
  | .break => words "BREAK"
  | .breakNoRelease => words "BREAK NO RELEASE"

def onOff (b : Bool) : List Elem := if b then words "ON" else words "OFF"

/-- The STATUS notice of R89. A received T6 above 19 makes k 10 to 15, for which the manual states no number
of digits: the model prints as many as k needs (log 42). A received T2 of 16 to 31 lies outside R90's range, and the
manual does not say what becomes of its part of 16: DESIGN CHOICE, the model ignores it (log 50). -/
def statusText (origin : Nat) (t : List Code) : List Elem :=
  let v (i : Nat) : Nat := (t.getD i 0).val
  words "STATUS FROM " ++ digits 2 origin ++ words " ATT " ++ digits 1 (v 0 / 16)
    ++ words " PAPER " ++ digits 1 (v 0 / 8 % 2) ++ words " MOTOR " ++ digits 1 (v 0 / 4 % 2)
    ++ words " PUNCH " ++ digits 1 (v 0 / 2 % 2) ++ words " LOW " ++ digits 1 (v 0 % 2)
    ++ words " LEVEL " ++ digits 1 (v 1 % 4) ++ words " DRAIN " ++ digits 1 (v 1 / 4 % 2)
    ++ words " LOADED " ++ digits 1 (v 1 / 8 % 2) ++ words " FREE " ++ digits 3 (8 * v 2)
    ++ words " ENTRIES " ++ digits 2 (v 3) ++ words " HOLD " ++ digits 2 (v 4 + 32 * (v 5 % 2))
    ++ words " LOAD " ++ plain (v 5 / 2)

def requestWord : FrameKind → List Elem
  | .who => words "WHO"
  | _ => words "ENQ"

/-- The text of a notice, without the end of its line. -/
def noticeText (unshift : Bool) : Notice → List Elem
  | .sent number dest => words "MSG " ++ digits 3 number ++ words " TO " ++ digits 2 dest ++ words " SENT"
  | .notSent number dest cls sec reason =>
    words "MSG " ++ digits 3 number ++ words " TO " ++ digits 2 dest ++ words " CL" ++ digits 1 cls
      ++ (match sec with
          | some n => words " SEC " ++ plain n
          | none => [])
      ++ words " NOT SENT " ++ noticeReasonText dest reason
  | .controlNotSent kind dest reason =>
    requestWord kind ++ words " TO " ++ digits 2 dest ++ words " NOT SENT " ++ noticeReasonText dest reason
  | .noReply dest => words "NO REPLY FROM " ++ digits 2 dest
  | .ident origin codes =>
    words "IDENT FROM " ++ digits 2 origin ++ words " " ++ answerbackElems unshift .letters codes
  | .status origin figures => statusText origin figures
  | .lineFault => words "LINE FAULT"
  | .clash own => words "NUMBER CLASH " ++ digits 2 own
  | .configFault => words "CONFIG FAULT"
  | .ready own => words "READY " ++ digits 2 own
  | .restart => words "RESTART"
  | .tapeOut => words "TAPE OUT"
  | .punchFault => words "PUNCH FAULT"
  | .attended on => if on then words "ATTENDED" else words "UNATTENDED"
  | .printSel on => words "PRINT " ++ onOff on
  | .punchSel on => words "PUNCH " ++ onOff on
  | .level v => words "LEVEL " ++ digits 1 v

def lostText (n : Nat) : List Elem := plain n ++ words " NOTICES LOST"

/-! ### Echo and store copy -/

def destText (dest cls : Nat) : List Elem :=
  words "TO " ++ digits 2 dest ++ words " CL" ++ digits 1 cls

/-- The banner of R159. -/
def bannerText (e : Entry) (time : Option Nat) : List Elem :=
  words "MSG " ++ digits 3 e.number ++ words " FR " ++ digits 2 e.peer ++ words " CL" ++ digits 1 e.cls
    ++ words " " ++ timeText time

def gapText (k : Nat) : List Elem :=
  bars ++ words " " ++ digits 1 k ++ words " SECTIONS MISSING " ++ bars

def trailerText : List Elem := bars ++ words " INCOMPLETE " ++ bars

/-! ### The journal report (R187) -/

def headerText (time : Option Nat) (overwritten : Nat) : List Elem :=
  words "JOURNAL " ++ timeText time ++ words " OVERWRITTEN " ++ digits 3 overwritten

def skipText (k : Nat) : List Elem :=
  bars ++ words " " ++ plain k ++ words " ENTRIES OVERWRITTEN " ++ bars

def footerText (discarded percent : Nat) : List Elem :=
  words "DISCARDED " ++ digits 5 discarded ++ words " LOAD " ++ digits 2 percent

/-- The kind as written in R184. -/
def kindText : JournalKind → List Elem
  | .start => words "START"
  | .configFault => words "CONFIG FAULT"
  | .restart => words "RESTART"
  | .received => words "RECEIVED"
  | .receivedIncomplete => words "RECEIVED INCOMPLETE"
  | .circularDeclined => words "CIRCULAR DECLINED"
  | .circularMissed => words "CIRCULAR MISSED"
  | .whoAnswered => words "WHO ANSWERED"
  | .sent => words "SENT"
  | .sendAbandoned => words "SEND ABANDONED"
  | .clash => words "CLASH"
  | .lineFault => words "LINE FAULT"
  | .punchFault => words "PUNCH FAULT"
  | .tapeOut => words "TAPE OUT"

/-- A peer of the reception kinds and CLASH, or of SENT and SEND ABANDONED. -/
def peerWord : JournalKind → List Elem
  | .sent => words " TO "
  | .sendAbandoned => words " TO "
  | _ => words " FR "

def frameText : FrameKind → List Elem
  | .text => words "TEXT"
  | .who => words "WHO"
  | .ident => words "IDENT"
  | .enquire => words "ENQUIRE"
  | .status => words "STATUS"
  | .release => words "RELEASE"

def journalReasonText : JournalReason → List Elem
  | .incomplete .holdTimeout => words "HOLD TIMEOUT"
  | .incomplete .cancelled => words "CANCELLED"
  | .incomplete .superseded => words "SUPERSEDED"
  | .incomplete .outOfOrder => words "OUT-OF-ORDER"
  | .incomplete .restart => words "RESTART"
  | .incomplete .gap => words "GAP"
  | .storeFull => words "STORE FULL"
  | .engaged => words "ENGAGED"
  | .refused => words "REFUSED"
  | .noAnswer => words "NO ANSWER"
  | .break => words "BREAK"
  | .restart => words "RESTART"

/-- A part of an entry line that stands only when the entry holds it. -/
def part {α : Type} (o : Option α) (f : α → List Elem) : List Elem :=
  match o with
  | some a => f a
  | none => []

/-- An entry line of the report. -/
def entryText (e : JournalEntry) : List Elem :=
  digits 4 e.entryNo ++ words " " ++ timeText e.time ++ words " " ++ kindText e.kind
    ++ part e.fields.peer (fun p => peerWord e.kind ++ digits 2 p)
    ++ part e.fields.frame (fun k => words " " ++ frameText k)
    ++ part e.fields.number (fun n => words " MSG " ++ digits 3 n)
    ++ part e.fields.cls (fun c => words " CL" ++ digits 1 c)
    ++ part e.fields.sections (fun n => words " SEC " ++ plain n)
    ++ part e.fields.reason (fun r => words " " ++ journalReasonText r)

end Sys2Proof.Machine
end

