-- ==== Sys2Proof/Machine/Print.lean ====
section
/-! DEFINITION. The print unit: the motor, the operations it issues, the four streams, the arbiter, and
what a completion does (chapter 8). What it does of its own accord touches only the print unit, the PRINT
obligations of the store, the report of the journal unit and the bell. -/
namespace Sys2Proof.Machine

/-- What the print unit acts on. -/
structure PrintSide where
  print : PrintUnit
  store : Store
  journal : Journal
  bell : Nat
  deriving DecidableEq, Repr

/-- What the print unit reads of the other blocks. -/
structure PrintEnv where
  settings : Settings
  attended : Bool
  discarded : Nat
  loadE : Nat
  deriving DecidableEq, Repr

def State.printSide (s : State) : PrintSide :=
  { print := s.print, store := s.store, journal := s.journal, bell := s.bell }

def State.printEnv (s : State) : PrintEnv :=
  { settings := s.panel.settings, attended := s.panel.attended, discarded := s.line.discarded
    loadE := s.line.loadE }

def State.withPrintSide (s : State) (x : PrintSide) : State :=
  { s with print := x.print, store := x.store, journal := x.journal, bell := x.bell }

/-- A feed for PAPER FEED stands in flight. -/
def Flight.feedsPaper : Flight → Bool
  | .op _ .paperFeed => true
  | _ => false

/-! ### Motor, idle time (R145, R146) -/

/-- The idle time of the motor under a selection, in time units (R146). -/
def motorIdleTime (set : Settings) (attended : Bool) : Nat :=
  if attended then set.attendedIdleMin * 60 * Config.second
  else set.unattendedIdle10s * 10 * Config.second

/-- The motor is stopped: OFF from this moment, with the stop command in flight (R145). -/
def PrintUnit.stopMotor (p : PrintUnit) : PrintUnit := { p with motor := .off, flight := .motorStop }

/-- The idle timer runs while the motor is RUNNING and no operation is in flight (R146). -/
def PrintUnit.idling (p : PrintUnit) : Bool := p.motor == .running && p.flight == .none

/-! ### Issuing an operation (R144, R145, R147, R149, R168) -/

/-- A feed taken at page line P is issued as a page operation (R149). -/
def feedOp (pageLength pageLine : Nat) : MechOp :=
  if pageLength ≠ 0 ∧ pageLine ≥ pageLength then .page else .feed

/-- What stands before an operation: the motor start, or the carriage return that R168 puts before the
first operation after power-on. -/
def PrintUnit.before (p : PrintUnit) : Option PrintUnit :=
  match p.motor with
  | .running => if p.firstCR then some { p with flight := .op .cr .initial, firstCR := false } else none
  | _ => some { p with motor := .starting, flight := .motorStart }

/-- Whether an operation strikes or spaces, so that it wraps at column width + 1 (R147). -/
def strikes : MechOp → Bool
  | .glyph _ => true
  | .space => true
  | _ => false

/-- The carriage return and feed of a line to close: the return only from a column above 1 (R148). -/
def closeOps (column : Nat) : List MechOp := if column > 1 then [.cr, .feed] else [.feed]

/-- Issue an operation for a stream, or what stands before it. `consumed` is the side with the item gone:
an operation takes its item with it, and so does a space that is dropped by the wrap it causes (R147). An item
of the echo FIFO therefore stays in it through a motor start given for it and leaves when its operation is
issued, which is the model's reading of R155's 'begins to act on it' (log 47). R147 says that no other operation is
issued at column width + 1, which does not agree with R148's line feed above column 1 and R166's feed at the column
where the holder stopped: DESIGN CHOICE, a carriage return, feed or page is issued there without a wrap (log 52). -/
def PrintSide.issue (env : PrintEnv) (st : Stream) (item : Bool) (o : MechOp) (x consumed : PrintSide) :
    PrintSide :=
  match x.print.before with
  | some p => { x with print := p }
  | none =>
    if strikes o = true ∧ x.print.column ≥ env.settings.width + 1 then
      let y := if o = .space then consumed else x
      { y with print := { y.print with pre := [.cr, .feed], preFor := .stream st false } }
    else
      let o := if o = .feed then feedOp env.settings.pageLength x.print.pageLine else o
      { consumed with print := { consumed.print with flight := .op o (.stream st item) } }

/-- Begin a generated line: an open line is closed first, and the line is composed when its first
operation can be issued (R5, R148; log 12). -/
def PrintSide.beginLine (st : Stream) (x begun : PrintSide) : PrintSide :=
  if x.print.openLine then
    { x with print := { x.print with pre := closeOps x.print.column, preFor := .stream st false } }
  else
    match x.print.before with
    | some p => { x with print := p }
    | none => begun

/-- Issue the next element of a generated line; a bell is rung without an operation (R8, R150). -/
def PrintSide.issueElem (env : PrintEnv) (st : Stream) (e : Elem) (x consumed : PrintSide) : PrintSide :=
  match e with
  | .strike (.glyph n) => x.issue env st false (.glyph n) consumed
  | .strike .space => x.issue env st false .space consumed
  | .cr => x.issue env st false .cr consumed
  | .feed => x.issue env st false .feed consumed
  | .bell => { consumed with bell := consumed.bell + 1 }

/-! ### The notice stream (R162) -/

def PrintSide.actNotices (env : PrintEnv) (x : PrintSide) : Option PrintSide :=
  match x.print.noticeScript with
  | e :: rest => some (x.issueElem env .notices e { x with print := { x.print with noticeScript := rest } })
  | [] =>
    if x.print.lostDue then
      some (x.beginLine .notices { x with print :=
        { x.print with noticeScript := generated (lostText x.print.lost), lost := 0, lostDue := false
                       noticeLine := false } })
    else
      match x.print.notices with
      | [] => none
      | n :: rest =>
        some (x.beginLine .notices { x with print :=
          { x.print with notices := rest, noticeLine := true
                         noticeScript := generated (noticeText env.settings.unshiftOnSpace n) } })

/-! ### The echo stream (R155 to R158) -/

/-- The head item leaves the FIFO; when that empties it, the echo idle timer starts from zero (R152). -/
def PrintUnit.popEcho (p : PrintUnit) : PrintUnit :=
  match p.echoFifo with
  | [] => p
  | _ :: rest => { p with echoFifo := rest, echoIdle := if rest.isEmpty then some 0 else p.echoIdle }

def strikeOp : Strike → MechOp
  | .glyph n => .glyph n
  | .space => .space

/-- The action on the item at the head of the echo FIFO (R155). -/
def PrintSide.actEchoItem (env : PrintEnv) (x : PrintSide) : EchoItem → PrintSide
  | .code c =>
    let p := { x.print.popEcho with echoCase := codeCase env.settings.unshiftOnSpace c x.print.echoCase }
    match codeAct c x.print.echoCase with
    | .nothing => { x with print := p }
    | .ring => { x with print := p, bell := x.bell + 1 }
    | .op o => x.issue env .echo true o { x with print := p }
  | .eraseMarker cs =>
    x.issue env .echo true (.glyph eraseMark) { x with print := { x.print.popEcho with echoCase := cs } }
  | .destMarker dest cls =>
    x.beginLine .echo { x with print :=
      { x.print.popEcho with echoScript := generated (destText dest cls) } }
  | .autoEnd =>
    x.beginLine .echo { x with print := { x.print.popEcho with echoScript := generated (words "AUTO END") } }

def PrintSide.actEcho (env : PrintEnv) (x : PrintSide) : Option PrintSide :=
  match x.print.echoScript with
  | e :: rest => some (x.issueElem env .echo e { x with print := { x.print with echoScript := rest } })
  | [] =>
    match x.print.reprint with
    | k :: rest =>
      some (x.issue env .echo false (strikeOp k) { x with print := { x.print with reprint := rest } })
    | [] =>
      match x.print.echoFifo with
      | [] => none
      | i :: _ =>
        match x.print.saved with
        | some sv =>
          some { x with print := { x.print with saved := none, reprint := sv.image, echoCase := sv.case } }
        | none =>
          if x.print.echoLost then
            some (x.beginLine .echo { x with print :=
              { x.print with echoScript := generated (words "ECHO LOST"), echoLost := false } })
          else some (x.actEchoItem env i)

/-- The echo keeps the printer: it owns the open line, whatever its FIFO holds (R152). -/
def PrintUnit.echoKeeps (p : PrintUnit) : Bool := p.openLine && p.owner == some .echo

/-- The interjection: the image, the column and the case are saved, and the line is closed (R157). R157 says that a
carriage return and a feed are issued; an open line at column 1, which a lone code 2 leaves, is closed as R148 has a
line closed, by the feed alone: DESIGN CHOICE (log 54). -/
def PrintUnit.interject (p : PrintUnit) : PrintUnit :=
  { p with saved := some { image := p.echoImage, column := p.echoImage.length + 1, case := p.echoCase }
           pre := closeOps p.column, preFor := .stream .echo false }

/-! ### The store copy (R159 to R161) -/

/-- The copy begins: its position is the head of the print queue, in the beginning phase, in letters case
(R6, R159). -/
def CopyPos.start (slot : Nat) : CopyPos :=
  { entry := slot, phase := .bell, block := 0, code := 0, gapDone := false, case := .letters, script := [] }

def PrintSide.withCopy (x : PrintSide) (c : CopyPos) : PrintSide :=
  { x with print := { x.print with copy := some c } }

/-- The copy has finished: PRINT is removed and the position discarded (R161). -/
def PrintSide.finishCopy (x : PrintSide) (c : CopyPos) : PrintSide :=
  { x with store := x.store.removeObligation .print c.entry, print := { x.print with copy := none } }

/-- The text phase at the end of the stored blocks: the finish of a CLOSED entry's copy, or nothing at the
stored end (R160, R161). -/
def PrintSide.actCopyEnd (x : PrintSide) (c : CopyPos) (e : Entry) : Option PrintSide :=
  if e.state = .closed then
    if e.reason.isSome then
      some (x.beginLine .copy (x.withCopy { c with phase := .finish, script := generated trailerText }))
    else if x.print.openLine then
      some { x with print :=
        { x.print with pre := closeOps x.print.column, preFor := .stream .copy false
                       copy := some { c with phase := .finish } } }
    else some (x.finishCopy c)
  else none

/-- Where the text phase stands: past every block of the rest of the chain that has neither a gap line nor a
code left, so that a copy which has acted on the last stored code is at its stored end (R160). -/
def CopyPos.onText (st : Store) : List Nat → CopyPos → CopyPos
  | [], c => c
  | n :: rest, c =>
    if ((st.block n).gap > 0 ∧ c.gapDone = false) ∨ c.code < (st.block n).codes.length then c
    else CopyPos.onText st rest { c with block := c.block + 1, code := 0, gapDone := false }

/-- One code of a block, acted on as R4 gives. -/
def PrintSide.actCopyCode (env : PrintEnv) (x : PrintSide) (c : CopyPos) (code : Code) : PrintSide :=
  let y := x.withCopy { c with code := c.code + 1, case := codeCase env.settings.unshiftOnSpace code c.case }
  match codeAct code c.case with
  | .nothing => y
  | .ring => { y with bell := y.bell + 1 }
  | .op o => x.issue env .copy false o y

/-- The text phase: a gap line before a block with a gap-before, then the block's codes as R4 gives. -/
def PrintSide.actCopyText (env : PrintEnv) (x : PrintSide) (c : CopyPos) : Option PrintSide :=
  match x.store.entry c.entry with
  | none => none
  | some e =>
    let c := c.onText x.store (e.chain.drop c.block)
    match e.chain[c.block]? with
    | none => x.actCopyEnd c e
    | some n =>
      let b := x.store.block n
      if b.gap > 0 ∧ c.gapDone = false then
        some (x.beginLine .copy (x.withCopy
          { c with gapDone := true, case := .letters, script := generated (gapText b.gap) }))
      else (b.codes[c.code]?).map (x.actCopyCode env c)

/-- The phase after the page operation of page-per-message (R159). -/
def afterPage (env : PrintEnv) : CopyPhase := if env.settings.banner then .banner else .text

/-- Page-per-message asks for a page operation with its option set, with a page length, and from a page line
other than 1 (R149, R159). -/
def PrintSide.pageAsked (env : PrintEnv) (x : PrintSide) : Bool :=
  env.settings.pagePerMessage && env.settings.pageLength != 0 && x.print.pageLine != 1

/-- The phase after the reception bell. -/
def PrintSide.afterBell (env : PrintEnv) (x : PrintSide) : CopyPhase :=
  if x.pageAsked env then .page else afterPage env

/-- The page operation at the start of a copy. It is passed over when a PAPER FEED taken meanwhile has brought
the page line to 1 (R149). -/
def PrintSide.actCopyPage (env : PrintEnv) (x : PrintSide) (c : CopyPos) : PrintSide :=
  let y := x.withCopy { c with phase := afterPage env }
  if x.pageAsked env then x.issue env .copy false .page y else y

/-- The banner, composed when it begins (R159). -/
def PrintSide.actCopyBanner (x : PrintSide) (c : CopyPos) : Option PrintSide :=
  (x.store.entry c.entry).map fun e =>
    x.beginLine .copy (x.withCopy { c with phase := .text, script := generated (bannerText e x.journal.time) })

/-- The copy's next action. The beginning phase starts with the reception bell (R159). -/
def PrintSide.actCopy (env : PrintEnv) (x : PrintSide) : Option PrintSide :=
  match x.print.copy with
  | none => none
  | some c =>
    match c.script with
    | e :: rest => some (x.issueElem env .copy e (x.withCopy { c with script := rest }))
    | [] =>
      match c.phase with
      | .bell =>
        let y := x.withCopy { c with phase := x.afterBell env }
        some (if env.attended then { y with bell := y.bell + 1 } else y)
      | .page => some (x.actCopyPage env c)
      | .banner => x.actCopyBanner c
      | .text => x.actCopyText env c
      | .finish => some (x.finishCopy c)

/-! ### The journal report (R164, R187) -/

def PrintSide.reportLine (x : PrintSide) (r : Report) (text : List Elem) : PrintSide :=
  { x with journal := { x.journal with report := some r }
           print := { x.print with reportScript := generated text } }

/-- The entries stage: the skip line, the next entry still in the ring, or the end of the entries. -/
def PrintSide.actEntries (env : PrintEnv) (x : PrintSide) (r : Report) : PrintSide :=
  let footer := x.reportLine { r with stage := .ended } (footerText env.discarded (loadPercent env.loadE))
  if r.wasEmpty then x.beginLine .report (x.reportLine { r with stage := .footer } (words "NO ENTRIES"))
  else if r.skip > 0 then x.beginLine .report (x.reportLine { r with skip := 0 } (skipText r.skip))
  else
    match r.toPrint with
    | [] => x.beginLine .report footer
    | n :: rest =>
      match x.journal.ring.find? fun e => e.entryNo == n with
      | none => { x with journal := { x.journal with report := some { r with toPrint := rest } } }
      | some e => x.beginLine .report (x.reportLine { r with toPrint := rest } (entryText e))

def PrintSide.actReport (env : PrintEnv) (x : PrintSide) : Option PrintSide :=
  match x.print.reportScript with
  | e :: rest => some (x.issueElem env .report e { x with print := { x.print with reportScript := rest } })
  | [] =>
    match x.journal.report with
    | none => none
    | some r =>
      match r.stage with
      | .header =>
        some (x.beginLine .report (x.reportLine { r with stage := .entries }
          (headerText x.journal.time x.journal.overwritten)))
      | .entries => some (x.actEntries env r)
      | .footer =>
        some (x.beginLine .report (x.reportLine { r with stage := .ended }
          (footerText env.discarded (loadPercent env.loadE))))
      | .ended => none

/-! ### The arbiter (R151 to R153) -/

/-- The next thing a stream does as holder; nothing when it has nothing to act on. -/
def PrintSide.act (env : PrintEnv) (x : PrintSide) : Stream → Option PrintSide
  | .notices => x.actNotices env
  | .echo => x.actEcho env
  | .copy => x.actCopy env
  | .report => x.actReport env

/-- A stream waits while it has something to act on (R151). -/
def PrintSide.waits (env : PrintEnv) (x : PrintSide) (st : Stream) : Bool := (x.act env st).isSome

/-- The waiting stream of highest priority (R153). -/
def PrintSide.firstWaiting (env : PrintEnv) (x : PrintSide) : Option Stream :=
  [Stream.notices, .echo, .copy, .report].find? (x.waits env)

/-- The line of another stream, or of none, is closed before the granted stream acts (R153, R167). Closing
needs the motor, also for a stream that has only shifts or blanks to act on, which is the model's choice
between R145 and R153 (log 41). -/
def PrintUnit.mustClose (p : PrintUnit) (st : Stream) : Bool := p.openLine && p.owner != some st

def PrintUnit.closeForeign (p : PrintUnit) : PrintUnit :=
  { p with pre := closeOps p.column, preFor := .closing }

/-- Some stream other than the echo waits. -/
def PrintSide.othersWait (env : PrintEnv) (x : PrintSide) : Bool :=
  [Stream.notices, .copy, .report].any (x.waits env)

/-- The third kind of grant point has arisen (R152). -/
def PrintSide.interjectionDue (env : PrintEnv) (x : PrintSide) : Bool :=
  (match x.print.echoIdle with
   | some n => decide (n ≥ Config.echoIdleTime)
   | none => false) && x.othersWait env

/-- An operation serves the holder. -/
def PrintUnit.servesHolder (p : PrintUnit) : OpFor → Bool
  | .stream st _ => p.holder == some st
  | _ => false

/-- The holder is acting: an operation in flight, or one of its wrap or line end still to issue, is its own. -/
def PrintUnit.holderActs (p : PrintUnit) : Bool :=
  (match p.flight with
   | .op _ why => p.servesHolder why
   | _ => false) || (!p.pre.isEmpty && p.servesHolder p.preFor)

/-- The echo holds the printer and owns the open line, so that it keeps it with an empty FIFO (R152). -/
def PrintUnit.echoStays (p : PrintUnit) : Bool := p.holder == some .echo && p.echoKeeps

/-- A grant point of the first, third or fourth kind: the holder has nothing to act on, the echo has been idle
with an open line while another stream waits, or a stream waits with no holder (R152). -/
def PrintSide.grantArises (env : PrintEnv) (x : PrintSide) : Bool :=
  match x.print.holder with
  | none => (x.firstWaiting env).isSome
  | some st => !x.waits env st && (if x.print.echoStays then x.interjectionDue env else true)

/-- There is a grant point to judge: one of the second kind or one kept from a stall (`grantDue`), or one that
arises now. Operations of the holder are awaited; a motor command or a feed of PAPER FEED in flight is not
(R152 to R154; log 46). -/
def PrintSide.grantPoint (env : PrintEnv) (x : PrintSide) : Bool :=
  !x.print.holderActs && (x.print.grantDue || x.grantArises env)

/-- The printer goes to the highest waiting stream, or to none. The echo idle timer stops when the echo ceases
to hold (R152, R153). -/
def PrintSide.grant (env : PrintEnv) (x : PrintSide) : PrintSide :=
  let h := x.firstWaiting env
  { x with print := { x.print with holder := h, grantDue := false
                                   echoIdle := if h = some .echo then x.print.echoIdle else none } }

/-- A grant point is judged. An echo with an open line of its own goes on when it waits itself or nothing does;
otherwise it is interjected, and the grant follows at the end of its line (R153, R157). -/
def PrintSide.judge (env : PrintEnv) (x : PrintSide) : PrintSide :=
  if x.print.echoStays = true ∧ (x.firstWaiting env = none ∨ x.firstWaiting env = some .echo) then
    { x with print := { x.print with grantDue := false } }
  else if x.print.echoStays then { x with print := { x.print.interject with grantDue := false } }
  else x.grant env

/-- The holder's turn. -/
def PrintSide.holderTurn (env : PrintEnv) (x : PrintSide) (st : Stream) : Option PrintSide :=
  (x.act env st).map fun y =>
    if x.print.mustClose st then { x with print := x.print.closeForeign } else y

/-- A carriage return or feed of a wrap or a closing. -/
def PrintUnit.issuePre (p : PrintUnit) (env : PrintEnv) (o : MechOp) (rest : List MechOp) : PrintUnit :=
  match p.before with
  | some q => q
  | none =>
    let o := if o = .feed then feedOp env.settings.pageLength p.pageLine else o
    { p with pre := rest, flight := .op o p.preFor }

/-- A feed for PAPER FEED (R166). -/
def PrintUnit.issueOwed (p : PrintUnit) (env : PrintEnv) : PrintUnit :=
  match p.before with
  | some q => q
  | none => { p with flight := .op (feedOp env.settings.pageLength p.pageLine) .paperFeed }

/-- What the print unit issues next, with nothing in flight: in the stall only the feed that ends it, then a
feed owed, a wrap or closing, the holder's next operation (R144, R165, R166). -/
def PrintSide.issueNext (env : PrintEnv) (x : PrintSide) : Option PrintSide :=
  if x.print.stalled then
    if x.print.stallFeed = true ∧ x.print.paperPresent = true then
      some { x with print := x.print.issueOwed env }
    else none
  else if x.print.owedFeeds > 0 then some { x with print := x.print.issueOwed env }
  else
    match x.print.pre with
    | o :: rest => some { x with print := x.print.issuePre env o rest }
    | [] => x.print.holder.bind (x.holderTurn env)

/-- One thing the print unit does of its own accord: a copy begins, a grant point is judged, which in the stall
is kept for its end, or with nothing in flight the next operation is issued (R144, R159, R165). An item that needs
no operation waits too while anything is in flight, a motor command or a feed of PAPER FEED among them, which R145
leaves open: DESIGN CHOICE (log 51). -/
def PrintSide.step (env : PrintEnv) (x : PrintSide) : Option PrintSide :=
  match x.print.copy, x.store.printQ with
  | none, slot :: _ => some (x.withCopy (CopyPos.start slot))
  | _, _ =>
    if x.grantPoint env = true ∧ x.print.stalled = false then some (x.judge env)
    else if x.grantPoint env = true ∧ x.print.grantDue = false then
      some { x with print := { x.print with grantDue := true } }
    else if x.print.flight ≠ .none then none
    else x.issueNext env

/-- The print unit acts until an operation is in flight or it has nothing to do. -/
def PrintSide.run (env : PrintEnv) : Nat → PrintSide → PrintSide
  | 0, x => x
  | k + 1, x =>
    match x.step env with
    | none => x
    | some y => PrintSide.run env k y

/-- More than the print unit can do without an operation: 8192 blanks in the store, 256 items of the echo
FIFO, and a few steps for each block, entry and grant. -/
def printFuel : Nat := 16384

/-! ### A completion (R144 to R152, R155, R161, R162, R166) -/

/-- Column after an operation (R144). -/
def columnAfter (o : MechOp) (column : Nat) : Nat :=
  match o with
  | .glyph _ => column + 1
  | .space => column + 1
  | .cr => 1
  | .feed => column
  | .page => column

/-- Page line after an operation; it stays at 1 on a continuous roll (R144, R149). -/
def pageLineAfter (pageLength : Nat) (o : MechOp) (line : Nat) : Nat :=
  match o with
  | .feed => if pageLength = 0 then 1 else line + 1
  | .page => 1
  | _ => line

/-- The operation ends a line when it completes at this column (R148, R149). -/
def endsLine (o : MechOp) (column : Nat) : Bool :=
  match o with
  | .feed => column == 1
  | .page => column == 1
  | _ => false

/-- What an operation appends to the echo line image. -/
def struckBy : MechOp → List Strike
  | .glyph n => [.glyph n]
  | .space => [.space]
  | _ => []

/-- Open line and owner after a completed operation of a stream, or of none. -/
def PrintUnit.lineAfter (p : PrintUnit) (o : MechOp) (owner : Option Stream) : PrintUnit :=
  if strikes o then { p with openLine := true, owner := owner }
  else if endsLine o p.column then { p with openLine := false, owner := none }
  else p

/-- The echo line image after an echo operation (R155). -/
def imageAfter (o : MechOp) (column : Nat) (image : List Strike) : List Strike :=
  if o = .cr ∨ endsLine o column = true then [] else image ++ struckBy o

/-- The part of a completion that depends on the stream served: the echo's image and timer, and the lost
line that a notice's end makes due (R152, R155, R162). -/
def PrintUnit.streamAfter (p : PrintUnit) (o : MechOp) (st : Stream) : PrintUnit :=
  match st with
  | .echo => { p with echoImage := imageAfter o p.column p.echoImage, echoIdle := some 0 }
  | .notices =>
    if endsLine o p.column = true ∧ p.noticeScript.isEmpty = true ∧ p.noticeLine = true then
      { p with noticeLine := false, lostDue := decide (p.lost > 0) }
    else p
  | _ => p

/-- The end of a copy or of a report with the line end that was its last operation (R161, R187). -/
def PrintSide.endsAfter (x : PrintSide) (o : MechOp) (st : Stream) : PrintSide :=
  match st with
  | .copy =>
    match x.print.copy with
    | none => x
    | some c =>
      if endsLine o x.print.column = true ∧ c.phase = .finish ∧ c.script.isEmpty = true
      then x.finishCopy c else x
  | .report =>
    match x.journal.report with
    | none => x
    | some r =>
      if endsLine o x.print.column = true ∧ r.stage = .ended ∧ x.print.reportScript.isEmpty = true
      then { x with journal := x.journal.endReport } else x
  | _ => x

/-- The margin bell: an operation that struck an item of the echo FIFO has completed at width - 7 (R150). -/
def PrintSide.marginBell (env : PrintEnv) (x : PrintSide) (o : MechOp) (item : Bool) : PrintSide :=
  if item = true ∧ strikes o = true ∧ x.print.column + 7 = env.settings.width then { x with bell := x.bell + 1 }
  else x

/-- An operation for a stream has completed. -/
def PrintSide.streamOpDone (env : PrintEnv) (x : PrintSide) (o : MechOp) (st : Stream) (item : Bool) :
    PrintSide :=
  let p := (x.print.lineAfter o (some st)).streamAfter o st
  let p := { p with grantDue := p.grantDue || endsLine o p.column }
  ({ x with print := p }.marginBell env o (item && st == Stream.echo)).endsAfter o st

/-- A PAPER FEED's feed has completed: one fewer is owed, and it ends the stall it was taken in. A feed in
flight since before the stall's own PAPER FEED leaves the stall, which the next feed ends (R166; log 17). -/
def PrintUnit.owedDone (p : PrintUnit) : PrintUnit :=
  if p.feedBefore then { p with owedFeeds := p.owedFeeds - 1, feedBefore := false }
  else { p with owedFeeds := p.owedFeeds - 1, stalled := p.stalled && !p.stallFeed, stallFeed := false }

/-- An operation has completed: column, page line and idle timer, then what it served. -/
def PrintSide.opDone (env : PrintEnv) (x : PrintSide) (o : MechOp) (why : OpFor) : PrintSide :=
  let p := { x.print with flight := .none, motorIdle := 0, column := columnAfter o x.print.column
                          pageLine := pageLineAfter env.settings.pageLength o x.print.pageLine }
  match why with
  | .stream st item => { x with print := p }.streamOpDone env o st item
  | .closing => { x with print := p.lineAfter o none }
  | .paperFeed => { x with print := p.owedDone }
  | .initial => { x with print := p }
  | .orphan item => { x with print := p.lineAfter o none }.marginBell env o item

/-- The completion input reports what stands in flight complete; with nothing in flight it is ignored
(R144, R145; log 11). -/
def PrintSide.complete (env : PrintEnv) (x : PrintSide) : PrintSide :=
  match x.print.flight with
  | .none => x
  | .motorStart => { x with print := { x.print with motor := .running, flight := .none, motorIdle := 0 } }
  | .motorStop => { x with print := { x.print with flight := .none } }
  | .op o why => x.opDone env o why

/-! ### RESTART (R167) -/

/-- Whether an operation serves the echo. -/
def servesEcho : OpFor → Bool
  | .stream .echo _ => true
  | _ => false

/-- An operation of the echo in flight is no longer the echo's. -/
def Flight.orphaned : Flight → Flight
  | .op o (.stream .echo item) => .op o (.orphan item)
  | f => f

/-- RESTART at the print unit (R167; log 16). The notice is placed before the grant point that the echo's loss
of the printer makes is judged, so that it is among those that wait there: the model's choice (log 48). -/
def PrintUnit.restart (p : PrintUnit) : PrintUnit :=
  ({ p with
    echoFifo := [], echoLost := false, saved := none, reprint := [], echoScript := [], echoImage := []
    echoCase := .letters, echoIdle := none
    flight := p.flight.orphaned
    pre := if servesEcho p.preFor then [] else p.pre
    owner := if p.owner = some Stream.echo then none else p.owner
    holder := if p.holder = some Stream.echo then none else p.holder
    grantDue := p.grantDue || p.holder == some Stream.echo }).place .restart

/-! ### Settling -/

/-- The print unit does what it can of its own accord. -/
def State.settlePrint (s : State) : State :=
  s.withPrintSide (PrintSide.run s.printEnv printFuel s.printSide)

end Sys2Proof.Machine
end

