-- ==== Sys2Proof/Machine/PunchUnit.lean ====
section
/-! DEFINITION. The punch unit: issuing operations for its sources, store copies on tape, stalls, the LOCAL
reservation (chapter 9). Everything it does of its own accord touches only the punch and the store. -/
namespace Sys2Proof.Machine

/-- What the punch unit acts on. -/
structure PunchSide where
  punch : Punch
  store : Store
  deriving DecidableEq, Repr

/-- The erase code (R1, R9). -/
def eraseCode : Code := 31

/-- Codes of a gap mark or an incomplete mark, and of the restart mark (R171, R176). -/
def markRun : Nat := 8
def restartRun : Nat := 5

/-! ### The LOCAL reservation (R177) -/

/-- ACTIVE with its leading leader due. -/
def Punch.reserve (p : Punch) (leader : Nat) : Punch :=
  { p with reservation := .active, leadLeft := leader, closeLeft := none }

/-- LOCAL begins. -/
def Punch.localBegins (p : Punch) (leader : Nat) : Punch :=
  match p.reservation with
  | .none => if p.copy.isSome then { p with reservation := .waiting true } else p.reserve leader
  | .waiting _ => { p with reservation := .waiting true }
  | .active => p
  | .closing _ =>
    match p.closeLeft with
    | none => { p with reservation := .active }
    | some _ => { p with reservation := .closing true }

/-- LOCAL ends. -/
def Punch.localEnds (p : Punch) : Punch :=
  match p.reservation with
  | .none => p
  | .waiting _ =>
    if p.fifo.isEmpty then { p with reservation := .none } else { p with reservation := .waiting false }
  | .active => { p with reservation := .closing false }
  | .closing _ => { p with reservation := .closing false }

/-- The copy before a WAITING reservation has finished: ACTIVE or CLOSING, with a leading leader due. -/
def Punch.copyFinished (p : Punch) (leader : Nat) : Punch :=
  match p.reservation with
  | .waiting true => { p with reservation := .active, leadLeft := leader, closeLeft := none }
  | .waiting false => { p with reservation := .closing false, leadLeft := leader, closeLeft := none }
  | _ => p

/-- The closing leader has been completed: NONE, or ACTIVE again when LOCAL has begun meanwhile. -/
def Punch.closed (p : Punch) (leader : Nat) : Punch :=
  match p.reservation with
  | .closing true => p.reserve leader
  | .closing false => { p with reservation := .none, closeLeft := none }
  | _ => { p with closeLeft := none }

/-! ### Stalls (R174, R175, R178) -/

/-- A leader with blanks left is punched again whole (R178). -/
def again (left leader : Nat) : Nat := if left > 0 then leader else 0

/-- A stall takes hold: nothing stands in flight, a copy in progress is set back to its leading leader, a
restart mark becomes due, TAPE FEED is no longer served, a local code in flight is to be punched again, and
a leader under way is to be punched again whole. -/
def Punch.takeStall (p : Punch) (leader : Nat) : Punch :=
  { p with
    flight := none, outPending := false, tapeFeed := false, markLeft := restartRun
    copy := p.copy.map fun c => { c with phase := .lead leader }
    redo := match p.flight with
      | some (c, .code) => some c
      | _ => p.redo
    leadLeft := again p.leadLeft leader
    closeLeft := p.closeLeft.map fun n => again n leader }

/-! ### The copy's position (R171, R172) -/

/-- The code the copy punches next, or the phase that follows without an operation, or the copy's finish,
or nothing to do at the stored end. -/
inductive CopyAct where
  | punch (c : Code)
  | move (ph : PunchPhase)
  | finish
  | wait
  deriving DecidableEq, Repr

def copyAct (st : Store) (leader : Nat) (c : PunchCopy) : CopyAct :=
  match st.entry c.entry with
  | none => .wait
  | some e =>
    match c.phase with
    | .lead 0 => .move (.block 0)
    | .lead _ => .punch 0
    | .block b =>
      match e.chain[b]? with
      | some n => if (st.block n).gap > 0 then .move (.gap b markRun) else .move (.text b 0)
      | none =>
        if e.state = .closed then
          (if e.reason.isSome then .move (.incomplete markRun) else .move (.trail leader))
        else .wait
    | .gap b 0 => .move (.text b 0)
    | .gap _ _ => .punch eraseCode
    | .text b i =>
      match e.chain[b]? with
      | none => .move (.block b)
      | some n =>
        match (st.block n).codes[i]? with
        | some code => .punch code
        | none => .move (.block (b + 1))
    | .incomplete 0 => .move (.trail leader)
    | .incomplete _ => .punch eraseCode
    | .trail 0 => .finish
    | .trail _ => .punch 0

/-- The position after its code has been punched. -/
def PunchPhase.advance : PunchPhase → PunchPhase
  | .lead n => .lead (n - 1)
  | .block b => .block b
  | .gap b n => .gap b (n - 1)
  | .text b i => .text b (i + 1)
  | .incomplete n => .incomplete (n - 1)
  | .trail n => .trail (n - 1)

/-- The source an operation served advances (R169). -/
def Punch.sourceAdvances (p : Punch) : PunchSource → Punch
  | .copy => { p with copy := p.copy.map fun c => { c with phase := c.phase.advance } }
  | .mark => { p with markLeft := p.markLeft - 1 }
  | .code => p
  | .leader => { p with leadLeft := p.leadLeft - 1 }
  | .closer => { p with closeLeft := p.closeLeft.map fun n => n - 1 }
  | .feed => p

/-! ### What the punch unit does next -/

def Punch.issue (p : Punch) (c : Code) (src : PunchSource) : Punch := { p with flight := some (c, src) }

/-- A new copy may begin (R171). -/
def Punch.mayBegin (p : Punch) : Bool :=
  p.copy.isNone && !p.stalled && p.markLeft == 0 && !p.tapeLow && p.reservation == .none && !p.tapeFeed

/-- PUNCH turned off takes effect: the copy ends where it stands, the local FIFO is emptied and the
reservation becomes NONE (R180). `relocal` says that PUNCH is on again in LOCAL mode (log 20). -/
def Punch.turnedOff (p : Punch) (leader : Nat) (relocal : Bool) : Punch :=
  let p := { p with offDue := false, copy := none, fifo := [], redo := none, reservation := .none
                    leadLeft := 0, closeLeft := none }
  if relocal then p.localBegins leader else p

/-- The closing leader has begun and its last blank has been punched, or its length is 0 (R177). -/
def Punch.closingOver (p : Punch) : Bool := p.closeLeft == some 0

/-- The step of a punch that is reserved for the local FIFO: a code to punch again, a closing leader begun to
its end, a leading leader due, the FIFO, and in CLOSING then the closing leader (R177, R178). Codes of a
reopened session come after the closing leader under way; when that session has ended again before the leader
is complete, the reservation becomes NONE and they wait in the FIFO for the next one, which is the model's
choice (log 44). -/
def Punch.localStep (p : Punch) (leader : Nat) : Option Punch :=
  match p.redo with
  | some c => some ({ p with redo := none }.issue c .code)
  | none =>
    match p.closeLeft with
    | some _ => some (p.issue 0 .closer)
    | none =>
      if p.leadLeft > 0 then some (p.issue 0 .leader)
      else
        match p.fifo, p.reservation with
        | c :: rest, _ => some ({ p with fifo := rest }.issue c .code)
        | [], .closing _ => some { p with closeLeft := some leader }
        | [], _ => none

/-- The step of the store copy in progress (R171, R172). -/
def PunchSide.copyStep (x : PunchSide) (leader : Nat) : Option PunchSide :=
  match x.punch.copy with
  | none => none
  | some c =>
    match copyAct x.store leader c with
    | .punch code => some { x with punch := x.punch.issue code .copy }
    | .move ph => some { x with punch := { x.punch with copy := some { c with phase := ph } } }
    | .finish =>
      some { store := x.store.removeObligation .punch c.entry
             punch := { x.punch with copy := none }.copyFinished leader }
    | .wait => none

/-- The entry whose copy begins now, an operation in flight or not: the head of the punch queue, when the other
conditions of R171 hold. None begins while a turning off waits for its operation (log 20). -/
def PunchSide.beginning (x : PunchSide) : Option Nat :=
  if x.punch.mayBegin = true ∧ x.punch.offDue = false then x.store.punchQ.head? else none

/-- What the punch unit issues next, with nothing in flight and no stall (R171 to R179). -/
def PunchSide.issueNext (x : PunchSide) (leader : Nat) : Option PunchSide :=
  if x.punch.markLeft > 0 then some { x with punch := x.punch.issue eraseCode .mark }
  else if x.punch.tapeFeed then some { x with punch := x.punch.issue 0 .feed }
  else if x.punch.reservation.holdsPunch then
    (x.punch.localStep leader).map fun p => { x with punch := p }
  else x.copyStep leader

/-- One thing the punch unit does of its own accord: a copy begins, or with nothing in flight a turning off
takes effect, a closing leader is over, or the next operation is issued. -/
def PunchSide.step (x : PunchSide) (leader : Nat) (relocal : Bool) : Option PunchSide :=
  match x.beginning with
  | some slot => some { x with punch := { x.punch with copy := some { entry := slot, phase := .lead leader } } }
  | none =>
    if x.punch.flight.isSome then none
    else if x.punch.offDue then some { x with punch := x.punch.turnedOff leader relocal }
    else if x.punch.closingOver then some { x with punch := x.punch.closed leader }
    else if x.punch.stalled then none
    else x.issueNext leader

/-- The punch unit acts until an operation is in flight or it has nothing to do. -/
def PunchSide.run (leader : Nat) (relocal : Bool) : Nat → PunchSide → PunchSide
  | 0, x => x
  | k + 1, x =>
    match x.step leader relocal with
    | none => x
    | some x' => PunchSide.run leader relocal k x'

/-- More than the punch unit can do without an operation: it passes each block of the store at most three
times and each entry at most a few (256 blocks, 32 entries). -/
def punchFuel : Nat := 2048

end Sys2Proof.Machine
end

