-- ==== Sys2Proof/Machine/Settle.lean ====
section
/-! DEFINITION. What the two mechanism units do of their own accord at the end of a step (R144, R169, R198):
the print unit and the punch unit go on until each has an operation in flight or nothing to do. -/
namespace Sys2Proof.Machine

/-- PUNCH is selected in LOCAL mode, so a reservation begins again when PUNCH's turning off has taken
effect (R177, R180; log 20). -/
def State.relocal (s : State) : Bool := s.panel.punchSel && s.kb.inLocal

def State.punchSide (s : State) : PunchSide := { punch := s.punch, store := s.store }

def State.withPunchSide (s : State) (x : PunchSide) : State := { s with punch := x.punch, store := x.store }

/-- The punch unit does what it can of its own accord. -/
def State.settlePunch (s : State) : State :=
  s.withPunchSide (PunchSide.run s.panel.settings.leader s.relocal punchFuel s.punchSide)

/-- Both mechanism units act. Before the configuration read ends no mechanism operation is issued (R191). -/
def State.settle (s : State) : State := if s.live then s.settlePrint.settlePunch else s

/-- The punch unit is told that LOCAL begins with PUNCH selected (R177). While a turning off of PUNCH waits
for its operation, the beginning waits with it (log 20). -/
def State.punchLocalBegins (s : State) : State :=
  if s.punch.offDue then s
  else { s with punch := s.punch.localBegins s.panel.settings.leader }

/-- The punch unit is told that LOCAL has ended (R177). -/
def State.punchLocalEnds (s : State) : State := { s with punch := s.punch.localEnds }

end Sys2Proof.Machine
end

