-- ==== Sys2Proof/Machine/Transmit.lean ====
section
/-! DEFINITION. The transmission controller: rank and selection, section readiness, the control queue, the
reply watch, the effect of each report of the line unit, and abandonment (chapters 3 and 6). -/
namespace Sys2Proof.Machine

/-! ### Rank (R47, R48) -/

/-- The ageing step A in cells. -/
def ageingStep (e : Nat) : Nat := 512 + e / 4

def rankBase : Nat → Nat
  | 0 => 4
  | 1 => 9
  | _ => 13

def rankFloor : Nat → Nat
  | 0 => 0
  | 1 => 3
  | _ => 7

/-- u = floor(W / A) + n. -/
def urgency (w n a : Nat) : Nat := w / a + n

/-- R = max(F(c), B(c) − u). -/
def rankOf (cls w n a : Nat) : Nat := max (rankFloor cls) (rankBase cls - urgency w n a)

/-! ### Section readiness (R98, R99, R100) -/

/-- The current section's block is released: a block beyond those done. -/
def sectionReleased (st : Store) (r : SendRec) : Bool :=
  match st.entry r.entry with
  | none => false
  | some e => decide (r.done < e.sections)

/-- Walk the send list in order; a record is ACTIVE when no earlier record has its destination (R98). An
ACTIVE record in PENDING whose current section is released becomes READY with fresh counts (R100). -/
def refreshList (st : Store) : List Nat → List SendRec → List SendRec
  | _, [] => []
  | seen, r :: rest =>
    (if r.phase = .pending ∧ seen.contains r.dest = false ∧ sectionReleased st r = true then
      { r with phase := .ready, counts := Counts.zero }
    else r) :: refreshList st (r.dest :: seen) rest

def State.refreshSections (s : State) : State :=
  { s with send := { s.send with sendList := refreshList s.store [] s.send.sendList } }

/-! ### Selection (R50) -/

/-- A ready frame as a candidate: its rank formed now, its W, whether it is a control frame, and its place
in its list. -/
structure Candidate where
  rank : Nat
  w : Nat
  control : Bool
  place : Nat
  deriving DecidableEq, Repr

/-- The first test of R50 that separates two candidates decides: `a` goes before `b`. -/
def goesFirst (a b : Candidate) : Bool :=
  if a.rank ≠ b.rank then decide (a.rank < b.rank)
  else if a.w ≠ b.w then decide (a.w > b.w)
  else if a.control ≠ b.control then a.control
  else decide (a.place < b.place)

def sectionCandidates (e : Nat) : Nat → List SendRec → List Candidate
  | _, [] => []
  | i, r :: rest =>
    if r.phase = .ready then
      { rank := rankOf r.cls r.counts.w r.counts.n (ageingStep e), w := r.counts.w, control := false
        place := i } :: sectionCandidates e (i + 1) rest
    else sectionCandidates e (i + 1) rest

def controlCandidates (e : Nat) : Nat → List ControlRec → List Candidate
  | _, [] => []
  | i, r :: rest =>
    if r.phase = .ready then
      { rank := rankOf 0 r.counts.w r.counts.n (ageingStep e), w := r.counts.w, control := true
        place := i } :: controlCandidates e (i + 1) rest
    else controlCandidates e (i + 1) rest

/-- Every frame ready at this moment. A QUEUED message stays in PENDING, so it offers nothing (R98). -/
def Transmission.candidates (t : Transmission) (e : Nat) : List Candidate :=
  controlCandidates e 0 t.control ++ sectionCandidates e 0 t.sendList

def firstOf : List Candidate → Option Candidate
  | [] => none
  | c :: rest =>
    match firstOf rest with
    | none => some c
    | some d => if goesFirst d c then some d else some c

/-- The frame the transmission controller offers (R50). -/
def Transmission.select (t : Transmission) (e : Nat) : Option Candidate := firstOf (t.candidates e)

/-! ### Building frames (R99, R109) -/

/-- The block of the current section. -/
def currentBlock (st : Store) (r : SendRec) : Option Block :=
  match st.entry r.entry with
  | none => none
  | some e => (e.chain[r.done]?).map st.block

/-- The section number of the current section is that of the entry's final block (R99): the entry has
been closed by the composer's final release and this is its last section. -/
def isFinalSection (st : Store) (r : SendRec) : Bool :=
  match st.entry r.entry with
  | none => false
  | some e => e.state == .closed && r.done + 1 == e.sections

/-- A section's frame (R99). -/
def sectionFrame (own rank : Nat) (st : Store) (r : SendRec) : Option Frame :=
  (currentBlock st r).map fun b =>
    { rank := rank, origin := own, kind := .text, seq := b.secNo % 8, dest := r.dest, cls := r.cls
      number := r.number, first := b.secNo == 0, final := isFinalSection st r, text := b.codes }

/-- A control frame: class 0, both flags set (R109). -/
def controlFrame (own rank : Nat) (r : ControlRec) : Frame :=
  { rank := rank, origin := own, kind := r.kind, seq := r.seq, dest := r.dest, cls := 0
    number := r.number, first := true, final := true, text := r.text }

/-- The frame of a selected candidate. -/
def State.frameOf (s : State) (own : Nat) (c : Candidate) : Option Frame :=
  if c.control then (s.send.control[c.place]?).map (controlFrame own c.rank)
  else match s.send.sendList[c.place]? with
    | none => none
    | some r => sectionFrame own c.rank s.store r

/-- The frame goes ON LINE; a section's number is the last tried (R97, R100). -/
def Transmission.putOnLine (t : Transmission) (c : Candidate) : Transmission :=
  if c.control then
    { t with control := t.control.modify c.place fun r => { r with phase := .onLine } }
  else
    { t with sendList := t.sendList.modify c.place fun r =>
        { r with phase := .onLine, lastTried := some r.done } }

/-! ### The control queue and the reply watch (R108, R111, R116) -/

/-- A record joins the tail with the next control sequence, READY with fresh counts; nothing when six
records are in the queue (R108, R109, R116). -/
def Transmission.queueControl (t : Transmission) (kind : FrameKind) (dest number : Nat)
    (text : List Code) (watch : Option Nat) : Option Transmission :=
  if t.control.length < Config.controlPlaces then
    some { t with
      control := t.control ++ [{ kind := kind, dest := dest, seq := t.seqCounter, number := number
                                 text := text, phase := .ready, counts := Counts.zero, delay := 0
                                 watch := watch }]
      seqCounter := (t.seqCounter + 1) % 8 }
  else none

/-- The lowest free place of the reply watch. -/
def Transmission.freeWatch (t : Transmission) : Nat :=
  ((List.range Config.watchPlaces).find? fun n => !(t.watch.any fun r => r.slot == n)).getD 0

/-- The reply a request awaits: IDENT for a WHO, STATUS for an ENQUIRE (R111). -/
def awaitedKind : FrameKind → FrameKind
  | .who => .ident
  | _ => .status

/-- The operator's WHO or ENQ: a control record and a RESERVED reply-watch record, or nothing when either
is lacking (R111, R136). -/
def Transmission.queueRequest (t : Transmission) (kind : FrameKind) (dest : Nat) : Option Transmission :=
  if t.watch.length < Config.watchPlaces then
    (t.queueControl kind dest 0 [] (some t.freeWatch)).map fun t' =>
      { t' with watch := t'.watch ++ [{ slot := t.freeWatch, peer := dest, kind := awaitedKind kind
                                        timer := none }] }
  else none

/-- Remove the reply-watch record of a slot; no control record keeps a link to it. -/
def Transmission.dropWatch (t : Transmission) (slot : Nat) : Transmission :=
  { t with watch := t.watch.filter fun r => r.slot != slot
           control := t.control.map fun r => if r.watch = some slot then { r with watch := none } else r }

/-- A received IDENT or STATUS satisfies the oldest record with that peer and kind (R111). -/
def Transmission.satisfyWatch (t : Transmission) (peer : Nat) (kind : FrameKind) : Transmission :=
  match t.watch.find? fun r => r.peer == peer && r.kind == kind with
  | none => t
  | some r => t.dropWatch r.slot

/-- An answered WHO or ENQUIRE starts its record's 10 s, if it is still RESERVED (R111). -/
def Transmission.startWatch (t : Transmission) : Option Nat → Transmission
  | none => t
  | some slot =>
    { t with watch := t.watch.map fun r =>
        if r.slot = slot ∧ r.timer = none then { r with timer := some Config.replyTime } else r }

/-! ### The frame on line -/

/-- Which frame is ON LINE: at most one, since the transmitter carries one. -/
inductive OnLine where
  | none
  | message (r : SendRec)
  | control (place : Nat) (r : ControlRec)
  deriving DecidableEq, Repr

def findControlOnLine : Nat → List ControlRec → OnLine
  | _, [] => .none
  | i, r :: rest => if r.phase = .onLine then .control i r else findControlOnLine (i + 1) rest

def Transmission.onLine (t : Transmission) : OnLine :=
  match t.sendList.find? fun r => r.phase == .onLine with
  | some r => .message r
  | none => findControlOnLine 0 t.control

def Transmission.updateMessage (t : Transmission) (entry : Nat) (f : SendRec → SendRec) : Transmission :=
  { t with sendList := t.sendList.map fun r => if r.entry = entry then f r else r }

def Transmission.updateControl (t : Transmission) (place : Nat) (f : ControlRec → ControlRec) :
    Transmission :=
  { t with control := t.control.modify place f }

def State.withSend (s : State) (t : Transmission) : State := { s with send := t }

/-! ### Abandonment (R105, R110, R140) -/

/-- A message leaves the send list, and the next message to its destination may become ready (R98). -/
def State.leaveSendList (s : State) (entry : Nat) : State :=
  { s with send := { s.send with sendList := s.send.sendList.filter fun r => r.entry != entry } }.refreshSections

/-- The keyboard unit's part of an abandonment: the message ceases to be current, and a composer still
composing it is closed, with one ring except for RESTART (R140). -/
def State.composerLoses (s : State) (entry : Nat) (bell : Bool) : State :=
  let s' := { s with kb := s.kb.loseMessage entry }
  if bell && s.kb.isComposing entry then s'.ring else s'

/-- Abandon a message (R105): SEND is removed and the entry freed, the composer closed if it was composing
it, the record leaves the list, and the notice (none for RESTART) and one journal entry are made. -/
def State.abandonMessage (s : State) (r : SendRec) (why : JournalReason) (notice : Option NoticeReason) :
    State :=
  let s := { s with store := s.store.abandonEntry r.entry }
  let s := s.composerLoses r.entry notice.isSome
  let s := s.leaveSendList r.entry
  let s := match notice with
    | none => s
    | some n => s.notice (.notSent r.number r.dest r.cls r.lastTried n)
  s.log .sendAbandoned { peer := some r.dest, number := some r.number, cls := some r.cls
                         sections := some r.done, reason := some why }

/-- Abandon the control record at a place (R110): it leaves the queue with one journal entry; a WHO or
ENQUIRE also places its notice and gives up its reply-watch record. -/
def State.abandonControl (s : State) (place : Nat) (r : ControlRec) (why : JournalReason)
    (notice : NoticeReason) : State :=
  let t := { s.send with control := s.send.control.eraseIdx place }
  let t := match r.watch with
    | none => t
    | some slot => t.dropWatch slot
  let s := s.withSend t
  let s := if r.kind = .who ∨ r.kind = .enquire then s.notice (.controlNotSent r.kind r.dest notice) else s
  s.log .sendAbandoned { peer := some r.dest, frame := some r.kind
                         number := if r.kind = .release then some r.number else none
                         reason := some why }

/-! ### Reports of the line unit (R101 to R104, R110, R112) -/

/-- A loss: n rises by one up to 15 and the frame is READY (R46, R100). -/
def Counts.lose (c : Counts) : Counts := { c with n := min Config.maxLosses (c.n + 1) }

def State.reportLoss (s : State) : State :=
  match s.send.onLine with
  | .none => s
  | .message r =>
    s.withSend (s.send.updateMessage r.entry fun r => { r with phase := .ready, counts := r.counts.lose })
  | .control i _ =>
    s.withSend (s.send.updateControl i fun r => { r with phase := .ready, counts := r.counts.lose })

/-- The message is SENT (R102): notice, journal entry, SEND removed and the entry freed, the record leaves
the list; the message ceases to be current (R140). -/
def State.messageSent (s : State) (r : SendRec) : State :=
  let s := s.notice (.sent r.number r.dest)
  let s := s.log .sent { peer := some r.dest, number := some r.number, cls := some r.cls
                         sections := some (r.done + 1) }
  let s := { s with store := s.store.removeObligation .send r.entry, kb := s.kb.loseMessage r.entry }
  s.leaveSendList r.entry

/-- The section is done: the next becomes current with fresh counts, or the message is SENT (R102). -/
def State.sectionDone (s : State) (r : SendRec) : State :=
  if isFinalSection s.store r then s.messageSent r
  else (s.withSend (s.send.updateMessage r.entry fun r =>
    { r with phase := .pending, done := r.done + 1, counts := Counts.zero, delay := 0 })).refreshSections

/-- ACCEPT, DUPLICATE, or a circular frame completed (R102, R110, R112). -/
def State.reportDone (s : State) : State :=
  match s.send.onLine with
  | .none => s
  | .message r => s.sectionDone r
  | .control i r =>
    s.withSend { s.send.startWatch r.watch with control := s.send.control.eraseIdx i }

/-- WAIT: the count rises; the 30th abandons with STORE FULL, otherwise the frame is DELAYED 2 s (R103, R110). -/
def State.reportWait (s : State) : State :=
  match s.send.onLine with
  | .none => s
  | .message r =>
    if r.counts.waits + 1 ≥ Config.waitLimit then s.abandonMessage r .storeFull (some .storeFull)
    else s.withSend (s.send.updateMessage r.entry fun r =>
      { r with phase := .delayed, delay := Config.waitDelay
               counts := { r.counts with waits := r.counts.waits + 1 } })
  | .control i r =>
    if r.counts.waits + 1 ≥ Config.waitLimit then s.abandonControl i r .storeFull .storeFull
    else s.withSend (s.send.updateControl i fun r =>
      { r with phase := .delayed, delay := Config.waitDelay
               counts := { r.counts with waits := r.counts.waits + 1 } })

/-- ENGAGED: the count rises; the 24th abandons with ENGAGED, otherwise the frame is DELAYED 5 s. -/
def State.reportEngaged (s : State) : State :=
  match s.send.onLine with
  | .none => s
  | .message r =>
    if r.counts.engageds + 1 ≥ Config.engagedLimit then s.abandonMessage r .engaged (some .engaged)
    else s.withSend (s.send.updateMessage r.entry fun r =>
      { r with phase := .delayed, delay := Config.engagedDelay
               counts := { r.counts with engageds := r.counts.engageds + 1 } })
  | .control i r =>
    if r.counts.engageds + 1 ≥ Config.engagedLimit then s.abandonControl i r .engaged .engaged
    else s.withSend (s.send.updateControl i fun r =>
      { r with phase := .delayed, delay := Config.engagedDelay
               counts := { r.counts with engageds := r.counts.engageds + 1 } })

/-- REFUSE abandons (R104, R110). -/
def State.reportRefuse (s : State) : State :=
  match s.send.onLine with
  | .none => s
  | .message r => s.abandonMessage r .refused (some .refused)
  | .control i r => s.abandonControl i r .refused .refused

/-- No answer, a garbled answer or a collision: the try count rises; at the try limit the frame is
abandoned with NO ANSWER, otherwise it is READY at once (R104, R110). -/
def State.reportNoAnswer (s : State) : State :=
  match s.send.onLine with
  | .none => s
  | .message r =>
    if r.counts.tries + 1 ≥ s.panel.settings.tryLimit then s.abandonMessage r .noAnswer (some .noAnswer)
    else s.withSend (s.send.updateMessage r.entry fun r =>
      { r with phase := .ready, counts := { r.counts with tries := r.counts.tries + 1 } })
  | .control i r =>
    if r.counts.tries + 1 ≥ s.panel.settings.tryLimit then s.abandonControl i r .noAnswer .noAnswer
    else s.withSend (s.send.updateControl i fun r =>
      { r with phase := .ready, counts := { r.counts with tries := r.counts.tries + 1 } })

/-- A delay expires and the frame returns to READY (R100, R103). -/
def Transmission.delayExpired (t : Transmission) : DelayRef → Transmission
  | .message entry =>
    t.updateMessage entry fun r =>
      if r.phase = .delayed then { r with phase := .ready, delay := 0 } else r
  | .control place =>
    t.updateControl place fun r =>
      if r.phase = .delayed then { r with phase := .ready, delay := 0 } else r

/-! ### The transmitter and its receiver when an attempt ends -/

/-- Entering HUNT discards what has been assembled (R17). -/
def LineUnit.hunt (l : LineUnit) : LineUnit :=
  { l with rx := .hunt, asm := Assembly.empty, answerDue := none, answering := false, ansCells := [] }

/-- The transmitter returns to IDLE and drives nothing. -/
def LineUnit.txIdle (l : LineUnit) : LineUnit :=
  { l with tx := .idle, txCells := [], txSent := 0, breakCells := 0, outFrame := none }

/-- The break signal begins; the station's receiver enters HUNT at its first cell (R31). -/
def LineUnit.startBreak (l : LineUnit) : LineUnit :=
  { l.hunt with tx := .breaking, txCells := [], txSent := 0, breakCells := 0, outFrame := none }

/-- An attempt is cut in CONTEND. At the boundary of its start cell, which the selection has already taken, the
start cell is still driven; later the station stops with the cell that begins (R31, R51). -/
def LineUnit.leaveContention (l : LineUnit) : LineUnit := { l.txIdle.hunt with startOwed := l.txSent == 0 }

/-- BREAK or RESTART at the transmitter: R31's second column. -/
def LineUnit.cut (l : LineUnit) : LineUnit :=
  match l.tx with
  | .idle => l
  | .contend => l.leaveContention
  | .send => l.startBreak
  | .awaitAnswer => l
  | .breaking => l

/-- RESTART: every message is abandoned without notice, in list order (R118). -/
def abandonAll : List SendRec → State → State
  | [], s => s
  | r :: rest, s => abandonAll rest (s.abandonMessage r .restart none)

/-- RESTART at the transmission controller (R118). -/
def State.restartSending (s : State) : State :=
  let s := abandonAll s.send.sendList s
  { s with send := { s.send with sendList := [], control := [], watch := [] } }

end Sys2Proof.Machine
end

