-- ==== Sys2Proof/Machine/Composer.lean ====
section
/-! DEFINITION. The composer: the codes of a keystroke, writing and releasing blocks, opening and ending a
message, LOCAL typing, destination and time entry, and the routes of a key (chapter 7, R10 to R12). -/
namespace Sys2Proof.Machine

/-! ### Codes and case (R10, R12) -/

/-- The composer's case after a code it emitted. -/
def caseAfter (cs : CompCase) (c : Code) : CompCase :=
  if c.val = 30 then .figures
  else if c.val = 31 then .letters
  else if c.val = 1 ∧ cs = .figures then .unknown
  else cs

/-- What a keystroke emits. -/
def emitsOf (answerback : List Code) (k : Keystroke) : List Emit :=
  match k.key with
  | .code i => if k.shift then [.figure (keyCode i)] else [.letter (keyCode i)]
  | .space => [.raw 1]
  | .ret => [.raw 2, .raw 3, .returnRelease]
  | .lineFeed => [.raw 3]
  | .hereIs => .leadShift :: answerback.map Emit.raw
  | _ => []

/-- The next code of an element in the case at this moment, and what is left of the element: a character
that needs a shift is kept behind it, so that a release at the shift brings a fresh one (R10). The leading shift
of HERE IS is not kept: when it is a block's 32nd code, the answerback follows in the next block without a fresh
one, which is the model's choice between R12 and R129 (log 39). -/
def emission (cs : CompCase) : Emit → Option (Code × List Emit)
  | .letter c => if cs = .letters then some (c, []) else some (31, [.letter c])
  | .figure c => if cs = .figures then some (c, []) else some (30, [.figure c])
  | .leadShift => if cs = .letters then none else some (31, [])
  | .raw c => some (c, [])
  | .returnRelease => none

/-- More steps than any keystroke takes: 21 codes, each with a shift and a block request. -/
def emitFuel : Nat := 100

def State.withKb (s : State) (kb : Keyboard) : State := { s with kb := kb }

/-! ### The keystroke in hand (R123) -/

/-- The keystroke at the head has been acted on and leaves the queue. -/
def State.keyDone (s : State) : State :=
  s.withKb { s.kb with queue := s.kb.queue.tail, hold := .none }

/-- The bell rings once and the key is discarded (R124). -/
def State.keyBell (s : State) : State := s.keyDone.ring

/-- LINE-READY when a destination is held, LINE-IDLE otherwise (7.3, R127). -/
def Keyboard.settled (kb : Keyboard) : CompState := if kb.dest.isSome then .lineReady else .lineIdle

/-- A key that is no digit ends an entry with the bell; the composer returns to the state it came from
(R125, R126). -/
def Keyboard.entryFrom (kb : Keyboard) : CompState :=
  match kb.comp with
  | .timeEntry true _ => .localMode
  | _ => kb.settled

def State.entryEnds (s : State) : State := s.keyBell.withKb { s.keyBell.kb with comp := s.kb.entryFrom }

/-! ### Section release (R130, R131, R132) -/

/-- The open block is released: the case becomes unknown, the idle-release timer stops, and the block is
the transmission controller's next section (R61, R100). -/
def State.release (s : State) (slot : Nat) (final : Bool) : State :=
  { s with store := s.store.releaseOpen slot final
           kb := { s.kb with case := .unknown, idleTimer := none } }.refreshSections

/-- The configured idle-release time T (R131). -/
def State.releaseTime (s : State) : Nat := s.panel.settings.idleReleaseS * Config.second

/-- The idle threshold against the latch as it stands: T while it is clear, 2T while it is set (R131). -/
def State.idleThreshold (s : State) : Nat := (if s.line.latch then 2 else 1) * s.releaseTime

/-- One free block is there for the composer (R64). -/
def Store.hasBlock (st : Store) : Bool := !(st.shortage Config.reserveFurther false).isShort

/-- A code is written to the open block and placed in the echo FIFO in the same step; the 32nd releases
the block (R129, R130, R131, R133). -/
def State.writeCode (s : State) (slot : Nat) (codes : List Code) (c : Code) : State :=
  let s := { s with store := s.store.setOpenCodes slot (codes ++ [c]) }.placeEcho (.code c)
  let s := s.withKb { s.kb with case := caseAfter s.kb.case c, idleTimer := some 0, autoEnd := some 0 }
  if codes.length + 1 ≥ Config.blockCodes then s.release slot false else s

/-- RETURN's release: the option is set, the latch is clear, and the block with code 3 is still open (R130). -/
def State.returnRelease (s : State) (slot : Nat) : State :=
  if s.panel.settings.returnReleases = true ∧ s.line.latch = false ∧ (s.store.openBlock slot).isSome = true then
    s.release slot false
  else s

/-- The composer holds for want of a block; the auto-end timer does not run meanwhile (R129, R133). -/
def State.holdFor (s : State) (h : Hold) : State := s.withKb { s.kb with hold := h, autoEnd := none }

/-- Write the codes of the keystroke in hand to the composition, asking for a block where none is open
(R129). -/
def State.emitLine (slot : Nat) : Nat → List Emit → State → State
  | 0, _, s => s
  | _ + 1, [], s => s.keyDone
  | k + 1, e :: rest, s =>
    if e = .returnRelease then State.emitLine slot k rest (s.returnRelease slot)
    else
      match emission s.kb.case e with
      | none => State.emitLine slot k rest s
      | some (c, left) =>
        match s.store.openCodes slot with
        | some codes => State.emitLine slot k (left ++ rest) (s.writeCode slot codes c)
        | none =>
          if s.store.hasBlock then
            State.emitLine slot k (e :: rest) { s with store := s.store.allocate slot 0 [] false }
          else s.holdFor (.block (e :: rest))

/-- The emission goes to the current message. -/
def State.writeEmits (s : State) (es : List Emit) : State :=
  match s.kb.current with
  | none => s.keyDone
  | some slot => s.emitLine slot emitFuel es

/-! ### Opening (R128, R97) -/

/-- The three things an opening needs at once. -/
def State.canOpen (s : State) : Bool :=
  decide (s.send.sendList.length < Config.sendPlaces) &&
    !(s.store.shortage Config.reserveFurther true).isShort

/-- The counter of message numbers advances, from 255 to 1 (R116). -/
def nextMessage (n : Nat) : Nat := if n ≥ 255 then 1 else n + 1

/-- The opening granted in one step: number, entry, block, record, current message, letters case. -/
def State.openMessage (s : State) (dest cls : Nat) : State :=
  let slot := s.store.freeSlot
  let number := s.send.msgCounter
  { s with
    store := s.store.openMessage dest number cls
    send := { s.send with
      msgCounter := nextMessage number
      sendList := s.send.sendList ++ [{ entry := slot, dest := dest, cls := cls, number := number
                                        phase := .pending, done := 0, counts := Counts.zero, delay := 0
                                        lastTried := none }] }
    kb := { s.kb with current := some slot, comp := .composing, case := .letters, hold := .none
                      idleTimer := none, autoEnd := none } }

/-- A text key or HERE IS in LINE-READY: the opening and the key's codes, or the hold (R128). -/
def State.openAndWrite (s : State) (k : Keystroke) : State :=
  match s.kb.dest with
  | none => s.keyBell
  | some d =>
    if s.canOpen then (s.openMessage d.1 d.2).writeEmits (emitsOf s.panel.settings.answerback k)
    else s.holdFor .opening

/-! ### LOCAL typing (R138) -/

def Punch.fifoFull (p : Punch) : Bool := decide (p.fifo.length ≥ Config.punchPlaces)

/-- A code joins the local punch FIFO. -/
def State.pushPunch (s : State) (c : Code) : State :=
  { s with punch := { s.punch with fifo := s.punch.fifo ++ [c] } }

/-- Emit codes in LOCAL: each to the echo, and with PUNCH selected to the local punch FIFO, where a full
FIFO holds it. -/
def State.emitLocal : Nat → List Emit → State → State
  | 0, _, s => s
  | _ + 1, [], s => s.keyDone
  | k + 1, e :: rest, s =>
    match emission s.kb.case e with
    | none => State.emitLocal k rest s
    | some (c, left) =>
      let s := s.placeEcho (.code c)
      let s := s.withKb { s.kb with case := caseAfter s.kb.case c }
      if s.panel.punchSel then
        if s.punch.fifoFull then s.withKb { s.kb with hold := .localCode c (left ++ rest) }
        else State.emitLocal k (left ++ rest) (s.pushPunch c)
      else State.emitLocal k (left ++ rest) s

/-- The held LOCAL code is resumed: it joins the punch FIFO when there is room, or goes to the echo alone,
where it already is, when PUNCH is off (R138). -/
def State.resumeLocal (s : State) : State :=
  match s.kb.hold with
  | .localCode c rest =>
    if s.panel.punchSel then
      if s.punch.fifoFull then s else (s.pushPunch c).emitLocal emitFuel rest
    else s.emitLocal emitFuel rest
  | _ => s

/-! ### Keys that produce text (R124) -/

/-- A text key or HERE IS at the head of the queue. -/
def State.takeText (s : State) (k : Keystroke) : State :=
  match s.kb.comp with
  | .lineIdle => s.keyBell
  | .lineReady => s.openAndWrite k
  | .composing => s.writeEmits (emitsOf s.panel.settings.answerback k)
  | .localMode => s.emitLocal emitFuel (emitsOf s.panel.settings.answerback k)
  | .destEntry _ _ _ => s.entryEnds
  | .timeEntry _ _ => s.entryEnds

/-! ### END and the auto end (R132, R133) -/

/-- Sections already released of an entry. -/
def Store.released (st : Store) (slot : Nat) : Nat :=
  match st.entry slot with
  | none => 0
  | some e => e.sections

/-- The composer is back in LINE-READY with both timers stopped; END leaves the queue, an auto end does
not stand in it. -/
def State.ended (s : State) (fromKey : Bool) : State :=
  let s := s.withKb { s.kb with comp := .lineReady, idleTimer := none, autoEnd := none, hold := .none }
  if fromKey then s.keyDone else s

/-- An empty composition is withdrawn: entry and record go, without notice or journal entry (R61, R132). -/
def State.withdraw (s : State) (slot : Nat) : State :=
  let s := { s with store := s.store.abandonEntry slot }
  (s.withKb { s.kb with current := none }).leaveSendList slot

/-- End the message of this entry. -/
def State.endMessage (s : State) (slot : Nat) (fromKey : Bool) : State :=
  match s.store.openCodes slot with
  | some codes =>
    if codes.isEmpty = true ∧ s.store.released slot = 0 then (s.withdraw slot).ended fromKey
    else (s.release slot true).ended fromKey
  | none =>
    if s.store.hasBlock then
      ({ s with store := s.store.allocate slot 0 [] false }.release slot true).ended fromKey
    else s.holdFor (if fromKey then .endBlock else .autoEnd)

def State.endCurrent (s : State) (fromKey : Bool) : State :=
  match s.kb.current with
  | none => s.ended fromKey
  | some slot => s.endMessage slot fromKey

/-- END at the head of the queue. -/
def State.takeEnd (s : State) : State :=
  match s.kb.comp with
  | .composing => s.endCurrent true
  | .destEntry _ _ _ => s.entryEnds
  | .timeEntry _ _ => s.entryEnds
  | .lineIdle => s.keyBell
  | .lineReady => s.keyBell
  | .localMode => s.keyBell

/-- The auto end: its marker joins the echo, then the message ends as by END (R133). -/
def State.autoEnds (s : State) : State := (s.placeEcho .autoEnd).endCurrent false

/-- The open block of the message being composed, when it holds codes. -/
def State.releasable (s : State) : Option Nat :=
  match s.kb.comp, s.kb.current with
  | .composing, some slot =>
    match s.store.openCodes slot with
    | some (_ :: _) => some slot
    | _ => none
  | _, _ => none

/-! ### ERASE (R11, R134) -/

/-- The case recomputed from the codes that remain: from letters while no section has been released. -/
def recomputed (released : Nat) (codes : List Code) : CompCase :=
  codes.foldl caseAfter (if released = 0 then .letters else .unknown)

/-- The case an erase marker carries: unknown is carried as letters. -/
def markerCase : CompCase → PrintCase
  | .figures => .figures
  | .letters => .letters
  | .unknown => .letters

def State.eraseLast (s : State) (slot : Nat) (codes : List Code) : State :=
  let kept := codes.dropLast
  let cs := recomputed (s.store.released slot) kept
  let s := { s with store := s.store.setOpenCodes slot kept }.placeEcho (.eraseMarker (markerCase cs))
  (s.withKb { s.kb with case := cs, idleTimer := if kept.isEmpty then none else some 0 }).keyDone

def State.eraseComposing (s : State) : State :=
  match s.kb.current with
  | none => s.keyBell
  | some slot =>
    match s.store.openCodes slot with
    | none => s.keyBell
    | some [] => s.keyBell
    | some (c :: rest) => s.eraseLast slot (c :: rest)

/-- ERASE in LOCAL: the marker and the case are letters, and with PUNCH selected code 31 is punched. -/
def State.eraseLocal (s : State) : State :=
  let s := (s.placeEcho (.eraseMarker .letters)).withKb { s.kb with case := .letters }
  if s.panel.punchSel then
    if s.punch.fifoFull then s.withKb { s.kb with hold := .localCode 31 [] } else (s.pushPunch 31).keyDone
  else s.keyDone

def State.takeErase (s : State) : State :=
  match s.kb.comp with
  | .composing => s.eraseComposing
  | .localMode => s.eraseLocal
  | .lineIdle => s.keyBell
  | .lineReady => s.keyBell
  | .destEntry _ _ _ => s.entryEnds
  | .timeEntry _ _ => s.entryEnds

/-! ### Destination and time entry (R125, R126) -/

/-- DEST at the head of the queue. -/
def State.takeDest (s : State) (k : Keystroke) : State :=
  match s.kb.comp with
  | .lineIdle =>
    s.keyDone.withKb { s.keyDone.kb with comp := .destEntry (if k.shift then 0 else 1) false none }
  | .lineReady =>
    s.keyDone.withKb { s.keyDone.kb with comp := .destEntry (if k.shift then 0 else 1) false none }
  | .destEntry _ false _ => s.keyDone.withKb { s.keyDone.kb with comp := .destEntry 2 true none }
  | .destEntry cls true _ => s.keyBell.withKb { s.keyBell.kb with comp := .destEntry cls true none }
  | .timeEntry _ _ => s.entryEnds
  | .composing => s.keyBell
  | .localMode => s.keyBell

/-- A complete number dd: a destination is taken when it is 00 or another station's number. -/
def State.judgeDest (s : State) (cls dd : Nat) : State :=
  if dd ≤ 62 ∧ s.own ≠ some dd then
    let s := s.keyDone.placeEcho (.destMarker dd cls)
    s.withKb { s.kb with dest := some (dd, cls), comp := .lineReady }
  else s.keyBell.withKb { s.keyBell.kb with comp := .destEntry cls true none }

/-- A digit taken in DEST-ENTRY. -/
def State.takeDestDigit (s : State) (d : Nat) : State :=
  match s.kb.comp with
  | .destEntry cls _ none => s.keyDone.withKb { s.keyDone.kb with comp := .destEntry cls true (some d) }
  | .destEntry cls _ (some d1) => s.judgeDest cls (10 * d1 + d)
  | _ => s

/-- TIME at the head of the queue. -/
def State.takeTime (s : State) : State :=
  match s.kb.comp with
  | .lineIdle => s.keyDone.withKb { s.keyDone.kb with comp := .timeEntry false [] }
  | .lineReady => s.keyDone.withKb { s.keyDone.kb with comp := .timeEntry false [] }
  | .localMode => s.keyDone.withKb { s.keyDone.kb with comp := .timeEntry true [] }
  | .composing => s.keyBell
  | .destEntry _ _ _ => s.entryEnds
  | .timeEntry _ _ => s.entryEnds

/-- Four digits hhmm: the clock is set when they are a time of day. -/
def State.judgeTime (s : State) (h1 h2 m1 m2 : Nat) : State :=
  let hh := 10 * h1 + h2
  let mm := 10 * m1 + m2
  let t := s.keyDone.withKb { s.keyDone.kb with comp := s.kb.entryFrom }
  if hh ≤ 23 ∧ mm ≤ 59 then { t with journal := t.journal.setClock (hh * 60 + mm) } else t.ring

/-- A digit taken in TIME-ENTRY. -/
def State.takeTimeDigit (s : State) (d : Nat) : State :=
  match s.kb.comp with
  | .timeEntry _ [h1, h2, m1] => s.judgeTime h1 h2 m1 d
  | .timeEntry l ds => s.keyDone.withKb { s.keyDone.kb with comp := .timeEntry l (ds ++ [d]) }
  | _ => s

/-! ### MODE, WHO and ENQ (R127, R136) -/

/-- A LOCAL session begins. -/
def State.beginLocal (s : State) : State :=
  let s := s.withKb { s.kb with comp := .localMode, case := .unknown }
  if s.panel.punchSel then s.punchLocalBegins else s

def State.takeMode (s : State) : State :=
  match s.kb.comp with
  | .lineIdle => if s.panel.configFault then s.keyBell else s.keyDone.beginLocal
  | .lineReady => if s.panel.configFault then s.keyBell else s.keyDone.beginLocal
  | .localMode =>
    if s.panel.configFault then s.keyBell
    else (s.keyDone.withKb { s.keyDone.kb with comp := s.kb.settled }).punchLocalEnds
  | .composing => s.keyBell
  | .destEntry _ _ _ => s.entryEnds
  | .timeEntry _ _ => s.entryEnds

/-- A request to the composer's destination, when that is a single station. -/
def State.request (s : State) (kind : FrameKind) : State :=
  match s.kb.dest with
  | none => s.keyBell
  | some d =>
    if d.1 = 0 then s.keyBell
    else
      match s.send.queueRequest kind d.1 with
      | none => s.keyBell
      | some t => s.keyDone.withSend t

def State.takeRequest (s : State) (kind : FrameKind) : State :=
  match s.kb.comp with
  | .lineReady => s.request kind
  | .composing => s.request kind
  | .lineIdle => s.keyBell
  | .localMode => s.keyBell
  | .destEntry _ _ _ => s.entryEnds
  | .timeEntry _ _ => s.entryEnds

/-! ### BREAK (R113 to R115, R137) -/

/-- The RELEASE of a broken message with sections done, and the notice's reason (R115). -/
def Transmission.breakRelease (t : Transmission) (r : SendRec) : Transmission × NoticeReason :=
  if r.done = 0 then (t, .break)
  else
    match t.queueControl .release r.dest r.number [] none with
    | none => (t, .breakNoRelease)
    | some t' => (t', .break)

/-- The keystroke queue is emptied, the entry in hand included. -/
def Keyboard.emptyQueue (kb : Keyboard) : Keyboard := { kb with queue := [], hold := .none }

/-- BREAK abandons the current message: the line action of R114, the RELEASE, the abandonment, the queue. -/
def State.breakMessage (s : State) (r : SendRec) : State :=
  let b := s.send.breakRelease r
  let s := { s with line := if r.phase = Phase.onLine then s.line.cut else s.line }
  let s := (s.withSend b.1).abandonMessage r .break (some b.2)
  s.withKb s.kb.emptyQueue

/-- The send-list record of the current message. -/
def State.currentRecord (s : State) : Option SendRec :=
  match s.kb.current with
  | none => none
  | some slot => s.send.sendList.find? fun r => r.entry == slot

def State.takeBreak (s : State) : State :=
  match s.currentRecord with
  | none => s.ring
  | some r => s.breakMessage r

/-! ### Closures and releases (R120 to R123) -/

/-- Keys handed on at once, outside the keystroke queue (R122). -/
def isHandedKey : Key → Bool
  | .breakKey | .attend | .print | .punch | .level | .paperFeed | .tapeFeed | .punchResume | .journal => true
  | _ => false

def isVacant : Key → Bool
  | .vacant _ => true
  | _ => false

/-- A registered key goes its way: handed on, or to the queue, or dropped with a ring when 16 are in it. -/
def State.routeKey (s : State) (k : Keystroke) : State :=
  if isHandedKey k.key then s.withKb { s.kb with handed := s.kb.handed ++ [.key k] }
  else if s.kb.queue.length < Config.keyPlaces then s.withKb { s.kb with queue := s.kb.queue ++ [k] }
  else s.ring

/-- A position changes from up to down. -/
def State.closeKey (s : State) (k : Key) : State :=
  if s.kb.down.contains k then s
  else
    let shift := s.kb.down.contains .shift
    let s := s.withKb { s.kb with down := s.kb.down ++ [k] }
    if k = .shift ∨ isVacant k = true ∨ s.kb.held.length ≥ Config.heldKeys then s
    else (s.withKb { s.kb with held := s.kb.held ++ [k] }).routeKey { key := k, shift := shift }

/-- A position changes from down to up; the release of TAPE FEED is handed to the punch unit. -/
def State.openKey (s : State) (k : Key) : State :=
  if s.kb.down.contains k then
    s.withKb { s.kb with down := s.kb.down.filter fun x => x != k, held := s.kb.held.filter fun x => x != k
                         handed := if k = .tapeFeed then s.kb.handed ++ [.tapeFeedRelease] else s.kb.handed }
  else s

/-! ### RESTART (R142) -/

def Keyboard.restart (kb : Keyboard) : Keyboard :=
  { kb with dest := none, comp := if kb.inLocal then .localMode else .lineIdle, case := .unknown
            queue := [], hold := .none, idleTimer := none, autoEnd := none, current := none }

end Sys2Proof.Machine
end

