-- ==== Sys2Proof/Machine/Reception.lean ====
section
/-! DEFINITION. The reception controller: what becomes of each frame handed over, and its answer
(chapter 5). -/
namespace Sys2Proof.Machine

/-! ### The reassembly table (R72 to R75) -/

def Record.restart (r : Record) (origin : Nat) : Record :=
  if r.origin = origin then { r with timer := Config.recordTime } else r

/-- A TEXT frame restarts the timers of its origin's records, before it is judged (R73). -/
def Reception.restartTimers (t : Reception) (origin : Nat) : Reception :=
  { t with hold := t.hold.map fun r => r.restart origin
           circ := t.circ.map fun r => r.restart origin }

/-- The journal's kind and reason for an entry closed with this reason (R74). -/
def closingKind : Option Reason → JournalKind
  | none => .received
  | some _ => .receivedIncomplete

/-- The reason the entry carries once closed: the closing's reason replaces one already set (R57, R74). -/
def closingReason (given : Option Reason) (entry : Option Entry) : Option Reason :=
  match given with
  | some r => some r
  | none =>
    match entry with
    | none => none
    | some e => e.reason

def entrySections : Option Entry → Nat
  | none => 0
  | some e => e.sections

/-- The store's and journal's part of closing a record: the entry is CLOSED with its reason and one journal
entry is made (R74). Removing the record from the table is the caller's. -/
def State.closeRecord (s : State) (r : Record) (reason : Option Reason) : State :=
  let e := s.store.entry r.entry
  let why := closingReason reason e
  { s with store := s.store.closeEntry r.entry reason }.log (closingKind why)
    { peer := some r.origin, number := some r.number, cls := some r.cls
      sections := some (entrySections e), reason := why.map .incomplete }

/-- The hold ends, its record closed (R74). -/
def State.closeHold (s : State) (reason : Option Reason) : State :=
  match s.recv.hold with
  | none => s
  | some r => { s.closeRecord r reason with recv := { s.recv with hold := none } }

def sameRecord (r : Record) (origin number : Nat) : Bool := r.origin == origin && r.number == number

/-- The circular record of this origin and number leaves the table, closed (R74). -/
def State.closeCircular (s : State) (r : Record) (reason : Option Reason) : State :=
  { s.closeRecord r reason with
    recv := { s.recv with circ := s.recv.circ.filter fun x => !sameRecord x r.origin r.number } }

def Reception.findCircular (t : Reception) (origin number : Nat) : Option Record :=
  t.circ.find? fun r => sameRecord r origin number

/-! ### Individual TEXT sections (R76 to R82) -/

/-- A shortage is answered WAIT when the store drains and REFUSE when it does not (R67, R77, R79). -/
def State.shortAnswer (s : State) (sh : Shortage) : AnswerCode :=
  if s.store.draining s.able sh then .wait else .refuse

/-- A receipt IDENT to the origin, dropped when the control queue is full (R82). -/
def State.queueReceipt (s : State) (origin : Nat) : State :=
  match s.send.queueControl .ident origin 0 s.panel.settings.answerback none with
  | none => s
  | some t => s.withSend t

/-- The hold's final section is stored: the hold closes complete, the completion record is set, and an
unattended station queues a receipt (R75, R79, R82). -/
def State.completeHold (s : State) (origin number seq : Nat) : State :=
  let s := s.closeHold none
  let s := { s with recv := { s.recv with completion := some (origin, number, seq) } }
  if s.panel.attended then s else s.queueReceipt origin

/-- A first section with no hold (R77). -/
def State.judgeFirst (s : State) (f : Frame) : State × AnswerCode :=
  if f.cls > s.panel.acceptLevel then (s, .refuse)
  else
    let sh := s.store.shortage Config.reserveFirst true
    if sh.isShort then (s, s.shortAnswer sh)
    else
      let slot := s.store.freeSlot
      let st := s.store.storeFirst f.origin f.number f.cls s.panel.printSel s.panel.punchSel f.text
      let r : Record := { origin := f.origin, number := f.number, cls := f.cls
                          next := (f.seq + 1) % 8, entry := slot, timer := Config.recordTime }
      let completion := match s.recv.completion with
        | none => none
        | some c => if c.1 = f.origin then none else some c
      let s := { s with store := st, recv := { s.recv with hold := some r, completion := completion } }
      (if f.final then s.completeHold f.origin f.number f.seq else s, .accept)

/-- The hold's next section (R79). -/
def State.judgeNext (s : State) (r : Record) (f : Frame) : State × AnswerCode :=
  let sh := s.store.shortage Config.reserveFurther false
  if sh.isShort then (s, s.shortAnswer sh)
  else
    let s := { s with store := s.store.storeSection r.entry 0 f.text
                      recv := { s.recv with hold := some { r with next := (r.next + 1) % 8 } } }
    (if f.final then s.completeHold f.origin f.number f.seq else s, .accept)

/-- A section of the held message (R79, R80). -/
def State.judgeHeld (s : State) (r : Record) (f : Frame) : State × AnswerCode :=
  if f.seq = r.next then s.judgeNext r f
  else if (f.seq + 1) % 8 = r.next then (s, .duplicate)
  else (s.closeHold (some .outOfOrder), .refuse)

/-- The tests of R76 in order. -/
def State.judgeText (s : State) (f : Frame) : State × AnswerCode :=
  let s := { s with recv := s.recv.restartTimers f.origin }
  if s.recv.completion = some (f.origin, f.number, f.seq) then (s, .duplicate)
  else
    match s.recv.hold with
    | none => if f.first then s.judgeFirst f else (s, .refuse)
    | some r =>
      if r.origin ≠ f.origin then (s, .engaged)
      else if r.number = f.number then s.judgeHeld r f
      else if f.first then (s.closeHold (some .superseded)).judgeFirst f
      else (s, .refuse)

/-! ### Circular reception (R83, R84) -/

/-- The discarded-frame count rises by one and stays at 65535 (R26). -/
def LineUnit.discard (l : LineUnit) : LineUnit :=
  { l with discarded := min Config.maxDiscarded (l.discarded + 1) }

def State.discard (s : State) : State := { s with line := s.line.discard }

def circularFields (f : Frame) : JournalFields :=
  { peer := some f.origin, number := some f.number, cls := some f.cls }

/-- Circular records of the origin with another message number, each closed as superseded (R83). -/
def supersede : List Record → State → State
  | [], s => s
  | r :: rest, s => supersede rest (s.closeCircular r (some .superseded))

/-- Steps 3 to 5 of R83. -/
def State.judgeCircularFirst (s : State) (f : Frame) : State :=
  if f.cls > s.panel.acceptLevel then s.log .circularDeclined (circularFields f)
  else if s.recv.circ.length ≥ Config.circularRecords ∨
      (s.store.shortage Config.reserveCircular true).isShort = true then
    s.log .circularMissed (circularFields f)
  else
    let slot := s.store.freeSlot
    let st := s.store.storeFirst f.origin f.number f.cls s.panel.printSel s.panel.punchSel f.text
    let r : Record := { origin := f.origin, number := f.number, cls := f.cls
                        next := (f.seq + 1) % 8, entry := slot, timer := Config.recordTime }
    let s := { s with store := st, recv := { s.recv with circ := s.recv.circ ++ [r] } }
    if f.final then s.closeCircular r none else s

/-- A circular TEXT frame with its first flag (R83). -/
def State.circularFirst (s : State) (f : Frame) : State :=
  let s := { s with recv := s.recv.restartTimers f.origin }
  match s.recv.findCircular f.origin f.number with
  | some _ => s.discard
  | none =>
    (supersede (s.recv.circ.filter fun r => r.origin == f.origin) s).judgeCircularFirst f

/-- A circular TEXT frame without the first flag (R84). -/
def State.circularNext (s : State) (f : Frame) : State :=
  let s := { s with recv := s.recv.restartTimers f.origin }
  match s.recv.findCircular f.origin f.number with
  | none => s.discard
  | some r =>
    if (s.store.shortage Config.reserveFurther false).isShort then
      if f.final then s.closeCircular r (some .gap) else s
    else
      let gap := (f.seq + 8 - r.next) % 8
      let r' := { r with next := (f.seq + 1) % 8 }
      let s := { s with
        store := s.store.storeSection r.entry gap f.text
        recv := { s.recv with circ := s.recv.circ.map fun x =>
                    if sameRecord x r.origin r.number then r' else x } }
      if f.final then s.closeCircular r' none else s

/-! ### Control frames (R86 to R92) -/

/-- The frame repeats the control frame acted on last (R87). -/
def Reception.isRepeat (t : Reception) (f : Frame) : Bool := t.recent == some (f.origin, f.kind, f.seq)

def State.remember (s : State) (f : Frame) : State :=
  { s with recv := { s.recv with recent := some (f.origin, f.kind, f.seq) } }

/-- A WHO or an ENQUIRE: DUPLICATE, WAIT or ACCEPT with its reply queued; an accepted WHO is journalled
(R86). -/
def State.judgeRequest (s : State) (f : Frame) (reply : FrameKind) (text : List Code) :
    State × AnswerCode :=
  if s.recv.isRepeat f then (s, .duplicate)
  else
    match s.send.queueControl reply f.origin 0 text none with
    | none => (s, .wait)
    | some t =>
      let s := (s.withSend t).remember f
      (if f.kind = .who then s.log .whoAnswered { peer := some f.origin } else s, .accept)

def State.judgeWho (s : State) (f : Frame) : State × AnswerCode :=
  s.judgeRequest f .ident s.panel.settings.answerback

/-- The STATUS is composed from the state as it stands (R90). -/
def State.judgeEnquire (s : State) (f : Frame) : State × AnswerCode :=
  s.judgeRequest f .status s.statusCodes

/-- A received IDENT or STATUS: ACCEPT; unless it is a repeat, its notice and the reply watch (R88, R89). -/
def State.judgeReply (s : State) (f : Frame) (n : Notice) : State × AnswerCode :=
  if s.recv.isRepeat f then (s, .accept)
  else
    let s := (s.remember f).notice n
    (s.withSend (s.send.satisfyWatch f.origin f.kind), .accept)

/-- A RELEASE closes the matching open record as cancelled (R92). When the hold and a circular record both
match, the hold is closed and journalled first, which is the model's choice (log 36). -/
def State.actRelease (s : State) (f : Frame) : State :=
  let s := match s.recv.hold with
    | none => s
    | some r => if sameRecord r f.origin f.number then s.closeHold (some .cancelled) else s
  match s.recv.findCircular f.origin f.number with
  | none => s
  | some r => s.closeCircular r (some .cancelled)

/-! ### Timers and RESTART (R73, R96) -/

/-- The record's timer has been restarted in the same moment, so that its expiry does not happen (R93). -/
def Record.justRestarted (r : Record) : Bool := decide (r.timer ≥ Config.recordTime)

/-- A record's timer expires: hold timeout for the hold, gap for a circular record (R73, R74). A section taken
before the waiting expiry has restarted the timer, and the record stays (R93; log 26). -/
def State.recordExpired (s : State) : RecordRef → State
  | .hold =>
    match s.recv.hold with
    | none => s
    | some r => if r.justRestarted then s else s.closeHold (some .holdTimeout)
  | .circular origin number =>
    match s.recv.findCircular origin number with
    | none => s
    | some r => if r.justRestarted then s else s.closeCircular r (some .gap)

def closeAllCircular : List Record → State → State
  | [], s => s
  | r :: rest, s => closeAllCircular rest (s.closeCircular r (some .restart))

/-- RESTART at the reception controller (R96). The hold is closed and journalled first, then the circular
records in the order they were opened, which is the model's choice (log 36). -/
def State.restartReception (s : State) : State :=
  let s := s.closeHold (some .restart)
  let s := closeAllCircular s.recv.circ s
  { s with recv := Reception.initial }

/-! ### Handing a frame over (R27, R29, R35) -/

/-- The receiver has a frame of another transmitter under way, so a frame can complete (R17, R27). -/
def State.receiving (s : State) : Bool :=
  s.live && s.line.rx == .frame && s.line.tx != .contend && s.line.tx != .send

/-- The clash test: a clean frame of the station's own number that it did not send puts it in CLASH
LOCKOUT, once (R35). -/
def State.clashTest (s : State) (f : Frame) : State :=
  match s.own with
  | none => s
  | some n =>
    if f.origin = n ∧ s.line.clash = false then
      ({ s with line := { s.line with clash := true } }.log .clash
        { peer := some n, frame := some f.kind, number := some f.number }).notice (.clash n)
    else s

/-- After an individual frame the answer window opens; after a circular one the receiver is READY (R17). -/
def LineUnit.frameEnds (l : LineUnit) (circular : Bool) : LineUnit :=
  { l with rx := if circular then .ready else .answer, asm := Assembly.empty, winCells := 0
           answerDue := none, answering := false, ansCells := [] }

def State.frameEnds (s : State) (f : Frame) : State :=
  { s.clashTest f with line := (s.clashTest f).line.frameEnds (isCircular f) }

/-- An individual frame for the station: it is handed over unless the station is in CLASH LOCKOUT, and its
answer code goes to the line unit (R27, R29, R95). A station in CONFIG FAULT has no number and is handed
none. -/
def State.handIndividual (s : State) (f : Frame) (judge : State → State × AnswerCode) : State :=
  if s.receiving && !isCircular f && s.own == some f.dest then
    let s := s.frameEnds f
    if s.line.clash then s
    else
      let a := judge s
      { a.1 with line := { a.1.line with answerDue := some (a.2, f.seq) } }
  else s

/-- A circular frame is handed over in every condition in which it can be received (R27). -/
def State.handCircular (s : State) (f : Frame) (act : State → State) : State :=
  if s.receiving && isCircular f then act (s.frameEnds f) else s

end Sys2Proof.Machine
end

