-- ==== Sys2Proof/WellFormed.lean ====
section
/-! DEFINITION. Which commands are well-formed: a frame handed over has passed R24 and is of its row's
kind, a complete image has 32 bytes, and references lie in their ranges. -/
namespace Sys2Proof

open Sys2Proof.Machine

/-- The frame of a reception row: well-formed by R24 and of the row's kind. -/
def frameFor (kind : FrameKind) (f : Frame) : Bool := frameWellFormed f && f.kind == kind

/-- A reference to a reassembly record: a circular record's origin is a station and its message number is
1 to 255 (R72). -/
def recordRefWellFormed : RecordRef → Bool
  | .hold => true
  | .circular o n => decide (1 ≤ o) && decide (o ≤ 62) && decide (1 ≤ n) && decide (n ≤ 255)

/-- A reference to a delayed frame: one of 32 entries, one of six places of the control queue. -/
def delayRefWellFormed : DelayRef → Bool
  | .message e => decide (e < 32)
  | .control p => decide (p < 6)

/-- A command whose data the event could bring. -/
def wellFormed : Instr → Bool
  | .configReadEnd image => image.length == 32 || image.isEmpty
  | .textSection f => frameFor .text f && !isCircular f
  | .circularFirstSection f => frameFor .text f && isCircular f && f.first
  | .circularContinuation f => frameFor .text f && isCircular f && !f.first
  | .who f => frameFor .who f
  | .enquire f => frameFor .enquire f
  | .ident f => frameFor .ident f
  | .status f => frameFor .status f
  | .release f => frameFor .release f
  | .frameNotHandedOn f => frameWellFormed f
  | .recordTimerExpiry r => recordRefWellFormed r
  | .delayTimerExpiry r => delayRefWellFormed r
  | .replyWatchExpiry p => decide (p < 4)
  | .powerOn | .configReadAttemptFailed | .configReadRetry | .restart | .lineFree | .lineFault
  | .loadWindowEnd | .framingError | .truncation | .malformedFrame | .checkFailure | .breakRead
  | .answerStart | .answerEchoMismatch | .startCellDriven | .loss | .arbitrationWon
  | .collision | .individualFrameSent | .circularFrameCompleted | .accept | .duplicate | .wait
  | .engaged | .refuse | .answerGarbled | .answerWindowEnd | .breakSignalEnd | .keyClosure _
  | .keyRelease _ | .textKey | .hereIs | .erase | .endKey | .dest | .destinationDigit | .whoKey
  | .enq | .mode | .time | .timeDigit | .breakKey | .openingRepeated | .blockRequestRepeated
  | .localCodeResumed | .idleReleaseExpiry | .autoEndExpiry | .attend | .print | .punch
  | .level | .paperFeed | .tapeFeed | .tapeFeedRelease | .punchResume | .journal _
  | .printOperationComplete | .motorStartComplete | .motorStopComplete | .motorIdleExpiry
  | .echoIdleExpiry | .paperOut | .paperPresent | .punchOperationComplete _ _ | .tapeOut
  | .tapePresent | .tapeLow | .tapeLowCleared | .dayClockDividerExpiry | .lampFlash
  | .frameStartCell | .answerComplete | .restartContactOpened => true

end Sys2Proof
end

