-- ==== Sys2Proof/Machine/Command.lean ====
section
/-! DEFINITION. What the commands share: the guard of the configuration read, the key at the head of the
queue, keys handed on, reports of the line unit, the idle time of the motor, and the stalls of the punch. -/
namespace Sys2Proof.Machine

/-- Every command answers a next state: the block has no event that ends operation. -/
abbrev Result := Host.Outcome State Fault Refusal

/-- An effect of a command after the configuration read; before its end the blocks wait and the command
has no effect (R191, R198; log 29). -/
def State.whenLive (s : State) (f : State → State) : State := if s.live then f s else s

/-- The same, the mechanism units then acting of their own accord. -/
def State.acting (s : State) (f : State → State) : State := s.whenLive fun s => (f s).settle

/-- An effect that needs a condition; without it the event cannot arise and has no effect (log 3). -/
def State.given (s : State) (c : Bool) (f : State → State) : State := if c then f s else s

/-! ### Keys -/

/-- The keystroke the composer may take: the head of the queue while nothing is held (R123). -/
def State.headKey (s : State) : Option Keystroke :=
  match s.kb.hold with
  | .none => s.kb.queue.head?
  | _ => none

/-- The composer takes the head of the queue when it is the key of the command (log 10). -/
def State.takeHead (s : State) (mine : Keystroke → Bool) (f : Keystroke → State → State) : State :=
  match s.headKey with
  | none => s
  | some k => if mine k then f k s else s

/-- A key handed on outside the queue is taken by its owner (R122; log 9). -/
def isHanded (key : Key) : Handed → Bool
  | .key k => k.key == key
  | .tapeFeedRelease => false

def State.takeHanded (s : State) (key : Key) : State :=
  s.withKb { s.kb with handed := s.kb.handed.eraseP (isHanded key) }

/-- Destination or time entry is under way, so that a digit is a digit (R125, R126). -/
def Keyboard.inDestEntry (kb : Keyboard) : Bool :=
  match kb.comp with
  | .destEntry _ _ _ => true
  | _ => false

def Keyboard.inTimeEntry (kb : Keyboard) : Bool :=
  match kb.comp with
  | .timeEntry _ _ => true
  | _ => false

/-- A text key that is not taken as a digit. -/
def Keyboard.takesAsText (kb : Keyboard) (k : Keystroke) : Bool :=
  isTextKey k.key && !((kb.inDestEntry || kb.inTimeEntry) && (digitOf k).isSome)

/-! ### The line unit -/

/-- The receiver is READY with nothing of an exchange left. -/
def LineUnit.readyRx (l : LineUnit) : LineUnit :=
  { l with rx := .ready, asm := Assembly.empty, winCells := 0, answerDue := none, answering := false
           ansCells := [] }

/-- The station drives a frame: the transmitter is in CONTEND or SEND. -/
def LineUnit.driving (l : LineUnit) : Bool := l.tx == .contend || l.tx == .send

def State.withLine (s : State) (l : LineUnit) : State := { s with line := l }

/-- A discard of the frame under way: counted unless the frame is the station's own, and HUNT (R26). -/
def LineUnit.discardFrame (l : LineUnit) : LineUnit := l.discard.hunt

/-- The transmitter awaits an answer and none will come: no answer is reported, the transmitter IDLE (R30). -/
def State.answerLost (s : State) : State :=
  if s.line.tx = .awaitAnswer then (s.withLine s.line.txIdle).reportNoAnswer else s

/-- An answer has been read, the transmitter IDLE and the receiver READY, and its report is acted on (R30). -/
def State.answered (s : State) (report : State → State) : State :=
  s.acting fun s => s.given (s.line.tx == .awaitAnswer) fun s =>
    report (s.withLine s.line.txIdle.readyRx)

/-! ### The motor (R146) -/

def State.withPrint (s : State) (p : PrintUnit) : State := { s with print := p }

/-- The motor is stopped in this step when its elapsed time has reached the idle time of the selection as it stands
(R146). -/
def State.motorJudged (s : State) : State :=
  if s.print.idling = true ∧ s.print.motorIdle ≥ motorIdleTime s.panel.settings s.panel.attended then
    s.withPrint s.print.stopMotor
  else s

/-! ### Stalls of the punch (R174, R175) -/

/-- The stall with cause TAPE OUT takes hold, with its notice and journal entry. -/
def State.stallTapeOut (s : State) : State :=
  ({ s with punch := { s.punch.takeStall s.panel.settings.leader with stallTapeOut := true } }.notice
    .tapeOut).log .tapeOut {}

/-- The stall with cause PUNCH FAULT takes hold, with its notice and journal entry. -/
def State.stallFault (s : State) : State :=
  ({ s with punch := { s.punch.takeStall s.panel.settings.leader with stallFault := true } }.notice
    .punchFault).log .punchFault {}

/-- The tape-out switch reports out: an occurrence begins unless the punch is stalled with that cause, or
one waits already for the operation in flight. -/
def State.tapeRunsOut (s : State) : State :=
  let s := { s with punch := { s.punch with tapeOut := true } }
  if s.punch.stallTapeOut = true ∨ s.punch.outPending = true then s
  else if s.punch.flight.isSome then { s with punch := { s.punch with outPending := true } }
  else s.stallTapeOut

end Sys2Proof.Machine
end

