-- ==== Sys2Proof/Machine/ConfigCommands.lean ====
section
/-! DEFINITION. Configuration, start, RESTART, the day clock and the lamp flash (chapter 11, R189, R197). -/
namespace Sys2Proof.Machine

/-- Power is applied: every block takes its initial state and the read begins; the inputs keep their
readings (R198). -/
def execPowerOn (s : State) : Result :=
  .next (State.poweredOn s.print.paperPresent s.punch.tapeOut s.punch.tapeLow s.cell s.pending)

def State.withPhase (s : State) (p : ReadPhase) : State := { s with panel := { s.panel with phase := p } }

/-- An attempt of the read fails: the 10 ms wait, or after the third the memory is taken as not
responding (R191). -/
def execConfigReadAttemptFailed (s : State) : Result :=
  .next (match s.panel.phase with
    | .attempt n =>
      if n ≥ 3 then s.withPhase .notResponding else s.withPhase (.retryWait n Config.retryTime)
    | _ => s)

/-- The wait expires and a new attempt begins (R191). -/
def execConfigReadRetry (s : State) : Result :=
  .next (match s.panel.phase with
    | .retryWait n _ => s.withPhase (.attempt (n + 1))
    | _ => s)

/-- The panel at the end of the read: the settings, and the four selections from them (R195, R198). -/
def Panel.taken (p : Panel) (set : Settings) (fault : Bool) : Panel :=
  { p with phase := .done, settings := set, configFault := fault, attended := set.attended
           printSel := set.printOn, punchSel := set.punchOn, acceptLevel := set.acceptLevel }

/-- START or CONFIG FAULT is journalled and the notice placed (R194, R198). -/
def State.reportStart (s : State) (fault : Bool) : State :=
  if fault then (s.log .configFault {}).notice .configFault
  else
    let s := s.log .start {}
    if s.panel.attended then s.notice (.ready (s.own.getD 0)) else s

/-- The read ends with this outcome (R192, R193, R194, R198). In CONFIG FAULT the composer is in LOCAL
(R143). The punch then acts on its tape switches (R182). -/
def State.readEnds (s : State) (image : Option (List Byte)) : State :=
  let set := match image with
    | some im => settingsOf im
    | none => Settings.configFault
  let fault := image.isNone
  let s := { s with panel := s.panel.taken set fault }.reportStart fault
  let s := if fault then s.beginLocal else s
  (if s.punch.tapeOut then s.tapeRunsOut else s).settle

/-- A complete image that is valid, or nothing. -/
def judgeImage (image : List Byte) : Option (List Byte) := if imageValid image then some image else none

/-- The read ends: with a complete image, or with the memory not responding (R191, R192, R198). -/
def execConfigReadEnd (image : List Byte) (s : State) : Result :=
  .next (match s.panel.phase with
    | .attempt _ => s.readEnds (judgeImage image)
    | .notResponding => s.readEnds none
    | _ => s)

/-- RESTART at every block (R199, R39, R96, R118, R142, R167, R182). -/
def State.restartAll (s : State) : State :=
  let s := s.log .restart {}
  let s := s.withLine { s.line.cut with clash := false }
  let s := s.restartReception.restartSending
  let s := s.withKb s.kb.restart
  { s with print := s.print.restart, panel := { s.panel with restartTaken := true } }

/-- The contact has read closed for 1 s; it is taken once for one closure (R199). -/
def execRestart (s : State) : Result :=
  .next (s.acting fun s => s.given (!s.panel.restartTaken) State.restartAll)

/-- The contact has read open for 8 ms (R199). -/
def execRestartContactOpened (s : State) : Result :=
  .next { s with panel := { s.panel with restartTaken := false } }

/-- The 250 ms of the flash are over and the flashing lamps toggle (R197). -/
def execLampFlash (s : State) : Result :=
  .next (s.whenLive fun s =>
    { s with panel := { s.panel with flashOn := !s.panel.flashOn, flashLeft := Config.flashTime } })

/-- The minute of day advances (R189). -/
def execDayClockDividerExpiry (s : State) : Result := .next { s with journal := s.journal.divide }

end Sys2Proof.Machine
end

