-- ==== Sys2Proof/Machine/KeyCommands.lean ====
section
/-! DEFINITION. The key matrix, the keystroke queue, and the composer's timers (chapter 7). -/
namespace Sys2Proof.Machine

/-- A position has read down for 8 ms (R120 to R123). -/
def execKeyClosure (k : Key) (s : State) : Result := .next (s.whenLive fun s => s.closeKey k)

/-- A position has read up for 8 ms (R120, R121). -/
def execKeyRelease (k : Key) (s : State) : Result := .next (s.whenLive fun s => s.openKey k)

/-- A text key at the head of the queue (R124, R128, R129, R138). -/
def execTextKey (s : State) : Result :=
  .next (s.acting fun s => s.takeHead s.kb.takesAsText fun k s => s.takeText k)

/-- HERE IS at the head of the queue (R12, R135). -/
def execHereIs (s : State) : Result :=
  .next (s.acting fun s => s.takeHead (fun k => k.key == .hereIs) fun k s => s.takeText k)

/-- ERASE at the head of the queue (R11, R134). -/
def execErase (s : State) : Result :=
  .next (s.acting fun s => s.takeHead (fun k => k.key == .erase) fun _ s => s.takeErase)

/-- END at the head of the queue (R132). -/
def execEndKey (s : State) : Result :=
  .next (s.acting fun s => s.takeHead (fun k => k.key == .endKey) fun _ s => s.takeEnd)

/-- DEST at the head of the queue (R125). -/
def execDest (s : State) : Result :=
  .next (s.acting fun s => s.takeHead (fun k => k.key == .dest) fun k s => s.takeDest k)

/-- A digit at the head of the queue in DEST-ENTRY (R125). -/
def execDestinationDigit (s : State) : Result :=
  .next (s.acting fun s =>
    s.takeHead (fun k => s.kb.inDestEntry && (digitOf k).isSome) fun k s =>
      s.takeDestDigit ((digitOf k).getD 0))

/-- The WHO key at the head of the queue (R136). -/
def execWhoKey (s : State) : Result :=
  .next (s.acting fun s => s.takeHead (fun k => k.key == .who) fun _ s => s.takeRequest .who)

/-- The ENQ key at the head of the queue (R136). -/
def execEnq (s : State) : Result :=
  .next (s.acting fun s => s.takeHead (fun k => k.key == .enq) fun _ s => s.takeRequest .enquire)

/-- MODE at the head of the queue (R127). -/
def execMode (s : State) : Result :=
  .next (s.acting fun s => s.takeHead (fun k => k.key == .mode) fun _ s => s.takeMode)

/-- TIME at the head of the queue (R126). -/
def execTime (s : State) : Result :=
  .next (s.acting fun s => s.takeHead (fun k => k.key == .time) fun _ s => s.takeTime)

/-- A digit at the head of the queue in TIME-ENTRY (R126, R189). -/
def execTimeDigit (s : State) : Result :=
  .next (s.acting fun s =>
    s.takeHead (fun k => s.kb.inTimeEntry && (digitOf k).isSome) fun k s =>
      s.takeTimeDigit ((digitOf k).getD 0))

/-- BREAK, outside the queue (R113 to R115, R137). -/
def execBreakKey (s : State) : Result :=
  .next (s.acting fun s => (s.takeHanded .breakKey).takeBreak)

/-- A held opening is asked for again, with the keystroke at the head (R128). -/
def State.repeatOpening (s : State) : State :=
  match s.kb.hold, s.kb.queue with
  | .opening, k :: _ => s.openAndWrite k
  | _, _ => s

def execOpeningRepeated (s : State) : Result := .next (s.acting State.repeatOpening)

/-- A held block request is asked again: for a code, for END, or for an auto end (R129, R132, R133). -/
def State.repeatBlock (s : State) : State :=
  match s.kb.hold with
  | .block rest => s.writeEmits rest
  | .endBlock => s.endCurrent true
  | .autoEnd => s.endCurrent false
  | _ => s

def execBlockRequestRepeated (s : State) : Result := .next (s.acting State.repeatBlock)

/-- A held LOCAL code is resumed (R138). -/
def execLocalCodeResumed (s : State) : Result := .next (s.acting State.resumeLocal)

/-- The idle time has been reached: an open block with codes is released (R131). A code or an ERASE taken
before the waiting expiry has restarted the timer, and a latch that has become set before it has raised the
threshold to 2T; the time then lies below the threshold and the block stays open (R131, R141; log 26). -/
def State.idleRelease (s : State) : State :=
  match s.kb.idleTimer, s.releasable with
  | some n, some slot => if n ≥ s.idleThreshold then s.release slot false else s
  | _, _ => s

def execIdleReleaseExpiry (s : State) : Result := .next (s.whenLive State.idleRelease)

/-- 90 s without a code: the message ends (R133). A keystroke taken before the waiting expiry has restarted
the timer from zero with its codes, and the message goes on (R141; log 26). -/
def State.autoEndExpires (s : State) : State :=
  match s.kb.comp, s.kb.autoEnd with
  | .composing, some (_ + 1) => s.autoEnds
  | _, _ => s

def execAutoEndExpiry (s : State) : Result := .next (s.acting State.autoEndExpires)

end Sys2Proof.Machine
end

