-- ==== Sys2Proof/Machine/LineCommands.lean ====
section
/-! DEFINITION. What the line unit reads and the answers it sends (chapter 2, R40 to R44). -/
namespace Sys2Proof.Machine

/-- The line becomes free: HUNT becomes READY, and a LINE FAULT ends (R16, R17, R34). -/
def LineUnit.becomesFree (l : LineUnit) : LineUnit :=
  { l with quietRun := Config.quietCells, domRun := 0, lineFault := false
           rx := if l.rx = .hunt then .ready else l.rx }

def execLineFree (s : State) : Result := .next (s.whenLive fun s => s.withLine s.line.becomesFree)

/-- The transmitter when LINE FAULT begins: the last column of R31. -/
def LineUnit.faultBegins (l : LineUnit) : LineUnit :=
  let l := { l with lineFault := true, quietRun := 0, domRun := max l.domRun Config.faultRun }
  match l.tx with
  | .idle => l.hunt
  | .contend => l.leaveContention
  | .send => l.startBreak
  | .awaitAnswer => l.txIdle.hunt
  | .breaking => l.hunt

/-- A frame on line at the beginning of LINE FAULT is reported as a collision (R31, R104). -/
def LineUnit.carriesFrame (l : LineUnit) : Bool :=
  l.tx == .contend || l.tx == .send || l.tx == .awaitAnswer

/-- LINE FAULT begins, once for an occurrence (R33). Its journal entry and notice come before those of a frame
whose try reaches its limit by it, which is the model's choice (log 36). -/
def State.lineFaultBegins (s : State) : State :=
  let carried := s.line.carriesFrame
  let s := ((s.withLine s.line.faultBegins).log .lineFault {}).notice .lineFault
  if carried then s.reportNoAnswer else s

def execLineFault (s : State) : Result :=
  .next (s.acting fun s => s.given (!s.line.lineFault) State.lineFaultBegins)

/-- A load window ends: E and the latch are replaced, and the next window begins (R40, R41, R44). -/
def LineUnit.windowEnds (l : LineUnit) : LineUnit :=
  let e := loadUpdate l.loadE (loadFigure l.busy)
  { l with busy := 0, windowCells := 0, loadE := e, latch := latchUpdate l.latch e }

/-- A latch that clears with the elapsed time at T or beyond releases the block at once (R131). -/
def State.latchCleared (s : State) : State :=
  match s.kb.idleTimer, s.releasable with
  | some n, some slot => if n ≥ s.releaseTime then s.release slot false else s
  | _, _ => s

def execLoadWindowEnd (s : State) : Result :=
  .next (s.whenLive fun s =>
    let t := s.withLine s.line.windowEnds
    if s.line.latch = true ∧ t.line.latch = false then t.latchCleared else t)

/-- A frame of another station is under way at the receiver. -/
def LineUnit.readsFrame (l : LineUnit) : Bool := l.rx == .frame && !l.driving

/-- A framing error: a frame is malformed, an answer is garbled (R14, R17, R24, R26, R30). -/
def execFramingError (s : State) : Result :=
  .next (s.acting fun s =>
    let runs (l : LineUnit) : LineUnit := { l with domRun := 0, quietRun := 1 }
    if s.line.readsFrame then s.withLine (runs s.line.discardFrame)
    else if s.line.rx = .answer then (s.withLine (runs s.line.hunt)).answerLost
    else s)

/-- A truncation: the third recessive cell after a stop cell, the stop cell recessive itself (R15, R17). -/
def execTruncation (s : State) : Result :=
  .next (s.acting fun s =>
    let runs (l : LineUnit) : LineUnit := { l with domRun := 0, quietRun := max 4 l.quietRun }
    if s.line.readsFrame then s.withLine (runs s.line.discardFrame)
    else if s.line.rx = .answer then (s.withLine (runs s.line.hunt)).answerLost
    else s)

/-- A unit carries a malformed condition (R24, R26). -/
def execMalformedFrame (s : State) : Result :=
  .next (s.whenLive fun s => s.given s.line.readsFrame fun s => s.withLine s.line.discardFrame)

/-- The check units differ from the sums (R25, R26). -/
def execCheckFailure (s : State) : Result :=
  .next (s.whenLive fun s => s.given s.line.readsFrame fun s => s.withLine s.line.discardFrame)

/-- A break is read in FRAME or ANSWER: HUNT without a count; a sender awaiting its answer reports no
answer (R32, R30). -/
def execBreakRead (s : State) : Result :=
  .next (s.acting fun s =>
    let runs (l : LineUnit) : LineUnit := { l with quietRun := 0, domRun := max l.domRun Config.breakRun }
    if s.line.readsFrame then s.withLine (runs s.line.hunt)
    else if s.line.rx = .answer then (s.withLine (runs s.line.hunt)).answerLost
    else s)

/-- A dominant cell of another station in READY is the start cell of a frame (R17, R18). -/
def LineUnit.startRead (l : LineUnit) : LineUnit :=
  { l with rx := .frame, quietRun := 0, domRun := 1, asm := { Assembly.empty with bits := some [] } }

def execFrameStartCell (s : State) : Result :=
  .next (s.whenLive fun s => s.given (s.line.rx == .ready) fun s => s.withLine s.line.startRead)

/-- The frame is one that is not handed on: it is individual, and addressed to another station or met in
CLASH LOCKOUT or CONFIG FAULT, the clash test coming first (R27, R35, R36). -/
def State.notHandedOn (s : State) (f : Frame) : Bool :=
  !isCircular f && (s.own != some f.dest || (s.clashTest f).line.clash)

def execFrameNotHandedOn (f : Frame) (s : State) : Result :=
  .next (s.acting fun s =>
    s.given (frameWellFormed f && s.receiving && s.notHandedOn f) fun s => s.frameEnds f)

/-- The answer decided is driven in the window, unless the station may send none (R28, R29). -/
def State.answerBegins (s : State) : State :=
  match s.line.answerDue with
  | none => s
  | some (code, seq) =>
    if s.line.clash = true ∨ s.line.lineFault = true ∨ s.panel.configFault = true then
      s.withLine { s.line with answerDue := none }
    else
      s.withLine { s.line with answerDue := none, answering := true, ansCells := answerCells code seq }

def execAnswerStart (s : State) : Result :=
  .next (s.whenLive fun s => s.given (s.line.rx == .answer) State.answerBegins)

/-- The answerer reads another level than it drove: it stops, and its receiver is in HUNT (R29). -/
def execAnswerEchoMismatch (s : State) : Result :=
  .next (s.whenLive fun s =>
    s.given (s.line.rx == .answer && s.line.answering) fun s => s.withLine s.line.hunt)

/-- The second answer unit has been sent, or received by a station that did not send the frame (R17). -/
def execAnswerComplete (s : State) : Result :=
  .next (s.whenLive fun s =>
    s.given (s.line.rx == .answer && s.line.tx != .awaitAnswer) fun s => s.withLine s.line.readyRx)

end Sys2Proof.Machine
end

