-- ==== Sys2Proof/Machine/MechanismCommands.lean ====
section
/-! DEFINITION. The two mechanisms: completions, motor and echo timers, paper and tape (chapters 8 and 9). -/
namespace Sys2Proof.Machine

/-- The completion input of the print mechanism (R144, R145; log 11). -/
def State.printCompletes (s : State) : State :=
  s.withPrintSide (s.printSide.complete s.printEnv)

/-- The operation in flight is complete (R144). -/
def execPrintOperationComplete (s : State) : Result := .next (s.acting State.printCompletes)

/-- The motor start is complete (R145). -/
def execMotorStartComplete (s : State) : Result := .next (s.acting State.printCompletes)

/-- The motor stop is complete (R145). -/
def execMotorStopComplete (s : State) : Result := .next (s.acting State.printCompletes)

/-- The motor idle time is over, judged against the selection as it stands: ATTEND or an operation taken before the
waiting expiry has lengthened the idle time or restarted the timer, and the motor then runs on (R146; log 26). -/
def execMotorIdleExpiry (s : State) : Result := .next (s.acting State.motorJudged)

/-- The echo idle timer after its expiry. An item taken before the waiting expiry has stopped the timer, which
stands at zero when the item has emptied the FIFO again, and the 10 s then have not passed (R154; log 26). -/
def PrintUnit.echoIdles (p : PrintUnit) : PrintUnit :=
  { p with echoIdle := p.echoIdle.map fun n => if n = 0 then 0 else max n Config.echoIdleTime }

/-- The echo has been idle for 10 s: the third kind of grant point is judged (R152, R157). -/
def execEchoIdleExpiry (s : State) : Result :=
  .next (s.acting fun s => { s with print := s.print.echoIdles })

/-- Paper out: the stall (R165, R168). When the paper runs out again while the stall's own feed is in flight, R165
enters the stall and R166 ends it at that feed's completion: DESIGN CHOICE, the stall stays, and a further PAPER FEED
with paper present ends it (log 53). -/
def execPaperOut (s : State) : Result :=
  .next { s with print := { s.print with
    paperPresent := false, stalled := true, stallFeed := false, feedBefore := false } }

/-- Paper present; the stall remains (R165). -/
def execPaperPresent (s : State) : Result :=
  .next { s with print := { s.print with paperPresent := true } }

/-- The operation in flight is judged: unchecked when the tape is out, punched when both contacts agree, a
PUNCH FAULT otherwise (R169, R174, R175). -/
def State.punchCompletes (s : State) (sense : Code) (feedHole : Bool) : State :=
  match s.punch.flight with
  | none => s
  | some (c, src) =>
    if s.punch.outPending = true ∨ s.punch.tapeOut = true then s.stallTapeOut
    else if sense = c ∧ feedHole = true then
      { s with punch := { s.punch with flight := none }.sourceAdvances src }
    else s.stallFault

/-- The completion input of the punch (R169). -/
def execPunchOperationComplete (sense : Code) (feedHole : Bool) (s : State) : Result :=
  .next (s.acting fun s => s.punchCompletes sense feedHole)

/-- The tape-out switch reports out; during the configuration read only its reading is kept (R174, R191). -/
def execTapeOut (s : State) : Result :=
  .next (if s.live then s.tapeRunsOut.settle else { s with punch := { s.punch with tapeOut := true } })

/-- The tape-out switch reports tape present (R174). -/
def execTapePresent (s : State) : Result :=
  .next { s with punch := { s.punch with tapeOut := false } }

/-- The tape-low switch reports low (R173). -/
def execTapeLow (s : State) : Result := .next { s with punch := { s.punch with tapeLow := true } }

/-- The tape-low switch clears, and the next copy may begin (R171, R173). -/
def execTapeLowCleared (s : State) : Result :=
  .next { s with punch := { s.punch with tapeLow := false } }.settle

end Sys2Proof.Machine
end

