-- ==== Sys2Proof/Machine/PanelCommands.lean ====
section
/-! DEFINITION. The eight panel keys (R195, R196, R166, R176, R179, R180, R186). Each is taken from the keys
handed on, when it stands there (log 9). -/
namespace Sys2Proof.Machine

def State.withPanel (s : State) (p : Panel) : State := { s with panel := p }
def State.withPunch (s : State) (p : Punch) : State := { s with punch := p }

/-- ATTEND toggles ATTENDED (R195, R146). -/
def execAttend (s : State) : Result :=
  .next (s.acting fun s =>
    let on := !s.panel.attended
    (((s.takeHanded .attend).withPanel { s.panel with attended := on }).motorJudged).notice (.attended on))

/-- PRINT toggles the PRINT selection (R195). -/
def execPrint (s : State) : Result :=
  .next (s.acting fun s =>
    let on := !s.panel.printSel
    ((s.takeHanded .print).withPanel { s.panel with printSel := on }).notice (.printSel on))

/-- PUNCH turned off: the obligations go, the punch is stopped, a held LOCAL code goes to the echo alone
(R63, R138, R180). R180 has the keyboard unit told once the operation in flight has completed, R138 ends the hold
when the selection is turned off: the model lets the code go in this step (log 43). -/
def State.punchOff (s : State) : State :=
  let s := { s with store := s.store.removePunchAll }.withPunch { s.punch with offDue := true }
  s.resumeLocal

/-- PUNCH turned on begins a reservation in LOCAL mode (R177). -/
def State.punchOn (s : State) : State := if s.kb.inLocal then s.punchLocalBegins else s

/-- PUNCH toggles the PUNCH selection (R195). -/
def execPunch (s : State) : Result :=
  .next (s.acting fun s =>
    let on := !s.panel.punchSel
    let t := ((s.takeHanded .punch).withPanel { s.panel with punchSel := on }).notice (.punchSel on)
    if on then t.punchOn else t.punchOff)

/-- 2 becomes 1, 1 becomes 0, 0 becomes 2 (R195). -/
def nextLevel : Nat → Nat
  | 0 => 2
  | n + 1 => n

/-- LEVEL steps the accept level (R195). -/
def execLevel (s : State) : Result :=
  .next (s.acting fun s =>
    let v := nextLevel s.panel.acceptLevel
    ((s.takeHanded .level).withPanel { s.panel with acceptLevel := v }).notice (.level v))

/-- The print unit's part of PAPER FEED with paper present: one feed more. In the stall its completion ends the
stall, and a feed in flight for an earlier PAPER FEED is told apart from it (R166). -/
def PrintUnit.owe (p : PrintUnit) : PrintUnit :=
  { p with owedFeeds := p.owedFeeds + 1, stallFeed := p.stallFeed || p.stalled
           feedBefore := p.feedBefore || (p.stalled && !p.stallFeed && p.flight.feedsPaper) }

/-- PAPER FEED (R166). -/
def execPaperFeed (s : State) : Result :=
  .next (s.acting fun s =>
    let s := s.takeHanded .paperFeed
    if s.print.paperPresent then s.withPrint s.print.owe else s.ring)

/-- The conditions at which TAPE FEED is refused (R179). -/
def Punch.refusesFeed (p : Punch) : Bool :=
  p.stalled || p.copy.isSome || decide (p.markLeft > 0) ||
  (match p.reservation with
   | .waiting _ => true
   | _ => false)

/-- A TAPE FEED closure (R179). -/
def execTapeFeed (s : State) : Result :=
  .next (s.acting fun s =>
    let s := s.takeHanded .tapeFeed
    if s.punch.refusesFeed then s.ring else s.withPunch { s.punch with tapeFeed := true })

/-- The release of TAPE FEED ends the serving (R179). -/
def execTapeFeedRelease (s : State) : Result :=
  .next (s.acting fun s =>
    (s.withKb { s.kb with handed := s.kb.handed.erase .tapeFeedRelease }).withPunch
      { s.punch with tapeFeed := false })

/-- PUNCH RESUME (R176). -/
def execPunchResume (s : State) : Result :=
  .next (s.acting fun s =>
    let s := s.takeHanded .punchResume
    if s.punch.stalled = true ∧ s.punch.tapeOut = false then
      s.withPunch { s.punch with stallTapeOut := false, stallFault := false }
    else s.ring)

/-- JOURNAL with its SHIFT level (R186). -/
def execJournal (shift : Bool) (s : State) : Result :=
  .next (s.acting fun s =>
    let s := s.takeHanded .journal
    if s.journal.report.isSome then s.ring
    else { s with journal := s.journal.beginReport shift })

end Sys2Proof.Machine
end

