-- ==== Sys2Proof/Machine/ReceptionCommands.lean ====
section
/-! DEFINITION. Frames handed over, and the timers of the reassembly table (chapter 5). -/
namespace Sys2Proof.Machine

/-- An individual TEXT frame to the station (R76 to R82). -/
def execTextSection (f : Frame) (s : State) : Result :=
  .next (s.acting fun s =>
    s.given (frameFor .text f) fun s => s.handIndividual f fun s => s.judgeText f)

/-- A circular TEXT frame with the first flag (R83). -/
def execCircularFirstSection (f : Frame) (s : State) : Result :=
  .next (s.acting fun s =>
    s.given (frameFor .text f && f.first) fun s => s.handCircular f fun s => s.circularFirst f)

/-- A circular TEXT frame without the first flag (R84). -/
def execCircularContinuation (f : Frame) (s : State) : Result :=
  .next (s.acting fun s =>
    s.given (frameFor .text f && !f.first) fun s => s.handCircular f fun s => s.circularNext f)

/-- A WHO (R86, R91). -/
def execWho (f : Frame) (s : State) : Result :=
  .next (s.acting fun s => s.given (frameFor .who f) fun s => s.handIndividual f fun s => s.judgeWho f)

/-- An ENQUIRE (R86, R90). -/
def execEnquire (f : Frame) (s : State) : Result :=
  .next (s.acting fun s =>
    s.given (frameFor .enquire f) fun s => s.handIndividual f fun s => s.judgeEnquire f)

/-- An IDENT (R88). -/
def execIdent (f : Frame) (s : State) : Result :=
  .next (s.acting fun s => s.given (frameFor .ident f) fun s =>
    s.handIndividual f fun s => s.judgeReply f (.ident f.origin f.text))

/-- A STATUS (R89). -/
def execStatus (f : Frame) (s : State) : Result :=
  .next (s.acting fun s => s.given (frameFor .status f) fun s =>
    s.handIndividual f fun s => s.judgeReply f (.status f.origin f.text))

/-- A RELEASE: it is answered ACCEPT when individual (R92). -/
def execRelease (f : Frame) (s : State) : Result :=
  .next (s.acting fun s => s.given (frameFor .release f) fun s =>
    if isCircular f then s.handCircular f fun s => s.actRelease f
    else s.handIndividual f fun s => (s.actRelease f, .accept))

/-- A record's 120 s are over (R73). -/
def execRecordTimerExpiry (r : RecordRef) (s : State) : Result :=
  .next (s.acting fun s => s.recordExpired r)

end Sys2Proof.Machine
end

