-- ==== Sys2Proof/Machine/SendCommands.lean ====
section
/-! DEFINITION. The station's own frames: start cell, arbitration, completion, the answers read, and the
timers of sending (R18 to R21, R30, R31, chapters 3 and 6). -/
namespace Sys2Proof.Machine

/-- An attempt may begin: IDLE, the line free, none of the three conditions (R18). -/
def State.mayStart (s : State) : Bool :=
  s.line.tx == .idle && s.line.rx == .ready && decide (s.line.quietRun ≥ Config.quietCells) &&
  !s.line.lineFault && !s.line.clash && !s.panel.configFault

/-- The frame the station would send now, with the candidate it is built from (R47 to R50, R99, R109). -/
def State.offer (s : State) : Option (Candidate × Frame) :=
  match s.own, s.send.select s.line.loadE with
  | some own, some c => (s.frameOf own c).map fun f => (c, f)
  | _, _ => none

/-- The transmitter takes a frame and drives its start cell; the receiver follows it (R18, R21). -/
def LineUnit.contend (l : LineUnit) (f : Frame) : LineUnit :=
  { l with tx := .contend, outFrame := some f, txCells := frameCells f, txSent := 0, rx := .frame
           quietRun := 0, asm := Assembly.empty }

def execStartCellDriven (s : State) : Result :=
  .next (s.whenLive fun s => s.given s.mayStart fun s =>
    match s.offer with
    | none => s
    | some (c, f) => { s with line := s.line.contend f, send := s.send.putOnLine c })

/-- Loss in the arbitration field: the receiver goes on with the winner's frame (R19, R46). -/
def execLoss (s : State) : Result :=
  .next (s.whenLive fun s => s.given (s.line.tx == .contend) fun s =>
    (s.withLine s.line.txIdle).reportLoss)

/-- The tenth arbitration cell has passed (R19, R21). -/
def execArbitrationWon (s : State) : Result :=
  .next (s.whenLive fun s => s.given (s.line.tx == .contend) fun s =>
    s.withLine { s.line with tx := .send })

/-- A collision found by the own-echo check (R20, R104). -/
def execCollision (s : State) : Result :=
  .next (s.acting fun s => s.given s.line.driving fun s => (s.withLine s.line.txIdle.hunt).reportNoAnswer)

/-- The transmitter is in SEND with a frame of this kind of destination. -/
def LineUnit.sends (l : LineUnit) (circular : Bool) : Bool :=
  l.tx == .send && (match l.outFrame with
    | some f => isCircular f == circular
    | none => false)

/-- The stop cell of check B of an individual frame has been sent (R21, R17). -/
def LineUnit.awaits (l : LineUnit) : LineUnit :=
  { l with tx := .awaitAnswer, txCells := [], txSent := 0, rx := .answer, asm := Assembly.empty
           winCells := 0, answerDue := none, answering := false, ansCells := [] }

def execIndividualFrameSent (s : State) : Result :=
  .next (s.whenLive fun s => s.given (s.line.sends false) fun s => s.withLine s.line.awaits)

/-- A circular frame has been sent whole; it is done as for ACCEPT (R21, R112). -/
def execCircularFrameCompleted (s : State) : Result :=
  .next (s.acting fun s => s.given (s.line.sends true) fun s =>
    (s.withLine s.line.txIdle.readyRx).reportDone)

/-- ACCEPT is read (R102, R110). -/
def execAccept (s : State) : Result := .next (s.answered State.reportDone)

/-- DUPLICATE is read and acted on as ACCEPT (R102, R110). -/
def execDuplicate (s : State) : Result := .next (s.answered State.reportDone)

/-- WAIT is read (R103, R110). -/
def execWait (s : State) : Result := .next (s.answered State.reportWait)

/-- ENGAGED is read (R103, R110). -/
def execEngaged (s : State) : Result := .next (s.answered State.reportEngaged)

/-- REFUSE is read (R104, R110). -/
def execRefuse (s : State) : Result := .next (s.answered State.reportRefuse)

/-- The two answer units fail a test of R30: no answer (R30, R104). -/
def execAnswerGarbled (s : State) : Result := .next (s.answered State.reportNoAnswer)

/-- Six cells without an answer's start cell: the receiver is READY, and a sender reports no answer (R17,
R30, R104). -/
def execAnswerWindowEnd (s : State) : Result :=
  .next (s.acting fun s => s.given (s.line.rx == .answer) fun s =>
    (s.withLine s.line.readyRx).answerLost)

/-- The twentieth dominant cell of the break has been driven (R31). -/
def execBreakSignalEnd (s : State) : Result :=
  .next (s.whenLive fun s => s.given (s.line.tx == .breaking) fun s => s.withLine s.line.txIdle)

/-- A delay is over and its frame is READY again (R100, R103). -/
def execDelayTimerExpiry (r : DelayRef) (s : State) : Result :=
  .next (s.whenLive fun s => s.withSend (s.send.delayExpired r))

/-- The record of a slot, when its timer runs. -/
def Transmission.running (t : Transmission) (slot : Nat) : Option WatchRec :=
  t.watch.find? fun r => r.slot == slot && r.timer.isSome

/-- A reply-watch timer is over: the record goes, with its notice (R111). -/
def execReplyWatchExpiry (slot : Nat) (s : State) : Result :=
  .next (s.acting fun s =>
    match s.send.running slot with
    | none => s
    | some r => (s.withSend (s.send.dropWatch slot)).notice (.noReply r.peer))

end Sys2Proof.Machine
end

