-- ==== Sys2Proof/Machine/Dispatch.lean ====
section
/-! DEFINITION. The meaning of each command: one arm per row of the opcode table. -/
namespace Sys2Proof.Machine

def exec (i : Instr) (s : State) : Host.Outcome State Fault Refusal :=
  match i with
  | .powerOn => Sys2Proof.Machine.execPowerOn s
  | .configReadAttemptFailed => Sys2Proof.Machine.execConfigReadAttemptFailed s
  | .configReadRetry => Sys2Proof.Machine.execConfigReadRetry s
  | .configReadEnd image => Sys2Proof.Machine.execConfigReadEnd image s
  | .restart => Sys2Proof.Machine.execRestart s
  | .lineFree => Sys2Proof.Machine.execLineFree s
  | .lineFault => Sys2Proof.Machine.execLineFault s
  | .loadWindowEnd => Sys2Proof.Machine.execLoadWindowEnd s
  | .framingError => Sys2Proof.Machine.execFramingError s
  | .truncation => Sys2Proof.Machine.execTruncation s
  | .malformedFrame => Sys2Proof.Machine.execMalformedFrame s
  | .checkFailure => Sys2Proof.Machine.execCheckFailure s
  | .breakRead => Sys2Proof.Machine.execBreakRead s
  | .textSection f => Sys2Proof.Machine.execTextSection f s
  | .circularFirstSection f => Sys2Proof.Machine.execCircularFirstSection f s
  | .circularContinuation f => Sys2Proof.Machine.execCircularContinuation f s
  | .who f => Sys2Proof.Machine.execWho f s
  | .enquire f => Sys2Proof.Machine.execEnquire f s
  | .ident f => Sys2Proof.Machine.execIdent f s
  | .status f => Sys2Proof.Machine.execStatus f s
  | .release f => Sys2Proof.Machine.execRelease f s
  | .recordTimerExpiry r => Sys2Proof.Machine.execRecordTimerExpiry r s
  | .answerStart => Sys2Proof.Machine.execAnswerStart s
  | .answerEchoMismatch => Sys2Proof.Machine.execAnswerEchoMismatch s
  | .startCellDriven => Sys2Proof.Machine.execStartCellDriven s
  | .loss => Sys2Proof.Machine.execLoss s
  | .arbitrationWon => Sys2Proof.Machine.execArbitrationWon s
  | .collision => Sys2Proof.Machine.execCollision s
  | .individualFrameSent => Sys2Proof.Machine.execIndividualFrameSent s
  | .circularFrameCompleted => Sys2Proof.Machine.execCircularFrameCompleted s
  | .accept => Sys2Proof.Machine.execAccept s
  | .duplicate => Sys2Proof.Machine.execDuplicate s
  | .wait => Sys2Proof.Machine.execWait s
  | .engaged => Sys2Proof.Machine.execEngaged s
  | .refuse => Sys2Proof.Machine.execRefuse s
  | .answerGarbled => Sys2Proof.Machine.execAnswerGarbled s
  | .answerWindowEnd => Sys2Proof.Machine.execAnswerWindowEnd s
  | .breakSignalEnd => Sys2Proof.Machine.execBreakSignalEnd s
  | .delayTimerExpiry r => Sys2Proof.Machine.execDelayTimerExpiry r s
  | .replyWatchExpiry slot => Sys2Proof.Machine.execReplyWatchExpiry slot s
  | .keyClosure k => Sys2Proof.Machine.execKeyClosure k s
  | .keyRelease k => Sys2Proof.Machine.execKeyRelease k s
  | .textKey => Sys2Proof.Machine.execTextKey s
  | .hereIs => Sys2Proof.Machine.execHereIs s
  | .erase => Sys2Proof.Machine.execErase s
  | .endKey => Sys2Proof.Machine.execEndKey s
  | .dest => Sys2Proof.Machine.execDest s
  | .destinationDigit => Sys2Proof.Machine.execDestinationDigit s
  | .whoKey => Sys2Proof.Machine.execWhoKey s
  | .enq => Sys2Proof.Machine.execEnq s
  | .mode => Sys2Proof.Machine.execMode s
  | .time => Sys2Proof.Machine.execTime s
  | .timeDigit => Sys2Proof.Machine.execTimeDigit s
  | .breakKey => Sys2Proof.Machine.execBreakKey s
  | .openingRepeated => Sys2Proof.Machine.execOpeningRepeated s
  | .blockRequestRepeated => Sys2Proof.Machine.execBlockRequestRepeated s
  | .localCodeResumed => Sys2Proof.Machine.execLocalCodeResumed s
  | .idleReleaseExpiry => Sys2Proof.Machine.execIdleReleaseExpiry s
  | .autoEndExpiry => Sys2Proof.Machine.execAutoEndExpiry s
  | .attend => Sys2Proof.Machine.execAttend s
  | .print => Sys2Proof.Machine.execPrint s
  | .punch => Sys2Proof.Machine.execPunch s
  | .level => Sys2Proof.Machine.execLevel s
  | .paperFeed => Sys2Proof.Machine.execPaperFeed s
  | .tapeFeed => Sys2Proof.Machine.execTapeFeed s
  | .tapeFeedRelease => Sys2Proof.Machine.execTapeFeedRelease s
  | .punchResume => Sys2Proof.Machine.execPunchResume s
  | .journal shift => Sys2Proof.Machine.execJournal shift s
  | .printOperationComplete => Sys2Proof.Machine.execPrintOperationComplete s
  | .motorStartComplete => Sys2Proof.Machine.execMotorStartComplete s
  | .motorStopComplete => Sys2Proof.Machine.execMotorStopComplete s
  | .motorIdleExpiry => Sys2Proof.Machine.execMotorIdleExpiry s
  | .echoIdleExpiry => Sys2Proof.Machine.execEchoIdleExpiry s
  | .paperOut => Sys2Proof.Machine.execPaperOut s
  | .paperPresent => Sys2Proof.Machine.execPaperPresent s
  | .punchOperationComplete sense feedHole => Sys2Proof.Machine.execPunchOperationComplete sense feedHole s
  | .tapeOut => Sys2Proof.Machine.execTapeOut s
  | .tapePresent => Sys2Proof.Machine.execTapePresent s
  | .tapeLow => Sys2Proof.Machine.execTapeLow s
  | .tapeLowCleared => Sys2Proof.Machine.execTapeLowCleared s
  | .dayClockDividerExpiry => Sys2Proof.Machine.execDayClockDividerExpiry s
  | .lampFlash => Sys2Proof.Machine.execLampFlash s
  | .frameStartCell => Sys2Proof.Machine.execFrameStartCell s
  | .frameNotHandedOn f => Sys2Proof.Machine.execFrameNotHandedOn f s
  | .answerComplete => Sys2Proof.Machine.execAnswerComplete s
  | .restartContactOpened => Sys2Proof.Machine.execRestartContactOpened s

end Sys2Proof.Machine
end

