-- ==== Sys2Proof/Machine/Tick.lean ====
section
/-! DEFINITION. What the block does when no command waits (log 1): it puts one command of its own accord
into the queue, or lets one cell of time pass and puts into the queue what that cell and the timers bring. -/
namespace Sys2Proof.Machine

/-! ### Commands of the block's own accord -/

/-- The command of a key handed on outside the queue (R122, R196). -/
def commandOfHanded : Handed → Option Instr
  | .tapeFeedRelease => some .tapeFeedRelease
  | .key k =>
    match k.key with
    | .breakKey => some .breakKey
    | .attend => some .attend
    | .print => some .print
    | .punch => some .punch
    | .level => some .level
    | .paperFeed => some .paperFeed
    | .tapeFeed => some .tapeFeed
    | .punchResume => some .punchResume
    | .journal => some (.journal k.shift)
    | _ => none

/-- The command that takes the keystroke at the head of the queue (R124 to R126). -/
def Keyboard.commandOfKey (kb : Keyboard) (k : Keystroke) : Option Instr :=
  if kb.takesAsText k then some .textKey
  else
    match k.key with
    | .hereIs => some .hereIs
    | .erase => some .erase
    | .endKey => some .endKey
    | .dest => some .dest
    | .who => some .whoKey
    | .enq => some .enq
    | .mode => some .mode
    | .time => some .time
    | .code _ =>
      if kb.inDestEntry then some .destinationDigit
      else if kb.inTimeEntry then some .timeDigit else none
    | _ => none

/-- The composer's next command: a held request that would now be granted, or the head keystroke. -/
def State.composerCommand (s : State) : Option Instr :=
  match s.kb.hold with
  | .none =>
    match s.kb.queue with
    | [] => none
    | k :: _ => s.kb.commandOfKey k
  | .opening => if s.canOpen then some .openingRepeated else none
  | .block _ => if s.store.hasBlock then some .blockRequestRepeated else none
  | .endBlock => if s.store.hasBlock then some .blockRequestRepeated else none
  | .autoEnd => if s.store.hasBlock then some .blockRequestRepeated else none
  | .localCode _ _ =>
    if s.panel.punchSel = true ∧ s.punch.fifoFull = true then none else some .localCodeResumed

/-- The line unit's next command at a cell boundary: a load window's end (R40), the answer at the third cell
after the frame (R29), or a start cell on the free line (R18). -/
def State.lineCommand (s : State) : Option Instr :=
  if s.line.windowCells ≥ Config.windowLength then some .loadWindowEnd
  else if s.line.rx = .answer ∧ s.line.winCells = Config.answerLead ∧ s.line.answerDue.isSome = true then
    some .answerStart
  else if s.mayStart = true ∧ s.offer.isSome = true then some .startCellDriven
  else none

def orElse {α : Type} (a b : Option α) : Option α :=
  match a with
  | some x => some x
  | none => b

/-- The command the block gives itself, if any. -/
def State.ownCommand (s : State) : Option Instr :=
  match s.panel.phase with
  | .notResponding => some (.configReadEnd [])
  | .done =>
    orElse (s.kb.handed.head?.bind commandOfHanded) (orElse s.composerCommand s.lineCommand)
  | _ => none

/-! ### One cell on the line -/

/-- The level the station drives in this cell. -/
def LineUnit.drives (l : LineUnit) : Level :=
  match l.tx with
  | .breaking => .dominant
  | .contend => l.txCells.headD .recessive
  | .send => l.txCells.headD .recessive
  | _ =>
    if l.startOwed then .dominant
    else if l.answering then l.ansCells.headD .recessive else .recessive

/-- The runs, the busy count and the window after a cell (R16, R33, R37, R40); a start cell owed has been
driven in it (R51). -/
def LineUnit.countCell (l : LineUnit) (read : Level) : LineUnit :=
  { l with
    quietRun := if read = .dominant then 0 else min Config.quietCells (l.quietRun + 1)
    domRun := if read = .dominant then l.domRun + 1 else 0
    busy := if cellBusy l read then l.busy + 1 else l.busy
    windowCells := l.windowCells + 1
    startOwed := false }

/-- What the bits of a unit bring. -/
inductive UnitEvent where
  | nothing
  | unit
  | framingError
  | truncation
  deriving DecidableEq, Repr

/-- The receiver reads one cell of the units of a frame or an answer (R14, R15). `started` says that a unit
has been received, so that recessive cells count as a gap. -/
def Assembly.read (a : Assembly) (c : Level) : Assembly × UnitEvent :=
  match a.bits with
  | none =>
    if c = .dominant then ({ a with bits := some [], gap := 0 }, .nothing)
    else if a.units.isEmpty then (a, .nothing)
    else ({ a with gap := a.gap + 1 }, if a.gap + 1 = 3 then .truncation else .nothing)
  | some bs =>
    if a.stopLow then (a, if c = .recessive then .framingError else .nothing)
    else if bs.length < 8 then ({ a with bits := some (bs ++ [c == .recessive]) }, .nothing)
    else if c = .recessive then
      ({ a with bits := none, gap := 0, units := a.units ++ [byteOfBits bs] }, .unit)
    else ({ a with stopLow := true }, .nothing)

/-- The row a complete frame of another station belongs to (R27). -/
def State.commandOfFrame (s : State) (f : Frame) : Instr :=
  if s.notHandedOn f then .frameNotHandedOn f
  else
    match f.kind with
    | .text =>
      if isCircular f then (if f.first then .circularFirstSection f else .circularContinuation f)
      else .textSection f
    | .who => .who f
    | .ident => .ident f
    | .enquire => .enquire f
    | .status => .status f
    | .release => .release f

/-- The judgement of a frame's unit just received (R24, R25, R27). -/
def State.judgeUnit (s : State) (us : List Byte) : List Instr :=
  if malformedNow us then [.malformedFrame]
  else if frameComplete us then
    if checkPassed us then
      match frameOfUnits us with
      | some f => [s.commandOfFrame f]
      | none => [.malformedFrame]
    else [.checkFailure]
  else []

/-- The row of an answer code (R30). -/
def commandOfAnswer : Option AnswerCode → Instr
  | some .accept => .accept
  | some .duplicate => .duplicate
  | some .wait => .wait
  | some .engaged => .engaged
  | some .refuse => .refuse
  | none => .answerGarbled

/-- The judgement of two answer units: by the sender, or by a station that only follows them (R17, R30). -/
def LineUnit.judgeAnswerUnits (l : LineUnit) (us : List Byte) : List Instr :=
  match us with
  | [a, b] =>
    if l.tx = .awaitAnswer then
      match l.outFrame with
      | some f => [commandOfAnswer (judgeAnswer a b f.seq)]
      | none => [.answerGarbled]
    else [.answerComplete]
  | _ => []

/-- What the receiver finds in a cell of a frame it does not send. -/
def State.frameEvents (s : State) (e : UnitEvent) (us : List Byte) : List Instr :=
  match e with
  | .nothing => if s.line.domRun = Config.breakRun then [.breakRead] else []
  | .unit => s.judgeUnit us
  | .framingError => [.framingError]
  | .truncation => [.truncation]

/-- What the receiver finds in a cell of the answer window. -/
def State.answerEvents (s : State) (e : UnitEvent) (a : Assembly) : List Instr :=
  match e with
  | .nothing =>
    if s.line.domRun = Config.breakRun then [.breakRead]
    else if a.bits.isNone = true ∧ a.units.isEmpty = true ∧ s.line.winCells ≥ Config.answerWindow then
      [.answerWindowEnd]
    else []
  | .unit => s.line.judgeAnswerUnits a.units
  | .framingError => [.framingError]
  | .truncation => [.truncation]

/-- The ten arbitration cells of a frame, counted from its first start cell as 0 (R19). -/
def isArbitration (i : Nat) : Bool := (decide (1 ≤ i) && decide (i ≤ 8)) || i == 11 || i == 12

/-- The own-echo check of a cell of the station's own frame, and what the cell completes (R19, R20, R21). -/
def LineUnit.echoEvents (l : LineUnit) (drove read : Level) : List Instr :=
  if drove ≠ read then
    if drove = .recessive ∧ isArbitration l.txSent = true then [.loss] else [.collision]
  else
    (if l.txSent = 12 then [.arbitrationWon] else []) ++
    (if l.txCells.length ≤ 1 then
      (match l.outFrame with
       | some f => if isCircular f then [.circularFrameCompleted] else [.individualFrameSent]
       | none => [.collision])
     else [])

/-- The transmitter after a cell of its own frame. -/
def LineUnit.cellSent (l : LineUnit) : LineUnit :=
  { l with txCells := l.txCells.tail, txSent := l.txSent + 1 }

/-- The station's own answer after a cell of it: the echo check and the end (R29). -/
def LineUnit.answerEcho (l : LineUnit) (drove read : Level) : LineUnit × List Instr :=
  if drove ≠ read then (l, [.answerEchoMismatch])
  else ({ l with ansCells := l.ansCells.tail }, if l.ansCells.length ≤ 1 then [.answerComplete] else [])

/-- The receiver and the transmitter read one cell; `s` has its counts already. -/
def State.lineCell (s : State) (drove read : Level) : State × List Instr :=
  let l := s.line
  let r := l.asm.read read
  if l.driving then
    (s.withLine { l.cellSent with asm := r.1 }, l.echoEvents drove read)
  else
    match l.rx with
    | .hunt => (s, [])
    | .ready => (s, if read = .dominant then [.frameStartCell] else [])
    | .frame => (s.withLine { l with asm := r.1 }, s.frameEvents r.2 r.1.units)
    | .answer =>
      let l := { l with winCells := l.winCells + 1 }
      if l.answering then
        let e := l.answerEcho drove read
        (s.withLine e.1, e.2)
      else
        let t := s.withLine { l with asm := r.1 }
        (t, t.answerEvents r.2 r.1)

/-- A break driven, the line free, a line fault: what the counts bring. -/
def State.countEvents (s : State) (before : LineUnit) : List Instr :=
  (if s.line.tx = .breaking ∧ s.line.breakCells ≥ Config.breakLength then [.breakSignalEnd] else []) ++
  (if s.line.quietRun = Config.quietCells ∧ before.quietRun < Config.quietCells then [.lineFree] else []) ++
  (if s.line.domRun ≥ Config.faultRun ∧ s.line.lineFault = false then [.lineFault] else [])

/-- W rises at the end of a cell for a frame that is READY or ON LINE, outside LINE FAULT and CLASH LOCKOUT,
and stays at 65535 (R45). The conditions are judged as they stand while the cell passes: what begins at its end
(LINE FAULT, CLASH LOCKOUT, a delay) is taken by a command afterwards and holds W from the next cell on, which is
the model's choice (log 40). -/
def Counts.waitCell (c : Counts) (p : Phase) : Counts :=
  if p = .ready ∨ p = .onLine then { c with w := min Config.maxWaiting (c.w + 1) } else c

def State.waitCells (s : State) : State :=
  if s.line.lineFault = true ∨ s.line.clash = true then s
  else s.withSend { s.send with
    sendList := s.send.sendList.map fun r => { r with counts := r.counts.waitCell r.phase }
    control := s.send.control.map fun r => { r with counts := r.counts.waitCell r.phase } }

/-- One cell of the line passes; the level of the other stations is the free value of this cell (log 2). -/
def State.passCell (s : State) : State × List Instr :=
  let drove := s.line.drives
  let read := Level.wired drove (Config.otherLevel s.cell)
  let l := s.line.countCell read
  let l := if l.tx = .breaking then { l with breakCells := l.breakCells + 1 } else l
  let t := { s.waitCells with line := l, cell := s.cell + 1 }
  let u := t.lineCell drove read
  (u.1, u.2 ++ u.1.countEvents s.line)

/-! ### Timers -/

def State.ageTimers (s : State) (dt : Nat) : State :=
  { s with
    recv := { s.recv with hold := s.recv.hold.map fun r => { r with timer := r.timer - dt }
                          circ := s.recv.circ.map fun r => { r with timer := r.timer - dt } }
    send := { s.send with
      sendList := s.send.sendList.map fun r => { r with delay := r.delay - dt }
      control := s.send.control.map fun r => { r with delay := r.delay - dt }
      watch := s.send.watch.map fun r => { r with timer := r.timer.map fun n => n - dt } }
    kb := { s.kb with idleTimer := s.kb.idleTimer.map fun n => n + dt
                      autoEnd := s.kb.autoEnd.map fun n => n + dt }
    print := { s.print with
      motorIdle := if s.print.idling then s.print.motorIdle + dt else s.print.motorIdle
      echoIdle := s.print.echoIdle.map fun n => n + dt }
    journal := { s.journal with divider := s.journal.divider.map fun n => n - dt }
    panel := { s.panel with flashLeft := s.panel.flashLeft - dt } }

def delayedControls : Nat → List ControlRec → List Instr
  | _, [] => []
  | i, r :: rest =>
    (if r.phase = .delayed ∧ r.delay = 0 then [.delayTimerExpiry (.control i)] else []) ++
      delayedControls (i + 1) rest

def reached (timer : Option Nat) (limit : Nat) : Bool :=
  match timer with
  | some n => decide (n ≥ limit)
  | none => false

/-- The expiries due, `before` being the state before the cell. -/
def State.timerEvents (s before : State) : List Instr :=
  (s.send.sendList.filter fun r => r.phase == .delayed && r.delay == 0).map
    (fun r => .delayTimerExpiry (.message r.entry)) ++
  delayedControls 0 s.send.control ++
  (if (s.recv.hold.map fun r => r.timer) = some 0 then [.recordTimerExpiry .hold] else []) ++
  (s.recv.circ.filter fun r => r.timer == 0).map
    (fun r => .recordTimerExpiry (.circular r.origin r.number)) ++
  (s.send.watch.filter fun r => r.timer == some 0).map (fun r => .replyWatchExpiry r.slot) ++
  (if reached s.kb.idleTimer s.idleThreshold = true ∧ s.releasable.isSome = true then
    [.idleReleaseExpiry] else []) ++
  (if reached s.kb.autoEnd Config.autoEndTime = true ∧ s.kb.comp = .composing then
    [.autoEndExpiry] else []) ++
  (if s.print.idling = true ∧ s.print.motorIdle ≥ motorIdleTime s.panel.settings s.panel.attended then
    [.motorIdleExpiry] else []) ++
  (if reached s.print.echoIdle Config.echoIdleTime = true ∧
      reached before.print.echoIdle Config.echoIdleTime = false then [.echoIdleExpiry] else []) ++
  (if s.journal.divider = some 0 then [.dayClockDividerExpiry] else []) ++
  (if s.panel.flashLeft = 0 then [.lampFlash] else [])

/-! ### The tick -/

/-- The configuration read under way: only the 10 ms wait after a failed attempt is timed (R191). -/
def State.tickRead (s : State) : State :=
  match s.panel.phase with
  | .retryWait n left =>
    let left' := left - s.cellTime
    { s with panel := { s.panel with phase := .retryWait n left' }
             pending := if left' = 0 then [.configReadRetry] else [] }
  | _ => s

/-- One cell of time after the read. -/
def State.tickLive (s : State) : State :=
  let p := s.passCell
  let t := p.1.ageTimers s.cellTime
  { t with pending := t.timerEvents s ++ p.2 }

/-- What the block does when no command waits. -/
def State.tick (s : State) : State :=
  match s.ownCommand with
  | some c => { s with pending := [c] }
  | none => if s.live then s.tickLive else s.tickRead

end Sys2Proof.Machine
end

