-- ==== Sys2Proof/Safety.lean ====
section
/-! DEFINITION. The bounds and forms that every run keeps: the ranges the rules give the line unit, the
capacities of the lists, the canonical form of the block ring, the carriage column, the settings. -/
namespace Sys2Proof.Machine

/-- Ranges of the line unit (R16, R26, R40, R42). -/
def LineUnit.bounded (l : LineUnit) : Prop :=
  l.quietRun ≤ 14 ∧ l.discarded ≤ 65535 ∧ l.busy ≤ l.windowCells ∧ l.windowCells ≤ 256 ∧ l.loadE ≤ 4096

/-- Capacities of the lists and ranges of the counters outside the line unit (R72, R97, R108, R111, R116,
R121, R123, R138, R139, R162, R185). -/
structure State.withinCapacity (s : State) : Prop where
  circular : s.recv.circ.length ≤ 3
  sendList : s.send.sendList.length ≤ 4
  control : s.send.control.length ≤ 6
  watch : s.send.watch.length ≤ 4
  number : 1 ≤ s.send.msgCounter ∧ s.send.msgCounter ≤ 255
  sequence : s.send.seqCounter ≤ 7
  held : s.kb.held.length ≤ 3
  queue : s.kb.queue.length ≤ 16
  echo : s.print.echoFifo.length ≤ 256
  notices : s.print.notices.length ≤ 16
  lost : s.print.lost ≤ 255
  fifo : s.punch.fifo.length ≤ 64
  directory : s.store.dir.length ≤ 32

/-- The journal's ranges (R185, R189). -/
def Journal.bounded (j : Journal) : Prop :=
  j.ring.length ≤ 48 ∧ 1 ≤ j.nextNumber ∧ j.nextNumber ≤ 9999 ∧ j.overwritten ≤ 255 ∧ j.minute ≤ 1439

/-! ### The message store (R53 to R62) -/

/-- The block that lies i places behind the tail in ring order (R53). -/
def Store.behindTail (st : Store) (i : Nat) : Nat := (st.tail + i) % 256

/-- What holds of the ring, the directory and the copy queues at any moment: the ring lists exactly the 256 - free
blocks from the tail up to the head, every LIVE block stands in the chain of the one entry that owns it, a chain's
section numbers ascend, and the copy queues hold the entries that carry their obligation in the order of arrival. -/
structure Store.ordered (st : Store) : Prop where
  form : ringWf st.ring = true
  free : st.free ≤ 256
  tail : st.tail < 256
  head : st.head = (st.tail + (256 - st.free)) % 256
  listed : st.ring.length = 256 - st.free
  numbers : ∀ p ∈ st.ring, p.1 < 256
  used : ∀ i, i < 256 - st.free → (st.block (st.behindTail i)).state ≠ .free
  unused : ∀ i, 256 - st.free ≤ i → i < 256 → st.block (st.behindTail i) = Block.blank
  slots : (st.dir.map fun e => e.slot).Nodup
  chains : ∀ e ∈ st.dir, e.chain.Nodup ∧
    ∀ b ∈ e.chain, b < 256 ∧ (st.block b).state = .live ∧ (st.block b).owner = e.slot
  owners : ∀ b, (st.block b).state = .live → ∃ e ∈ st.dir, e.slot = (st.block b).owner ∧ b ∈ e.chain
  ascending : ∀ e ∈ st.dir, (e.chain.map fun b => (st.block b).secNo).Pairwise (· < ·)
  printQueue : st.printQ = (st.dir.filter fun e => e.oblPrint).map fun e => e.slot
  punchQueue : st.punchQ = (st.dir.filter fun e => e.oblPunch).map fun e => e.slot

/-- Between two commands moreover the block at the tail is LIVE while one is listed (R55). -/
structure Store.sound (st : Store) : Prop extends st.ordered where
  tailLive : st.free < 256 → (st.block st.tail).state = .live

/-- The directory once the entry of e's slot has become e. -/
def Store.dirWith (st : Store) (e : Entry) : List Entry := st.dir.map fun x => if x.slot = e.slot then e else x

/-- The copy queues are as before. -/
def Store.sameQueues (st u : Store) : Prop := u.printQ = st.printQ ∧ u.punchQ = st.punchQ

/-- One block has been allocated to an entry: the block at the head is LIVE in it and no other block changes;
the head advances and the free count falls by one (R54). -/
structure Store.allocated (st u : Store) (b : Block) : Prop where
  block : u.block st.head = b
  others : ∀ n, n ≠ st.head → u.block n = st.block n
  head : u.head = (st.head + 1) % 256
  tail : u.tail = st.tail
  free : u.free + 1 = st.free

/-- An entry has been freed (R55, R57): it leaves the directory, and its blocks become SPENT. From the tail on,
the blocks up to the first LIVE one, or up to the head, become FREE and the tail stands behind them; the others
are as before. -/
structure Store.freed (st u : Store) (e : Entry) : Prop where
  directory : u.dir = st.dir.filter fun x => x.slot != e.slot
  head : u.head = st.head
  reclaimed : ∃ k, k ≤ 256 - st.free ∧ u.free = st.free + k ∧ u.tail = st.behindTail k ∧
    (∀ i, i < k → (st.behindTail i ∈ e.chain ∨ (st.block (st.behindTail i)).state = .spent) ∧
      u.block (st.behindTail i) = Block.blank) ∧
    (∀ i, k ≤ i → i < 256 → u.block (st.behindTail i) =
      if st.behindTail i ∈ e.chain then { st.block (st.behindTail i) with state := .spent }
      else st.block (st.behindTail i)) ∧
    (k < 256 - st.free → (u.block u.tail).state = .live)

/-! ### The printer's column -/

/-- An operation that stands in flight does not strike. -/
def Flight.quiet : Flight → Prop
  | .op o _ => strikes o = false
  | _ => True

/-- The carriage column lies within 1 to width + 1 (R147), and what is still to issue or complete cannot
carry it further: before the read ends nothing moves, after it a strike in flight began within the width,
and the operations of a wrap or closing do not strike. -/
structure State.carriageBounded (s : State) : Prop where
  low : 1 ≤ s.print.column
  high : s.print.column ≤ s.panel.settings.width + 1
  flight : s.print.flight.quiet ∨ s.print.column ≤ s.panel.settings.width
  pre : ∀ o ∈ s.print.pre, strikes o = false
  width : 64 ≤ s.panel.settings.width
  before : s.panel.phase ≠ .done → s.print.column = 1 ∧ s.print.flight = .none

/-- The ranges of R193's table, which hold of a valid image's settings and of the stand-in values. -/
structure Settings.inRange (t : Settings) : Prop where
  station : ∀ n, t.station = some n → 1 ≤ n ∧ n ≤ 62
  width : 64 ≤ t.width ∧ t.width ≤ 80
  page : t.pageLength = 0 ∨ (20 ≤ t.pageLength ∧ t.pageLength ≤ 99)
  leader : t.leader ≤ 60
  tries : 1 ≤ t.tryLimit ∧ t.tryLimit ≤ 8
  level : t.acceptLevel ≤ 2
  attendedIdle : 1 ≤ t.attendedIdleMin ∧ t.attendedIdleMin ≤ 30
  unattendedIdle : 1 ≤ t.unattendedIdle10s ∧ t.unattendedIdle10s ≤ 30
  release : 1 ≤ t.idleReleaseS ∧ t.idleReleaseS ≤ 9
  answerback : t.answerback.length = 20

/-- The settings and the accept level stay in their ranges (R193, R195). -/
def State.panelBounded (s : State) : Prop := s.panel.settings.inRange ∧ s.panel.acceptLevel ≤ 2

/-- Whether a command is one that the blocks take only after the configuration read has ended (R191, R198;
log 29). Power-on, the read's own commands, the sensor inputs, the RESTART contact's opening and the minute
divider are not. -/
def waitsForRead : Instr → Bool
  | .powerOn | .configReadAttemptFailed | .configReadRetry | .configReadEnd _ => false
  | .paperOut | .paperPresent | .tapeOut | .tapePresent | .tapeLow | .tapeLowCleared => false
  | .restartContactOpened | .dayClockDividerExpiry => false
  | .restart | .lineFree | .lineFault | .loadWindowEnd | .framingError | .truncation
  | .malformedFrame | .checkFailure | .breakRead | .textSection _ | .circularFirstSection _
  | .circularContinuation _ | .who _ | .enquire _ | .ident _ | .status _ | .release _
  | .recordTimerExpiry _ | .answerStart | .answerEchoMismatch | .startCellDriven | .loss
  | .arbitrationWon | .collision | .individualFrameSent | .circularFrameCompleted | .accept
  | .duplicate | .wait | .engaged | .refuse | .answerGarbled | .answerWindowEnd | .breakSignalEnd
  | .delayTimerExpiry _ | .replyWatchExpiry _ | .keyClosure _ | .keyRelease _ | .textKey | .hereIs
  | .erase | .endKey | .dest | .destinationDigit | .whoKey | .enq | .mode | .time | .timeDigit
  | .breakKey | .openingRepeated | .blockRequestRepeated | .localCodeResumed | .idleReleaseExpiry
  | .autoEndExpiry | .attend | .print | .punch | .level | .paperFeed | .tapeFeed | .tapeFeedRelease
  | .punchResume | .journal _ | .printOperationComplete | .motorStartComplete | .motorStopComplete
  | .motorIdleExpiry | .echoIdleExpiry | .punchOperationComplete _ _ | .lampFlash | .frameStartCell
  | .frameNotHandedOn _ | .answerComplete => true

/-- The windows of a steady load figure x, one after another (R41, R42). -/
def afterWindows (x : Nat) : Nat → Nat → Nat
  | 0, e => e
  | k + 1, e => afterWindows x k (loadUpdate e x)

/-- The codes a text key or HERE IS emits in a case of the composer: a character of the other case, or of an
unknown one, has its shift before it (R10); RETURN is a carriage return and a line feed (R130); HERE IS is
the answerback behind a letters shift unless the case is letters (R12). -/
def keyOutput (answerback : List Code) (k : Keystroke) (cs : CompCase) : List Code :=
  match k.key with
  | .code i =>
    if k.shift then (if cs = .figures then [keyCode i] else [30, keyCode i])
    else (if cs = .letters then [keyCode i] else [31, keyCode i])
  | .space => [1]
  | .ret => [2, 3]
  | .lineFeed => [3]
  | .hereIs => (if cs = .letters then [] else [31]) ++ answerback
  | _ => []

/-- The row that takes a text key or HERE IS in LINE and LOCAL mode (R124). -/
def textCommand (k : Keystroke) (c : Instr) : Prop :=
  isTextKey k.key = true ∧ c = .textKey ∨ k.key = .hereIs ∧ c = .hereIs

/-- The row that takes a key which is no digit in destination or time entry (R125, R126), DEST apart. -/
def entryCommand (k : Keystroke) (c : Instr) : Prop :=
  isTextKey k.key = true ∧ digitOf k = none ∧ c = .textKey ∨ k.key = .hereIs ∧ c = .hereIs ∨
  k.key = .erase ∧ c = .erase ∨ k.key = .endKey ∧ c = .endKey ∨ k.key = .who ∧ c = .whoKey ∨
  k.key = .enq ∧ c = .enq ∨ k.key = .mode ∧ c = .mode ∨ k.key = .time ∧ c = .time

/-- The codes that elements of a keystroke emit one after another from a case, within one block. -/
def emitOutput : CompCase → List Emit → List Code
  | _, [] => []
  | cs, .letter c :: rest =>
    if cs = .letters then c :: emitOutput (caseAfter cs c) rest
    else 31 :: c :: emitOutput (caseAfter .letters c) rest
  | cs, .figure c :: rest =>
    if cs = .figures then c :: emitOutput (caseAfter cs c) rest
    else 30 :: c :: emitOutput (caseAfter .figures c) rest
  | cs, .leadShift :: rest => if cs = .letters then emitOutput cs rest else 31 :: emitOutput .letters rest
  | cs, .raw c :: rest => c :: emitOutput (caseAfter cs c) rest
  | cs, .returnRelease :: rest => emitOutput cs rest

/-- What elements of a keystroke leave behind once they have emitted this many codes from a case. A character whose
shift has just been emitted stays; an element that emits nothing goes when the next code is asked for. -/
def leftAfter : CompCase → Nat → List Emit → List Emit
  | _, 0, es => es
  | _, _ + 1, [] => []
  | cs, n + 1, .letter c :: rest =>
    if cs = .letters then leftAfter (caseAfter cs c) n rest
    else match n with
      | 0 => .letter c :: rest
      | m + 1 => leftAfter (caseAfter .letters c) m rest
  | cs, n + 1, .figure c :: rest =>
    if cs = .figures then leftAfter (caseAfter cs c) n rest
    else match n with
      | 0 => .figure c :: rest
      | m + 1 => leftAfter (caseAfter .figures c) m rest
  | cs, n + 1, .leadShift :: rest =>
    if cs = .letters then leftAfter cs (n + 1) rest else leftAfter .letters n rest
  | cs, n + 1, .raw c :: rest => leftAfter (caseAfter cs c) n rest
  | cs, n + 1, .returnRelease :: rest => leftAfter cs (n + 1) rest

/-- What is left of a keystroke when these codes of it are still to come: a character, the codes of RETURN before
its release, or codes as they stand (R10, R129, R130). -/
def leftOf (k : Keystroke) (codes : List Code) : List Emit :=
  match k.key with
  | .code i => if codes = [] then [] else [if k.shift then .figure (keyCode i) else .letter (keyCode i)]
  | .ret => codes.map Emit.raw ++ [.returnRelease]
  | _ => codes.map Emit.raw

/-! ### What several commands bring to the journal and the notices -/

/-- The journal after the clash test of a frame: one entry when it brings CLASH LOCKOUT (R35). -/
def State.clashJournal (s : State) (f : Frame) : Journal :=
  if s.own = some f.origin ∧ s.line.clash = false then
    s.journal.add .clash { peer := some f.origin, frame := some f.kind, number := some f.number }
  else s.journal

/-- The print unit after the clash test of a frame: one notice when it brings CLASH LOCKOUT (R35). -/
def State.clashPrint (s : State) (f : Frame) : PrintUnit :=
  if s.own = some f.origin ∧ s.line.clash = false then s.print.place (.clash f.origin) else s.print

/-- Store and journal after one more reception record that RESTART closes (R96). -/
def restartRecord (x : Store × Journal) (r : Record) : Store × Journal :=
  (x.1.closeEntry r.entry (some .restart),
    x.2.add .receivedIncomplete
      { peer := some r.origin, number := some r.number, cls := some r.cls
        sections := some (entrySections (x.1.entry r.entry)), reason := some (.incomplete .restart) })

/-- Store and journal after one more message that RESTART abandons (R118). -/
def restartMessage (x : Store × Journal) (m : SendRec) : Store × Journal :=
  (x.1.abandonEntry m.entry,
    x.2.add .sendAbandoned
      { peer := some m.dest, number := some m.number, cls := some m.cls, sections := some m.done
        reason := some .restart })

/-- A generated line has begun: its first glyph is in flight for the stream and the script holds the rest with the
end of the line (R5). -/
def PrintUnit.begun (p : PrintUnit) (st : Stream) (script text : List Elem) : Prop :=
  ∃ g rest, text = .strike (.glyph g) :: rest ∧ p.flight = .op (.glyph g) (.stream st false) ∧
    script = rest ++ [.cr, .feed]

/-- What the print unit does of its own accord leaves the store alone: something is in flight at the printer, or
no copy is in progress and none waits. -/
def State.printKeepsStore (s : State) : Prop :=
  s.print.flight ≠ .none ∨ s.print.copy = none ∧ s.store.printQ = []

/-- The row that hands a complete frame over, or keeps it from being handed on (R27, R35). -/
def State.frameRow (s : State) (f : Frame) : Instr :=
  if f.dest ≠ 0 ∧ (s.own ≠ some f.dest ∨ s.line.clash = true ∨ s.own = some f.origin) then .frameNotHandedOn f
  else
    match f.kind with
    | .text =>
      if f.dest ≠ 0 then .textSection f
      else if f.first then .circularFirstSection f else .circularContinuation f
    | .who => .who f
    | .ident => .ident f
    | .enquire => .enquire f
    | .status => .status f
    | .release => .release f

/-- The row of an answer code (R28, R30). -/
def answerRow : AnswerCode → Instr
  | .accept => .accept
  | .duplicate => .duplicate
  | .wait => .wait
  | .engaged => .engaged
  | .refuse => .refuse

/-! ### The block's own commands (log 1) -/

/-- The command of a key, or of a release, that has been handed on outside the queue (R122, R196). -/
def handedCommand (h : Handed) (c : Instr) : Prop :=
  h = .tapeFeedRelease ∧ c = .tapeFeedRelease ∨
  ∃ k, h = .key k ∧ (k.key = .breakKey ∧ c = .breakKey ∨ k.key = .attend ∧ c = .attend ∨
    k.key = .print ∧ c = .print ∨ k.key = .punch ∧ c = .punch ∨ k.key = .level ∧ c = .level ∨
    k.key = .paperFeed ∧ c = .paperFeed ∨ k.key = .tapeFeed ∧ c = .tapeFeed ∨
    k.key = .punchResume ∧ c = .punchResume ∨ k.key = .journal ∧ c = .journal k.shift)

/-- The key has been handed on. -/
def Handed.isOf (key : Key) (h : Handed) : Prop := ∃ k, h = .key k ∧ k.key = key

/-- Of the keys and releases handed on the first with this property is gone and the others stay in their order;
where none has it, all stay (log 9). -/
def leavesHanded (mine : Handed → Prop) (before after : List Handed) : Prop :=
  (∀ a h b, before = a ++ h :: b → mine h → (∀ x ∈ a, ¬ mine x) → after = a ++ b) ∧
  ((∀ h ∈ before, ¬ mine h) → after = before)

/-- The row that takes a key of the keystroke queue outside the entries, the text keys and HERE IS apart. -/
def queueCommand (k : Keystroke) (c : Instr) : Prop :=
  k.key = .erase ∧ c = .erase ∨ k.key = .endKey ∧ c = .endKey ∨ k.key = .dest ∧ c = .dest ∨
  k.key = .who ∧ c = .whoKey ∨ k.key = .enq ∧ c = .enq ∨ k.key = .mode ∧ c = .mode ∨
  k.key = .time ∧ c = .time

/-- R98 and R100: the record at place i of a list is PENDING with its current section released, and no earlier record
has its destination. -/
def becomesReady (st : Store) (l : List SendRec) (i : Nat) (r : SendRec) : Prop :=
  r.phase = .pending ∧ (∀ x ∈ l.take i, x.dest ≠ r.dest) ∧ ∃ e, st.entry r.entry = some e ∧ r.done < e.sections

/-- An opening needs a place in the send list, a free block and a free entry (R128). -/
def State.mayOpen (s : State) : Prop :=
  s.send.sendList.length < 4 ∧ 1 ≤ s.store.free ∧ s.store.dir.length < 32

/-- A keystroke or an end is held for want of a block (R129, R132, R133). -/
def Hold.wantsBlock (h : Hold) : Prop := (∃ es, h = .block es) ∨ h = .endBlock ∨ h = .autoEnd

/-- The command with which the composer goes on: the key at the head of its queue, or the request it holds. -/
def State.composerTakes (s : State) (c : Instr) : Prop :=
  (∃ k rest, s.kb.hold = .none ∧ s.kb.queue = k :: rest ∧
    (s.kb.inDestEntry = false ∧ s.kb.inTimeEntry = false ∧ (textCommand k c ∨ queueCommand k c) ∨
      (s.kb.inDestEntry = true ∨ s.kb.inTimeEntry = true) ∧
        (entryCommand k c ∨ k.key = .dest ∧ c = .dest ∨ (digitOf k).isSome = true ∧
          c = if s.kb.inDestEntry then .destinationDigit else .timeDigit))) ∨
  s.kb.hold = .opening ∧ s.mayOpen ∧ c = .openingRepeated ∨
  s.kb.hold.wantsBlock ∧ 1 ≤ s.store.free ∧ c = .blockRequestRepeated ∨
  (∃ x es, s.kb.hold = .localCode x es) ∧ (s.panel.punchSel = false ∨ s.punch.fifo.length < 64) ∧
    c = .localCodeResumed

/-- The composer waits for a key, or for what its held request lacks. -/
def State.composerStill (s : State) : Prop :=
  s.kb.hold = .none ∧ s.kb.queue = [] ∨ s.kb.hold = .opening ∧ ¬ s.mayOpen ∨
  s.kb.hold.wantsBlock ∧ s.store.free = 0 ∨
  (∃ x es, s.kb.hold = .localCode x es) ∧ s.panel.punchSel = true ∧ 64 ≤ s.punch.fifo.length

/-- The station may drive a start cell at this cell boundary (R18). -/
def State.mayDrive (s : State) : Prop :=
  s.line.tx = .idle ∧ s.line.rx = .ready ∧ 14 ≤ s.line.quietRun ∧ s.line.lineFault = false ∧
  s.line.clash = false ∧ s.panel.configFault = false ∧
  ∃ own c f, s.own = some own ∧ s.send.select s.line.loadE = some c ∧ s.frameOf own c = some f

/-- Nothing waits, and the block gives itself no command, so that one cell passes (log 1). -/
structure State.cellPasses (s : State) : Prop where
  live : s.panel.phase = .done
  queue : s.pending = []
  keys : s.kb.handed = []
  composer : s.composerStill
  load : s.line.windowCells < 256
  answer : ¬ (s.line.rx = .answer ∧ s.line.winCells = 2 ∧ s.line.answerDue.isSome = true)
  start : ¬ s.mayDrive

/-- The level read in the next cell: dominant when the station or another drives dominant (R13). -/
def State.nextLevel (s : State) : Level := Level.wired s.line.drives (Config.otherLevel s.cell)

/-! ### What the mechanism units can take up -/

/-- The notices have something to act on: a line begun, a lost-notice line due or a notice (R151). -/
def PrintUnit.noticesWait (p : PrintUnit) : Prop := p.noticeScript ≠ [] ∨ p.lostDue = true ∨ p.notices ≠ []

/-- The echo has something to act on: a line begun, a reprint or an item (R151, R158). -/
def PrintUnit.echoWaits (p : PrintUnit) : Prop := p.echoScript ≠ [] ∨ p.reprint ≠ [] ∨ p.echoFifo ≠ []

/-- The report has a line begun or a line still to print (R151). -/
def State.reportWaits (s : State) : Prop :=
  s.print.reportScript ≠ [] ∨ ∃ r, s.journal.report = some r ∧ r.stage ≠ .ended

/-- A copy in its text phase has a gap line or a code left in the blocks stored (R151, R160). -/
def Store.textLeft (st : Store) (e : Entry) (c : CopyPos) : Prop :=
  ∃ i n, c.block ≤ i ∧ e.chain[i]? = some n ∧
    ((st.block n).gap > 0 ∧ (i = c.block → c.gapDone = false) ∨
      (if i = c.block then c.code else 0) < (st.block n).codes.length)

/-- The copy has its position, or no entry waits for one. -/
def State.copyPlaced (s : State) : Prop := s.print.copy.isSome = true ∨ s.store.printQ = []

/-- The print unit may take the next operation of a stream: the read has ended, nothing is in flight, there is
no stall, no feed owed, no rest of a wrap or closing and no grant point kept; the stream holds the printer, or
no stream does and it is the first that waits; and the open line, if there is one, is its own. -/
structure State.printTurn (s : State) (st : Stream) : Prop where
  live : s.panel.phase = .done
  flight : s.print.flight = .none
  paper : s.print.stalled = false
  fed : s.print.owedFeeds = 0
  lines : s.print.pre = []
  judged : s.print.grantDue = false
  placed : s.copyPlaced
  holder : s.print.holder = some st ∨
    s.print.holder = none ∧ s.printSide.firstWaiting s.printEnv = some st
  line : s.print.openLine = false ∨ s.print.owner = some st

/-- What is left of the generated line a stream has begun. -/
def State.scriptOf (s : State) : Stream → List Elem
  | .notices => s.print.noticeScript
  | .echo => s.print.echoScript
  | .copy => match s.print.copy with
    | some c => c.script
    | none => []
  | .report => s.print.reportScript

/-- A feed, or a page where the page line stands at the page's end (R149). -/
def State.feedHere (s : State) : MechOp :=
  if s.panel.settings.pageLength ≠ 0 ∧ s.panel.settings.pageLength ≤ s.print.pageLine then .page else .feed

/-- The operation of an element of a generated line; a bell asks for none (R5, R8). -/
def State.elemOp (s : State) : Elem → Option MechOp
  | .strike (.glyph n) => some (.glyph n)
  | .strike .space => some .space
  | .cr => some .cr
  | .feed => some s.feedHere
  | .bell => none

/-- No grant point can take the printer from its holder, or there is no stream to grant it to: the holder has an
operation of its own still to issue, or it waits and no grant point is kept (R152). -/
def State.holderStays (s : State) : Prop :=
  s.print.holder = none ∧ s.printSide.firstWaiting s.printEnv = none ∨
  ∃ st, s.print.holder = some st ∧ (s.print.pre ≠ [] ∧ (∃ b, s.print.preFor = .stream st b) ∨
    s.print.grantDue = false ∧ s.printSide.waits s.printEnv st = true)

/-- The motor runs and the carriage return of R168 has been made, so that an operation can be issued. -/
def PrintUnit.turning (p : PrintUnit) : Prop := p.motor = .running ∧ p.firstCR = false

/-- The punch unit may take its next operation: the read has ended, nothing is in flight, there is no stall, no
turning off of PUNCH waits and no closing leader has just ended. -/
structure State.punchTurn (s : State) : Prop where
  live : s.panel.phase = .done
  flight : s.punch.flight = none
  tapeOut : s.punch.stallTapeOut = false
  fault : s.punch.stallFault = false
  off : s.punch.offDue = false
  closing : s.punch.closeLeft ≠ some 0

/-- No restart mark, TAPE FEED or reservation comes before the store copy on tape (R171, R177, R179). -/
def Punch.copyFree (p : Punch) : Prop :=
  p.markLeft = 0 ∧ p.tapeFeed = false ∧ p.reservation.holdsPunch = false

end Sys2Proof.Machine
end

