-- ==== Sys2Proof/Certificates/Slice0/Obligations.lean ====
section
/-! DEFINITION. The statements for the provers. `s.panel.phase = .done` says that the configuration read has
ended. A command whose effect reaches the mechanisms answers `u.settle`: u holds the command's own effect,
and settling is what the print and punch units then do of their own accord (SettleFrame). -/

open Sys2Proof Sys2Proof.Machine

/-! ### The machine -/

/-- One step takes the command at the front of the queue and runs it with the rest of the queue. -/
def Obligations.StepRunsFrontCommand : Prop :=
  ∀ (c : Instr) (rest : List Instr) (s : State),
    step { s with pending := c :: rest } = exec c { s with pending := rest }

/-- Every command answers a next state and leaves the queue of waiting commands as it is. With an empty queue the
step puts one command of the block's own into it: the key or release handed on first; else the composer's next
key or the held request that would now be granted; else, at a cell boundary, the end of a load window, then the
answer decided, in the third cell of the window, then a start cell on the free line for the frame selected. That
time and the block's own commands are the step on an empty queue, and this order of them, are the model's choice
(logs 1, 9, 10); what one cell does stands in LineFreeAndStart and SendingExpiries. -/
def Obligations.CommandKeepsQueue : Prop :=
  (∀ (c : Instr) (s : State), ∃ t : State, exec c s = .next t ∧ t.pending = s.pending) ∧
  (∀ (c : Instr) (s : State), s.pending = [] → s.panel.phase = .done →
    ((∃ h rest, s.kb.handed = h :: rest ∧ handedCommand h c) ∨
      s.kb.handed = [] ∧ (s.composerTakes c ∨ s.composerStill ∧
        (256 ≤ s.line.windowCells ∧ c = .loadWindowEnd ∨ s.line.windowCells < 256 ∧
          (s.line.rx = .answer ∧ s.line.winCells = 2 ∧ s.line.answerDue.isSome = true ∧ c = .answerStart ∨
            s.mayDrive ∧ c = .startCellDriven)))) →
    step s = .next { s with pending := [c] })

/-- What the mechanism units do of their own accord touches neither the line, the reception, transmission
and keyboard blocks nor the panel; of the journal only the report changes; notices and echo items only
leave their queues, from the head; no sensor reading and no stall changes; the bell count never falls; the
block ring keeps its canonical form. -/
def Obligations.SettleFrame : Prop :=
  ∀ s : State,
    s.settle.line = s.line ∧ s.settle.recv = s.recv ∧ s.settle.send = s.send ∧ s.settle.kb = s.kb ∧
    s.settle.panel = s.panel ∧ s.settle.cell = s.cell ∧ s.settle.pending = s.pending ∧
    s.settle.journal = { s.journal with report := s.settle.journal.report } ∧
    s.settle.print.notices <:+ s.print.notices ∧ s.settle.print.echoFifo <:+ s.print.echoFifo ∧
    s.settle.print.paperPresent = s.print.paperPresent ∧ s.settle.print.stalled = s.print.stalled ∧
    s.settle.punch.tapeOut = s.punch.tapeOut ∧ s.settle.punch.tapeLow = s.punch.tapeLow ∧
    s.settle.punch.stallTapeOut = s.punch.stallTapeOut ∧
    s.settle.punch.stallFault = s.punch.stallFault ∧ s.bell ≤ s.settle.bell ∧
    (ringWf s.store.ring = true → ringWf s.settle.store.ring = true)

/-- With an operation or motor command in flight nothing more is issued, at the printer and at the punch: the print
unit only gives a copy its position, judges grants and sets up an interjection. An operation of the holder is
awaited. Otherwise a grant point goes at once to the first that waits of notices, echo, copy and report: when no
stream holds the printer, and when the holder has finished a line or has nothing to act on, unless it is the echo
with its line open; in the stall it is kept for the stall's end. An echo with its line open and nothing to act on
keeps the printer while nothing else waits and until it has been idle 10 s; then its line, column and case are saved
and the line is closed, at column 1 by the feed alone: the model's choice (log 54). That grants are judged with a
motor command or a feed of PAPER FEED in flight is the model's reading of R152 (log 46). A copy takes the head of
the print queue, at its first block in letters case, with something in flight and in the stall. In the stall, unless
a PAPER FEED's feed is to end it, nothing is issued, no holder changes and no item is acted on: a copy takes its
position and a grant point is kept, and nothing else changes. At an idle printer that nothing else wants it is
granted the printer too, and rings the reception bell, starts a motor that is OFF or strikes the banner's first
glyph. That an item which needs no operation waits behind one in flight is the model's choice (log 51). It waits
while its text has a gap line or a code left, and not at its stored end. A line begun, a reprint and a glyph still
to strike count as waiting: the model's reading (log 13). -/
def Obligations.SettleStill : Prop :=
  ∀ (s : State) (w : Option Stream), w = s.printSide.firstWaiting s.printEnv →
    (s.print.flight ≠ .none → s.settle.print = { s.print with
      copy := s.settle.print.copy, holder := s.settle.print.holder, grantDue := s.settle.print.grantDue
      echoIdle := s.settle.print.echoIdle, saved := s.settle.print.saved, pre := s.settle.print.pre
      preFor := s.settle.print.preFor }) ∧
    (s.punch.flight.isSome = true → s.settle.punch = { s.punch with copy := s.settle.punch.copy }) ∧
    (s.print.flight ≠ .none → s.copyPlaced →
      ((∃ o st b, s.print.flight = .op o (.stream st b) ∧ s.print.holder = some st) ∨
        s.print.grantDue = false ∧
          ∃ st, s.print.holder = some st ∧ s.printSide.waits s.printEnv st = true) →
      s.settle.print = s.print ∧
      (s.punch.flight.isSome = true → s.punch.copy.isSome = true ∨ s.store.punchQ = [] →
        s.settle = s)) ∧
    (s.panel.phase = .done → s.print.flight ≠ .none → s.copyPlaced →
      (s.print.holder = none ∨ ∃ st, s.print.holder = some st ∧ s.print.pre = [] ∧
        (∀ o b, s.print.flight ≠ .op o (.stream st b)) ∧
        (s.print.grantDue = true ∨ s.printSide.waits s.printEnv st = false) ∧
        (st = .echo → s.print.openLine = false ∨ s.print.owner ≠ some .echo)) →
      (s.print.stalled = false → s.settle.print.holder = w ∧ s.settle.print.grantDue = false) ∧
      (s.print.stalled = true → w ≠ none → s.settle.print = { s.print with grantDue := true })) ∧
    (s.panel.phase = .done → s.print.flight ≠ .none → s.copyPlaced → s.print.stalled = false →
      s.print.holder = some .echo → s.print.openLine = true → s.print.owner = some .echo →
      s.print.pre = [] → (∀ o b, s.print.flight ≠ .op o (.stream .echo b)) → ¬ s.print.echoWaits →
      (w = none → s.settle.print = { s.print with grantDue := false }) ∧
      (∀ n, s.print.echoIdle = some n → w ≠ none →
        (n < 10 * Config.second → s.print.grantDue = false → s.settle.print = s.print) ∧
        (10 * Config.second ≤ n → s.settle.print = { s.print with
          saved := some { image := s.print.echoImage, column := s.print.echoImage.length + 1
                          case := s.print.echoCase }
          pre := if 1 < s.print.column then [.cr, .feed] else [.feed]
          preFor := .stream .echo false, grantDue := false }))) ∧
    (s.print.stalled = true → s.print.flight = .none →
      s.print.stallFeed = false ∨ s.print.paperPresent = false →
      s.settle.print = { s.print with copy := s.settle.print.copy, grantDue := s.settle.print.grantDue } ∧
      s.settle.bell = s.bell ∧ s.settle.journal = s.journal ∧
      (s.copyPlaced → s.settle.print.copy = s.print.copy) ∧
      (s.print.grantDue = true → s.settle.print.grantDue = true) ∧
      (s.panel.phase = .done → s.copyPlaced →
        (s.print.holder = none ∧ w ≠ none ∨ ∃ st, s.print.holder = some st ∧ s.print.pre = [] ∧
          s.printSide.waits s.printEnv st = false ∧
          (st = .echo → s.print.openLine = false ∨ s.print.owner ≠ some .echo)) →
        s.settle.print.grantDue = true)) ∧
    (s.print.noticesWait → w = some .notices) ∧
    (¬ s.print.noticesWait → s.print.echoWaits → w = some .echo) ∧
    (¬ s.print.noticesWait → ¬ s.print.echoWaits → s.printSide.waits s.printEnv .copy = true →
      w = some .copy) ∧
    (¬ s.print.noticesWait → ¬ s.print.echoWaits → s.printSide.waits s.printEnv .copy = false →
      (s.reportWaits → w = some .report) ∧ (¬ s.reportWaits → w = none)) ∧
    (s.print.copy = none → s.printSide.waits s.printEnv .copy = false) ∧
    (∀ slot rest, s.panel.phase = .done → s.print.flight ≠ .none ∨ s.print.stalled = true →
      s.print.copy = none → s.store.printQ = slot :: rest → s.settle.print.copy = some
        { entry := slot, phase := .bell, block := 0, code := 0, gapDone := false, case := .letters
          script := [] }) ∧
    (∀ slot rest e page, s.panel.phase = .done → s.print.flight = .none → s.print.stalled = false →
      s.print.owedFeeds = 0 → s.print.pre = [] → s.print.grantDue = false → s.print.holder = none →
      s.print.openLine = false → s.print.column ≤ s.panel.settings.width → w = none → s.print.copy = none →
      s.store.printQ = slot :: rest → s.store.entry slot = some e →
      page = (s.panel.settings.pagePerMessage && s.panel.settings.pageLength != 0 && s.print.pageLine != 1) →
      page = true ∨ s.panel.settings.banner = true →
      s.settle.print.holder = some .copy ∧ s.settle.bell = (s.bell + if s.panel.attended then 1 else 0) ∧
      (s.print.motor = .off → s.settle.print.flight = .motorStart ∧ s.settle.print.motor = .starting ∧
        s.settle.print.copy = some { entry := slot, phase := if page then .page else .banner, block := 0
                                     code := 0, gapDone := false, case := .letters, script := [] }) ∧
      (s.print.turning → page = false → s.settle.print.flight = .op (.glyph 12) (.stream .copy false) ∧
        s.settle.print.copy = some { entry := slot, phase := .text, block := 0, code := 0, gapDone := false
                                     case := .letters
                                     script := (generated (bannerText e s.journal.time)).tail })) ∧
    (∀ c e, s.print.copy = some c → c.script = [] → c.phase = .text → s.store.entry c.entry = some e →
      e.state ≠ .closed → (s.printSide.waits s.printEnv .copy = true ↔ s.store.textLeft e c))

/-- Before the configuration read has ended the blocks act on no command of their own (the model's choice,
log 29). -/
def Obligations.ReadingStopsBlocks : Prop :=
  ∀ (c : Instr) (s : State), waitsForRead c = true → s.panel.phase ≠ .done → exec c s = .next s

/-! ### Configuration, start and RESTART -/

/-- Power-on gives every block its initial state, every field of it. The inputs keep their readings (the model's
choice, log 5); the cell count and the queue of waiting commands are the model's own fields, which power-on leaves as
they were (logs 1, 2 and 31). Where the spec gives a field no value before its first use the value is the model's:
settings and selections before the read has ended (log 4), the phase of the flash (log 22), the bell count (log 23),
keys handed on, the work registers and the like (log 32). -/
def Obligations.PowerOnInitial : Prop :=
  ∀ s : State, ∃ t : State, exec .powerOn s = .next t ∧
    t.line =
      { rx := .hunt, tx := .idle, quietRun := 0, domRun := 0, lineFault := false, clash := false, discarded := 0
        busy := 0, windowCells := 0, loadE := 0, latch := false, outFrame := none, txCells := [], txSent := 0
        breakCells := 0, startOwed := false, asm := Assembly.empty, winCells := 0, answerDue := none
        answering := false, ansCells := [] } ∧
    t.recv = { hold := none, circ := [], completion := none, recent := none } ∧
    t.send = { sendList := [], control := [], watch := [], msgCounter := 1, seqCounter := 0 } ∧
    t.store = { ring := [], head := 0, tail := 0, free := 256, dir := [], printQ := [], punchQ := [] } ∧
    t.kb =
      { down := [], held := [], handed := [], queue := [], hold := .none, comp := .lineIdle, dest := none
        case := .unknown, current := none, idleTimer := none, autoEnd := none } ∧
    t.print =
      { motor := .off, flight := .none, motorIdle := 0, column := 1, pageLine := 1, openLine := false
        owner := none, paperPresent := s.print.paperPresent, stalled := !s.print.paperPresent, owedFeeds := 0
        stallFeed := false, feedBefore := false, firstCR := true, holder := none, grantDue := false, pre := []
        preFor := .closing, echoFifo := [], echoLost := false, echoCase := .letters, echoImage := []
        saved := none, reprint := [], echoIdle := none, echoScript := [], notices := [], lost := 0
        lostDue := false, noticeLine := false, noticeScript := [], copy := none, reportScript := [] } ∧
    t.punch =
      { flight := none, stallTapeOut := false, stallFault := false, outPending := false
        tapeOut := s.punch.tapeOut, tapeLow := s.punch.tapeLow, copy := none, markLeft := 0
        reservation := .none, leadLeft := 0, closeLeft := none, fifo := [], redo := none, tapeFeed := false
        offDue := false } ∧
    t.journal =
      { ring := [], nextNumber := 1, overwritten := 0, report := none, minute := 0, clockSet := false
        divider := none } ∧
    t.panel =
      { phase := .attempt 1, settings := Settings.configFault, configFault := false, attended := true
        printSel := true, punchSel := false, acceptLevel := 2, flashOn := false
        flashLeft := Config.flashTime, restartTaken := false } ∧
    t.bell = 0 ∧ t.cell = s.cell ∧ t.pending = s.pending

/-- A failed attempt is followed by the 10 ms wait and a new attempt; the third takes the memory as not
responding. With nothing waiting in the queue the wait runs down by the time of a cell and brings the new attempt
at its end, a memory that does not respond ends the read, and an attempt under way is awaited (log 1). -/
def Obligations.ConfigReadAttempts : Prop :=
  ∀ (n left : Nat) (s : State),
    (s.pending = [] →
      (s.panel.phase = .attempt n → step s = .next s) ∧
      (s.panel.phase = .notResponding → step s = .next { s with pending := [.configReadEnd []] }) ∧
      (∀ m, s.panel.phase = .retryWait n left →
        m = left - (if s.panel.settings.fastCells then 5 else 10) → step s = .next { s with
          panel := { s.panel with phase := .retryWait n m }
          pending := if m = 0 then [.configReadRetry] else [] })) ∧
    (s.panel.phase = .attempt n → n < 3 → exec .configReadAttemptFailed s
      = .next { s with panel := { s.panel with phase := .retryWait n Config.retryTime } }) ∧
    (s.panel.phase = .attempt n → 3 ≤ n → exec .configReadAttemptFailed s
      = .next { s with panel := { s.panel with phase := .notResponding } }) ∧
    (s.panel.phase = .retryWait n left → exec .configReadRetry s
      = .next { s with panel := { s.panel with phase := .attempt (n + 1) } })

/-- The end of the read. A valid image gives the settings, the selections and the START entry, no CONFIG FAULT,
and at a station with ATTENDED on the notice READY with its number; an image at fault or a memory that does not
respond gives the stand-in values, CONFIG FAULT with its entry and notice, and LOCAL mode. A tape-out reading then
begins a TAPE OUT occurrence: the stall with a restart mark of 5 due, the next journal entry, and its notice behind
the other. -/
def Obligations.ConfigReadEnds : Prop :=
  ∀ (image : List Byte) (n : Nat) (s : State), s.journal.ring = [] → s.punch.flight = none →
    s.punch.stallTapeOut = false → s.punch.outPending = false →
    ∀ (fault : Bool) (p : PrintUnit),
    (s.panel.phase = .attempt n ∧ imageValid image = true ∧ fault = false ∧
        p = (if imageBit image 1 3 then s.print.place (.ready (unitAt image 0)) else s.print) ∨
      (s.panel.phase = .attempt n ∧ imageValid image = false ∨ s.panel.phase = .notResponding) ∧
        fault = true ∧ p = s.print.place .configFault) →
    ∃ u : State, exec (.configReadEnd image) s = .next u.settle ∧
      (fault = false → u.kb = s.kb ∧ u.panel = { s.panel with
        phase := .done, settings := settingsOf image, configFault := false
        attended := imageBit image 1 3, printSel := imageBit image 29 0
        punchSel := imageBit image 29 1, acceptLevel := min 2 (unitAt image 1 / 64) }) ∧
      (fault = true → u.kb = { s.kb with comp := .localMode, case := .unknown } ∧ u.panel = { s.panel with
        phase := .done, settings := Settings.configFault, configFault := true, attended := true
        printSel := true, punchSel := false, acceptLevel := 2 }) ∧
      u.journal.ring = { entryNo := s.journal.nextNumber, time := s.journal.time
                         kind := if fault then .configFault else .start, fields := {} } ::
        (if s.punch.tapeOut then
          [{ entryNo := if 9999 ≤ s.journal.nextNumber then 1 else s.journal.nextNumber + 1
             time := s.journal.time, kind := .tapeOut, fields := {} }]
        else []) ∧
      u.print = (if s.punch.tapeOut then p.place .tapeOut else p) ∧
      (s.punch.tapeOut = false → u.punch = s.punch) ∧
      (s.punch.tapeOut = true → u.punch.stallTapeOut = true ∧ u.punch.markLeft = 5 ∧ u.punch.tapeOut = true ∧
        u.punch.stallFault = s.punch.stallFault ∧ u.punch.reservation = s.punch.reservation) ∧
      u.line = s.line ∧ u.recv = s.recv ∧ u.send = s.send ∧ u.store = s.store ∧ u.bell = s.bell

/-- R193's table. Every setting of a valid image is taken from its own byte or bit and brought into its range as
the table shows, and every setting in CONFIG FAULT is the table's last column; all lie in their ranges, and the
answerback has 20 codes. -/
def Obligations.SettingsInRange : Prop :=
  (∀ (image : List Byte) (t : Settings), imageValid image = true → t = settingsOf image →
    t.inRange ∧ (t.pageLength = 0 ↔ unitAt image 3 = 0) ∧
    t.station = some (unitAt image 0) ∧
    (t.unshiftOnSpace = true ↔ unitAt image 1 % 2 = 1) ∧
    (t.pagePerMessage = true ↔ unitAt image 1 / 2 % 2 = 1) ∧
    (t.returnReleases = true ↔ unitAt image 1 / 4 % 2 = 1) ∧
    (t.attended = true ↔ unitAt image 1 / 8 % 2 = 1) ∧
    (t.fastCells = true ↔ unitAt image 1 / 16 % 2 = 1) ∧
    (t.banner = true ↔ unitAt image 1 / 32 % 2 = 1) ∧
    t.acceptLevel = (if unitAt image 1 / 64 = 3 then 2 else unitAt image 1 / 64) ∧
    t.width = (if unitAt image 2 < 64 then 64 else if 80 < unitAt image 2 then 80 else unitAt image 2) ∧
    t.pageLength = (if unitAt image 3 = 0 then 0 else if unitAt image 3 ≤ 19 then 20
      else if 99 < unitAt image 3 then 99 else unitAt image 3) ∧
    t.leader = (if 60 < unitAt image 4 then 60 else unitAt image 4) ∧
    t.tryLimit = (if unitAt image 5 = 0 then 1 else if 8 < unitAt image 5 then 8 else unitAt image 5) ∧
    (∀ i, i < 20 → ∃ c, t.answerback[i]? = some c ∧
      c.val = (if 31 < unitAt image (6 + i) then 0 else unitAt image (6 + i))) ∧
    t.attendedIdleMin = (if unitAt image 26 = 0 then 1 else if 30 < unitAt image 26 then 30
      else unitAt image 26) ∧
    t.unattendedIdle10s = (if unitAt image 27 = 0 then 1 else if 30 < unitAt image 27 then 30
      else unitAt image 27) ∧
    t.idleReleaseS = (if unitAt image 28 = 0 then 1 else if 9 < unitAt image 28 then 9
      else unitAt image 28) ∧
    (t.printOn = true ↔ unitAt image 29 % 2 = 1) ∧ (t.punchOn = true ↔ unitAt image 29 / 2 % 2 = 1)) ∧
  Settings.configFault.inRange ∧ Settings.configFault =
    { station := none, unshiftOnSpace := false, pagePerMessage := false, returnReleases := false, banner := true
      fastCells := false, acceptLevel := 2, attended := true, width := 72, pageLength := 0, leader := 10
      tryLimit := 4, answerback := List.replicate 20 0, attendedIdleMin := 10, unattendedIdle10s := 6
      idleReleaseS := 3, printOn := true, punchOn := false }

/-- RESTART: the lists of reception and sending are emptied, the composer is closed in its mode, the echo is
emptied, CLASH LOCKOUT is cleared and the transmitter acts by R31: CONTEND ends with the receiver in HUNT, the
start cell of a frame selected at this boundary being still driven (R51; log 45), SEND goes to the break, and
the other states stay. The fault, the runs, the counts, the counters, the settings and the selections are kept.
A contact held closed is taken once, until it has read open. The journal takes the RESTART entry, a RECEIVED
INCOMPLETE for each open record, whose entry is CLOSED with reason restart, and a SEND ABANDONED for each message,
whose entry is freed; their order is the model's choice (log 36). The RESTART notice is placed, before the printer
that the echo loses is granted again (the model's choice, log 48). The print unit's part is done in RESTART's own
step with an operation in flight too, which is the model's reading of R167 (log 16). -/
def Obligations.RestartBlocks : Prop :=
  ∀ s : State,
    exec .restartContactOpened s = .next { s with panel := { s.panel with restartTaken := false } } ∧
    (s.panel.phase = .done → s.panel.restartTaken = true → exec .restart s = .next s.settle) ∧
    (s.panel.phase = .done → s.panel.restartTaken = false → ∃ u : State, exec .restart s = .next u.settle ∧
      u.line = { s.line.cut with clash := false } ∧
      (s.line.tx = .contend → u.line.tx = .idle ∧ u.line.rx = .hunt ∧ u.line.outFrame = none ∧
        (u.line.drives = .dominant ↔ s.line.txSent = 0)) ∧
      (s.line.tx = .send → u.line.tx = .breaking ∧ u.line.rx = .hunt ∧ u.line.drives = .dominant) ∧
      (s.line.tx ≠ .contend → s.line.tx ≠ .send → u.line = { s.line with clash := false }) ∧
      u.line.lineFault = s.line.lineFault ∧ u.line.quietRun = s.line.quietRun ∧
      u.line.domRun = s.line.domRun ∧ u.line.discarded = s.line.discarded ∧
      u.line.busy = s.line.busy ∧ u.line.loadE = s.line.loadE ∧ u.line.latch = s.line.latch ∧
      u.recv = { hold := none, circ := [], completion := none, recent := none } ∧
      u.send = { sendList := [], control := [], watch := [], msgCounter := s.send.msgCounter
                 seqCounter := s.send.seqCounter } ∧
      u.kb.dest = none ∧ u.kb.queue = [] ∧ u.kb.hold = .none ∧ u.kb.case = .unknown ∧
      u.kb.current = none ∧ u.kb.idleTimer = none ∧ u.kb.autoEnd = none ∧
      u.kb.down = s.kb.down ∧ u.kb.held = s.kb.held ∧
      u.kb.comp = (if s.kb.inLocal then .localMode else .lineIdle) ∧
      u.print.echoFifo = [] ∧ u.print.echoLost = false ∧ u.print.saved = none ∧
      u.print.echoCase = .letters ∧ u.print.echoIdle = none ∧ u.print.column = s.print.column ∧
      u.print.pageLine = s.print.pageLine ∧ u.print.motor = s.print.motor ∧
      u.print.stalled = s.print.stalled ∧ u.print.copy = s.print.copy ∧
      u.print.openLine = s.print.openLine ∧
      u.print.owner = (if s.print.owner = some .echo then none else s.print.owner) ∧
      (s.print.holder = some .echo → u.print.holder = none ∧ u.print.grantDue = true) ∧
      (s.print.holder ≠ some .echo → u.print.holder = s.print.holder ∧
        u.print.grantDue = s.print.grantDue) ∧
      (s.print.notices.length < 16 →
        u.print.notices = s.print.notices ++ [.restart] ∧ u.print.lost = s.print.lost) ∧
      (16 ≤ s.print.notices.length →
        u.print.notices = s.print.notices ∧ u.print.lost = min 255 (s.print.lost + 1)) ∧
      (u.store, u.journal) = s.send.sendList.foldl restartMessage
        ((s.recv.hold.toList ++ s.recv.circ).foldl restartRecord (s.store, s.journal.add .restart {})) ∧
      u.punch = s.punch ∧ u.bell = s.bell ∧ u.pending = s.pending ∧
      u.panel = { s.panel with restartTaken := true })

/-- The journal's entries, the minute divider, the lamp flash and the eight lamps. An entry takes the next number,
from 9999 to 1, and the time of a set clock, and joins the newest end; at 48 entries the oldest leaves and is
counted up to 255, and it raises the skip count of a report that has still to print it. A running divider raises
the minute, from 1439 to 0, and starts again; one that a setting taken before the waiting expiry has just
restarted, or a stopped one, does nothing (log 26). The flash phase toggles; every lamp is lit before the read
ends, and each by its own condition afterwards. That the two flashing lamps, LINE and PUNCH, share one phase is the
model's choice (log 22). -/
def Obligations.ClockAndFlash : Prop :=
  (∀ (j : Journal) (kind : JournalKind) (fields : JournalFields) (new : JournalEntry),
    new = { entryNo := j.nextNumber, time := if j.clockSet then some j.minute else none, kind := kind
            fields := fields } →
    (j.add kind fields).nextNumber = (if 9999 ≤ j.nextNumber then 1 else j.nextNumber + 1) ∧
    (j.add kind fields).minute = j.minute ∧ (j.add kind fields).clockSet = j.clockSet ∧
    (j.add kind fields).divider = j.divider ∧
    (j.ring.length < 48 → (j.add kind fields).ring = j.ring ++ [new] ∧
      (j.add kind fields).overwritten = j.overwritten ∧ (j.add kind fields).report = j.report) ∧
    (∀ old rest, j.ring = old :: rest → 48 ≤ j.ring.length → (j.add kind fields).ring = rest ++ [new] ∧
      (j.add kind fields).overwritten = min 255 (j.overwritten + 1) ∧
      (j.report = none → (j.add kind fields).report = none) ∧
      ∀ r, j.report = some r → (j.add kind fields).report = some { r with
        snapshot := r.snapshot.filter fun m => m != old.entryNo
        toPrint := r.toPrint.filter fun m => m != old.entryNo
        skip := if old.entryNo ∈ r.toPrint then r.skip + 1 else r.skip })) ∧
  ∀ (s : State) (n : Nat),
    (s.journal.divider = some n → n < 60 * Config.second → s.journal.minute ≤ 1439 →
      exec .dayClockDividerExpiry s = .next { s with journal := { s.journal with
        minute := (s.journal.minute + 1) % 1440, divider := some (60 * Config.second) } }) ∧
    (s.journal.divider = some n → 60 * Config.second ≤ n → exec .dayClockDividerExpiry s = .next s) ∧
    (s.journal.divider = none → exec .dayClockDividerExpiry s = .next s) ∧
    (s.panel.phase = .done → exec .lampFlash s
      = .next { s with panel := { s.panel with
          flashOn := !s.panel.flashOn, flashLeft := Config.flashTime } }) ∧
    (s.panel.phase ≠ .done → ∀ l : Lamp, s.lampLit l = true) ∧
    (s.panel.phase = .done →
      s.lampLit .line = (if s.line.lineFault then s.panel.flashOn else s.line.latch) ∧
      s.lampLit .engagedIn = s.recv.hold.isSome ∧
      (s.lampLit .storeFull = true ↔ s.store.free < 8 ∨ 32 ≤ s.store.dir.length) ∧
      s.lampLit .paper = !s.print.paperPresent ∧
      s.lampLit .punch = (s.punch.stallTapeOut || s.punch.stallFault ||
        (s.punch.tapeLow && s.panel.flashOn)) ∧
      s.lampLit .fault = (s.line.clash || s.panel.configFault) ∧
      s.lampLit .attended = s.panel.attended ∧
      (s.lampLit .localMode = true ↔ s.kb.comp = .localMode ∨ ∃ ds, s.kb.comp = .timeEntry true ds))

/-! ### The line -/

/-- The line becomes free: HUNT becomes READY and LINE FAULT ends; in READY a dominant cell of another station
puts the receiver in FRAME, the line no longer free. And what one cell does when nothing waits (log 1), whatever
level it is read at: it counts in the quiet run up to 14 or in the dominant run, in the window and, when it is
busy, in the busy count; the receiver assembles the units of a frame or answer from it, eight data cells and a stop
cell each; a frame or answer of the station's own moves on by it. It brings into the queue the line becoming free,
LINE FAULT at the 201st dominant cell, the break's twentieth cell, a start cell in READY, a break read, a framing
error, a truncation, a frame that completes, malformed or failing its check, an answer read, the answer window's
end, and for the own frame or answer loss, collision, arbitration won, the end, or a mismatch. -/
def Obligations.LineFreeAndStart : Prop :=
  (∀ s : State, s.panel.phase = .done →
    exec .lineFree s = .next { s with line := { s.line with
      quietRun := 14, domRun := 0, lineFault := false
      rx := if s.line.rx = .hunt then .ready else s.line.rx } } ∧
    (s.line.rx = .ready → exec .frameStartCell s = .next { s with line := { s.line with
      rx := .frame, quietRun := 0, domRun := 1
      asm := { bits := some [], stopLow := false, gap := 0, units := [] } } })) ∧
  (∀ s : State, s.cellPasses → ∃ t : State, step s = .next t ∧
    ∀ (own reads low : Prop) (a : Assembly), (own ↔ s.line.tx = .contend ∨ s.line.tx = .send) →
    (reads ↔ s.line.rx = .frame ∨ s.line.rx = .answer ∧ s.line.answering = false) →
    (low ↔ s.nextLevel = .dominant) → a = s.line.asm →
    t.cell = s.cell + 1 ∧ t.line.windowCells = s.line.windowCells + 1 ∧ t.line.startOwed = false ∧
    (low → t.line.quietRun = 0 ∧ t.line.domRun = s.line.domRun + 1) ∧
    (¬ low → t.line.quietRun = min 14 (s.line.quietRun + 1) ∧ t.line.domRun = 0) ∧
    (s.line.rx = .frame ∨ s.line.rx = .answer ∨ s.line.tx ≠ .idle ∨ low → t.line.busy = s.line.busy + 1) ∧
    (s.line.rx ≠ .frame → s.line.rx ≠ .answer → s.line.tx = .idle → ¬ low → t.line.busy = s.line.busy) ∧
    t.line.rx = s.line.rx ∧ t.line.tx = s.line.tx ∧ t.line.lineFault = s.line.lineFault ∧
    t.line.clash = s.line.clash ∧ t.line.discarded = s.line.discarded ∧ t.line.loadE = s.line.loadE ∧
    t.line.latch = s.line.latch ∧ t.line.outFrame = s.line.outFrame ∧
    (own → t.line.txCells = s.line.txCells.tail ∧ t.line.txSent = s.line.txSent + 1) ∧
    (¬ own ∧ ¬ reads → t.line.asm = a) ∧
    (own ∨ reads →
      (a.bits = none → low → t.line.asm = { a with bits := some [], gap := 0 }) ∧
      (a.bits = none → ¬ low → t.line.asm = if a.units = [] then a else { a with gap := a.gap + 1 }) ∧
      (∀ bs, a.bits = some bs → a.stopLow = true → t.line.asm = a) ∧
      (∀ bs, a.bits = some bs → a.stopLow = false →
        (bs.length < 8 → (low → t.line.asm = { a with bits := some (bs ++ [false]) }) ∧
          (¬ low → t.line.asm = { a with bits := some (bs ++ [true]) })) ∧
        (8 ≤ bs.length → (low → t.line.asm = { a with stopLow := true }) ∧
          (¬ low → t.line.asm = { a with
            bits := none, gap := 0, units := a.units ++ [byteOfBits bs] })))) ∧
    (.lineFree ∈ t.pending ↔ ¬ low ∧ s.line.quietRun = 13) ∧
    (.lineFault ∈ t.pending ↔ low ∧ 201 ≤ s.line.domRun + 1 ∧ s.line.lineFault = false) ∧
    (.breakSignalEnd ∈ t.pending ↔ s.line.tx = .breaking ∧ 20 ≤ s.line.breakCells + 1) ∧
    (.frameStartCell ∈ t.pending ↔ ¬ own ∧ s.line.rx = .ready ∧ low) ∧
    (.breakRead ∈ t.pending ↔ ¬ own ∧ reads ∧ low ∧ s.line.domRun + 1 = 12) ∧
    (.framingError ∈ t.pending ↔ ¬ own ∧ reads ∧ ¬ low ∧ a.bits ≠ none ∧ a.stopLow = true) ∧
    (.truncation ∈ t.pending ↔ ¬ own ∧ reads ∧ ¬ low ∧ a.bits = none ∧ a.units ≠ [] ∧ a.gap = 2) ∧
    (.answerWindowEnd ∈ t.pending ↔ ¬ own ∧ reads ∧ s.line.rx = .answer ∧ ¬ low ∧ a.bits = none ∧
      a.units = [] ∧ 6 ≤ s.line.winCells + 1) ∧
    (∀ bs, ¬ own → reads → a.bits = some bs → a.stopLow = false → 8 ≤ bs.length → ¬ low →
      (s.line.rx = .frame → ∀ us, us = a.units ++ [byteOfBits bs] →
        (malformedNow us = true → .malformedFrame ∈ t.pending) ∧
        (malformedNow us = false → frameComplete us = true → checkPassed us = false →
          .checkFailure ∈ t.pending) ∧
        (∀ f, frameWellFormed f = true → us = frameUnits f → s.frameRow f ∈ t.pending)) ∧
      (∀ u, s.line.rx = .answer → a.units = [u] →
        (s.line.tx ≠ .awaitAnswer → .answerComplete ∈ t.pending) ∧
        (∀ f, s.line.tx = .awaitAnswer → s.line.outFrame = some f →
          (∀ code, judgeAnswer u (byteOfBits bs) f.seq = some code → answerRow code ∈ t.pending) ∧
          (judgeAnswer u (byteOfBits bs) f.seq = none → .answerGarbled ∈ t.pending)))) ∧
    (own → s.line.drives ≠ s.nextLevel →
      if s.line.drives = .recessive ∧ s.line.txSent ∈ [1, 2, 3, 4, 5, 6, 7, 8, 11, 12]
      then .loss ∈ t.pending else .collision ∈ t.pending) ∧
    (own → s.line.drives = s.nextLevel → (s.line.txSent = 12 → .arbitrationWon ∈ t.pending) ∧
      (∀ f, s.line.txCells.length ≤ 1 → s.line.outFrame = some f →
        (f.dest = 0 → .circularFrameCompleted ∈ t.pending) ∧
        (f.dest ≠ 0 → .individualFrameSent ∈ t.pending))) ∧
    (¬ own → s.line.rx = .answer → s.line.answering = true →
      (s.line.drives ≠ s.nextLevel → .answerEchoMismatch ∈ t.pending) ∧
      (s.line.drives = s.nextLevel → t.line.ansCells = s.line.ansCells.tail ∧
        (s.line.ansCells.length ≤ 1 → .answerComplete ∈ t.pending))))

/-- LINE FAULT begins: the receiver enters HUNT, the transmitter acts by its state (IDLE nothing, CONTEND
and AWAIT ANSWER to IDLE, SEND to the break, BREAKING as it was), one journal entry and one notice are
made, and a frame on line is reported as a collision; CLASH LOCKOUT, the counts of the load window, E and the latch
stay as they were; a fault already there makes nothing new. That the entry
and the notice come before those of a frame whose try reaches its limit by it is the model's choice (log 36). A
frame selected at this boundary still drives its start cell (R51; log 45). -/
def Obligations.LineFaultEntry : Prop :=
  ∀ s : State, s.panel.phase = .done →
    (s.line.lineFault = true → exec .lineFault s = .next s.settle) ∧
    (s.line.lineFault = false → ∃ u v : State, exec .lineFault s = .next v.settle ∧
      u.line.lineFault = true ∧ u.line.rx = .hunt ∧ u.line.quietRun = 0 ∧ 201 ≤ u.line.domRun ∧
      u.line.discarded = s.line.discarded ∧ u.line.loadE = s.line.loadE ∧ u.line.clash = s.line.clash ∧
      u.line.latch = s.line.latch ∧ u.line.busy = s.line.busy ∧ u.line.windowCells = s.line.windowCells ∧
      u.line.tx = (match s.line.tx with
        | .send => .breaking
        | .breaking => .breaking
        | .idle => .idle
        | .contend => .idle
        | .awaitAnswer => .idle) ∧
      (s.line.tx = .contend → (u.line.drives = .dominant ↔ s.line.txSent = 0)) ∧
      u.recv = s.recv ∧ u.send = s.send ∧ u.store = s.store ∧ u.kb = s.kb ∧ u.punch = s.punch ∧
      u.panel = s.panel ∧ u.bell = s.bell ∧ u.journal = s.journal.add .lineFault {} ∧
      u.print = s.print.place .lineFault ∧
      v = (if s.line.tx = .contend ∨ s.line.tx = .send ∨ s.line.tx = .awaitAnswer
        then u.reportNoAnswer else u))

/-- A load window ends: x is 16 times the busy count, E moves by the floor of an eighth of the difference,
the latch follows the new E by its three bands and drives the LINE lamp outside LINE FAULT, and the next
window begins at 0. A latch that clears releases the block being composed in this step when it holds codes and the
idle-release time has reached T; below T, without such a block and without the clearing nothing else changes
(R131). -/
def Obligations.LoadWindow : Prop :=
  ∀ s : State, s.panel.phase = .done → ∃ t : State, exec .loadWindowEnd s = .next t ∧
    (t.line.loadE : Int) = max 0 ((s.line.loadE : Int)
      + Int.fdiv (16 * (s.line.busy : Int) - (s.line.loadE : Int)) 8) ∧
    (3584 ≤ t.line.loadE → t.line.latch = true) ∧ (t.line.loadE < 2048 → t.line.latch = false) ∧
    (2048 ≤ t.line.loadE → t.line.loadE < 3584 → t.line.latch = s.line.latch) ∧
    t.line.busy = 0 ∧ t.line.windowCells = 0 ∧
    t.lampCondition .line = (if s.line.lineFault then .flashing else if t.line.latch then .steady
      else .dark) ∧
    t.line = { s.line with busy := 0, windowCells := 0, loadE := t.line.loadE, latch := t.line.latch } ∧
    t.recv = s.recv ∧ t.print = s.print ∧ t.punch = s.punch ∧ t.journal = s.journal ∧
    t.panel = s.panel ∧ t.bell = s.bell ∧ t.kb.queue = s.kb.queue ∧ t.kb.comp = s.kb.comp ∧
    (s.line.latch = false ∨ t.line.latch = true ∨ s.kb.idleTimer = none →
      t = { s with line := t.line }) ∧
    (∀ n, s.kb.idleTimer = some n → n < s.panel.settings.idleReleaseS * Config.second →
      t = { s with line := t.line }) ∧
    ((∀ slot x xs, s.kb.comp = .composing → s.kb.current = some slot →
        s.store.openCodes slot ≠ some (x :: xs)) → t = { s with line := t.line }) ∧
    (∀ n slot x xs, s.line.latch = true → t.line.latch = false → s.kb.idleTimer = some n →
      s.panel.settings.idleReleaseS * Config.second ≤ n → s.kb.comp = .composing →
      s.kb.current = some slot → s.store.openCodes slot = some (x :: xs) →
      t.store = s.store.releaseOpen slot false ∧ t = { s with
        line := t.line, store := t.store
        send := { s.send with sendList := refreshList t.store [] s.send.sendList }
        kb := { s.kb with case := .unknown, idleTimer := none } })

/-- R42: from an E within 0 to 4096 and a load figure within 0 to 4096 the new E lies within 0 to 4096 and
between the old E and x; under a steady x it falls to exactly x from above, and from 8 or more below it
rises to exactly x - 7, while an E 1 to 7 below stays; from power-on it does not exceed 4089; and one
update moves it by at most 512. E is 0 at reset and no step of the block takes it out of 0 to 4096. -/
def Obligations.LoadEstimateBounds : Prop :=
  ∀ e x : Nat, e ≤ 4096 → x ≤ 4096 →
    loadUpdate e x ≤ 4096 ∧
    (x ≤ e → x ≤ loadUpdate e x ∧ loadUpdate e x ≤ e) ∧
    (e ≤ x → e ≤ loadUpdate e x ∧ loadUpdate e x ≤ x) ∧
    (x ≤ e → ∃ k, ∀ m, k ≤ m → afterWindows x m e = x) ∧
    (e + 8 ≤ x → e < loadUpdate e x ∧ ∃ k, ∀ m, k ≤ m → afterWindows x m e + 7 = x) ∧
    (e ≤ x → x ≤ e + 7 → loadUpdate e x = e) ∧
    (e ≤ 4089 → loadUpdate e x ≤ 4089) ∧
    loadUpdate 4088 4096 = 4089 ∧ loadUpdate 4089 4096 = 4089 ∧
    loadUpdate e x ≤ e + 512 ∧ e ≤ loadUpdate e x + 512 ∧ State.reset.line.loadE = 0 ∧
    (∀ s t : State, s.line.bounded → step s = .next t → t.line.loadE ≤ 4096)

/-- A malformed frame, a check failure, a framing error or a truncation of another station's frame: nothing
is handed on or answered, the discarded-frame count rises by one and stays at 65535, and the receiver
enters HUNT. A framing error or a truncation in an answer counts nothing: the receiver enters HUNT, and a
sender reports no answer. -/
def Obligations.FrameDiscarded : Prop :=
  ∀ s : State, s.panel.phase = .done →
    (s.line.rx = .frame → s.line.tx ≠ .contend → s.line.tx ≠ .send →
      exec .malformedFrame s = .next { s with line :=
        { s.line with discarded := min 65535 (s.line.discarded + 1) }.hunt } ∧
      exec .checkFailure s = .next { s with line :=
        { s.line with discarded := min 65535 (s.line.discarded + 1) }.hunt } ∧
      exec .framingError s = .next (State.settle { s with line :=
        { s.line with discarded := min 65535 (s.line.discarded + 1), domRun := 0, quietRun := 1 }.hunt }) ∧
      exec .truncation s = .next (State.settle { s with line :=
        { s.line with discarded := min 65535 (s.line.discarded + 1), domRun := 0
                      quietRun := max 4 s.line.quietRun }.hunt }) ∧
      s.line.hunt.rx = .hunt ∧ s.line.hunt.asm.units = [] ∧ s.line.hunt.answerDue = none) ∧
    (∀ (c : Instr) (l : LineUnit), s.line.rx = .answer →
      (c = .framingError ∧ l = { s.line with domRun := 0, quietRun := 1 }.hunt ∨
        c = .truncation ∧ l = { s.line with domRun := 0, quietRun := max 4 s.line.quietRun }.hunt) →
      (s.line.tx = .awaitAnswer →
        exec c s = .next (State.settle (State.reportNoAnswer { s with line := l.txIdle }))) ∧
      (s.line.tx ≠ .awaitAnswer → exec c s = .next (State.settle { s with line := l })))

/-- A break read in FRAME or ANSWER puts the receiver in HUNT and raises no count; a sender that awaits its
answer reports no answer and is IDLE. -/
def Obligations.BreakRead : Prop :=
  ∀ s : State, s.panel.phase = .done →
    (s.line.rx = .answer ∨ s.line.rx = .frame ∧ s.line.tx ≠ .contend ∧ s.line.tx ≠ .send) →
    ∃ u v : State, exec .breakRead s = .next v.settle ∧
      u = { s with line := { s.line with quietRun := 0, domRun := max s.line.domRun 12 }.hunt } ∧
      (s.line.rx = .answer → s.line.tx = .awaitAnswer →
        v = State.reportNoAnswer { u with line := u.line.txIdle }) ∧
      (s.line.rx = .frame ∨ s.line.tx ≠ .awaitAnswer → v = u)

/-- A well-formed individual frame that completes and is not handed on: addressed to another station, or met
in CLASH LOCKOUT or CONFIG FAULT. The receiver enters ANSWER with no answer due and the reception
controller is untouched; the station's own number as origin brings CLASH LOCKOUT, once, with one entry and
one notice. -/
def Obligations.FrameNotHandedOn : Prop :=
  ∀ (f : Frame) (s : State), s.panel.phase = .done → frameWellFormed f = true → f.dest ≠ 0 →
    s.line.rx = .frame → s.line.tx ≠ .contend → s.line.tx ≠ .send →
    (s.own ≠ some f.dest ∨ s.line.clash = true ∨ s.own = some f.origin) →
    ∃ u : State, exec (.frameNotHandedOn f) s = .next u.settle ∧
      u.line.rx = .answer ∧ u.line.answerDue = none ∧ u.line.discarded = s.line.discarded ∧
      u.recv = s.recv ∧ u.send = s.send ∧ u.store = s.store ∧ u.kb = s.kb ∧ u.panel = s.panel ∧
      (s.own = some f.origin → u.line.clash = true) ∧
      (s.own ≠ some f.origin → u.line.clash = s.line.clash) ∧
      (s.own = some f.origin ∧ s.line.clash = false →
        u.print = s.print.place (.clash f.origin) ∧
        u.journal = s.journal.add .clash
          { peer := some f.origin, frame := some f.kind, number := some f.number }) ∧
      (s.own ≠ some f.origin ∨ s.line.clash = true → u.print = s.print ∧ u.journal = s.journal)

/-- The answer decided is driven in the window as AU1 and AU2, twenty cells, and by no station in CLASH
LOCKOUT, LINE FAULT or CONFIG FAULT; a mismatch ends it with the receiver in HUNT; its end, or the end of
another station's answer, leaves the receiver READY. -/
def Obligations.AnswerDriven : Prop :=
  ∀ (code : AnswerCode) (seq : Nat) (s : State), s.panel.phase = .done → s.line.rx = .answer →
    (s.line.answerDue = some (code, seq) →
      s.line.clash = false → s.line.lineFault = false → s.panel.configFault = false →
      exec .answerStart s = .next { s with line := { s.line with
        answerDue := none, answering := true
        ansCells := unitCells (answerAU1 code seq) ++ unitCells (answerAU2 code seq) } }) ∧
    (s.line.answerDue = some (code, seq) →
      (s.line.clash = true ∨ s.line.lineFault = true ∨ s.panel.configFault = true) →
      exec .answerStart s = .next { s with line := { s.line with answerDue := none } }) ∧
    (s.line.answering = true → exec .answerEchoMismatch s = .next { s with line := s.line.hunt }) ∧
    (s.line.tx ≠ .awaitAnswer → exec .answerComplete s = .next { s with line := { s.line with
      rx := .ready, asm := Assembly.empty, winCells := 0, answerDue := none, answering := false
      ansCells := [] } }) ∧
    (answerCells code seq).length = 20

/-! ### Frames and answers as units -/

/-- Reading the units of a well-formed frame gives the frame back, with every field at every value R22 and
R24 admit: no bit of the layout is dropped, and the check passes. -/
def Obligations.FrameRoundTrip : Prop :=
  ∀ f : Frame, frameWellFormed f = true → readFrame (frameUnits f) = some f

/-- The two sums: A starts at 1 and B at 0, and for each unit in turn A becomes the remainder of A and its value by
251, then B that of B and the new A. Both lie within 0 to 250, so that each fits its check unit. A frame passes its
check exactly when its last two units are the sums of those before them. An image of 32 bytes is valid exactly when
bytes 30 and 31 are the sums of bytes 0 to 29 and byte 0 is a station number; bytes of another length are none
(log 33). -/
def Obligations.SumsInRange : Prop :=
  doubleSum [] = (1, 0) ∧
  (∀ (units : List Byte) (v : Byte), doubleSum (units ++ [v]) =
    (((doubleSum units).1 + v.toNat) % 251,
      ((doubleSum units).2 + ((doubleSum units).1 + v.toNat) % 251) % 251)) ∧
  (∀ units : List Byte, (doubleSum units).1 ≤ 250 ∧ (doubleSum units).2 ≤ 250) ∧
  (∀ (units : List Byte) (a b : Byte), checkPassed (units ++ [a, b]) = true ↔
    a.toNat = (doubleSum units).1 ∧ b.toNat = (doubleSum units).2) ∧
  (∀ image : List Byte, imageValid image = true ↔ image.length = 32 ∧
    unitAt image 30 = (doubleSum (image.take 30)).1 ∧ unitAt image 31 = (doubleSum (image.take 30)).2 ∧
    1 ≤ unitAt image 0 ∧ unitAt image 0 ≤ 62)

/-- R28: AU1 carries the code in bits 7 to 5, the sequence in bits 4 to 2 and zero below; AU2 is its
complement, 255 less its value; both are sent as they stand. Codes 1 to 5 have their names and 0, 6 and 7
are invalid. Two units read are an answer to a frame exactly when they are the two units laid out for a code
and the frame's sequence. -/
def Obligations.AnswerUnits : Prop :=
  (∀ (code : AnswerCode) (seq : Nat), seq < 8 →
    (answerAU1 code seq).toNat = answerNumber code * 32 + seq * 4 ∧
    answerAU2 code seq = ~~~ (answerAU1 code seq) ∧
    (answerAU2 code seq).toNat = 255 - (answerAU1 code seq).toNat ∧
    answerCells code seq = unitCells (answerAU1 code seq) ++ unitCells (answerAU2 code seq) ∧
    ∀ a b : Byte, judgeAnswer a b seq = some code ↔ a = answerAU1 code seq ∧ b = answerAU2 code seq) ∧
  answerNumber .accept = 1 ∧ answerNumber .duplicate = 2 ∧ answerNumber .wait = 3 ∧
  answerNumber .engaged = 4 ∧ answerNumber .refuse = 5 ∧
  (∀ n, answerOfNumber n = none ↔ n = 0 ∨ 6 ≤ n)

/-! ### Reception -/

/-- Every individual frame handed over is answered with exactly one code, due in the window with the
frame's sequence; the receiver is in ANSWER, and the rest of the line unit, the panel and the keyboard are
as they were. -/
def Obligations.IndividualAnswered : Prop :=
  ∀ (f : Frame) (s : State), s.panel.phase = .done → frameWellFormed f = true → s.line.rx = .frame →
    s.line.tx ≠ .contend → s.line.tx ≠ .send → s.own = some f.dest → f.dest ≠ 0 →
    f.origin ≠ f.dest → s.line.clash = false →
    ∀ c, (c = .textSection f ∧ f.kind = .text ∨ c = .who f ∧ f.kind = .who ∨
        c = .enquire f ∧ f.kind = .enquire ∨ c = .ident f ∧ f.kind = .ident ∨
        c = .status f ∧ f.kind = .status ∨ c = .release f ∧ f.kind = .release) →
      ∃ (u : State) (code : AnswerCode), exec c s = .next u.settle ∧
        u.line = { s.line with
          rx := .answer, asm := Assembly.empty, winCells := 0, answering := false, ansCells := []
          answerDue := some (code, f.seq) } ∧
        u.panel = s.panel ∧ u.kb = s.kb ∧ u.punch = s.punch ∧ u.bell = s.bell ∧
        u.cell = s.cell ∧ u.pending = s.pending

/-- A first section with no hold. Within the level and the reserve of 8 blocks and an entry it is accepted
and stored as section 0 of a new entry. A section that is not final opens the hold. A final one completes the
message: its entry is closed complete in the same step, one RECEIVED entry of one section is journalled, the
completion record is set, and an unattended station with room in the control queue queues a receipt. A hold opened
clears a completion record of its origin, and another origin's stays. Above the level it is refused; a short store
answers WAIT while it drains and REFUSE otherwise; in both nothing is stored. -/
def Obligations.FirstSectionJudged : Prop :=
  ∀ (f : Frame) (s : State), s.panel.phase = .done → frameWellFormed f = true → f.kind = .text →
    s.line.rx = .frame → s.line.tx ≠ .contend → s.line.tx ≠ .send → s.own = some f.dest →
    f.dest ≠ 0 → f.origin ≠ f.dest → s.line.clash = false → f.first = true → s.recv.hold = none →
    s.recv.completion ≠ some (f.origin, f.number, f.seq) →
    ∃ u : State, exec (.textSection f) s = .next u.settle ∧
      u.recv.circ = (s.recv.restartTimers f.origin).circ ∧ u.recv.recent = s.recv.recent ∧
      (f.cls ≤ s.panel.acceptLevel → 8 ≤ s.store.free → s.store.dir.length < 32 → f.final = false →
        u.line.answerDue = some (.accept, f.seq) ∧
        u.store = s.store.storeFirst f.origin f.number f.cls s.panel.printSel s.panel.punchSel f.text ∧
        u.recv.hold = some { origin := f.origin, number := f.number, cls := f.cls
                             next := (f.seq + 1) % 8, entry := s.store.freeSlot
                             timer := 120 * Config.second } ∧
        (s.recv.completion = none → u.recv.completion = none) ∧
        (∀ o n q, s.recv.completion = some (o, n, q) →
          u.recv.completion = if o = f.origin then none else some (o, n, q)) ∧
        u.journal = s.journal ∧ u.send = s.send ∧ u.print = s.print) ∧
      (f.cls ≤ s.panel.acceptLevel → 8 ≤ s.store.free → s.store.dir.length < 32 → f.final = true →
        u.line.answerDue = some (.accept, f.seq) ∧ u.recv.hold = none ∧
        u.recv.completion = some (f.origin, f.number, f.seq) ∧
        u.store = (s.store.storeFirst f.origin f.number f.cls s.panel.printSel s.panel.punchSel
          f.text).closeEntry s.store.freeSlot none ∧
        u.journal = s.journal.add .received { peer := some f.origin, number := some f.number
                                              cls := some f.cls, sections := some 1 } ∧
        u.print = s.print ∧
        (s.panel.attended = true ∨ 6 ≤ s.send.control.length → u.send = s.send) ∧
        (s.panel.attended = false → s.send.control.length < 6 → u.send = { s.send with
          seqCounter := (s.send.seqCounter + 1) % 8
          control := s.send.control ++ [{ kind := .ident, dest := f.origin, seq := s.send.seqCounter
                                          number := 0, text := s.panel.settings.answerback
                                          phase := .ready, counts := Counts.zero, delay := 0
                                          watch := none }] })) ∧
      (s.panel.acceptLevel < f.cls →
        u.line.answerDue = some (.refuse, f.seq) ∧ u.store = s.store ∧ u.recv.hold = none ∧
        u.recv.completion = s.recv.completion ∧ u.journal = s.journal ∧ u.send = s.send) ∧
      (f.cls ≤ s.panel.acceptLevel → (s.store.free < 8 ∨ 32 ≤ s.store.dir.length) →
        u.store = s.store ∧ u.recv.hold = none ∧ u.recv.completion = s.recv.completion ∧
        u.journal = s.journal ∧ u.send = s.send ∧
        u.line.answerDue = some (if s.store.draining s.able
            { blocks := decide (s.store.free < 8), directory := decide (32 ≤ s.store.dir.length) }
          then .wait else .refuse, f.seq))

/-- A further section of an individual message. One that meets the completion record is a DUPLICATE; another
origin's meets ENGAGED while the hold stands; a stale continuation, or one with another number than the hold's,
is refused; the section stored last is a DUPLICATE; another sequence out of order is refused and closes the
hold. The next one is stored and accepted, or without a free block answered WAIT while the store drains and
REFUSE otherwise; a final one completes the message, and an unattended station with room in the control queue
queues a receipt. A first section with another number closes the hold as superseded and is judged as a first
section with no hold, a final one completing its message of one section with its own entries and receipt, one not
final clearing a completion record of its origin. -/
def Obligations.HeldSectionJudged : Prop :=
  ∀ (f : Frame) (s : State), s.panel.phase = .done → frameWellFormed f = true → f.kind = .text →
    s.line.rx = .frame → s.line.tx ≠ .contend → s.line.tx ≠ .send → s.own = some f.dest →
    f.dest ≠ 0 → f.origin ≠ f.dest → s.line.clash = false →
    ∃ u : State, exec (.textSection f) s = .next u.settle ∧
      (s.recv.completion = some (f.origin, f.number, f.seq) →
        u.line.answerDue = some (.duplicate, f.seq) ∧ u.store = s.store ∧
        u.recv = s.recv.restartTimers f.origin) ∧
      (s.recv.completion ≠ some (f.origin, f.number, f.seq) →
        (∀ r, s.recv.hold = some r → r.origin ≠ f.origin →
          u.line.answerDue = some (.engaged, f.seq) ∧ u.store = s.store ∧
          u.recv = s.recv.restartTimers f.origin) ∧
        (s.recv.hold = none → f.first = false →
          u.line.answerDue = some (.refuse, f.seq) ∧ u.store = s.store ∧
          u.recv = s.recv.restartTimers f.origin) ∧
        (∀ r, s.recv.hold = some r → r.origin = f.origin → r.number = f.number →
          (f.seq ≠ r.next → (f.seq + 1) % 8 = r.next →
            u.line.answerDue = some (.duplicate, f.seq) ∧ u.store = s.store) ∧
          (f.seq ≠ r.next → (f.seq + 1) % 8 ≠ r.next →
            u.line.answerDue = some (.refuse, f.seq) ∧ u.recv.hold = none ∧
            u.store = s.store.closeEntry r.entry (some .outOfOrder) ∧
            u.journal = s.journal.add .receivedIncomplete
              { peer := some r.origin, number := some r.number, cls := some r.cls
                sections := some (entrySections (s.store.entry r.entry))
                reason := some (.incomplete .outOfOrder) }) ∧
          (f.seq = r.next → s.store.free = 0 →
            u.line.answerDue = some (if s.store.draining s.able { blocks := true, directory := false }
              then .wait else .refuse, f.seq) ∧
            u.store = s.store ∧ u.recv = s.recv.restartTimers f.origin ∧ u.journal = s.journal) ∧
          (f.seq = r.next → 1 ≤ s.store.free → f.final = false →
            u.line.answerDue = some (.accept, f.seq) ∧
            u.store = s.store.storeSection r.entry 0 f.text ∧ u.journal = s.journal ∧
            u.recv.hold = some { r with next := (r.next + 1) % 8, timer := 120 * Config.second } ∧
            u.recv.completion = s.recv.completion ∧ u.send = s.send) ∧
          (f.seq = r.next → 1 ≤ s.store.free → f.final = true →
            u.line.answerDue = some (.accept, f.seq) ∧ u.recv.hold = none ∧
            u.recv.completion = some (f.origin, f.number, f.seq) ∧
            u.store = (s.store.storeSection r.entry 0 f.text).closeEntry r.entry none ∧
            (∀ e, (s.store.storeSection r.entry 0 f.text).entry r.entry = some e → e.reason = none →
              u.journal = s.journal.add .received
                { peer := some r.origin, number := some r.number, cls := some r.cls
                  sections := some e.sections }) ∧
            (s.panel.attended = true ∨ 6 ≤ s.send.control.length → u.send = s.send) ∧
            (s.panel.attended = false → s.send.control.length < 6 → u.send = { s.send with
              seqCounter := (s.send.seqCounter + 1) % 8
              control := s.send.control ++ [{ kind := .ident, dest := f.origin, seq := s.send.seqCounter
                                              number := 0, text := s.panel.settings.answerback
                                              phase := .ready, counts := Counts.zero, delay := 0
                                              watch := none }] }))) ∧
        (∀ r, s.recv.hold = some r → r.origin = f.origin → r.number ≠ f.number → f.first = false →
          u.line.answerDue = some (.refuse, f.seq) ∧ u.store = s.store ∧ u.journal = s.journal ∧
          u.recv = s.recv.restartTimers f.origin) ∧
        (∀ r st j, s.recv.hold = some r → r.origin = f.origin → r.number ≠ f.number → f.first = true →
          st = s.store.closeEntry r.entry (some .superseded) →
          j = s.journal.add .receivedIncomplete
            { peer := some r.origin, number := some r.number, cls := some r.cls
              sections := some (entrySections (s.store.entry r.entry))
              reason := some (.incomplete .superseded) } →
          (s.panel.acceptLevel < f.cls →
            u.line.answerDue = some (.refuse, f.seq) ∧ u.store = st ∧ u.journal = j ∧
            u.recv.hold = none) ∧
          (f.cls ≤ s.panel.acceptLevel → (st.free < 8 ∨ 32 ≤ st.dir.length) →
            u.store = st ∧ u.journal = j ∧ u.recv.hold = none ∧
            u.line.answerDue = some (if st.draining s.able
                { blocks := decide (st.free < 8), directory := decide (32 ≤ st.dir.length) }
              then .wait else .refuse, f.seq)) ∧
          (f.cls ≤ s.panel.acceptLevel → 8 ≤ st.free → st.dir.length < 32 →
            u.line.answerDue = some (.accept, f.seq) ∧
            (f.final = false →
              u.store = st.storeFirst f.origin f.number f.cls s.panel.printSel s.panel.punchSel f.text ∧
              u.journal = j ∧
              u.recv.hold = some { origin := f.origin, number := f.number, cls := f.cls
                                   next := (f.seq + 1) % 8, entry := st.freeSlot
                                   timer := 120 * Config.second } ∧
              (s.recv.completion = none → u.recv.completion = none) ∧
              (∀ o n q, s.recv.completion = some (o, n, q) →
                u.recv.completion = if o = f.origin then none else some (o, n, q))) ∧
            (f.final = true → u.recv.hold = none ∧
              u.recv.completion = some (f.origin, f.number, f.seq) ∧
              u.store = (st.storeFirst f.origin f.number f.cls s.panel.printSel s.panel.punchSel
                f.text).closeEntry st.freeSlot none ∧
              u.journal = j.add .received { peer := some f.origin, number := some f.number
                                            cls := some f.cls, sections := some 1 } ∧
              (s.panel.attended = true ∨ 6 ≤ s.send.control.length → u.send = s.send) ∧
              (s.panel.attended = false → s.send.control.length < 6 → u.send = { s.send with
                seqCounter := (s.send.seqCounter + 1) % 8
                control := s.send.control ++ [{ kind := .ident, dest := f.origin, seq := s.send.seqCounter
                                                number := 0, text := s.panel.settings.answerback
                                                phase := .ready, counts := Counts.zero, delay := 0
                                                watch := none }] })))))

/-- A circular first section: a repeat of an open record is discarded and counted. Otherwise an open record of its
origin with another number is closed as superseded, and then: above the level it is journalled as declined and
nothing is stored; with three records, or without the reserve of 16 blocks and an entry, it is journalled as missed;
else it is stored and opens a record, or, when final, its entry is closed complete in the same step. The timers of
the origin's records, the hold's among them, have started again before it is judged, and the rest of the hold, the
completion record and the recent-control record stay. The receiver is READY and no answer is due. A frame of the
station's own number brings CLASH LOCKOUT first, once, with its entry and notice, and is handed on all the same. -/
def Obligations.CircularFirstJudged : Prop :=
  ∀ (f : Frame) (s : State), s.panel.phase = .done → frameWellFormed f = true → f.kind = .text →
    f.dest = 0 → f.first = true → s.line.rx = .frame → s.line.tx ≠ .contend → s.line.tx ≠ .send →
    ∃ u : State, exec (.circularFirstSection f) s = .next u.settle ∧
      u.line.rx = .ready ∧ u.line.answerDue = none ∧ u.send = s.send ∧ u.kb = s.kb ∧
      u.print = s.clashPrint f ∧ (u.line.clash = true ↔ s.line.clash = true ∨ s.own = some f.origin) ∧
      u.recv = { s.recv with
        circ := u.recv.circ
        hold := s.recv.hold.map fun x =>
          if x.origin = f.origin then { x with timer := 120 * Config.second } else x } ∧
      u.punch = s.punch ∧ u.panel = s.panel ∧ u.bell = s.bell ∧
      ((s.recv.circ.any fun r => r.origin == f.origin && r.number == f.number) = true →
        u.line.discarded = min 65535 (s.line.discarded + 1) ∧ u.store = s.store ∧
        u.journal = s.clashJournal f ∧ u.recv.circ = s.recv.circ.map fun x =>
          if x.origin = f.origin then { x with timer := 120 * Config.second } else x) ∧
      (∀ (st : Store) (circ : List Record) (j : Journal),
        ((∀ r ∈ s.recv.circ, r.origin ≠ f.origin) ∧ st = s.store ∧ circ = s.recv.circ ∧
            j = s.clashJournal f ∨
          ∃ r, (s.recv.circ.filter fun x => x.origin == f.origin) = [r] ∧ r.number ≠ f.number ∧
            st = s.store.closeEntry r.entry (some .superseded) ∧
            circ = (s.recv.circ.filter fun x => x.origin != f.origin) ∧
            j = (s.clashJournal f).add .receivedIncomplete
              { peer := some r.origin, number := some r.number, cls := some r.cls
                sections := some (entrySections (s.store.entry r.entry))
                reason := some (.incomplete .superseded) }) →
        u.line.discarded = s.line.discarded ∧
        (s.panel.acceptLevel < f.cls → u.store = st ∧ u.recv.circ = circ ∧
          u.journal = j.add .circularDeclined
            { peer := some f.origin, number := some f.number, cls := some f.cls }) ∧
        (f.cls ≤ s.panel.acceptLevel → (3 ≤ circ.length ∨ st.free < 16 ∨ 32 ≤ st.dir.length) →
          u.store = st ∧ u.recv.circ = circ ∧
          u.journal = j.add .circularMissed
            { peer := some f.origin, number := some f.number, cls := some f.cls }) ∧
        (f.cls ≤ s.panel.acceptLevel → circ.length < 3 → 16 ≤ st.free → st.dir.length < 32 →
          ∀ st', st' = st.storeFirst f.origin f.number f.cls s.panel.printSel s.panel.punchSel f.text →
          (f.final = false → u.store = st' ∧ u.journal = j ∧
            u.recv.circ = circ ++ [{ origin := f.origin, number := f.number, cls := f.cls
                                     next := (f.seq + 1) % 8, entry := st.freeSlot
                                     timer := 120 * Config.second }]) ∧
          (f.final = true → u.store = st'.closeEntry st.freeSlot none ∧ u.recv.circ = circ ∧
            ∀ e, st'.entry st.freeSlot = some e → e.reason = none → u.journal = j.add .received
              { peer := some f.origin, number := some f.number, cls := some f.cls
                sections := some e.sections })))

/-- A circular continuation without a record is discarded and counted. With one it is stored with the number of
sections missing before it, 0 to 7, and the record's next sequence follows it; a final one closes the record and its
entry, with reason gap when sections are missing before it or an earlier gap is noted. Without a free block nothing
is stored, and a final one closes the record with reason gap. Whether or not a record matches, the timers of the
origin's records, the hold's among them, start again, and the rest of the hold, the completion record and the
recent-control record stay. A frame of the station's own number brings CLASH LOCKOUT first and is handed on all the
same. -/
def Obligations.CircularContinuationJudged : Prop :=
  ∀ (f : Frame) (s : State), s.panel.phase = .done → frameWellFormed f = true → f.kind = .text →
    f.dest = 0 → f.first = false → s.line.rx = .frame → s.line.tx ≠ .contend → s.line.tx ≠ .send →
    ∃ u : State, exec (.circularContinuation f) s = .next u.settle ∧
      u.line.rx = .ready ∧ u.line.answerDue = none ∧ u.send = s.send ∧ u.kb = s.kb ∧
      u.print = s.clashPrint f ∧ (u.line.clash = true ↔ s.line.clash = true ∨ s.own = some f.origin) ∧
      u.recv = { s.recv with
        circ := u.recv.circ
        hold := s.recv.hold.map fun x =>
          if x.origin = f.origin then { x with timer := 120 * Config.second } else x } ∧
      u.punch = s.punch ∧ u.panel = s.panel ∧ u.bell = s.bell ∧
      ((∀ r ∈ s.recv.circ, ¬ (r.origin = f.origin ∧ r.number = f.number)) →
        u.line.discarded = min 65535 (s.line.discarded + 1) ∧ u.store = s.store ∧
        u.journal = s.clashJournal f ∧ u.recv.circ = s.recv.circ.map fun x =>
          if x.origin = f.origin then { x with timer := 120 * Config.second } else x) ∧
      (∀ (r : Record) (circ : List Record) (st : Store), s.recv.findCircular f.origin f.number = some r →
        circ = (s.recv.circ.map fun x =>
          if x.origin = f.origin then { x with timer := 120 * Config.second } else x) →
        st = s.store.storeSection r.entry ((f.seq + 8 - r.next) % 8) f.text →
        u.line.discarded = s.line.discarded ∧
        (∀ e e', s.store.entry r.entry = some e → st.entry r.entry = some e' →
          e'.sections = e.sections + 1 ∧
          e'.reason = if (f.seq + 8 - r.next) % 8 = 0 then e.reason else some .gap) ∧
        (1 ≤ s.store.free → f.final = false → u.journal = s.clashJournal f ∧ u.store = st ∧
          u.recv.circ = circ.map fun x => if x.origin = f.origin ∧ x.number = f.number then
            { r with next := (f.seq + 1) % 8, timer := 120 * Config.second } else x) ∧
        (1 ≤ s.store.free → f.final = true → u.store = st.closeEntry r.entry none ∧
          u.recv.circ = (circ.filter fun x => !(x.origin == f.origin && x.number == f.number)) ∧
          ∀ e, st.entry r.entry = some e → u.journal = (s.clashJournal f).add
            (if e.reason = none then .received else .receivedIncomplete)
            { peer := some r.origin, number := some r.number, cls := some r.cls
              sections := some e.sections, reason := e.reason.map .incomplete }) ∧
        (s.store.free = 0 → f.final = false →
          u.store = s.store ∧ u.journal = s.clashJournal f ∧ u.recv.circ = circ) ∧
        (s.store.free = 0 → f.final = true → u.store = s.store.closeEntry r.entry (some .gap) ∧
          u.recv.circ = (circ.filter fun x => !(x.origin == f.origin && x.number == f.number)) ∧
          u.journal = (s.clashJournal f).add .receivedIncomplete
            { peer := some r.origin, number := some r.number, cls := some r.cls
              sections := some (entrySections (s.store.entry r.entry))
              reason := some (.incomplete .gap) }))

/-- A WHO or an ENQUIRE: a repeat of the control frame acted on last is a DUPLICATE and queues nothing; with
six records in the control queue the answer is WAIT; otherwise it is ACCEPT, the reply joins the queue with
the next control sequence, 20 answerback codes for a WHO and the six STATUS codes for an ENQUIRE, and an
accepted WHO is journalled. -/
def Obligations.RequestsJudged : Prop :=
  ∀ (f : Frame) (s : State), s.panel.phase = .done → frameWellFormed f = true → s.line.rx = .frame →
    s.line.tx ≠ .contend → s.line.tx ≠ .send → s.own = some f.dest → f.dest ≠ 0 →
    f.origin ≠ f.dest → s.line.clash = false →
    ∀ (c : Instr) (reply : FrameKind) (text : List Code),
      (c = .who f ∧ f.kind = .who ∧ reply = .ident ∧ text = s.panel.settings.answerback ∨
        c = .enquire f ∧ f.kind = .enquire ∧ reply = .status ∧ text = s.statusCodes) →
      ∃ u : State, exec c s = .next u.settle ∧ u.store = s.store ∧ u.print = s.print ∧
        (s.recv.recent = some (f.origin, f.kind, f.seq) →
          u.line.answerDue = some (.duplicate, f.seq) ∧ u.send = s.send ∧ u.recv = s.recv ∧
          u.journal = s.journal) ∧
        (s.recv.recent ≠ some (f.origin, f.kind, f.seq) → 6 ≤ s.send.control.length →
          u.line.answerDue = some (.wait, f.seq) ∧ u.send = s.send ∧ u.recv = s.recv ∧
          u.journal = s.journal) ∧
        (s.recv.recent ≠ some (f.origin, f.kind, f.seq) → s.send.control.length < 6 →
          u.line.answerDue = some (.accept, f.seq) ∧
          u.recv = { s.recv with recent := some (f.origin, f.kind, f.seq) } ∧
          u.send = { s.send with
            seqCounter := (s.send.seqCounter + 1) % 8
            control := s.send.control ++ [{ kind := reply, dest := f.origin, seq := s.send.seqCounter
                                            number := 0, text := text, phase := .ready
                                            counts := Counts.zero, delay := 0, watch := none }] } ∧
          u.journal = (if f.kind = .who then
            s.journal.add .whoAnswered { peer := some f.origin } else s.journal))

/-- The six STATUS codes lie in the ranges of R90 and carry its figures: attended, paper, motor running, punch
ready and tape low; the accept level, draining and the latch; free blocks in eights; free entries; the hold's
origin; the load. The punch is ready when it is neither stalled nor reserved, and low when it is that and its
switch reports low. -/
def Obligations.StatusRanges : Prop :=
  ∀ s : State, s.panel.acceptLevel ≤ 2 → s.store.dir.length ≤ 32 → s.holdOrigin ≤ 62 →
    s.line.loadE ≤ 4089 → ∃ t1 t2 t3 t4 t5 t6 : Code, s.statusCodes = [t1, t2, t3, t4, t5, t6] ∧
      t2.val ≤ 14 ∧ t2.val % 4 = s.panel.acceptLevel ∧ t3.val = min 31 (s.store.free / 8) ∧
      t4.val = min 31 (32 - s.store.dir.length) ∧ t5.val + 32 * (t6.val % 2) = s.holdOrigin ∧
      t6.val / 2 = s.line.loadE / 512 ∧ t6.val ≤ 15 ∧
      (t1.val / 16 = 1 ↔ s.panel.attended = true) ∧
      (t1.val / 8 % 2 = 1 ↔ s.print.paperPresent = true) ∧
      (t1.val / 4 % 2 = 1 ↔ s.print.motor = .running) ∧
      (t1.val / 2 % 2 = 1 ↔ s.punch.stallFault = false ∧ s.punch.stallTapeOut = false ∧
        s.punch.reservation.holdsPunch = false) ∧
      (t1.val % 2 = 1 ↔ s.punch.stallFault = false ∧ s.punch.stallTapeOut = false ∧
        s.punch.reservation.holdsPunch = false ∧ s.punch.tapeLow = true) ∧
      (t2.val / 4 % 2 = 1 ↔
        (s.store.free < 256 → blockingProgresses s.able s.store.tailOwner = true) ∧
        (32 ≤ s.store.dir.length → blockingProgresses s.able s.store.dir.head? = true)) ∧
      (t2.val / 8 = 1 ↔ s.line.latch = true)

/-- A received IDENT or STATUS is accepted; a repeat does nothing more; otherwise it is remembered, its
notice is placed, and the oldest reply-watch record of its origin and kind goes, wherever it stands in the watch,
with the link that a control record keeps to it. -/
def Obligations.RepliesNoticed : Prop :=
  ∀ (f : Frame) (s : State), s.panel.phase = .done → frameWellFormed f = true → s.line.rx = .frame →
    s.line.tx ≠ .contend → s.line.tx ≠ .send → s.own = some f.dest → f.dest ≠ 0 →
    f.origin ≠ f.dest → s.line.clash = false →
    ∀ (c : Instr) (n : Notice),
      (c = .ident f ∧ f.kind = .ident ∧ n = .ident f.origin f.text ∨
        c = .status f ∧ f.kind = .status ∧ n = .status f.origin f.text) →
      ∃ u : State, exec c s = .next u.settle ∧ u.line.answerDue = some (.accept, f.seq) ∧
        u.store = s.store ∧ u.journal = s.journal ∧
        (s.recv.recent = some (f.origin, f.kind, f.seq) →
          u.print = s.print ∧ u.send = s.send ∧ u.recv = s.recv) ∧
        (s.recv.recent ≠ some (f.origin, f.kind, f.seq) →
          u.print = s.print.place n ∧
          u.recv = { s.recv with recent := some (f.origin, f.kind, f.seq) } ∧
          ((∀ r ∈ s.send.watch, ¬ (r.peer = f.origin ∧ r.kind = f.kind)) → u.send = s.send) ∧
          (∀ before r rest, s.send.watch = before ++ r :: rest →
            (∀ x ∈ before, ¬ (x.peer = f.origin ∧ x.kind = f.kind)) → r.peer = f.origin → r.kind = f.kind →
            (∀ x ∈ before ++ rest, x.slot ≠ r.slot) → u.send = { s.send with
              watch := before ++ rest
              control := s.send.control.map fun x =>
                if x.watch = some r.slot then { x with watch := none } else x }))

/-- A RELEASE closes the open record of its origin and message number as cancelled, individual and answered
ACCEPT or circular and unanswered: the record is gone, its entry is CLOSED with reason cancelled, which replaces
an earlier one, or freed when nothing waits for it, and one RECEIVED INCOMPLETE entry is made. When the hold and a
circular record both match, the hold is closed first: the model's choice (log 36). With no match nothing is done.
The recent-control record and the other records' timers are untouched. A circular RELEASE of the station's own
number brings CLASH LOCKOUT first and is handed on all the same. -/
def Obligations.ReleaseCancels : Prop :=
  ∀ (f : Frame) (s : State), s.panel.phase = .done → frameWellFormed f = true → f.kind = .release →
    s.line.rx = .frame → s.line.tx ≠ .contend → s.line.tx ≠ .send →
    (f.dest = 0 ∨ s.own = some f.dest ∧ s.line.clash = false ∧ s.own ≠ some f.origin) →
    ∃ u : State, exec (.release f) s = .next u.settle ∧
      u.line.answerDue = (if f.dest = 0 then none else some (.accept, f.seq)) ∧
      u.print = s.clashPrint f ∧ (u.line.clash = true ↔ s.line.clash = true ∨ s.own = some f.origin) ∧
      u.recv.recent = s.recv.recent ∧ u.recv.completion = s.recv.completion ∧ u.send = s.send ∧
      (∀ r, s.recv.hold = some r → r.origin = f.origin → r.number = f.number → u.recv.hold = none) ∧
      (∀ r, s.recv.hold = some r → ¬ (r.origin = f.origin ∧ r.number = f.number) →
        u.recv.hold = some r) ∧
      u.recv.circ = s.recv.circ.filter (fun r => !(r.origin == f.origin && r.number == f.number)) ∧
      (∀ r, (s.recv.hold = some r ∧ r.origin = f.origin ∧ r.number = f.number ∧
            s.recv.findCircular f.origin f.number = none ∨
          (∀ x, s.recv.hold = some x → ¬ (x.origin = f.origin ∧ x.number = f.number)) ∧
            s.recv.findCircular f.origin f.number = some r) →
        u.store = s.store.closeEntry r.entry (some .cancelled) ∧
        (∀ e, u.store.entry r.entry = some e → e.state = .closed ∧ e.reason = some .cancelled) ∧
        (∀ e, s.store.entry r.entry = some e → hasObligation e = true →
          u.store.entry r.entry = some { e with state := .closed, reason := some .cancelled }) ∧
        u.journal = (s.clashJournal f).add .receivedIncomplete
          { peer := some f.origin, number := some f.number, cls := some r.cls
            sections := some (entrySections (s.store.entry r.entry))
            reason := some (.incomplete .cancelled) }) ∧
      (∀ r x, s.recv.hold = some r → r.origin = f.origin → r.number = f.number →
        s.recv.findCircular f.origin f.number = some x →
        u.store = (s.store.closeEntry r.entry (some .cancelled)).closeEntry x.entry (some .cancelled) ∧
        u.journal = ((s.clashJournal f).add .receivedIncomplete
          { peer := some f.origin, number := some f.number, cls := some r.cls
            sections := some (entrySections (s.store.entry r.entry))
            reason := some (.incomplete .cancelled) }).add .receivedIncomplete
          { peer := some f.origin, number := some f.number, cls := some x.cls
            sections := some (entrySections
              ((s.store.closeEntry r.entry (some .cancelled)).entry x.entry))
            reason := some (.incomplete .cancelled) }) ∧
      ((∀ r, s.recv.hold = some r → ¬ (r.origin = f.origin ∧ r.number = f.number)) →
        (∀ r ∈ s.recv.circ, ¬ (r.origin = f.origin ∧ r.number = f.number)) →
        u.store = s.store ∧ u.journal = s.clashJournal f ∧ u.recv = s.recv)

/-- A record's timer expires: the hold ends with reason hold timeout, a circular record with reason gap; its
entry is CLOSED with that reason, one RECEIVED INCOMPLETE entry is made, and the record is gone; the other records
and every other block stay as they were. A record whose
timer a section taken before the waiting expiry has restarted stays, and nothing is closed (R93; log 26). -/
def Obligations.RecordTimerCloses : Prop :=
  ∀ (r : Record) (s : State), s.panel.phase = .done →
    (s.recv.hold = some r → r.timer < 120 * Config.second →
      ∃ u : State, exec (.recordTimerExpiry .hold) s = .next u.settle ∧
      u.recv = { s.recv with hold := none } ∧
      u.store = s.store.closeEntry r.entry (some .holdTimeout) ∧
      u = { s with recv := u.recv, store := u.store, journal := u.journal } ∧
      u.journal = s.journal.add .receivedIncomplete
        { peer := some r.origin, number := some r.number, cls := some r.cls
          sections := some (entrySections (s.store.entry r.entry))
          reason := some (.incomplete .holdTimeout) }) ∧
    (s.recv.findCircular r.origin r.number = some r → r.timer < 120 * Config.second →
      ∃ u : State, exec (.recordTimerExpiry (.circular r.origin r.number)) s = .next u.settle ∧
        u.recv = { s.recv with
          circ := s.recv.circ.filter fun x => !(x.origin == r.origin && x.number == r.number) } ∧
        u.recv.findCircular r.origin r.number = none ∧
        u.store = s.store.closeEntry r.entry (some .gap) ∧
        u = { s with recv := u.recv, store := u.store, journal := u.journal } ∧
        u.journal = s.journal.add .receivedIncomplete
          { peer := some r.origin, number := some r.number, cls := some r.cls
            sections := some (entrySections (s.store.entry r.entry))
            reason := some (.incomplete .gap) }) ∧
    (s.recv.hold = some r → 120 * Config.second ≤ r.timer →
      exec (.recordTimerExpiry .hold) s = .next s.settle) ∧
    (s.recv.findCircular r.origin r.number = some r → 120 * Config.second ≤ r.timer →
      exec (.recordTimerExpiry (.circular r.origin r.number)) s = .next s.settle)

/-! ### Sending -/

/-- At a cell boundary with the line free and the station in none of its three conditions the selected frame
is taken: the transmitter is in CONTEND with the frame's cells, ten for each unit, the receiver follows it,
and the record of the frame is ON LINE, a section's number being the message's last tried; every other record is
as it was. Its rank is the candidate's, its origin the station; its other fields are the control record's or the
section's. Without one of the conditions nothing happens. -/
def Obligations.StartCell : Prop :=
  ∀ (own : Nat) (c : Candidate) (f : Frame) (s : State), s.panel.phase = .done →
    (s.line.tx = .idle → s.line.rx = .ready → 14 ≤ s.line.quietRun → s.line.lineFault = false →
      s.line.clash = false → s.panel.configFault = false → s.own = some own →
      s.send.select s.line.loadE = some c → s.frameOf own c = some f →
      exec .startCellDriven s = .next { s with
        line := { s.line with
          tx := .contend, outFrame := some f, txCells := frameCells f, txSent := 0, rx := .frame
          quietRun := 0, asm := Assembly.empty }
        send := if c.control then
            { s.send with control := s.send.control.modify c.place fun r => { r with phase := .onLine } }
          else { s.send with sendList := s.send.sendList.modify c.place fun r =>
            { r with phase := .onLine, lastTried := some r.done } } } ∧
      f.rank = c.rank ∧ f.origin = own ∧ (frameCells f).length = 70 + 10 * f.text.length ∧
      (∀ r, c.control = true → s.send.control[c.place]? = some r →
        f = { rank := c.rank, origin := own, kind := r.kind, seq := r.seq, dest := r.dest, cls := 0
              number := r.number, first := true, final := true, text := r.text }) ∧
      (∀ r e b, c.control = false → s.send.sendList[c.place]? = some r →
        s.store.entry r.entry = some e → e.chain[r.done]? = some b →
        f = { rank := c.rank, origin := own, kind := .text, seq := (s.store.block b).secNo % 8
              dest := r.dest, cls := r.cls, number := r.number
              first := decide ((s.store.block b).secNo = 0)
              final := decide (e.state = .closed ∧ r.done + 1 = e.sections)
              text := (s.store.block b).codes })) ∧
    (s.line.tx ≠ .idle ∨ s.line.rx ≠ .ready ∨ s.line.quietRun < 14 ∨ s.line.lineFault = true ∨
      s.line.clash = true ∨ s.panel.configFault = true ∨ s.send.candidates s.line.loadE = [] →
      exec .startCellDriven s = .next s)

/-- R48: u = floor(W / A) + n and R = max(F(c), B(c) - u) with bases 4, 9, 13 and floors 0, 3, 7, the floors
reached at urgencies 4, 6 and 6; control frames are of class 0; every frame offered carries a rank within
F(c) to B(c), so within 0 to 13; the bands overlap as stated; n at 15 or W at 65535 brings every class to
its floor. -/
def Obligations.RankFormed : Prop :=
  (∀ w n a : Nat,
    (rankOf 0 w n a : Int) = max 0 (4 - (((w / a : Nat) : Int) + n)) ∧
    (rankOf 1 w n a : Int) = max 3 (9 - (((w / a : Nat) : Int) + n)) ∧
    (rankOf 2 w n a : Int) = max 7 (13 - (((w / a : Nat) : Int) + n)) ∧
    (rankOf 0 w n a = 0 ↔ 4 ≤ w / a + n) ∧ (rankOf 1 w n a = 3 ↔ 6 ≤ w / a + n) ∧
    (rankOf 2 w n a = 7 ↔ 6 ≤ w / a + n) ∧ (w < a → n = 0 → w / a + n = 0)) ∧
  (∀ cls w n a : Nat, cls ≤ 2 →
    rankFloor cls ≤ rankOf cls w n a ∧ rankOf cls w n a ≤ rankBase cls ∧ rankOf cls w n a ≤ 13 ∧
    rankOf cls w 15 a = rankFloor cls ∧
    (0 < a → a ≤ 1536 → 42 ≤ 65535 / a ∧ rankOf cls 65535 n a = rankFloor cls)) ∧
  rankFloor 1 < rankBase 0 ∧ rankFloor 2 < rankBase 1 ∧
  (∀ (s : State) (c : Candidate) (f : Frame), s.offer = some (c, f) →
    (c.control = true → f.cls = 0) ∧
    (f.cls ≤ 2 → rankFloor f.cls ≤ f.rank ∧ f.rank ≤ rankBase f.cls ∧ f.rank ≤ 13))

/-- The candidates are exactly the READY sections and control frames, each with its rank formed from its own W and
n; the one offered is one of them and goes before every other: by lower rank, then larger W, then control before
section, then the place in its list. There is one whenever a frame is ready. -/
def Obligations.SelectionOrder : Prop :=
  ∀ (t : Transmission) (e : Nat),
    (∀ c : Candidate, c ∈ t.candidates e ↔
      (∃ r, c.control = true ∧ t.control[c.place]? = some r ∧ r.phase = .ready ∧ c.w = r.counts.w ∧
        c.rank = rankOf 0 r.counts.w r.counts.n (512 + e / 4)) ∨
      (∃ r, c.control = false ∧ t.sendList[c.place]? = some r ∧ r.phase = .ready ∧ c.w = r.counts.w ∧
        c.rank = rankOf r.cls r.counts.w r.counts.n (512 + e / 4))) ∧
    (t.select e = none ↔ t.candidates e = []) ∧
    (∀ c, t.select e = some c → c ∈ t.candidates e) ∧
    (∀ c d, t.select e = some c → d ∈ t.candidates e → d ≠ c →
      c.rank < d.rank ∨ c.rank = d.rank ∧ (d.w < c.w ∨ c.w = d.w ∧
        (c.control = true ∧ d.control = false ∨ c.control = d.control ∧ c.place < d.place)))

/-- The attempt on the line. The tenth arbitration cell won: SEND. A loss: the transmitter is IDLE, the
receiver goes on, n rises by one up to 15 and the frame is READY. An individual frame sent: both in the
answer window. The twentieth cell of the break: IDLE. -/
def Obligations.AttemptMoves : Prop :=
  ∀ s : State, s.panel.phase = .done →
    (s.line.tx = .contend → exec .arbitrationWon s = .next { s with line := { s.line with tx := .send } }) ∧
    (∀ r, s.line.tx = .contend → s.send.onLine = .message r → exec .loss s = .next { s with
      line := { s.line with tx := .idle, txCells := [], txSent := 0, breakCells := 0, outFrame := none }
      send := { s.send with sendList := s.send.sendList.map fun x =>
        if x.entry = r.entry then
          { x with phase := .ready, counts := { x.counts with n := min 15 (x.counts.n + 1) } }
        else x } }) ∧
    (∀ i r, s.line.tx = .contend → s.send.onLine = .control i r → exec .loss s = .next { s with
      line := { s.line with tx := .idle, txCells := [], txSent := 0, breakCells := 0, outFrame := none }
      send := { s.send with control := s.send.control.modify i fun x =>
        { x with phase := .ready, counts := { x.counts with n := min 15 (x.counts.n + 1) } } } }) ∧
    (∀ f, s.line.tx = .send → s.line.outFrame = some f → f.dest ≠ 0 →
      exec .individualFrameSent s = .next { s with line := { s.line with
        tx := .awaitAnswer, txCells := [], txSent := 0, rx := .answer, asm := Assembly.empty
        winCells := 0, answerDue := none, answering := false, ansCells := [] } }) ∧
    (s.line.tx = .breaking → exec .breakSignalEnd s = .next { s with line := { s.line with
      tx := .idle, txCells := [], txSent := 0, breakCells := 0, outFrame := none } })

/-- ACCEPT, DUPLICATE or a circular frame completed: the line unit is READY and IDLE. A control record leaves
its queue, and the RESERVED reply-watch record of a request runs for 10 s. A section that is not final is done and
the next is current with fresh counts. A final section: the message is SENT, with its notice and entry, SEND is
removed, and the record leaves the list. With nothing on line the report is ignored. Whenever the send list is
judged again, exactly the PENDING records whose current section is released and whose destination no earlier record
has become READY, with fresh counts; every other record stays as it is. -/
def Obligations.FrameDone : Prop :=
  (∀ (st : Store) (l : List SendRec), (refreshList st [] l).length = l.length ∧
    ∀ (i : Nat) (r : SendRec), l[i]? = some r →
      (becomesReady st l i r → (refreshList st [] l)[i]? = some { r with
        phase := .ready, counts := { w := 0, n := 0, tries := 0, waits := 0, engageds := 0 } }) ∧
      (¬ becomesReady st l i r → (refreshList st [] l)[i]? = some r)) ∧
  ∀ (c : Instr) (s : State), s.panel.phase = .done →
    (s.line.tx = .awaitAnswer ∧ (c = .accept ∨ c = .duplicate) ∨
      s.line.tx = .send ∧ c = .circularFrameCompleted ∧
        ∃ f, s.line.outFrame = some f ∧ f.dest = 0) →
    ∃ u : State, exec c s = .next u.settle ∧
      u.line = { s.line with
        tx := .idle, txCells := [], txSent := 0, breakCells := 0, outFrame := none
        rx := .ready, asm := Assembly.empty, winCells := 0, answerDue := none, answering := false
        ansCells := [] } ∧
      u.recv = s.recv ∧ u.punch = s.punch ∧ u.panel = s.panel ∧ u.bell = s.bell ∧ u.cell = s.cell ∧
      u.pending = s.pending ∧
      (s.send.onLine = .none → u = { s with line := u.line }) ∧
      (∀ i r, s.send.onLine = .control i r → u = { s with
        line := u.line
        send := { s.send with
          control := s.send.control.eraseIdx i
          watch := match r.watch with
            | none => s.send.watch
            | some slot => s.send.watch.map fun x =>
              if x.slot = slot ∧ x.timer = none then { x with timer := some (10 * Config.second) }
              else x } }) ∧
      (∀ r, s.send.onLine = .message r → isFinalSection s.store r = false → u = { s with
        line := u.line
        send := { s.send with sendList := refreshList s.store [] (s.send.sendList.map fun x =>
          if x.entry = r.entry then
            { x with phase := .pending, done := x.done + 1, counts := Counts.zero, delay := 0 }
          else x) } }) ∧
      (∀ r, s.send.onLine = .message r → isFinalSection s.store r = true →
        u.print = s.print.place (.sent r.number r.dest) ∧
        u.journal = s.journal.add .sent { peer := some r.dest, number := some r.number
                                          cls := some r.cls, sections := some (r.done + 1) } ∧
        u.store = s.store.removeObligation .send r.entry ∧ u.kb = s.kb.loseMessage r.entry ∧
        u.send = { s.send with
          sendList := refreshList u.store [] (s.send.sendList.filter fun x => x.entry != r.entry) })

/-- WAIT and ENGAGED read for a frame below their limits: the line unit is READY and IDLE, the count rises,
and the frame is DELAYED 2 s or 5 s; at the 30th WAIT and the 24th ENGAGED it is abandoned. With nothing on line
the answer is ignored. -/
def Obligations.DelayAnswers : Prop :=
  ∀ s : State, s.panel.phase = .done → s.line.tx = .awaitAnswer →
    (∀ c, c = .wait ∨ c = .engaged → s.send.onLine = .none →
      exec c s = .next (State.settle { s with line := s.line.txIdle.readyRx })) ∧
    (∀ r, s.send.onLine = .message r →
      (r.counts.waits < 29 → exec .wait s = .next (State.settle { s with
        line := s.line.txIdle.readyRx
        send := { s.send with sendList := s.send.sendList.map fun x => if x.entry = r.entry then
          { x with phase := .delayed, delay := 2 * Config.second
                   counts := { x.counts with waits := x.counts.waits + 1 } } else x } })) ∧
      (29 ≤ r.counts.waits → exec .wait s = .next (State.settle
        ({ s with line := s.line.txIdle.readyRx }.abandonMessage r .storeFull (some .storeFull)))) ∧
      (r.counts.engageds < 23 → exec .engaged s = .next (State.settle { s with
        line := s.line.txIdle.readyRx
        send := { s.send with sendList := s.send.sendList.map fun x => if x.entry = r.entry then
          { x with phase := .delayed, delay := 5 * Config.second
                   counts := { x.counts with engageds := x.counts.engageds + 1 } } else x } })) ∧
      (23 ≤ r.counts.engageds → exec .engaged s = .next (State.settle
        ({ s with line := s.line.txIdle.readyRx }.abandonMessage r .engaged (some .engaged))))) ∧
    (∀ i r, s.send.onLine = .control i r →
      (r.counts.waits < 29 → exec .wait s = .next (State.settle { s with
        line := s.line.txIdle.readyRx
        send := { s.send with control := s.send.control.modify i fun x =>
          { x with phase := .delayed, delay := 2 * Config.second
                   counts := { x.counts with waits := x.counts.waits + 1 } } } })) ∧
      (29 ≤ r.counts.waits → exec .wait s = .next (State.settle
        ({ s with line := s.line.txIdle.readyRx }.abandonControl i r .storeFull .storeFull))) ∧
      (r.counts.engageds < 23 → exec .engaged s = .next (State.settle { s with
        line := s.line.txIdle.readyRx
        send := { s.send with control := s.send.control.modify i fun x =>
          { x with phase := .delayed, delay := 5 * Config.second
                   counts := { x.counts with engageds := x.counts.engageds + 1 } } } })) ∧
      (23 ≤ r.counts.engageds → exec .engaged s = .next (State.settle
        ({ s with line := s.line.txIdle.readyRx }.abandonControl i r .engaged .engaged))))

/-- A collision (the receiver in HUNT), a garbled answer and no answer (the receiver READY) all count as an
unanswered try: below the try limit the frame is READY again at once, at the limit it is abandoned with NO
ANSWER. A window that ends at a station that awaits nothing leaves its receiver READY. -/
def Obligations.NoAnswerCounts : Prop :=
  (∀ (c : Instr) (l : LineUnit) (s : State), s.panel.phase = .done →
    (c = .collision ∧ (s.line.tx = .contend ∨ s.line.tx = .send) ∧ l = s.line.txIdle.hunt ∨
      c = .answerGarbled ∧ s.line.tx = .awaitAnswer ∧ l = s.line.txIdle.readyRx ∨
      c = .answerWindowEnd ∧ s.line.tx = .awaitAnswer ∧ s.line.rx = .answer ∧
        l = s.line.txIdle.readyRx) →
    (s.send.onLine = .none → exec c s = .next (State.settle { s with line := l })) ∧
    (∀ r, s.send.onLine = .message r →
      (r.counts.tries + 1 < s.panel.settings.tryLimit → exec c s = .next (State.settle { s with
        line := l
        send := { s.send with sendList := s.send.sendList.map fun x => if x.entry = r.entry then
          { x with phase := .ready, counts := { x.counts with tries := x.counts.tries + 1 } }
          else x } })) ∧
      (s.panel.settings.tryLimit ≤ r.counts.tries + 1 → exec c s = .next (State.settle
        ({ s with line := l }.abandonMessage r .noAnswer (some .noAnswer))))) ∧
    (∀ i r, s.send.onLine = .control i r →
      (r.counts.tries + 1 < s.panel.settings.tryLimit → exec c s = .next (State.settle { s with
        line := l
        send := { s.send with control := s.send.control.modify i fun x =>
          { x with phase := .ready, counts := { x.counts with tries := x.counts.tries + 1 } } } })) ∧
      (s.panel.settings.tryLimit ≤ r.counts.tries + 1 → exec c s = .next (State.settle
        ({ s with line := l }.abandonControl i r .noAnswer .noAnswer))))) ∧
  (∀ s : State, s.panel.phase = .done → s.line.rx = .answer → s.line.tx ≠ .awaitAnswer →
    exec .answerWindowEnd s = .next (State.settle { s with line := s.line.readyRx }))

/-- REFUSE abandons. A message: SEND is removed and the entry freed, its record leaves the list, it ceases to
be current, one notice and one entry are made; a composer that was composing it is closed with one ring, in
LINE-IDLE without a destination, its queue empty and both timers stopped. A control record leaves the queue with
one entry; a WHO or ENQUIRE also places its notice and gives up its reply-watch record. With nothing on line the
answer is ignored. -/
def Obligations.RefuseAbandons : Prop :=
  ∀ s : State, s.panel.phase = .done → s.line.tx = .awaitAnswer →
    ∃ u : State, exec .refuse s = .next u.settle ∧ u.line = s.line.txIdle.readyRx ∧ u.recv = s.recv ∧
      u.punch = s.punch ∧ u.panel = s.panel ∧
      (s.send.onLine = .none → u = { s with line := s.line.txIdle.readyRx }) ∧
      (∀ r, s.send.onLine = .message r →
        u.store = s.store.abandonEntry r.entry ∧
        (s.kb.current = some r.entry → s.kb.comp = .composing → u.kb = { s.kb with
          comp := .lineIdle, dest := none, queue := [], hold := .none, idleTimer := none, autoEnd := none
          current := none }) ∧
        (s.kb.current = some r.entry → s.kb.comp ≠ .composing → u.kb = { s.kb with current := none }) ∧
        (s.kb.current ≠ some r.entry → u.kb = s.kb) ∧
        u.bell = s.bell + (if s.kb.current = some r.entry ∧ s.kb.comp = .composing then 1 else 0) ∧
        u.send = { s.send with
          sendList := refreshList u.store [] (s.send.sendList.filter fun x => x.entry != r.entry) } ∧
        u.print = s.print.place (.notSent r.number r.dest r.cls r.lastTried .refused) ∧
        u.journal = s.journal.add .sendAbandoned
          { peer := some r.dest, number := some r.number, cls := some r.cls, sections := some r.done
            reason := some .refused }) ∧
      (∀ i r, s.send.onLine = .control i r →
        u.store = s.store ∧ u.kb = s.kb ∧ u.bell = s.bell ∧ u.send.sendList = s.send.sendList ∧
        (r.watch = none → u.send.control = s.send.control.eraseIdx i ∧
          u.send.watch = s.send.watch) ∧
        (∀ p, r.watch = some p → u.send.watch = (s.send.watch.filter fun x => x.slot != p) ∧
          u.send.control = (s.send.control.eraseIdx i).map fun x =>
            if x.watch = some p then { x with watch := none } else x) ∧
        u.print = (if r.kind = .who ∨ r.kind = .enquire then
          s.print.place (.controlNotSent r.kind r.dest .refused) else s.print) ∧
        u.journal = s.journal.add .sendAbandoned
          { peer := some r.dest, frame := some r.kind
            number := if r.kind = .release then some r.number else none, reason := some .refused })

/-- The expiry rows act when they come, whatever time is left, which is the model's choice (log 26). A delay that
expires returns its frame to READY and nothing else; a running reply-watch record that expires is removed with its
NO REPLY notice, and a control frame linked to it keeps no link. That an expiry for a frame that is not DELAYED, or
without a running record, does nothing is the model's choice (log 3). And what the passing of one cell does to the
timers when nothing waits (logs 1, 25): W of a frame READY or ON LINE rises by one, up to 65535, outside LINE FAULT
and CLASH LOCKOUT as they stand while the cell passes, so also in the cell at whose end one of them begins: the
model's choice (log 40); every running timer moves by the length of the cell; and the expiry of each that has come
to its time joins the queue, the idle release's by the threshold of the latch as it stands. -/
def Obligations.SendingExpiries : Prop :=
  (∀ s : State, s.cellPasses → ∃ t : State, step s = .next t ∧
    ∀ (dt : Nat) (older : Counts → Phase → Counts),
    dt = (if s.panel.settings.fastCells then 5 else 10) →
    (∀ c p, older c p = if (p = .ready ∨ p = .onLine) ∧ s.line.lineFault = false ∧ s.line.clash = false
      then { c with w := min 65535 (c.w + 1) } else c) →
    t.send = { s.send with
      sendList := s.send.sendList.map fun r => { r with
        counts := older r.counts r.phase, delay := r.delay - dt }
      control := s.send.control.map fun r => { r with
        counts := older r.counts r.phase, delay := r.delay - dt }
      watch := s.send.watch.map fun r => { r with timer := r.timer.map fun n => n - dt } } ∧
    t.recv = { s.recv with
      hold := s.recv.hold.map fun r => { r with timer := r.timer - dt }
      circ := s.recv.circ.map fun r => { r with timer := r.timer - dt } } ∧
    t.kb = { s.kb with idleTimer := s.kb.idleTimer.map fun n => n + dt
                       autoEnd := s.kb.autoEnd.map fun n => n + dt } ∧
    t.print = { s.print with
      motorIdle := if s.print.motor = .running ∧ s.print.flight = .none then s.print.motorIdle + dt
        else s.print.motorIdle
      echoIdle := s.print.echoIdle.map fun n => n + dt } ∧
    t.journal = { s.journal with divider := s.journal.divider.map fun n => n - dt } ∧
    t.panel = { s.panel with flashLeft := s.panel.flashLeft - dt } ∧
    t.store = s.store ∧ t.punch = s.punch ∧ t.bell = s.bell ∧
    (∀ n, .delayTimerExpiry (.message n) ∈ t.pending ↔
      ∃ r ∈ s.send.sendList, r.entry = n ∧ r.phase = .delayed ∧ r.delay ≤ dt) ∧
    (∀ i, .delayTimerExpiry (.control i) ∈ t.pending ↔
      ∃ r, s.send.control[i]? = some r ∧ r.phase = .delayed ∧ r.delay ≤ dt) ∧
    (∀ n, .replyWatchExpiry n ∈ t.pending ↔
      ∃ r ∈ s.send.watch, r.slot = n ∧ ∃ m, r.timer = some m ∧ m ≤ dt) ∧
    (.recordTimerExpiry .hold ∈ t.pending ↔ ∃ r, s.recv.hold = some r ∧ r.timer ≤ dt) ∧
    (∀ o n, .recordTimerExpiry (.circular o n) ∈ t.pending ↔
      ∃ r ∈ s.recv.circ, r.origin = o ∧ r.number = n ∧ r.timer ≤ dt) ∧
    (.idleReleaseExpiry ∈ t.pending ↔ ∃ n slot c cs, s.kb.idleTimer = some n ∧
      (if s.line.latch then 2 else 1) * (s.panel.settings.idleReleaseS * Config.second) ≤ n + dt ∧
      s.kb.comp = .composing ∧ s.kb.current = some slot ∧ s.store.openCodes slot = some (c :: cs)) ∧
    (.autoEndExpiry ∈ t.pending ↔
      ∃ n, s.kb.autoEnd = some n ∧ 90 * Config.second ≤ n + dt ∧ s.kb.comp = .composing) ∧
    (.motorIdleExpiry ∈ t.pending ↔ s.print.motor = .running ∧ s.print.flight = .none ∧
      (if s.panel.attended then s.panel.settings.attendedIdleMin * 60 * Config.second
        else s.panel.settings.unattendedIdle10s * 10 * Config.second) ≤ s.print.motorIdle + dt) ∧
    (.echoIdleExpiry ∈ t.pending ↔
      ∃ n, s.print.echoIdle = some n ∧ n < 10 * Config.second ∧ 10 * Config.second ≤ n + dt) ∧
    (.dayClockDividerExpiry ∈ t.pending ↔ ∃ n, s.journal.divider = some n ∧ n ≤ dt) ∧
    (.lampFlash ∈ t.pending ↔ s.panel.flashLeft ≤ dt)) ∧
  ∀ (n : Nat) (s : State), s.panel.phase = .done →
    exec (.delayTimerExpiry (.message n)) s = .next { s with send := { s.send with
      sendList := s.send.sendList.map fun x =>
        if x.entry = n ∧ x.phase = .delayed then { x with phase := .ready, delay := 0 } else x } } ∧
    exec (.delayTimerExpiry (.control n)) s = .next { s with send := { s.send with
      control := s.send.control.modify n fun x =>
        if x.phase = .delayed then { x with phase := .ready, delay := 0 } else x } } ∧
    (∀ r, (s.send.watch.find? fun x => x.slot == n && x.timer.isSome) = some r →
      ∃ u : State, exec (.replyWatchExpiry n) s = .next u.settle ∧
        u.send = { s.send with
          watch := s.send.watch.filter fun x => x.slot != n
          control := s.send.control.map fun x => if x.watch = some n then { x with watch := none } else x } ∧
        u.print = s.print.place (.noReply r.peer) ∧
        u = { s with send := u.send, print := u.print }) ∧
    ((∀ r ∈ s.send.watch, ¬ (r.slot = n ∧ r.timer.isSome = true)) →
      exec (.replyWatchExpiry n) s = .next s.settle)

/-! ### Keyboard -/

/-- A closure and a release. A position already down, or up, changes nothing. SHIFT, a vacant position and a
key met with three held are only noted as down; another key is registered as held and goes, with the SHIFT
level, to its owner at once (BREAK and the panel keys) or to the queue, which drops it with one ring when 16
are in it. A release clears the position and the registration; that of TAPE FEED is handed on. That a key handed on
stands in the list `handed` until its owner's command takes it is the model's choice (log 9). -/
def Obligations.KeyMatrix : Prop :=
  ∀ (k : Key) (s : State), s.panel.phase = .done →
    (k ∈ s.kb.down → exec (.keyClosure k) s = .next s) ∧
    (k ∉ s.kb.down → (k = .shift ∨ isVacant k = true ∨ 3 ≤ s.kb.held.length) →
      exec (.keyClosure k) s = .next { s with kb := { s.kb with down := s.kb.down ++ [k] } }) ∧
    (k ∉ s.kb.down → k ≠ .shift → isVacant k = false → s.kb.held.length < 3 →
      (k ∈ [.breakKey, .attend, .print, .punch, .level, .paperFeed, .tapeFeed, .punchResume, .journal] →
        exec (.keyClosure k) s = .next { s with kb := { s.kb with
          down := s.kb.down ++ [k], held := s.kb.held ++ [k]
          handed := s.kb.handed ++ [.key { key := k, shift := s.kb.down.contains .shift }] } }) ∧
      (k ∉ [.breakKey, .attend, .print, .punch, .level, .paperFeed, .tapeFeed, .punchResume, .journal] →
        (s.kb.queue.length < 16 → exec (.keyClosure k) s = .next { s with kb := { s.kb with
          down := s.kb.down ++ [k], held := s.kb.held ++ [k]
          queue := s.kb.queue ++ [{ key := k, shift := s.kb.down.contains .shift }] } }) ∧
        (16 ≤ s.kb.queue.length → exec (.keyClosure k) s = .next { s with
          kb := { s.kb with down := s.kb.down ++ [k], held := s.kb.held ++ [k] }
          bell := s.bell + 1 }))) ∧
    (k ∉ s.kb.down → exec (.keyRelease k) s = .next s) ∧
    (k ∈ s.kb.down → exec (.keyRelease k) s = .next { s with kb := { s.kb with
      down := s.kb.down.filter (fun x => x != k), held := s.kb.held.filter (fun x => x != k)
      handed := if k = .tapeFeed then s.kb.handed ++ [.tapeFeedRelease] else s.kb.handed } })

/-- A text key or HERE IS in COMPOSING. With room in the open block its codes, with the shifts the case asks for,
are added to it and placed in the echo FIFO, and both timers restart. The 32nd code releases the block as a section
and leaves the case unknown; RETURN releases it with its option on and the latch clear. Codes behind the 32nd go
into a further block: a character whose shift was the 32nd behind a fresh shift, the answerback without one (the
model's choice, log 39), and code 3 of RETURN alone, which its release then makes a section of one code. Without an
open block one is taken first. When none is free the composer holds at the code in hand, what is written standing
and the auto-end timer stopped. In LINE-IDLE the key rings the bell and is discarded. -/
def Obligations.TextWritten : Prop :=
  ∀ (c : Instr) (k : Keystroke) (rest : List Keystroke) (slot : Nat) (codes out : List Code) (s : State)
    (releases : Prop), s.panel.phase = .done → textCommand k c → s.kb.hold = .none → s.kb.queue = k :: rest →
    s.panel.settings.answerback.length = 20 →
    out = keyOutput s.panel.settings.answerback k s.kb.case →
    (releases ↔ k.key = .ret ∧ s.panel.settings.returnReleases = true ∧ s.line.latch = false) →
    (s.kb.comp = .lineIdle → exec c s = .next (State.settle { s with
      kb := { s.kb with queue := rest }, bell := s.bell + 1 })) ∧
    (s.kb.comp = .composing → s.kb.current = some slot → s.store.openCodes slot = some codes →
      (codes.length + out.length < 32 → ¬ releases →
        exec c s = .next (State.settle { s with
          store := s.store.setOpenCodes slot (codes ++ out)
          print := out.foldl (fun p x => p.echo (.code x)) s.print
          kb := { s.kb with queue := rest, case := out.foldl caseAfter s.kb.case, idleTimer := some 0
                            autoEnd := some 0 } })) ∧
      ((codes.length + out.length = 32 ∨ codes.length + out.length < 32 ∧ releases) →
        ∃ u : State, exec c s = .next u.settle ∧
          u.store = (s.store.setOpenCodes slot (codes ++ out)).releaseOpen slot false ∧
          u = { s with
            store := u.store
            print := out.foldl (fun p x => p.echo (.code x)) s.print
            kb := { s.kb with queue := rest, case := .unknown, idleTimer := none, autoEnd := some 0 }
            send := { s.send with sendList := refreshList u.store [] s.send.sendList } }) ∧
      (∀ (one two more : List Code) (st : Store) (l : List SendRec), codes.length < 32 → out = one ++ two →
        two ≠ [] → codes.length + one.length = 32 →
        more = (match k.key with
          | .code _ => keyOutput s.panel.settings.answerback k .unknown
          | _ => two) →
        st = (s.store.setOpenCodes slot (codes ++ one)).releaseOpen slot false →
        l = refreshList st [] s.send.sendList →
        (s.store.free = 0 → exec c s = .next (State.settle { s with
          store := st, send := { s.send with sendList := l }
          print := one.foldl (fun p x => p.echo (.code x)) s.print
          kb := { s.kb with hold := .block (leftOf k two), case := .unknown, idleTimer := none
                            autoEnd := none } })) ∧
        (1 ≤ s.store.free → ¬ releases → exec c s = .next (State.settle { s with
          store := (st.allocate slot 0 [] false).setOpenCodes slot more
          send := { s.send with sendList := l }
          print := (one ++ more).foldl (fun p x => p.echo (.code x)) s.print
          kb := { s.kb with queue := rest, case := more.foldl caseAfter .unknown, idleTimer := some 0
                            autoEnd := some 0 } })) ∧
        (1 ≤ s.store.free → releases → ∃ u : State, exec c s = .next u.settle ∧
          u.store = ((st.allocate slot 0 [] false).setOpenCodes slot more).releaseOpen slot false ∧
          u = { s with
            store := u.store, send := { s.send with sendList := refreshList u.store [] l }
            print := (one ++ more).foldl (fun p x => p.echo (.code x)) s.print
            kb := { s.kb with queue := rest, case := .unknown, idleTimer := none
                              autoEnd := some 0 } }))) ∧
    (∀ e, s.kb.comp = .composing → s.kb.current = some slot → s.store.entry slot = some e →
      s.store.openCodes slot = none →
      (s.store.free = 0 → exec c s = .next (State.settle { s with
        kb := { s.kb with autoEnd := none, hold := .block (if k.key = .hereIs ∧ s.kb.case ≠ .letters
          then .leadShift :: s.panel.settings.answerback.map Emit.raw else leftOf k out) } })) ∧
      (1 ≤ s.store.free → ¬ releases → exec c s = .next (State.settle { s with
        store := (s.store.allocate slot 0 [] false).setOpenCodes slot out
        print := out.foldl (fun p x => p.echo (.code x)) s.print
        kb := { s.kb with queue := rest, case := out.foldl caseAfter s.kb.case, idleTimer := some 0
                          autoEnd := some 0 } })) ∧
      (1 ≤ s.store.free → releases → ∃ u : State, exec c s = .next u.settle ∧
        u.store = ((s.store.allocate slot 0 [] false).setOpenCodes slot out).releaseOpen slot false ∧
        u = { s with
          store := u.store, send := { s.send with sendList := refreshList u.store [] s.send.sendList }
          print := out.foldl (fun p x => p.echo (.code x)) s.print
          kb := { s.kb with queue := rest, case := .unknown, idleTimer := none, autoEnd := some 0 } }))

/-- LOCAL typing: the codes go to the echo FIFO, and with PUNCH selected to the local punch FIFO, never to the store
or the line. The code of a keystroke that finds the punch FIFO full is held, already echoed, with the rest of the
keystroke behind it; what comes before it is in both. It is resumed into the FIFO alone when there is room, and the
rest then follows up to the next code that finds it full, which is held in its place; with PUNCH off it is given up
to the echo alone, and the rest follows it there. -/
def Obligations.LocalTyping : Prop :=
  ∀ (c : Instr) (k : Keystroke) (rest : List Keystroke) (out : List Code) (s : State),
    s.panel.phase = .done → s.kb.comp = .localMode → s.kb.queue = k :: rest →
    s.panel.settings.answerback.length = 20 →
    (textCommand k c → s.kb.hold = .none → out = keyOutput s.panel.settings.answerback k s.kb.case →
      (s.panel.punchSel = false → exec c s = .next (State.settle { s with
        print := out.foldl (fun p x => p.echo (.code x)) s.print
        kb := { s.kb with queue := rest, case := out.foldl caseAfter s.kb.case } })) ∧
      (s.panel.punchSel = true → s.punch.fifo.length + out.length ≤ 64 →
        exec c s = .next (State.settle { s with
          print := out.foldl (fun p x => p.echo (.code x)) s.print
          punch := { s.punch with fifo := s.punch.fifo ++ out }
          kb := { s.kb with queue := rest, case := out.foldl caseAfter s.kb.case } })) ∧
      (∀ one x two, s.panel.punchSel = true → out = one ++ x :: two →
        s.punch.fifo.length + one.length = 64 ∨ one = [] ∧ 64 ≤ s.punch.fifo.length →
        exec c s = .next (State.settle { s with
          print := (one ++ [x]).foldl (fun p x => p.echo (.code x)) s.print
          punch := { s.punch with fifo := s.punch.fifo ++ one }
          kb := { s.kb with hold := .localCode x (leftOf k two)
                            case := (one ++ [x]).foldl caseAfter s.kb.case } }))) ∧
    (∀ x es, s.kb.hold = .localCode x es → es.length ≤ 25 → out = emitOutput s.kb.case es →
      (s.panel.punchSel = true → s.punch.fifo.length + 1 + out.length ≤ 64 →
        exec .localCodeResumed s = .next (State.settle { s with
          print := out.foldl (fun p x => p.echo (.code x)) s.print
          punch := { s.punch with fifo := s.punch.fifo ++ x :: out }
          kb := { s.kb with queue := rest, hold := .none, case := out.foldl caseAfter s.kb.case } })) ∧
      (∀ one y two, s.panel.punchSel = true → out = one ++ y :: two →
        s.punch.fifo.length + 1 + one.length = 64 →
        exec .localCodeResumed s = .next (State.settle { s with
          print := (one ++ [y]).foldl (fun p x => p.echo (.code x)) s.print
          punch := { s.punch with fifo := s.punch.fifo ++ x :: one }
          kb := { s.kb with hold := .localCode y (leftAfter s.kb.case (one.length + 1) es)
                            case := (one ++ [y]).foldl caseAfter s.kb.case } })) ∧
      (s.panel.punchSel = true → 64 ≤ s.punch.fifo.length →
        exec .localCodeResumed s = .next s.settle) ∧
      (s.panel.punchSel = false → exec .localCodeResumed s = .next (State.settle { s with
        print := out.foldl (fun p x => p.echo (.code x)) s.print
        kb := { s.kb with queue := rest, hold := .none, case := out.foldl caseAfter s.kb.case } })))

/-- ERASE in each state of the composer. In COMPOSING it removes the last code of the open block, recomputes the
case from what remains and places the marker; with no code there it rings the bell. In LOCAL it places a marker
of letters case and, with PUNCH selected, code 31 for the tape, which is held when the punch FIFO is full. In
LINE-IDLE and LINE-READY it rings the bell. In destination and time entry, as a key that is no digit, it rings
the bell and ends the entry. -/
def Obligations.EraseKey : Prop :=
  ∀ (k : Keystroke) (rest : List Keystroke) (slot : Nat) (codes : List Code) (s : State),
    s.panel.phase = .done → s.kb.hold = .none → s.kb.queue = k :: rest → k.key = .erase →
    (s.kb.comp = .composing → s.kb.current = some slot →
      (s.store.openCodes slot = some codes → codes ≠ [] → ∃ cs : CompCase,
        cs = codes.dropLast.foldl caseAfter
          (if s.store.released slot = 0 then CompCase.letters else CompCase.unknown) ∧
        exec .erase s = .next (State.settle { s with
          store := s.store.setOpenCodes slot codes.dropLast
          print := s.print.echo (.eraseMarker (if cs = .figures then .figures else .letters))
          kb := { s.kb with queue := rest, case := cs
                            idleTimer := if codes.length = 1 then none else some 0 } })) ∧
      ((s.store.openCodes slot = none ∨ s.store.openCodes slot = some []) →
        exec .erase s = .next (State.settle { s with
          kb := { s.kb with queue := rest }, bell := s.bell + 1 }))) ∧
    (s.kb.comp = .localMode →
      (s.panel.punchSel = false → exec .erase s = .next (State.settle { s with
        print := s.print.echo (.eraseMarker .letters)
        kb := { s.kb with queue := rest, case := .letters } })) ∧
      (s.panel.punchSel = true → s.punch.fifo.length < 64 → exec .erase s = .next (State.settle { s with
        print := s.print.echo (.eraseMarker .letters)
        punch := { s.punch with fifo := s.punch.fifo ++ [31] }
        kb := { s.kb with queue := rest, case := .letters } })) ∧
      (s.panel.punchSel = true → 64 ≤ s.punch.fifo.length → exec .erase s = .next (State.settle { s with
        print := s.print.echo (.eraseMarker .letters)
        kb := { s.kb with hold := .localCode 31 [], case := .letters } }))) ∧
    (s.kb.comp = .lineIdle ∨ s.kb.comp = .lineReady → exec .erase s = .next (State.settle { s with
      kb := { s.kb with queue := rest }, bell := s.bell + 1 })) ∧
    (∀ cls touched digit, s.kb.comp = .destEntry cls touched digit →
      exec .erase s = .next (State.settle { s with
        kb := { s.kb with queue := rest, comp := if s.kb.dest.isSome then .lineReady else .lineIdle }
        bell := s.bell + 1 })) ∧
    (∀ fromLocal ds, s.kb.comp = .timeEntry fromLocal ds → exec .erase s = .next (State.settle { s with
      kb := { s.kb with queue := rest
                        comp := if fromLocal then .localMode
                          else if s.kb.dest.isSome then .lineReady else .lineIdle }
      bell := s.bell + 1 }))

/-- END and the auto end by the composition: an open block with codes, or an empty one behind released sections, is
released as the final section; without an open block one is taken for a final section of length 0, or END waits; a
composition without a code is withdrawn without notice or entry. The composer is in LINE-READY with its destination
and its timers stopped. In LINE-IDLE, LINE-READY and LOCAL END rings the bell and is discarded. An auto end acts
when its row comes, whatever time is left: the model's choice (log 26). One whose timer a code taken before the
waiting expiry has restarted is not asked of here (HeldRequests). -/
def Obligations.EndKey : Prop :=
  (∀ (k : Keystroke) (rest : List Keystroke) (s : State), s.panel.phase = .done → s.kb.hold = .none →
    s.kb.queue = k :: rest → k.key = .endKey →
    s.kb.comp = .lineIdle ∨ s.kb.comp = .lineReady ∨ s.kb.comp = .localMode →
    exec .endKey s = .next (State.settle { s with kb := { s.kb with queue := rest }, bell := s.bell + 1 })) ∧
  ∀ (c : Instr) (k : Keystroke) (rest : List Keystroke) (slot : Nat) (s : State), s.panel.phase = .done →
    s.kb.hold = .none → s.kb.comp = .composing → s.kb.current = some slot →
    (c = .endKey ∧ s.kb.queue = k :: rest ∧ k.key = .endKey ∨
      c = .autoEndExpiry ∧ ∃ n, s.kb.autoEnd = some n ∧ 0 < n) →
    ∃ (p : PrintUnit) (q : List Keystroke),
      p = (if c = .endKey then s.print else s.print.echo .autoEnd) ∧
      q = (if c = .endKey then rest else s.kb.queue) ∧
      (∀ codes, s.store.openCodes slot = some codes → (codes ≠ [] ∨ s.store.released slot ≠ 0) →
        ∃ u : State, exec c s = .next u.settle ∧ u.store = s.store.releaseOpen slot true ∧
          u = { s with
            store := u.store, print := p
            send := { s.send with sendList := refreshList u.store [] s.send.sendList }
            kb := { s.kb with comp := .lineReady, queue := q, case := .unknown, idleTimer := none
                              autoEnd := none } }) ∧
      (s.store.openCodes slot = none → 1 ≤ s.store.free →
        ∃ u : State, exec c s = .next u.settle ∧
          u.store = (s.store.allocate slot 0 [] false).releaseOpen slot true ∧
          u = { s with
            store := u.store, print := p
            send := { s.send with sendList := refreshList u.store [] s.send.sendList }
            kb := { s.kb with comp := .lineReady, queue := q, case := .unknown, idleTimer := none
                              autoEnd := none } }) ∧
      (s.store.openCodes slot = none → s.store.free = 0 →
        exec c s = .next (State.settle { s with
          print := p
          kb := { s.kb with autoEnd := none
                            hold := if c = .endKey then .endBlock else .autoEnd } })) ∧
      (s.store.openCodes slot = some [] → s.store.released slot = 0 →
        ∃ u : State, exec c s = .next u.settle ∧ u.store = s.store.abandonEntry slot ∧
          u = { s with
            store := u.store, print := p
            send := { s.send with
              sendList := refreshList u.store [] (s.send.sendList.filter fun x => x.entry != slot) }
            kb := { s.kb with comp := .lineReady, queue := q, current := none, idleTimer := none
                              autoEnd := none } })

/-- DEST and its digits. DEST opens the entry with class 1, or class 0 with SHIFT; DEST as the first key of the
entry makes it class 2, and a later DEST rings the bell and discards a digit kept. Two digits of 00 or of another
station's number set destination and class and place the marker; another number rings the bell and the entry
goes on, DEST then no longer counting as its first key (the model's reading, log 19). Every other key rings the
bell and ends the entry, the composer back in LINE-READY or LINE-IDLE with what it held. In COMPOSING and LOCAL
DEST rings the bell. -/
def Obligations.DestinationEntry : Prop :=
  ∀ (k : Keystroke) (rest : List Keystroke) (cls d d1 : Nat) (touched : Bool) (digit : Option Nat)
    (s : State), s.panel.phase = .done → s.kb.hold = .none → s.kb.queue = k :: rest →
    (k.key = .dest → s.kb.comp = .lineIdle ∨ s.kb.comp = .lineReady →
      exec .dest s = .next (State.settle { s with kb := { s.kb with
        queue := rest, comp := .destEntry (if k.shift then 0 else 1) false none } })) ∧
    (k.key = .dest → s.kb.comp = .destEntry cls false none →
      exec .dest s = .next (State.settle { s with kb := { s.kb with
        queue := rest, comp := .destEntry 2 true none } })) ∧
    (k.key = .dest → s.kb.comp = .destEntry cls true digit →
      exec .dest s = .next (State.settle { s with
        kb := { s.kb with queue := rest, comp := .destEntry cls true none }, bell := s.bell + 1 })) ∧
    (k.key = .dest → s.kb.comp = .composing ∨ s.kb.comp = .localMode →
      exec .dest s = .next (State.settle { s with
        kb := { s.kb with queue := rest }, bell := s.bell + 1 })) ∧
    (digitOf k = some d → s.kb.comp = .destEntry cls touched none →
      exec .destinationDigit s = .next (State.settle { s with kb := { s.kb with
        queue := rest, comp := .destEntry cls true (some d) } })) ∧
    (digitOf k = some d → s.kb.comp = .destEntry cls touched (some d1) →
      (10 * d1 + d ≤ 62 ∧ s.own ≠ some (10 * d1 + d) →
        exec .destinationDigit s = .next (State.settle { s with
          print := s.print.echo (.destMarker (10 * d1 + d) cls)
          kb := { s.kb with queue := rest, comp := .lineReady, dest := some (10 * d1 + d, cls) } })) ∧
      (62 < 10 * d1 + d ∨ s.own = some (10 * d1 + d) →
        exec .destinationDigit s = .next (State.settle { s with
          kb := { s.kb with queue := rest, comp := .destEntry cls true none }
          bell := s.bell + 1 }))) ∧
    (∀ c : Instr, entryCommand k c → s.kb.comp = .destEntry cls touched digit →
      exec c s = .next (State.settle { s with
        kb := { s.kb with queue := rest, comp := if s.kb.dest.isSome then .lineReady else .lineIdle }
        bell := s.bell + 1 }))

/-- The WHO and ENQ keys with a single station as destination: with a free reply-watch record and a place in
the control queue the request joins the queue with the next control sequence, linked to a RESERVED record;
without either, or with destination 0, the bell rings and nothing is queued. The composition is
untouched. -/
def Obligations.RequestKeys : Prop :=
  ∀ (c : Instr) (kind awaited : FrameKind) (k : Keystroke) (rest : List Keystroke) (d cls : Nat)
    (s : State), s.panel.phase = .done → s.kb.hold = .none → s.kb.queue = k :: rest →
    (c = .whoKey ∧ k.key = .who ∧ kind = .who ∧ awaited = .ident ∨
      c = .enq ∧ k.key = .enq ∧ kind = .enquire ∧ awaited = .status) →
    (s.kb.comp = .lineReady ∨ s.kb.comp = .composing → s.kb.dest = some (d, cls) →
      (d ≠ 0 ∧ s.send.watch.length < 4 ∧ s.send.control.length < 6 →
        exec c s = .next (State.settle { s with
          kb := { s.kb with queue := rest }
          send := { s.send with
            seqCounter := (s.send.seqCounter + 1) % 8
            control := s.send.control ++ [{ kind := kind, dest := d, seq := s.send.seqCounter
                                            number := 0, text := [], phase := .ready
                                            counts := Counts.zero, delay := 0
                                            watch := some s.send.freeWatch }]
            watch := s.send.watch ++ [{ slot := s.send.freeWatch, peer := d, kind := awaited
                                        timer := none }] } })) ∧
      (d = 0 ∨ 4 ≤ s.send.watch.length ∨ 6 ≤ s.send.control.length →
        exec c s = .next (State.settle { s with
          kb := { s.kb with queue := rest }, bell := s.bell + 1 }))) ∧
    (s.kb.comp = .lineIdle ∨ s.kb.comp = .localMode →
      exec c s = .next (State.settle { s with kb := { s.kb with queue := rest }, bell := s.bell + 1 }))

/-- MODE, TIME and the time digits. MODE enters LOCAL with the case unknown, where with PUNCH on a reservation
begins (one waits while a turning off does: the model's choice, log 20), and leaves it for LINE-READY or
LINE-IDLE; in COMPOSING, and in CONFIG FAULT in each of these states, it rings the bell. TIME takes four digits;
a time of day sets the clock with a fresh divider, another rings the bell; the composer returns to where TIME
was taken. Every other key in time entry rings the bell and ends it; in COMPOSING TIME rings the bell. The moves of
the reservation are R177's: LOCAL begins from NONE (ACTIVE with a leading leader due, or WAITING behind a copy),
WAITING (session open) and CLOSING (ACTIVE before the closing leader has begun, else the reopen flag set), and ends
from NONE, WAITING (NONE with an empty FIFO, else session ended), ACTIVE and CLOSING (the flag clear). The model's
choices there: a leading leader still due stays due on the way back to ACTIVE (log 38), and an event without a row of
the table, as LOCAL beginning in ACTIVE, changes nothing else (log 3). -/
def Obligations.ModeAndTime : Prop :=
  (∀ (p : Punch) (leader : Nat),
    (p.reservation = .none → p.copy = none →
      p.localBegins leader = { p with reservation := .active, leadLeft := leader, closeLeft := none }) ∧
    (p.reservation = .none → p.copy.isSome = true →
      p.localBegins leader = { p with reservation := .waiting true }) ∧
    (p.reservation = .none → p.localEnds = p) ∧
    (∀ b, p.reservation = .waiting b →
      p.localBegins leader = { p with reservation := .waiting true } ∧
      (p.fifo = [] → p.localEnds = { p with reservation := .none }) ∧
      (p.fifo ≠ [] → p.localEnds = { p with reservation := .waiting false })) ∧
    (p.reservation = .active → p.localBegins leader = p ∧
      p.localEnds = { p with reservation := .closing false }) ∧
    (∀ b, p.reservation = .closing b →
      (p.closeLeft = none → p.localBegins leader = { p with reservation := .active }) ∧
      (∀ n, p.closeLeft = some n → p.localBegins leader = { p with reservation := .closing true }) ∧
      p.localEnds = { p with reservation := .closing false })) ∧
  ∀ (k : Keystroke) (rest : List Keystroke) (ds : List Nat) (a b c d : Nat) (fromLocal : Bool) (s : State),
    s.panel.phase = .done → s.kb.hold = .none → s.kb.queue = k :: rest →
    (k.key = .mode → s.kb.comp = .lineIdle ∨ s.kb.comp = .lineReady → s.panel.configFault = false →
      exec .mode s = .next (State.settle { s with
        kb := { s.kb with queue := rest, comp := .localMode, case := .unknown }
        punch := if s.panel.punchSel = true ∧ s.punch.offDue = false
          then s.punch.localBegins s.panel.settings.leader else s.punch })) ∧
    (k.key = .mode → s.kb.comp = .localMode → s.panel.configFault = false →
      exec .mode s = .next (State.settle { s with
        kb := { s.kb with queue := rest
                          comp := if s.kb.dest.isSome then .lineReady else .lineIdle }
        punch := s.punch.localEnds })) ∧
    (k.key = .mode → s.kb.comp = .composing ∨ s.panel.configFault = true ∧
        (s.kb.comp = .lineIdle ∨ s.kb.comp = .lineReady ∨ s.kb.comp = .localMode) →
      exec .mode s = .next (State.settle { s with
        kb := { s.kb with queue := rest }, bell := s.bell + 1 })) ∧
    (k.key = .time → s.kb.comp = .lineIdle ∨ s.kb.comp = .lineReady →
      exec .time s = .next (State.settle { s with
        kb := { s.kb with queue := rest, comp := .timeEntry false [] } })) ∧
    (k.key = .time → s.kb.comp = .localMode → exec .time s = .next (State.settle { s with
        kb := { s.kb with queue := rest, comp := .timeEntry true [] } })) ∧
    (digitOf k = some d → s.kb.comp = .timeEntry fromLocal ds → ds.length < 3 →
      exec .timeDigit s = .next (State.settle { s with
        kb := { s.kb with queue := rest, comp := .timeEntry fromLocal (ds ++ [d]) } })) ∧
    (digitOf k = some d → s.kb.comp = .timeEntry fromLocal [a, b, c] → ∃ back : CompState,
      back = (if fromLocal then .localMode else if s.kb.dest.isSome then .lineReady else .lineIdle) ∧
      (10 * a + b ≤ 23 ∧ 10 * c + d ≤ 59 → exec .timeDigit s = .next (State.settle { s with
        kb := { s.kb with queue := rest, comp := back }
        journal := { s.journal with minute := (10 * a + b) * 60 + (10 * c + d), clockSet := true
                                    divider := some Config.minuteTime } })) ∧
      (23 < 10 * a + b ∨ 59 < 10 * c + d → exec .timeDigit s = .next (State.settle { s with
        kb := { s.kb with queue := rest, comp := back }, bell := s.bell + 1 }))) ∧
    (k.key = .time → s.kb.comp = .composing → exec .time s = .next (State.settle { s with
      kb := { s.kb with queue := rest }, bell := s.bell + 1 })) ∧
    (∀ i : Instr, entryCommand k i ∨ k.key = .dest ∧ i = .dest → s.kb.comp = .timeEntry fromLocal ds →
      exec i s = .next (State.settle { s with
        kb := { s.kb with queue := rest
                          comp := if fromLocal then .localMode
                            else if s.kb.dest.isSome then .lineReady else .lineIdle }
        bell := s.bell + 1 }))

/-- BREAK. The first BREAK leaves the keys handed on and the others stay (a list of the model's own: log 9). With no
current message the bell rings and queue and composer stay. With one it is abandoned in
the same step: the line action by its phase, a RELEASE when sections are done and the control queue has
room, which takes the next control sequence, one notice and one entry, the keystroke queue emptied; the composer is
closed, with both its timers stopped, only if it was composing it. -/
def Obligations.BreakKey : Prop :=
  ∀ s : State, s.panel.phase = .done →
    (s.kb.current = none → ∃ h : List Handed, leavesHanded (Handed.isOf .breakKey) s.kb.handed h ∧
      exec .breakKey s = .next (State.settle { s with
        kb := { s.kb with handed := h }, bell := s.bell + 1 })) ∧
    (∀ r, s.currentRecord = some r → ∃ u : State, exec .breakKey s = .next u.settle ∧
      u.line = (if r.phase = .onLine then s.line.cut else s.line) ∧ u.recv = s.recv ∧
      u.punch = s.punch ∧ u.panel = s.panel ∧ u.store = s.store.abandonEntry r.entry ∧
      leavesHanded (Handed.isOf .breakKey) s.kb.handed u.kb.handed ∧
      u.kb.queue = [] ∧ u.kb.hold = .none ∧ u.kb.current = none ∧
      (s.kb.comp = .composing → u.kb.comp = .lineIdle ∧ u.kb.dest = none ∧ u.kb.idleTimer = none ∧
        u.kb.autoEnd = none ∧ u.bell = s.bell + 1) ∧
      (s.kb.comp ≠ .composing → u.kb.comp = s.kb.comp ∧ u.kb.dest = s.kb.dest ∧ u.bell = s.bell) ∧
      u.send.sendList = refreshList u.store []
        (s.send.sendList.filter fun x => x.entry != r.entry) ∧
      u.send.watch = s.send.watch ∧
      u.send.msgCounter = s.send.msgCounter ∧
      (r.done = 0 ∨ 6 ≤ s.send.control.length →
        u.send.control = s.send.control ∧ u.send.seqCounter = s.send.seqCounter) ∧
      (r.done ≠ 0 → s.send.control.length < 6 → u.send.seqCounter = (s.send.seqCounter + 1) % 8 ∧
        u.send.control = s.send.control ++ [{ kind := .release, dest := r.dest, seq := s.send.seqCounter
                                              number := r.number, text := [], phase := .ready
                                              counts := Counts.zero, delay := 0, watch := none }]) ∧
      u.print = s.print.place (.notSent r.number r.dest r.cls r.lastTried
        (if r.done ≠ 0 ∧ 6 ≤ s.send.control.length then .breakNoRelease else .break)) ∧
      u.journal = s.journal.add .sendAbandoned
        { peer := some r.dest, number := some r.number, cls := some r.cls, sections := some r.done
          reason := some .break })

/-- Openings and block requests. A text key or HERE IS in LINE-READY, or the one held there, opens a message when
a place in the send list, an entry and a block are free: it takes the next message number, from 255 to 1, and its
codes are the first of block 0, which RETURN releases at once with its option on and the latch clear; otherwise it
is held. A held keystroke goes on with all that is left of it when a block is free, and RETURN's codes then release
it; a held END or auto end takes a final section of length 0. The idle release releases an open block with codes
when the time has reached T, or 2T while the latch is set; below that, as when a code, an ERASE or the setting of
the latch was taken before the waiting expiry, it does nothing, and so does an auto end whose timer a code has
restarted from zero (R131, R141; log 26). -/
def Obligations.HeldRequests : Prop :=
  ∀ (c : Instr) (k : Keystroke) (rest : List Keystroke) (out : List Code) (d cls slot : Nat)
    (e : Entry) (s : State) (option : Prop), s.panel.phase = .done →
    (option ↔ s.panel.settings.returnReleases = true ∧ s.line.latch = false) →
    (∀ (st : Store) (l : List SendRec) (u : State), s.kb.queue = k :: rest → s.kb.dest = some (d, cls) →
      s.panel.settings.answerback.length = 20 → out = keyOutput s.panel.settings.answerback k .letters →
      (textCommand k c ∧ s.kb.hold = .none ∧ s.kb.comp = .lineReady ∨
        c = .openingRepeated ∧ s.kb.hold = .opening ∧ (isTextKey k.key = true ∨ k.key = .hereIs)) →
      st = (s.store.openMessage d s.send.msgCounter cls).setOpenCodes s.store.freeSlot out →
      l = s.send.sendList ++ [{ entry := s.store.freeSlot, dest := d, cls := cls
                                number := s.send.msgCounter, phase := .pending, done := 0
                                counts := Counts.zero, delay := 0, lastTried := none }] →
      u = { s with
        store := st, print := out.foldl (fun p x => p.echo (.code x)) s.print
        send := { s.send with
          msgCounter := if 255 ≤ s.send.msgCounter then 1 else s.send.msgCounter + 1, sendList := l }
        kb := { s.kb with queue := rest, hold := .none, comp := .composing
                          current := some s.store.freeSlot, case := out.foldl caseAfter .letters
                          idleTimer := some 0, autoEnd := some 0 } } →
      (s.mayOpen → ¬ (k.key = .ret ∧ option) → exec c s = .next u.settle) ∧
      (s.mayOpen → k.key = .ret → option → exec c s = .next (State.settle { u with
        store := st.releaseOpen s.store.freeSlot false
        send := { u.send with sendList := refreshList (st.releaseOpen s.store.freeSlot false) [] l }
        kb := { u.kb with case := .unknown, idleTimer := none } })) ∧
      (¬ s.mayOpen → exec c s = .next (State.settle { s with
        kb := { s.kb with hold := .opening, autoEnd := none } }))) ∧
    (∀ (es es' : List Emit) (f : Emit) (st : Store), s.kb.hold = .block es → es = f :: es' →
      (emission s.kb.case f).isSome = true → es.length ≤ 25 → out = emitOutput s.kb.case es →
      out.length < 32 → s.kb.current = some slot → s.store.entry slot = some e →
      s.store.openCodes slot = none → st = (s.store.allocate slot 0 [] false).setOpenCodes slot out →
      (s.store.free = 0 → exec .blockRequestRepeated s = .next (State.settle { s with
        kb := { s.kb with autoEnd := none } })) ∧
      (1 ≤ s.store.free → .returnRelease ∉ es ∨ ¬ option →
        exec .blockRequestRepeated s = .next (State.settle { s with
          store := st, print := out.foldl (fun p x => p.echo (.code x)) s.print
          kb := { s.kb with queue := s.kb.queue.tail, hold := .none, case := out.foldl caseAfter s.kb.case
                            idleTimer := some 0, autoEnd := some 0 } })) ∧
      (∀ before, 1 ≤ s.store.free → option → es = before ++ [.returnRelease] → .returnRelease ∉ before →
        ∃ u : State, exec .blockRequestRepeated s = .next u.settle ∧
          u.store = st.releaseOpen slot false ∧
          u = { s with
            store := u.store, print := out.foldl (fun p x => p.echo (.code x)) s.print
            send := { s.send with sendList := refreshList u.store [] s.send.sendList }
            kb := { s.kb with queue := s.kb.queue.tail, hold := .none, case := .unknown
                              idleTimer := none, autoEnd := some 0 } })) ∧
    (s.kb.hold = .endBlock ∨ s.kb.hold = .autoEnd → s.kb.current = some slot →
      s.store.entry slot = some e → s.store.openCodes slot = none → 1 ≤ s.store.free →
      ∃ u : State, exec .blockRequestRepeated s = .next u.settle ∧
        u.store = (s.store.allocate slot 0 [] false).releaseOpen slot true ∧
        u = { s with
          store := u.store
          send := { s.send with sendList := refreshList u.store [] s.send.sendList }
          kb := { s.kb with comp := .lineReady, case := .unknown, idleTimer := none, autoEnd := none
                            hold := .none
                            queue := if s.kb.hold = .endBlock then s.kb.queue.tail else s.kb.queue } }) ∧
    (∀ n limit, s.kb.idleTimer = some n →
      limit = (if s.line.latch then 2 else 1) * (s.panel.settings.idleReleaseS * Config.second) →
      (∀ x xs, s.kb.comp = .composing → s.kb.current = some slot →
        s.store.openCodes slot = some (x :: xs) → limit ≤ n →
        ∃ t : State, exec .idleReleaseExpiry s = .next t ∧ t.store = s.store.releaseOpen slot false ∧
          t = { s with
            store := t.store
            send := { s.send with sendList := refreshList t.store [] s.send.sendList }
            kb := { s.kb with case := .unknown, idleTimer := none } }) ∧
      (n < limit → exec .idleReleaseExpiry s = .next s)) ∧
    (s.kb.autoEnd = some 0 → exec .autoEndExpiry s = .next s.settle)

/-! ### The panel keys -/

/-- The four selection keys: each takes its first key from those handed on, where the others stay (log 9), changes
its selection, places the notice that names the new one, and leaves the other selections. ATTEND also stops a motor
idle beyond the new idle time; PUNCH on in LOCAL begins a reservation (while a turning off waits, it waits too: the
model's choice, log 20). PUNCH off removes every PUNCH obligation, with none in its place (log 49), and empties the
punch queue; with nothing in flight the punch is stopped at once: no copy, the local FIFO empty, no leader due, the
reservation NONE; with an operation in flight that waits for its completion (PunchCompletion). A held LOCAL code,
already in the echo, goes there alone, and the codes left of its keystroke after it; that this happens in the key's
own step is the model's choice (log 43). -/
def Obligations.SelectionKeys : Prop :=
  ∀ s : State, s.panel.phase = .done →
    (∃ u : State, exec .attend s = .next u.settle ∧
      leavesHanded (Handed.isOf .attend) s.kb.handed u.kb.handed ∧
      u.panel = { s.panel with attended := !s.panel.attended } ∧
      u.print = (if s.print.motor = .running ∧ s.print.flight = .none ∧
          (if s.panel.attended then s.panel.settings.unattendedIdle10s * 10 * Config.second
            else s.panel.settings.attendedIdleMin * 60 * Config.second) ≤ s.print.motorIdle
        then { s.print with motor := .off, flight := .motorStop } else s.print).place
          (.attended (!s.panel.attended)) ∧
      u = { s with panel := u.panel, print := u.print, kb := { s.kb with handed := u.kb.handed } }) ∧
    (∃ u : State, exec .print s = .next u.settle ∧
      leavesHanded (Handed.isOf .print) s.kb.handed u.kb.handed ∧ u = { s with
        panel := { s.panel with printSel := !s.panel.printSel }
        print := s.print.place (.printSel (!s.panel.printSel))
        kb := { s.kb with handed := u.kb.handed } }) ∧
    (∃ u : State, exec .level s = .next u.settle ∧
      leavesHanded (Handed.isOf .level) s.kb.handed u.kb.handed ∧
      (s.panel.acceptLevel = 2 → u.panel.acceptLevel = 1) ∧
      (s.panel.acceptLevel = 1 → u.panel.acceptLevel = 0) ∧
      (s.panel.acceptLevel = 0 → u.panel.acceptLevel = 2) ∧
      u = { s with
        panel := { s.panel with acceptLevel := u.panel.acceptLevel }
        print := s.print.place (.level u.panel.acceptLevel)
        kb := { s.kb with handed := u.kb.handed } }) ∧
    (s.panel.punchSel = false → ∃ u : State, exec .punch s = .next u.settle ∧
      leavesHanded (Handed.isOf .punch) s.kb.handed u.kb.handed ∧
      u = { s with
        panel := { s.panel with punchSel := true }
        print := s.print.place (.punchSel true)
        punch := if s.kb.inLocal = true ∧ s.punch.offDue = false
          then s.punch.localBegins s.panel.settings.leader else s.punch
        kb := { s.kb with handed := u.kb.handed } }) ∧
    (s.panel.punchSel = true → ∃ u v : State, exec .punch s = .next u.settle ∧
      leavesHanded (Handed.isOf .punch) s.kb.handed u.kb.handed ∧ u.kb.handed = v.kb.handed ∧
      v = { s with
        panel := { s.panel with punchSel := false }
        print := s.print.place (.punchSel false)
        store := s.store.removePunchAll
        punch := { s.punch with offDue := true }
        kb := { s.kb with handed := v.kb.handed } } ∧
      v.store.punchQ = [] ∧ (∀ e ∈ v.store.dir, e.oblPunch = false) ∧
      ((∀ x es, s.kb.hold ≠ .localCode x es) → u = v) ∧
      (∀ x, s.kb.hold = .localCode x [] →
        u = { v with kb := { v.kb with queue := s.kb.queue.tail, hold := .none } }) ∧
      (∀ x es, s.kb.hold = .localCode x es → u = State.emitLocal emitFuel es v) ∧
      u.punch = v.punch ∧ u.store = v.store ∧
      (s.punch.flight = none → u.settle.punch.copy = none ∧ u.settle.punch.fifo = [] ∧
        u.settle.punch.reservation = .none ∧ u.settle.punch.leadLeft = 0 ∧
        u.settle.punch.closeLeft = none ∧ u.settle.punch.redo = none ∧ u.settle.punch.offDue = false) ∧
      (s.punch.flight.isSome = true → u.settle.punch = v.punch))

/-- The four mechanism keys, each taking its first key, or release, from those handed on, where the others stay (log
9). PAPER FEED with paper present owes one feed more, and rings without paper; in the stall the feed is marked as
the one whose completion ends it (PrintCompletion), apart from one already in flight for an earlier PAPER FEED, the
feeds owed being given in the order of the model's choice (log 17). TAPE FEED is refused with the bell while
stalled, with a copy or a restart mark, or in WAITING, and is served otherwise until its release. PUNCH RESUME ends
a stall when the tape is present and rings otherwise. JOURNAL begins a report with its snapshot and clear request,
and rings during one. -/
def Obligations.MechanismKeys : Prop :=
  ∀ (shift : Bool) (s : State), s.panel.phase = .done →
    (∃ u : State, exec .paperFeed s = .next u.settle ∧
      leavesHanded (Handed.isOf .paperFeed) s.kb.handed u.kb.handed ∧ u = { s with
      print := if s.print.paperPresent then
        { s.print with owedFeeds := s.print.owedFeeds + 1
                       stallFeed := s.print.stallFeed || s.print.stalled
                       feedBefore := s.print.feedBefore || (s.print.stalled && !s.print.stallFeed &&
                         s.print.flight.feedsPaper) } else s.print
      bell := if s.print.paperPresent then s.bell else s.bell + 1
      kb := { s.kb with handed := u.kb.handed } }) ∧
    (∃ u : State, exec .tapeFeed s = .next u.settle ∧
      leavesHanded (Handed.isOf .tapeFeed) s.kb.handed u.kb.handed ∧
      ((s.punch.stallTapeOut = true ∨ s.punch.stallFault = true ∨ s.punch.copy.isSome = true ∨
          0 < s.punch.markLeft ∨ (∃ b, s.punch.reservation = .waiting b)) →
        u = { s with bell := s.bell + 1, kb := { s.kb with handed := u.kb.handed } }) ∧
      (s.punch.stallTapeOut = false → s.punch.stallFault = false → s.punch.copy = none →
        s.punch.markLeft = 0 → (∀ b, s.punch.reservation ≠ .waiting b) →
        u = { s with punch := { s.punch with tapeFeed := true }
                     kb := { s.kb with handed := u.kb.handed } })) ∧
    (∃ u : State, exec .tapeFeedRelease s = .next u.settle ∧
      leavesHanded (fun h => h = .tapeFeedRelease) s.kb.handed u.kb.handed ∧
      u = { s with punch := { s.punch with tapeFeed := false }
                   kb := { s.kb with handed := u.kb.handed } }) ∧
    (∃ u : State, exec .punchResume s = .next u.settle ∧
      leavesHanded (Handed.isOf .punchResume) s.kb.handed u.kb.handed ∧
      ((s.punch.stallTapeOut = true ∨ s.punch.stallFault = true) → s.punch.tapeOut = false →
        u = { s with punch := { s.punch with stallTapeOut := false, stallFault := false }
                     kb := { s.kb with handed := u.kb.handed } }) ∧
      (s.punch.stallTapeOut = false ∧ s.punch.stallFault = false ∨ s.punch.tapeOut = true →
        u = { s with bell := s.bell + 1, kb := { s.kb with handed := u.kb.handed } })) ∧
    (∃ u : State, exec (.journal shift) s = .next u.settle ∧
      leavesHanded (Handed.isOf .journal) s.kb.handed u.kb.handed ∧
      (s.journal.report.isSome = true →
        u = { s with bell := s.bell + 1, kb := { s.kb with handed := u.kb.handed } }) ∧
      (s.journal.report = none → u = { s with
        journal := { s.journal with
          report := some { snapshot := s.journal.ring.map fun e => e.entryNo
                           toPrint := s.journal.ring.map fun e => e.entryNo
                           wasEmpty := decide (s.journal.ring = []), skip := 0, clear := shift
                           stage := .header } }
        kb := { s.kb with handed := u.kb.handed } }))

/-! ### The mechanisms -/

/-- The completion input of the printer. An operation complete: column and page line by the table of operations,
nothing in flight, the idle timer from zero; a strike opens a line of its stream and may ring the margin bell, a
feed or page at column 1 ends it and is a grant point. The line end of a notice makes the lost line due when notices
were lost, that of a copy in its finish removes PRINT, that of the footer ends the report with its clear. The feed
of a PAPER FEED taken in the stall ends it, one in flight since before does not. A motor start gives RUNNING, a stop
leaves OFF; with nothing in flight a completion is ignored. Then the next operation, behind the motor start and
R168's carriage return: a feed owed to PAPER FEED, the rest of a wrap or closing, then the stream whose turn it is:
an echo code as R4 gives it, in the FIFO until then (log 47), a strike at width + 1 behind a wrap that drops a
space, other operations there as they are (log 52), a feed at the page's end a page; the erase mark; every generated
line of the four streams, first and further elements, a bell rung on the way and a space dropped by a wrap (log 15);
a copy's bell, page, codes and finish; the reprint of a saved line; another stream's line closed first. The expiries
of the two timers: the motor is stopped when its time has reached the idle time of the selection as it stands. The
model's choices besides those named: one completion input (log 11), lines composed, and a report's entry printed,
when they begin (logs 12, 35), feeds owed in the stall (log 17), the idle timer from zero at the motor start (log
18), an expiry row acts when it comes (log 26), the ring of an echo strike that RESTART finds in flight (log 16), a
foreign line closed also for shifts alone (log 41). -/
def Obligations.PrintCompletion : Prop :=
  (∀ (c : Instr) (s : State), s.panel.phase = .done →
    ((c = .printOperationComplete ∨ c = .motorStartComplete ∨ c = .motorStopComplete) →
      (s.print.flight = .none → exec c s = .next s.settle) ∧
      (s.print.flight = .motorStart → exec c s = .next (State.settle { s with
        print := { s.print with motor := .running, flight := .none, motorIdle := 0 } })) ∧
      (s.print.flight = .motorStop → exec c s = .next (State.settle { s with
        print := { s.print with flight := .none } })) ∧
      (∀ o why, s.print.flight = .op o why → ∃ u : State, exec c s = .next u.settle ∧
        u.print.flight = .none ∧ u.print.motorIdle = 0 ∧ u.print.motor = s.print.motor ∧
        u.print.column = (match o with
          | .glyph _ => s.print.column + 1
          | .space => s.print.column + 1
          | .cr => 1
          | .feed => s.print.column
          | .page => s.print.column) ∧
        u.print.pageLine = (match o with
          | .feed => if s.panel.settings.pageLength = 0 then 1 else s.print.pageLine + 1
          | .page => 1
          | _ => s.print.pageLine) ∧
        u.print.notices = s.print.notices ∧ u.print.echoFifo = s.print.echoFifo ∧
        u.print.lost = s.print.lost ∧
        (∀ b, why = .stream .echo b → u.print.echoIdle = some 0 ∧ u.print.echoImage = (match o with
          | .glyph n => s.print.echoImage ++ [.glyph n]
          | .space => s.print.echoImage ++ [.space]
          | .cr => []
          | _ => if s.print.column = 1 then [] else s.print.echoImage)) ∧
        (∀ st b, why = .stream st b → (∃ n, o = .glyph n) ∨ o = .space →
          u.print.openLine = true ∧ u.print.owner = some st ∧ u.print.grantDue = s.print.grantDue) ∧
        (∀ st b, why = .stream st b → o = .feed ∨ o = .page → s.print.column = 1 →
          u.print.openLine = false ∧ u.print.owner = none ∧ u.print.grantDue = true ∧
          (st = .notices → s.print.noticeScript = [] → s.print.noticeLine = true →
            u.print.noticeLine = false ∧ u.print.lostDue = decide (0 < s.print.lost)) ∧
          (∀ x, st = .copy → s.print.copy = some x → x.phase = .finish → x.script = [] →
            u.print.copy = none ∧ u.store = s.store.removeObligation .print x.entry) ∧
          (∀ x, st = .report → s.journal.report = some x → x.stage = .ended → s.print.reportScript = [] →
            u.journal = if x.clear = true then { s.journal with
                report := none, overwritten := 0
                ring := s.journal.ring.filter fun n => !x.snapshot.contains n.entryNo }
              else { s.journal with report := none })) ∧
        ((∀ b, why ≠ .stream .copy b) → u.store = s.store) ∧
        ((∀ b, why ≠ .stream .report b) → u.journal = s.journal) ∧
        (why = .paperFeed → u.print = if s.print.feedBefore = true then { s.print with
            flight := .none, motorIdle := 0, column := u.print.column, pageLine := u.print.pageLine
            owedFeeds := s.print.owedFeeds - 1, feedBefore := false }
          else { s.print with
            flight := .none, motorIdle := 0, column := u.print.column, pageLine := u.print.pageLine
            owedFeeds := s.print.owedFeeds - 1, stalled := s.print.stalled && !s.print.stallFeed
            stallFeed := false }) ∧
        (∀ b, (why = .stream .echo b ∨ why = .orphan b) → (∃ n, o = .glyph n) ∨ o = .space →
          u.bell = s.bell + if b = true ∧ s.print.column + 1 + 7 = s.panel.settings.width then 1 else 0) ∧
        ((∀ n, o ≠ .glyph n) → o ≠ .space → u.bell = s.bell) ∧
        ((∀ b, why ≠ .stream .echo b ∧ why ≠ .orphan b) → u.bell = s.bell) ∧
        u.line = s.line ∧ u.recv = s.recv ∧ u.send = s.send ∧ u.kb = s.kb ∧ u.punch = s.punch ∧
        u.panel = s.panel)) ∧
    (∀ limit, s.print.motor = .running → s.print.flight = .none →
      limit = (if s.panel.attended then s.panel.settings.attendedIdleMin * 60 * Config.second
        else s.panel.settings.unattendedIdle10s * 10 * Config.second) →
      (limit ≤ s.print.motorIdle → exec .motorIdleExpiry s = .next (State.settle { s with
        print := { s.print with motor := .off, flight := .motorStop } })) ∧
      (s.print.motorIdle < limit → exec .motorIdleExpiry s = .next s.settle)) ∧
    (∀ n, s.print.echoIdle = some n → exec .echoIdleExpiry s = .next (State.settle { s with
      print := { s.print with echoIdle := some (if n = 0 then 0 else max n Config.echoIdleTime) } }))) ∧
  (∀ (s : State) (c d : Code) (rest : List EchoItem), s.printTurn .echo → s.print.echoScript = [] →
    s.print.reprint = [] → s.print.saved = none → s.print.echoLost = false →
    (s.print.echoFifo = .code c :: rest →
      (4 ≤ c.val → c.val ≤ 29 → ¬ (c.val = 25 ∧ s.print.echoCase = .figures) →
        (s.print.motor = .off → s.settle.print.flight = .motorStart ∧
          s.settle.print.motor = .starting ∧ s.settle.print.echoFifo = .code c :: rest) ∧
        (s.print.motor = .running → s.print.firstCR = true → s.settle.print.flight = .op .cr .initial ∧
          s.settle.print.firstCR = false ∧ s.settle.print.echoFifo = .code c :: rest) ∧
        (s.print.turning → s.print.column ≤ s.panel.settings.width →
          s.settle.print.flight = .op (.glyph (if s.print.echoCase = .letters then c.val - 4
            else c.val + 22)) (.stream .echo true) ∧
          s.settle.print.echoFifo = rest ∧ s.settle.print.echoCase = s.print.echoCase) ∧
        (s.print.turning → s.print.column = s.panel.settings.width + 1 →
          s.settle.print.flight = .op .cr (.stream .echo false) ∧ s.settle.print.pre = [.feed] ∧
          s.settle.print.echoFifo = .code c :: rest)) ∧
      (c.val = 1 → s.print.turning →
        (s.print.column ≤ s.panel.settings.width →
          s.settle.print.flight = .op .space (.stream .echo true) ∧ s.settle.print.echoFifo = rest) ∧
        (s.print.column = s.panel.settings.width + 1 →
          s.settle.print.flight = .op .cr (.stream .echo false) ∧ s.settle.print.pre = [.feed] ∧
          s.settle.print.echoFifo = rest) ∧
        s.settle.print.echoCase = if s.panel.settings.unshiftOnSpace then .letters
          else s.print.echoCase) ∧
      (c.val = 2 → s.print.turning →
        s.settle.print.flight = .op .cr (.stream .echo true) ∧ s.settle.print.echoFifo = rest) ∧
      (c.val = 3 → s.print.turning → s.settle.print.echoFifo = rest ∧
        s.settle.print.flight = .op (if s.panel.settings.pageLength ≠ 0 ∧
          s.panel.settings.pageLength ≤ s.print.pageLine then .page else .feed) (.stream .echo true))) ∧
    (s.print.echoFifo = .code c :: .code d :: rest → 4 ≤ d.val → d.val ≤ 29 → s.print.turning →
      d.val ≠ 25 ∨ c.val = 31 ∨ c.val ≠ 30 ∧ s.print.echoCase = .letters → s.print.column ≤ s.panel.settings.width →
      (c.val = 0 ∨ c.val = 30 ∨ c.val = 31 ∨ c.val = 25 ∧ s.print.echoCase = .figures) →
      s.settle.print.echoFifo = rest ∧
      s.settle.print.echoCase = (if c.val = 30 then .figures else if c.val = 31 then .letters
        else s.print.echoCase) ∧
      s.settle.print.flight = .op (.glyph (if s.settle.print.echoCase = .letters then d.val - 4
        else d.val + 22)) (.stream .echo true) ∧
      s.settle.bell = s.bell + if c.val = 25 then 1 else 0) ∧
    (∀ cs, s.print.echoFifo = .eraseMarker cs :: rest → s.print.turning →
      s.print.column ≤ s.panel.settings.width → s.settle.print.echoFifo = rest ∧
      s.settle.print.flight = .op (.glyph 52) (.stream .echo true) ∧ s.settle.print.echoCase = cs) ∧
    (∀ i text, s.print.echoFifo = i :: rest → s.print.turning → s.print.column ≤ s.panel.settings.width →
      ((∃ d cls, i = .destMarker d cls ∧ text = destText d cls) ∨ i = .autoEnd ∧ text = words "AUTO END") →
      (s.print.openLine = false → s.settle.print.begun .echo s.settle.print.echoScript text ∧
        s.settle.print.echoFifo = rest) ∧
      (s.print.openLine = true → s.settle.print.echoFifo = i :: rest ∧
        (1 < s.print.column → s.settle.print.pre = [.feed] ∧
          s.settle.print.flight = .op .cr (.stream .echo false)) ∧
        (s.print.column = 1 → s.settle.print.pre = [] ∧
          s.settle.print.flight = .op (if s.panel.settings.pageLength ≠ 0 ∧
            s.panel.settings.pageLength ≤ s.print.pageLine then .page else .feed) (.stream .echo false))))) ∧
  (∀ s : State, s.printTurn .echo → s.print.turning → s.print.column ≤ s.panel.settings.width →
    s.print.echoScript = [] → s.print.reprint = [] → s.print.saved = none → s.print.echoLost = true →
    s.print.echoFifo ≠ [] → s.settle.print.echoFifo = s.print.echoFifo ∧
    (s.print.openLine = false → s.settle.print.echoLost = false ∧
      s.settle.print.begun .echo s.settle.print.echoScript (words "ECHO LOST")) ∧
    (s.print.openLine = true → 1 < s.print.column → s.settle.print.echoLost = true ∧
      s.settle.print.pre = [.feed] ∧ s.settle.print.flight = .op .cr (.stream .echo false))) ∧
  (∀ (s : State) (sv : SavedLine) (n : Nat) (image : List Strike), s.printTurn .echo →
    s.print.turning → s.print.column ≤ s.panel.settings.width → s.print.echoScript = [] →
    s.print.reprint = [] → s.print.echoFifo ≠ [] → s.print.saved = some sv →
    sv.image = .glyph n :: image →
    s.settle.print.flight = .op (.glyph n) (.stream .echo false) ∧ s.settle.print.reprint = image ∧
    s.settle.print.saved = none ∧ s.settle.print.echoCase = sv.case ∧
    s.settle.print.echoFifo = s.print.echoFifo) ∧
  (∀ (s : State) (n : Notice) (rest : List Notice) (g : Nat) (text : List Elem), s.printTurn .notices →
    s.print.turning → s.print.column ≤ s.panel.settings.width → s.print.openLine = false →
    s.print.noticeScript = [] → s.print.lostDue = false → s.print.notices = n :: rest →
    noticeText s.panel.settings.unshiftOnSpace n = .strike (.glyph g) :: text →
    s.settle.print.flight = .op (.glyph g) (.stream .notices false) ∧ s.settle.print.notices = rest ∧
    s.settle.print.noticeLine = true ∧ s.settle.print.noticeScript = text ++ [.cr, .feed]) ∧
  (∀ s : State, s.printTurn .notices → s.print.turning → s.print.column ≤ s.panel.settings.width →
    s.print.openLine = false → s.print.noticeScript = [] → s.print.lostDue = true →
    s.settle.print.begun .notices s.settle.print.noticeScript (plain s.print.lost ++ words " NOTICES LOST") ∧
    s.settle.print.notices = s.print.notices ∧ s.settle.print.lost = 0 ∧ s.settle.print.lostDue = false ∧
    s.settle.print.noticeLine = false) ∧
  (∀ (s : State) (c : CopyPos) (e : Entry) (n : Nat) (code : Code), s.printTurn .copy →
    s.print.turning → s.print.column ≤ s.panel.settings.width → s.print.copy = some c → c.script = [] →
    c.phase = .text → s.store.entry c.entry = some e → e.chain[c.block]? = some n →
    (((s.store.block n).gap = 0 ∨ c.gapDone = true) → (s.store.block n).codes[c.code]? = some code →
      4 ≤ code.val → code.val ≤ 29 → ¬ (code.val = 25 ∧ c.case = .figures) →
      s.settle.print.flight = .op (.glyph (if c.case = .letters then code.val - 4 else code.val + 22))
        (.stream .copy false) ∧
      s.settle.print.copy = some { c with code := c.code + 1 }) ∧
    (((s.store.block n).gap = 0 ∨ c.gapDone = true) → (s.store.block n).codes[c.code]? = some code →
      1 ≤ code.val → code.val ≤ 3 → ∃ o : MechOp, s.settle.print.flight = .op o (.stream .copy false) ∧
      (code.val = 1 → o = .space) ∧ (code.val = 2 → o = .cr) ∧
      (code.val = 3 → o = if s.panel.settings.pageLength ≠ 0 ∧
        s.panel.settings.pageLength ≤ s.print.pageLine then .page else .feed) ∧
      s.settle.print.copy = some { c with code := c.code + 1, case :=
        if code.val = 1 ∧ s.panel.settings.unshiftOnSpace = true then .letters else c.case }) ∧
    (∀ d cs, ((s.store.block n).gap = 0 ∨ c.gapDone = true) → (s.store.block n).codes[c.code]? = some code →
      (s.store.block n).codes[c.code + 1]? = some d → 4 ≤ d.val → d.val ≤ 29 →
      ¬ (d.val = 25 ∧ cs = .figures) →
      (code.val = 0 ∨ code.val = 30 ∨ code.val = 31 ∨ code.val = 25 ∧ c.case = .figures) →
      cs = (if code.val = 30 then .figures else if code.val = 31 then .letters else c.case) →
      s.settle.print.flight = .op (.glyph (if cs = .letters then d.val - 4 else d.val + 22))
        (.stream .copy false) ∧
      s.settle.print.copy = some { c with code := c.code + 2, case := cs } ∧
      s.settle.bell = s.bell + if code.val = 25 then 1 else 0) ∧
    (0 < (s.store.block n).gap → c.gapDone = false → s.print.openLine = false →
      s.settle.print.flight = .op (.glyph gapBar) (.stream .copy false) ∧
      s.settle.print.copy = some { c with gapDone := true, case := .letters
                                          script := (generated (gapText (s.store.block n).gap)).tail })) ∧
  (∀ (s : State) (c : CopyPos) (e : Entry) (n : Nat) (code : Code), s.printTurn .copy → s.print.turning →
    s.print.column = s.panel.settings.width + 1 → s.print.copy = some c → c.script = [] → c.phase = .text →
    s.store.entry c.entry = some e → e.chain[c.block]? = some n →
    (s.store.block n).gap = 0 ∨ c.gapDone = true → (s.store.block n).codes[c.code]? = some code →
    (4 ≤ code.val → code.val ≤ 29 → ¬ (code.val = 25 ∧ c.case = .figures) →
      s.settle.print.flight = .op .cr (.stream .copy false) ∧ s.settle.print.pre = [.feed] ∧
      s.settle.print.copy = some c) ∧
    (code.val = 1 → s.settle.print.flight = .op .cr (.stream .copy false) ∧
      s.settle.print.pre = [.feed] ∧ s.settle.print.copy = some { c with code := c.code + 1, case :=
        if s.panel.settings.unshiftOnSpace = true then .letters else c.case }) ∧
    (code.val = 2 ∨ code.val = 3 →
      s.settle.print.flight = .op (if code.val = 2 then .cr else s.feedHere) (.stream .copy false) ∧
      s.settle.print.copy = some { c with code := c.code + 1 })) ∧
  (∀ (s : State) (st : Stream) (rest : List Elem), s.printTurn st →
    (∀ e o, s.print.turning → s.elemOp e = some o →
      s.print.column ≤ s.panel.settings.width ∨ e = .cr ∨ e = .feed →
      (s.scriptOf st = e :: rest → s.settle.print.flight = .op o (.stream st false) ∧
        s.settle.scriptOf st = rest ∧ s.settle.bell = s.bell) ∧
      (s.scriptOf st = .bell :: e :: rest → s.settle.print.flight = .op o (.stream st false) ∧
        s.settle.scriptOf st = rest ∧ s.settle.bell = s.bell + 1)) ∧
    (∀ k, s.print.turning → s.print.column = s.panel.settings.width + 1 →
      s.scriptOf st = .strike k :: rest → s.settle.print.flight = .op .cr (.stream st false) ∧
      s.settle.print.pre = [.feed] ∧
      s.settle.scriptOf st = if k = .space then rest else .strike k :: rest) ∧
    (∀ e, s.print.motor = .off → e ≠ .bell →
      s.scriptOf st = e :: rest → s.settle.print.flight = .motorStart ∧
      s.settle.print.motor = .starting ∧ s.settle.scriptOf st = e :: rest)) ∧
  (∀ (s : State) (k : Strike) (rest : List Strike), s.printTurn .echo → s.print.turning →
    s.print.column ≤ s.panel.settings.width → s.print.echoScript = [] → s.print.reprint = k :: rest →
    s.settle.print.flight = .op (match k with
      | .glyph n => .glyph n
      | .space => .space) (.stream .echo false) ∧
    s.settle.print.reprint = rest ∧ s.settle.print.echoFifo = s.print.echoFifo ∧
    s.settle.print.echoCase = s.print.echoCase ∧ s.settle.print.saved = s.print.saved) ∧
  (∀ (s : State) (o : MechOp) (rest : List MechOp), s.panel.phase = .done → s.print.flight = .none →
    s.print.stalled = false → s.print.owedFeeds = 0 → s.copyPlaced → s.print.pre = o :: rest →
    s.holderStays ∨ ¬ (s.print.holder = some .echo ∧ s.print.openLine = true ∧ s.print.owner = some .echo) →
    (s.print.motor = .off → s.settle.print.flight = .motorStart ∧ s.settle.print.motor = .starting ∧
      s.settle.print.pre = o :: rest) ∧
    (s.print.turning → s.settle.print.flight = .op (if o = .feed then s.feedHere else o) s.print.preFor ∧
      s.settle.print.pre = rest)) ∧
  (∀ s : State, s.panel.phase = .done → s.print.flight = .none → s.copyPlaced →
    s.print.stalled = false ∧ 0 < s.print.owedFeeds ∨
      s.print.stalled = true ∧ s.print.stallFeed = true ∧ s.print.paperPresent = true →
    s.settle.print.flight = (if s.print.motor ≠ .running then .motorStart
      else if s.print.firstCR = true then .op .cr .initial else .op s.feedHere .paperFeed) ∧
    s.settle.print.motor = (if s.print.motor ≠ .running then .starting else .running) ∧
    s.settle.print.openLine = s.print.openLine ∧ s.settle.print.owner = s.print.owner ∧
    s.settle.print.echoImage = s.print.echoImage ∧ s.settle.print.column = s.print.column ∧
    s.settle.print.owedFeeds = s.print.owedFeeds ∧ s.settle.print.stalled = s.print.stalled ∧
    s.settle.print.notices = s.print.notices ∧ s.settle.print.echoFifo = s.print.echoFifo ∧
    (s.print.stalled = true ∨ s.holderStays → s.settle.print.holder = s.print.holder)) ∧
  (∀ (s : State) (c : CopyPos) (e : Entry), s.printTurn .copy → s.print.turning →
    s.print.column ≤ s.panel.settings.width → s.print.copy = some c → c.script = [] →
    s.store.entry c.entry = some e →
    (c.phase = .bell → s.panel.settings.pagePerMessage = true → s.panel.settings.pageLength ≠ 0 →
      s.print.pageLine ≠ 1 → s.settle.print.flight = .op .page (.stream .copy false) ∧
      s.settle.bell = (s.bell + if s.panel.attended then 1 else 0) ∧
      s.settle.print.copy = some { c with
        phase := if s.panel.settings.banner then .banner else .text }) ∧
    (c.phase = .bell → s.print.openLine = false → s.panel.settings.banner = true →
      (s.panel.settings.pagePerMessage = false ∨ s.panel.settings.pageLength = 0 ∨ s.print.pageLine = 1) →
      s.settle.print.flight = .op (.glyph 12) (.stream .copy false) ∧
      s.settle.bell = (s.bell + if s.panel.attended then 1 else 0) ∧ s.settle.print.copy = some { c with
        phase := .text, script := (generated (bannerText e s.journal.time)).tail }) ∧
    (c.phase = .page →
      (s.panel.settings.pagePerMessage = true → s.panel.settings.pageLength ≠ 0 → s.print.pageLine ≠ 1 →
        s.settle.print.flight = .op .page (.stream .copy false) ∧ s.settle.bell = s.bell ∧
        s.settle.print.copy = some { c with
          phase := if s.panel.settings.banner then .banner else .text }) ∧
      (s.print.pageLine = 1 → s.print.openLine = false → s.panel.settings.banner = true →
        s.settle.print.flight = .op (.glyph 12) (.stream .copy false) ∧ s.settle.bell = s.bell ∧
        s.settle.print.copy = some { c with
          phase := .text, script := (generated (bannerText e s.journal.time)).tail })) ∧
    (c.phase = .text → e.state = .closed → ¬ s.store.textLeft e c →
      (e.reason.isSome = true → s.print.openLine = false →
        s.settle.print.flight = .op (.glyph gapBar) (.stream .copy false) ∧ ∃ c' : CopyPos,
          s.settle.print.copy = some c' ∧ c'.entry = c.entry ∧ c'.phase = .finish ∧
          c'.script = (generated trailerText).tail) ∧
      (e.reason = none → s.print.openLine = true → 1 < s.print.column →
        s.settle.print.flight = .op .cr (.stream .copy false) ∧ s.settle.print.pre = [.feed]) ∧
      (e.reason = none → s.print.openLine = false → s.store.printQ = [c.entry] →
        ¬ s.print.noticesWait → ¬ s.print.echoWaits → ¬ s.reportWaits →
        s.punch.flight.isSome = true → s.punch.copy.isSome = true ∨ s.store.punchQ = [] →
        s.settle.print.copy = none ∧ s.settle.print.flight = .none ∧ s.settle.print.holder = none ∧
        s.settle.store = s.store.removeObligation .print c.entry))) ∧
  (∀ (s : State) (r : Report), s.printTurn .report → s.print.turning →
    s.print.column ≤ s.panel.settings.width → s.print.openLine = false → s.print.reportScript = [] →
    s.journal.report = some r → r.stage = .header →
    s.settle.print.flight = .op (.glyph 9) (.stream .report false) ∧
    s.settle.journal.report = some { r with stage := .entries } ∧
    s.settle.print.reportScript = (generated (headerText s.journal.time s.journal.overwritten)).tail) ∧
  (∀ (s : State) (r q : Report) (text : List Elem), s.printTurn .report → s.print.turning →
    s.print.column ≤ s.panel.settings.width → s.print.openLine = false → s.print.reportScript = [] →
    s.journal.report = some r →
    (r.stage = .entries ∧ r.wasEmpty = true ∧ q = { r with stage := .footer } ∧ text = words "NO ENTRIES" ∨
      r.stage = .entries ∧ r.wasEmpty = false ∧ 0 < r.skip ∧ q = { r with skip := 0 } ∧
        text = skipText r.skip ∨
      (∃ n rest e, r.stage = .entries ∧ r.wasEmpty = false ∧ r.skip = 0 ∧ r.toPrint = n :: rest ∧
        s.journal.ring.find? (fun x => x.entryNo == n) = some e ∧ q = { r with toPrint := rest } ∧
        text = entryText e) ∨
      (r.stage = .footer ∨ r.stage = .entries ∧ r.wasEmpty = false ∧ r.skip = 0 ∧ r.toPrint = []) ∧
        q = { r with stage := .ended } ∧ text = footerText s.line.discarded (loadPercent s.line.loadE)) →
    s.settle.print.begun .report s.settle.print.reportScript text ∧
    s.settle.journal = { s.journal with report := some q }) ∧
  (∀ (s : State) (st : Stream), s.panel.phase = .done → s.print.flight = .none →
    s.print.stalled = false → s.print.owedFeeds = 0 → s.print.pre = [] → s.print.grantDue = false →
    s.copyPlaced → s.print.holder = some st → s.printSide.waits s.printEnv st = true →
    s.print.openLine = true → s.print.owner ≠ some st → s.print.turning →
    (1 < s.print.column → s.settle.print.flight = .op .cr .closing ∧ s.settle.print.pre = [.feed]) ∧
    (s.print.column = 1 → s.settle.print.pre = [] ∧
      s.settle.print.flight = .op (if s.panel.settings.pageLength ≠ 0 ∧
        s.panel.settings.pageLength ≤ s.print.pageLine then .page else .feed) .closing))

/-- The sensor inputs. Paper out stalls the printer, anew while the stall's own feed is in flight (the model's
choice, log 53), and paper present alone does not end the stall. The tape-out switch begins one TAPE OUT occurrence:
at once with nothing in flight, with its notice, its entry and a restart mark of 5 due, or at the completion of the
operation in flight, also when the switch reads present again by then (the model's reading, log 21); in a stall of
that cause it begins none. Tape present and the tape-low switch change their readings alone. -/
def Obligations.SensorInputs : Prop :=
  ∀ s : State,
    exec .paperOut s = .next { s with print :=
      { s.print with paperPresent := false, stalled := true, stallFeed := false, feedBefore := false } } ∧
    exec .paperPresent s = .next { s with print := { s.print with paperPresent := true } } ∧
    exec .tapePresent s = .next { s with punch := { s.punch with tapeOut := false } } ∧
    exec .tapeLow s = .next { s with punch := { s.punch with tapeLow := true } } ∧
    exec .tapeLowCleared s = .next (State.settle { s with punch := { s.punch with tapeLow := false } }) ∧
    (s.panel.phase ≠ .done → exec .tapeOut s = .next { s with punch := { s.punch with tapeOut := true } }) ∧
    (s.panel.phase = .done → s.punch.stallTapeOut = true ∨ s.punch.outPending = true →
      exec .tapeOut s = .next (State.settle { s with punch := { s.punch with tapeOut := true } })) ∧
    (s.panel.phase = .done → s.punch.stallTapeOut = false → s.punch.outPending = false →
      (s.punch.flight.isSome = true → exec .tapeOut s = .next (State.settle { s with
        punch := { s.punch with tapeOut := true, outPending := true } })) ∧
      (s.punch.flight = none → ∃ u : State, exec .tapeOut s = .next u.settle ∧
        u.punch.stallTapeOut = true ∧ u.punch.stallFault = s.punch.stallFault ∧
        u.punch.tapeOut = true ∧ u.punch.tapeFeed = false ∧ u.punch.markLeft = 5 ∧
        u.punch.fifo = s.punch.fifo ∧ u.punch.reservation = s.punch.reservation ∧
        u.punch.copy = s.punch.copy.map (fun x => { x with phase := .lead s.panel.settings.leader }) ∧
        u.print = s.print.place .tapeOut ∧ u.journal = s.journal.add .tapeOut {} ∧
        u = { s with punch := u.punch, print := u.print, journal := u.journal }))

/-- The completion input of the punch. With the tape present and both contacts as commanded the code is punched and
its source goes on; with a contact wrong a PUNCH FAULT occurrence begins, with its notice, its entry and a restart
mark of 5, the copy set back to its leader and a local code in flight kept to be punched again; with the tape out,
or a tape-out reading begun in flight and gone again (the model's reading, log 21), it is not checked and the TAPE
OUT stall takes hold. With nothing in flight it is ignored. Then the next operation: the restart mark (31), TAPE
FEED (0), for LOCAL the code to punch again, the closing leader under way, the leading leader, the FIFO in order and
in CLOSING the closing leader, which at its end leaves NONE or ACTIVE; else the store copy by its phases (leader,
blocks with their gap marks, incomplete mark, trailing leader), which waits at its stored end. In a stall nothing is
issued for any source. A copy begins exactly under R171's conditions, at once at an idle punch or while an operation
is in flight (not while a turning off waits: the model's choice, log 20); the copy that finishes removes PUNCH and
leaves a WAITING reservation ACTIVE or CLOSING with its leading leader. A turning off takes effect with nothing in
flight. Codes of a reopened session that has ended again come after the closing leader (the model's choice, log 44).
-/
def Obligations.PunchCompletion : Prop :=
  (∀ (c sense : Code) (hole : Bool) (src : PunchSource) (s : State), s.panel.phase = .done →
    (s.punch.flight = none → exec (.punchOperationComplete sense hole) s = .next s.settle) ∧
    (s.punch.flight = some (c, src) → s.punch.outPending = false → s.punch.tapeOut = false →
      sense = c ∧ hole = true → ∃ u : State,
        exec (.punchOperationComplete sense hole) s = .next u.settle ∧
        u = { s with punch := u.punch } ∧ u.punch.flight = none ∧ u.punch.fifo = s.punch.fifo ∧
        u.punch.markLeft = (if src = .mark then s.punch.markLeft - 1 else s.punch.markLeft) ∧
        u.punch.leadLeft = (if src = .leader then s.punch.leadLeft - 1 else s.punch.leadLeft) ∧
        u.punch.closeLeft = (if src = .closer then s.punch.closeLeft.map (fun n => n - 1)
          else s.punch.closeLeft) ∧
        (src ≠ .copy → u.punch.copy = s.punch.copy) ∧
        (∀ e b i, src = .copy → s.punch.copy = some { entry := e, phase := .text b i } →
          u.punch.copy = some { entry := e, phase := .text b (i + 1) }) ∧
        (∀ e n, src = .copy → s.punch.copy = some { entry := e, phase := .lead n } →
          u.punch.copy = some { entry := e, phase := .lead (n - 1) }) ∧
        (∀ e b n, src = .copy → s.punch.copy = some { entry := e, phase := .gap b n } →
          u.punch.copy = some { entry := e, phase := .gap b (n - 1) }) ∧
        (∀ e n, src = .copy → s.punch.copy = some { entry := e, phase := .incomplete n } →
          u.punch.copy = some { entry := e, phase := .incomplete (n - 1) }) ∧
        (∀ e n, src = .copy → s.punch.copy = some { entry := e, phase := .trail n } →
          u.punch.copy = some { entry := e, phase := .trail (n - 1) })) ∧
    (s.punch.flight = some (c, src) →
      (s.punch.outPending = true ∨ s.punch.tapeOut = true ∨ sense ≠ c ∨ hole = false) → ∃ u : State,
        exec (.punchOperationComplete sense hole) s = .next u.settle ∧
        u = { s with punch := u.punch, print := u.print, journal := u.journal } ∧
        u.punch.flight = none ∧ u.punch.markLeft = 5 ∧ u.punch.tapeFeed = false ∧
        u.punch.fifo = s.punch.fifo ∧ u.punch.reservation = s.punch.reservation ∧
        (src = .code → u.punch.redo = some c) ∧ (src ≠ .code → u.punch.redo = s.punch.redo) ∧
        (∀ n, s.punch.leadLeft = n + 1 → u.punch.leadLeft = s.panel.settings.leader) ∧
        (∀ n, s.punch.closeLeft = some (n + 1) → u.punch.closeLeft = some s.panel.settings.leader) ∧
        (s.punch.closeLeft = some 0 ∨ s.punch.closeLeft = none →
          u.punch.closeLeft = s.punch.closeLeft) ∧
        u.punch.copy = s.punch.copy.map (fun x => { x with phase := .lead s.panel.settings.leader }) ∧
        (s.punch.outPending = true ∨ s.punch.tapeOut = true →
          u.punch.stallTapeOut = true ∧ u.punch.stallFault = s.punch.stallFault ∧
          u.print = s.print.place .tapeOut ∧ u.journal = s.journal.add .tapeOut {}) ∧
        (s.punch.outPending = false → s.punch.tapeOut = false →
          u.punch.stallFault = true ∧ u.punch.stallTapeOut = s.punch.stallTapeOut ∧
          u.print = s.print.place .punchFault ∧ u.journal = s.journal.add .punchFault {}))) ∧
  (∀ s : State, s.punchTurn →
    (0 < s.punch.markLeft → s.settle.punch = { s.punch with flight := some (31, .mark) }) ∧
    (s.punch.markLeft = 0 → s.punch.tapeFeed = true →
      s.settle.punch = { s.punch with flight := some (0, .feed) }) ∧
    (s.punch.markLeft = 0 → s.punch.tapeFeed = false → s.punch.reservation.holdsPunch = true →
      (∀ c, s.punch.redo = some c →
        s.settle.punch = { s.punch with redo := none, flight := some (c, .code) }) ∧
      (s.punch.redo = none → s.punch.closeLeft.isSome = true →
        s.settle.punch = { s.punch with flight := some (0, .closer) }) ∧
      (s.punch.redo = none → s.punch.closeLeft = none → 0 < s.punch.leadLeft →
        s.settle.punch = { s.punch with flight := some (0, .leader) }) ∧
      (s.punch.redo = none → s.punch.closeLeft = none → s.punch.leadLeft = 0 →
        (∀ c rest, s.punch.fifo = c :: rest →
          s.settle.punch = { s.punch with fifo := rest, flight := some (c, .code) }) ∧
        (s.punch.fifo = [] → s.punch.reservation = .active → s.settle.punch = s.punch) ∧
        (∀ b, s.punch.fifo = [] → s.punch.reservation = .closing b → 0 < s.panel.settings.leader →
          s.settle.punch = { s.punch with
            closeLeft := some s.panel.settings.leader, flight := some (0, .closer) }) ∧
        (s.punch.fifo = [] → s.punch.reservation = .closing false → s.panel.settings.leader = 0 →
          s.store.punchQ = [] → s.punch.copy = none →
          s.settle.punch = { s.punch with reservation := .none })))) ∧
  (∀ s : State, s.panel.phase = .done → s.punch.flight = none → s.punch.offDue = false →
    s.punch.closeLeft ≠ some 0 → s.punch.stallTapeOut = true ∨ s.punch.stallFault = true →
    s.settle.punch = s.punch) ∧
  (∀ s : State, s.panel.phase = .done → s.punch.flight = none → s.punch.offDue = false →
    s.punch.closeLeft = some 0 → s.punch.stallTapeOut = false → s.punch.stallFault = false →
    s.punch.markLeft = 0 → s.punch.tapeFeed = false →
    (s.punch.reservation = .closing false → s.store.punchQ = [] → s.punch.copy = none →
      s.settle.punch = { s.punch with reservation := .none, closeLeft := none }) ∧
    (s.punch.reservation = .closing true → s.punch.redo = none → 0 < s.panel.settings.leader →
      s.settle.punch = { s.punch with reservation := .active, closeLeft := none
                                      leadLeft := s.panel.settings.leader
                                      flight := some (0, .leader) })) ∧
  (∀ (s : State) (slot : Nat) (e : Entry), s.punchTurn → s.punch.copyFree → s.printKeepsStore →
    s.store.entry slot = some e →
    (∀ n, s.punch.copy = some { entry := slot, phase := .lead (n + 1) } →
      s.settle.punch = { s.punch with flight := some (0, .copy) }) ∧
    (∀ b i n code, s.punch.copy = some { entry := slot, phase := .text b i } → e.chain[b]? = some n →
      (s.store.block n).codes[i]? = some code →
      s.settle.punch = { s.punch with flight := some (code, .copy) }) ∧
    (∀ ph b n code, s.punch.copy = some { entry := slot, phase := ph } →
      (ph = .lead 0 ∧ b = 0 ∧ (s.store.block n).gap = 0 ∨
        ph = .block b ∧ (s.store.block n).gap = 0 ∨ ph = .gap b 0 ∨
        ∃ a m, ph = .text a (s.store.block m).codes.length ∧ e.chain[a]? = some m ∧ b = a + 1 ∧
          (s.store.block n).gap = 0) →
      e.chain[b]? = some n → (s.store.block n).codes[0]? = some code → s.settle.punch = { s.punch with
        copy := some { entry := slot, phase := .text b 0 }, flight := some (code, .copy) }) ∧
    (∀ b n, s.punch.copy = some { entry := slot, phase := .block b } → e.chain[b]? = some n →
      0 < (s.store.block n).gap → s.settle.punch = { s.punch with
        copy := some { entry := slot, phase := .gap b 8 }, flight := some (31, .copy) }) ∧
    (∀ b n, s.punch.copy = some { entry := slot, phase := .gap b (n + 1) } →
      s.settle.punch = { s.punch with flight := some (31, .copy) }) ∧
    (∀ b, s.punch.copy = some { entry := slot, phase := .block b } → e.chain[b]? = none →
      (e.state ≠ .closed → s.settle.punch = s.punch) ∧
      (e.state = .closed → e.reason.isSome = true → s.settle.punch = { s.punch with
        copy := some { entry := slot, phase := .incomplete 8 }, flight := some (31, .copy) }) ∧
      (e.state = .closed → e.reason = none → 0 < s.panel.settings.leader →
        s.settle.punch = { s.punch with
          copy := some { entry := slot, phase := .trail s.panel.settings.leader }
          flight := some (0, .copy) })) ∧
    (∀ n, s.punch.copy = some { entry := slot, phase := .incomplete (n + 1) } →
      s.settle.punch = { s.punch with flight := some (31, .copy) }) ∧
    (s.punch.copy = some { entry := slot, phase := .incomplete 0 } → 0 < s.panel.settings.leader →
      s.settle.punch = { s.punch with
        copy := some { entry := slot, phase := .trail s.panel.settings.leader }, flight := some (0, .copy) }) ∧
    (∀ n, s.punch.copy = some { entry := slot, phase := .trail (n + 1) } →
      s.settle.punch = { s.punch with flight := some (0, .copy) }) ∧
    (∀ b, s.punch.copy = some { entry := slot, phase := .trail 0 } → s.punch.reservation = .waiting b →
      s.punch.redo = none →
      (0 < s.panel.settings.leader → s.settle.store = s.store.removeObligation .punch slot ∧
        s.settle.punch = { s.punch with
          copy := none, closeLeft := none, leadLeft := s.panel.settings.leader, flight := some (0, .leader)
          reservation := if b = true then .active else .closing false }) ∧
      (∀ c rest, s.panel.settings.leader = 0 → s.punch.fifo = c :: rest →
        s.settle.store = s.store.removeObligation .punch slot ∧ s.settle.punch = { s.punch with
          copy := none, closeLeft := none, leadLeft := 0, fifo := rest, flight := some (c, .code)
          reservation := if b = true then .active else .closing false })) ∧
    (s.punch.copy = some { entry := slot, phase := .trail 0 } → s.punch.reservation = .none →
      s.store.punchQ = [slot] → s.settle.punch = { s.punch with copy := none } ∧
      s.settle.store = s.store.removeObligation .punch slot)) ∧
  (∀ (s : State) (slot : Nat) (rest : List Nat) (e : Entry), s.punchTurn → s.printKeepsStore →
    s.punch.copy = none → s.store.punchQ = slot :: rest → s.store.entry slot = some e →
    s.punch.markLeft = 0 → s.punch.tapeLow = false → s.punch.reservation = .none → s.punch.tapeFeed = false →
    (0 < s.panel.settings.leader → s.settle.punch = { s.punch with
      copy := some { entry := slot, phase := .lead s.panel.settings.leader }, flight := some (0, .copy) }) ∧
    (∀ n code, s.panel.settings.leader = 0 → e.chain[0]? = some n → (s.store.block n).gap = 0 →
      (s.store.block n).codes[0]? = some code → s.settle.punch = { s.punch with
        copy := some { entry := slot, phase := .text 0 0 }, flight := some (code, .copy) })) ∧
  (∀ s : State, s.panel.phase = .done → s.punch.copy = none → s.punch.flight.isSome = true →
    (∀ slot rest, s.store.punchQ = slot :: rest → s.punch.stallTapeOut = false →
      s.punch.stallFault = false → s.punch.markLeft = 0 → s.punch.tapeLow = false →
      s.punch.reservation = .none → s.punch.tapeFeed = false → s.punch.offDue = false →
      s.settle.punch.copy = some { entry := slot, phase := .lead s.panel.settings.leader }) ∧
    (s.store.punchQ = [] ∨ s.punch.stallTapeOut = true ∨ s.punch.stallFault = true ∨
      0 < s.punch.markLeft ∨ s.punch.tapeLow = true ∨ s.punch.reservation ≠ .none ∨
      s.punch.tapeFeed = true ∨ s.punch.offDue = true → s.settle.punch = s.punch)) ∧
  (∀ s : State, s.panel.phase = .done → s.punch.flight = none → s.punch.offDue = true →
    s.store.punchQ = [] → (s.panel.punchSel = false ∨ s.kb.inLocal = false) →
    s.settle.punch.offDue = false ∧ s.settle.punch.copy = none ∧ s.settle.punch.fifo = [] ∧
    s.settle.punch.redo = none ∧ s.settle.punch.reservation = .none ∧ s.settle.punch.leadLeft = 0 ∧
    s.settle.punch.closeLeft = none)

/-! ### Invariants of every step -/

/-- Every step, a command's or the block's own, keeps the ranges of the line unit, whatever the other stations put
on the line, the canonical form of the block ring, and the message store sound: at most 256 FREE blocks, the ring
listing exactly the others from the tail to the head (the tail + 256 - free, mod 256), a LIVE block at the tail,
every LIVE block in the chain of the one entry that owns it, section numbers ascending, each copy queue the entries
of its obligation in order. And what the operations of a sound store leave: a received section, a block opened and a
message opened take the block at the head, its number the last one plus 1 plus its gap-before; codes go to the open
block, whose release makes it a section; a new entry takes a free slot (its number is the model's choice, log 6) and
joins its copy queues; a closing, an obligation removed and an abandonment leave an entry that has obligations in
place, or is not CLOSED, and free it otherwise: its blocks are SPENT and the tail moves over SPENT blocks. -/
def Obligations.FormsKept : Prop :=
  (∀ s t : State, step s = .next t →
    (s.line.bounded → t.line.bounded) ∧
    (ringWf s.store.ring = true → ringWf t.store.ring = true) ∧
    (s.store.sound → t.store.sound)) ∧
  (∀ (st : Store) (slot : Nat) (e : Entry), st.sound → st.entry slot = some e →
    (∀ (gap : Nat) (codes : List Code) (n : Nat), 0 < st.free →
      (e.chain = [] ∧ n = 0 ∨ ∃ l, e.chain.getLast? = some l ∧ n = (st.block l).secNo + 1 + gap) →
      (∀ rel : Bool, st.allocated (st.allocate slot gap codes rel)
          { state := .live, owner := slot, secNo := n, gap := gap, codes := codes, released := rel } ∧
        st.sameQueues (st.allocate slot gap codes rel) ∧
        (st.allocate slot gap codes rel).dir = st.dirWith { e with chain := e.chain ++ [st.head] }) ∧
      st.allocated (st.storeSection slot gap codes)
        { state := .live, owner := slot, secNo := n, gap := gap, codes := codes, released := true } ∧
      st.sameQueues (st.storeSection slot gap codes) ∧
      (st.storeSection slot gap codes).dir = st.dirWith { e with
        chain := e.chain ++ [st.head], sections := e.sections + 1
        reason := if 0 < gap then some .gap else e.reason }) ∧
    (∀ b, st.openBlock slot = some b ↔ e.chain.getLast? = some b ∧ (st.block b).released = false) ∧
    (∀ b, st.openBlock slot = some b →
      (∀ codes, (st.setOpenCodes slot codes).block b = { st.block b with codes := codes } ∧
        (∀ m, m ≠ b → (st.setOpenCodes slot codes).block m = st.block m) ∧
        st.setOpenCodes slot codes = { st with ring := (st.setOpenCodes slot codes).ring }) ∧
      (∀ final : Bool, (st.releaseOpen slot final).block b = { st.block b with released := true } ∧
        (∀ m, m ≠ b → (st.releaseOpen slot final).block m = st.block m) ∧
        st.releaseOpen slot final = { st with
          ring := (st.releaseOpen slot final).ring
          dir := st.dirWith { e with
            sections := e.sections + 1, state := if final = true then .closed else e.state } })) ∧
    (∀ why : Option Reason,
      (hasObligation e = true → st.closeEntry slot why = { st with
        dir := st.dirWith { e with state := .closed, reason := why.or e.reason } }) ∧
      (hasObligation e = false → st.freed (st.closeEntry slot why) e ∧
        st.sameQueues (st.closeEntry slot why))) ∧
    (∀ o : Obligation,
      (e.state = .closed → hasObligation (clearObligation o e) = false →
        st.freed (st.removeObligation o slot) e) ∧
      (¬ (e.state = .closed ∧ hasObligation (clearObligation o e) = false) →
        (st.removeObligation o slot).dir = st.dirWith (clearObligation o e) ∧
        st.removeObligation o slot = { st with
          dir := (st.removeObligation o slot).dir
          printQ := (st.removeObligation o slot).printQ, punchQ := (st.removeObligation o slot).punchQ }) ∧
      (st.removeObligation o slot).printQ
        = (if o = .print then st.printQ.filter (fun x => x != slot) else st.printQ) ∧
      (st.removeObligation o slot).punchQ
        = (if o = .punch then st.punchQ.filter (fun x => x != slot) else st.punchQ)) ∧
    (e.oblPrint = true ∨ e.oblPunch = true → st.abandonEntry slot = { st with
      dir := st.dirWith { e with state := .closed, oblSend := false } }) ∧
    (e.oblPrint = false → e.oblPunch = false → st.freed (st.abandonEntry slot) e ∧
      st.sameQueues (st.abandonEntry slot))) ∧
  (∀ st : Store, st.sound → st.dir.length < 32 → 0 < st.free →
    st.entry st.freeSlot = none ∧ st.freeSlot < 32 ∧
    (∀ (origin number cls : Nat) (pr pu : Bool) (codes : List Code),
      st.allocated (st.storeFirst origin number cls pr pu codes)
        { state := .live, owner := st.freeSlot, secNo := 0, gap := 0, codes := codes, released := true } ∧
      (st.storeFirst origin number cls pr pu codes).dir = st.dir ++ [{
        slot := st.freeSlot, outgoing := false, peer := origin, number := number, cls := cls, state := .receiving
        chain := [st.head], sections := 1, reason := none, oblPrint := pr || !pu, oblPunch := pu
        oblSend := false }] ∧
      (st.storeFirst origin number cls pr pu codes).printQ
        = (if pr = true ∨ pu = false then st.printQ ++ [st.freeSlot] else st.printQ) ∧
      (st.storeFirst origin number cls pr pu codes).punchQ
        = (if pu = true then st.punchQ ++ [st.freeSlot] else st.punchQ)) ∧
    (∀ dest number cls : Nat,
      st.allocated (st.openMessage dest number cls)
        { state := .live, owner := st.freeSlot, secNo := 0, gap := 0, codes := [], released := false } ∧
      st.sameQueues (st.openMessage dest number cls) ∧
      (st.openMessage dest number cls).dir = st.dir ++ [{
        slot := st.freeSlot, outgoing := true, peer := dest, number := number, cls := cls, state := .composing
        chain := [st.head], sections := 0, reason := none, oblPrint := false, oblPunch := false
        oblSend := true }]))

/-- Every step keeps the capacities of the lists, the ranges of the counters, of the journal and of the
settings. A notice placed while 16 are in the queue is dropped and raises the lost count up to 255; an echo item
placed while 256 are in the FIFO is discarded and sets the echo-lost flag; otherwise each joins the end, the item
stopping the echo idle timer. -/
def Obligations.CapacitiesKept : Prop :=
  (∀ (p : PrintUnit) (n : Notice) (i : EchoItem),
    (p.notices.length < 16 → p.place n = { p with notices := p.notices ++ [n] }) ∧
    (16 ≤ p.notices.length → p.place n = { p with lost := min 255 (p.lost + 1) }) ∧
    (p.echoFifo.length < 256 → p.echo i = { p with echoFifo := p.echoFifo ++ [i], echoIdle := none }) ∧
    (256 ≤ p.echoFifo.length → p.echo i = { p with echoLost := true })) ∧
  ∀ s t : State, s.withinCapacity → s.journal.bounded → s.panelBounded → step s = .next t →
    t.withinCapacity ∧ t.journal.bounded ∧ t.panelBounded

/-- Every step keeps the carriage within 1 to width + 1: no operation that strikes is in flight at column
width + 1, and nothing still due of a wrap or a closing strikes. -/
def Obligations.CarriageKept : Prop :=
  ∀ s t : State, s.carriageBounded → step s = .next t → t.carriageBounded

/-- The invariants hold at reset. -/
def Obligations.InvariantsAtReset : Prop :=
  State.reset.line.bounded ∧ ringWf State.reset.store.ring = true ∧ State.reset.withinCapacity ∧
  State.reset.journal.bounded ∧ State.reset.panelBounded ∧ State.reset.carriageBounded ∧
  State.reset.store.sound
end

