-- ==== Sys2Proof/Laws/Ring.lean ====
section
/-! SUPPORT. The block ring as a canonical list: what a read gives after a write, and that every operation
of the store keeps the form (log 7). -/
namespace Sys2Proof.Machine

/-! ### The form, one entry at a time -/

theorem ringWf_cons (k : Nat) (b : Block) (r : List (Nat × Block)) :
    ringWf ((k, b) :: r) = true ↔ b ≠ Block.blank ∧ (∀ p ∈ r, k < p.1) ∧ ringWf r = true := by
  induction r generalizing k b with
  | nil => simp [ringWf]
  | cons p r ih =>
    obtain ⟨k', b'⟩ := p
    have h := ih k' b'
    simp only [ringWf, Bool.and_eq_true, decide_eq_true_eq, bne_iff_ne, ne_eq, h, List.mem_cons,
      forall_eq_or_imp]
    constructor
    · rintro ⟨⟨h1, h2⟩, h3, h4, h5⟩
      exact ⟨h2, ⟨h1, fun p hp => Nat.lt_trans h1 (h4 p hp)⟩, h3, h4, h5⟩
    · rintro ⟨h1, ⟨h2, _⟩, h4, h5, h6⟩
      exact ⟨⟨h2, h1⟩, h4, h5, h6⟩

theorem ringGet_below (r : List (Nat × Block)) (n : Nat) (h : ∀ p ∈ r, n < p.1) :
    ringGet r n = Block.blank := by
  induction r with
  | nil => rfl
  | cons p r ih =>
    obtain ⟨k, b⟩ := p
    have hk : n < k := h (k, b) (by simp)
    have : k ≠ n := by omega
    simp [ringGet, this, ih fun p hp => h p (by simp [hp])]

theorem ringPut_lower (r : List (Nat × Block)) (n k : Nat) (b : Block) (hn : k < n)
    (h : ∀ p ∈ r, k < p.1) : ∀ p ∈ ringPut r n b, k < p.1 := by
  induction r with
  | nil =>
    unfold ringPut
    split <;> simp [hn]
  | cons q r ih =>
    obtain ⟨k', c⟩ := q
    have hr : ∀ p ∈ r, k < p.1 := fun p hp => h p (by simp [hp])
    have hk : k < k' := h (k', c) (by simp)
    unfold ringPut
    split
    · split
      · exact h
      · intro p hp
        rcases List.mem_cons.mp hp with rfl | hp
        · exact hn
        · exact h p hp
    · split
      · split
        · exact hr
        · intro p hp
          rcases List.mem_cons.mp hp with rfl | hp
          · exact hn
          · exact hr p hp
      · intro p hp
        rcases List.mem_cons.mp hp with rfl | hp
        · exact hk
        · exact ih hr p hp

/-- Writing a block keeps the form. -/
theorem ringPut_wf (r : List (Nat × Block)) (n : Nat) (b : Block) (h : ringWf r = true) :
    ringWf (ringPut r n b) = true := by
  induction r with
  | nil =>
    unfold ringPut
    split
    · rfl
    · rename_i hb
      exact (ringWf_cons n b []).mpr ⟨hb, by simp, rfl⟩
  | cons q r ih =>
    obtain ⟨k, c⟩ := q
    obtain ⟨hc, hlow, hr⟩ := (ringWf_cons k c r).mp h
    unfold ringPut
    split
    · rename_i hlt
      split
      · exact h
      · rename_i hb
        refine (ringWf_cons n b _).mpr ⟨hb, ?_, h⟩
        intro p hp
        rcases List.mem_cons.mp hp with rfl | hp
        · exact hlt
        · exact Nat.lt_trans hlt (hlow p hp)
    · rename_i hge
      split
      · rename_i heq
        split
        · exact hr
        · rename_i hb
          exact (ringWf_cons n b r).mpr ⟨hb, fun p hp => heq ▸ hlow p hp, hr⟩
      · rename_i hne
        exact (ringWf_cons k c _).mpr ⟨hc, ringPut_lower r n k b (by omega) hlow, ih hr⟩

/-- A block reads as written. -/
theorem ringGet_ringPut_same (r : List (Nat × Block)) (n : Nat) (b : Block) (h : ringWf r = true) :
    ringGet (ringPut r n b) n = b := by
  induction r with
  | nil =>
    unfold ringPut
    split
    · rename_i hb; simp [ringGet, hb]
    · simp [ringGet]
  | cons q r ih =>
    obtain ⟨k, c⟩ := q
    obtain ⟨-, hlow, hr⟩ := (ringWf_cons k c r).mp h
    unfold ringPut
    split
    · rename_i hlt
      split
      · rename_i hb
        rw [hb]
        refine ringGet_below _ _ fun p hp => ?_
        rcases List.mem_cons.mp hp with rfl | hp
        · exact hlt
        · exact Nat.lt_trans hlt (hlow p hp)
      · simp [ringGet]
    · split
      · rename_i heq
        split
        · rename_i hb
          rw [hb]
          exact ringGet_below _ _ fun p hp => heq ▸ hlow p hp
        · simp [ringGet]
      · rename_i hne
        have : k ≠ n := fun e => hne e.symm
        simp [ringGet, this, ih hr]

/-- Every other block reads as before. -/
theorem ringGet_ringPut_other (r : List (Nat × Block)) (n m : Nat) (b : Block) (h : ringWf r = true)
    (hm : m ≠ n) : ringGet (ringPut r n b) m = ringGet r m := by
  induction r with
  | nil =>
    unfold ringPut
    split
    · rfl
    · simp [ringGet, hm.symm]
  | cons q r ih =>
    obtain ⟨k, c⟩ := q
    obtain ⟨-, hlow, hr⟩ := (ringWf_cons k c r).mp h
    unfold ringPut
    split
    · split
      · rfl
      · simp [ringGet, hm.symm]
    · split
      · rename_i heq
        subst heq
        split
        · simp only [ringGet, if_neg (Ne.symm hm)]
        · simp [ringGet, hm.symm]
      · simp only [ringGet, ih hr]

/-! ### The operations of the store -/

/-- The store's ring is in canonical form. -/
def Store.wf (st : Store) : Bool := ringWf st.ring

theorem Store.reset_wf : State.reset.store.wf = true := rfl

theorem Store.setBlock_wf {st : Store} (h : st.wf = true) (n : Nat) (b : Block) :
    (st.setBlock n b).wf = true := ringPut_wf _ _ _ h

theorem Store.block_setBlock_same {st : Store} (h : st.wf = true) (n : Nat) (b : Block) :
    (st.setBlock n b).block n = b := ringGet_ringPut_same _ _ _ h

theorem Store.block_setBlock_other {st : Store} (h : st.wf = true) (n m : Nat) (b : Block) (hm : m ≠ n) :
    (st.setBlock n b).block m = st.block m := ringGet_ringPut_other _ _ _ _ h hm

theorem Store.updateEntry_wf {st : Store} (h : st.wf = true) (slot : Nat) (f : Entry → Entry) :
    (st.updateEntry slot f).wf = true := h

theorem Store.reclaim_wf (k : Nat) {st : Store} (h : st.wf = true) : (Store.reclaim k st).wf = true := by
  induction k generalizing st with
  | zero => exact h
  | succ k ih =>
    unfold Store.reclaim
    split
    · exact ih (st := { st.setBlock st.tail Block.blank with
        tail := ringNext st.tail, free := st.free + 1 }) (Store.setBlock_wf h _ _)
    · exact h

theorem Store.spend_wf (l : List Nat) {st : Store} (h : st.wf = true) : (st.spend l).wf = true := by
  induction l generalizing st with
  | nil => exact h
  | cons b l ih => exact ih (Store.setBlock_wf h _ _)

theorem Store.freeIfDone_wf {st : Store} (h : st.wf = true) (slot : Nat) :
    (st.freeIfDone slot).wf = true := by
  unfold Store.freeIfDone
  split
  · exact h
  · split
    · exact Store.reclaim_wf _ (Store.spend_wf _ h)
    · exact h

theorem Store.closeEntry_wf {st : Store} (h : st.wf = true) (slot : Nat) (r : Option Reason) :
    (st.closeEntry slot r).wf = true := Store.freeIfDone_wf (Store.updateEntry_wf h _ _) _

theorem Store.leaveQueue_wf {st : Store} (h : st.wf = true) (o : Obligation) (slot : Nat) :
    (st.leaveQueue o slot).wf = true := by
  cases o <;> exact h

theorem Store.removeObligation_wf {st : Store} (h : st.wf = true) (o : Obligation) (slot : Nat) :
    (st.removeObligation o slot).wf = true :=
  Store.freeIfDone_wf (Store.leaveQueue_wf (Store.updateEntry_wf h _ _) _ _) _

theorem freeAll_wf (l : List Nat) {st : Store} (h : st.wf = true) : (freeAll st l).wf = true := by
  induction l generalizing st with
  | nil => exact h
  | cons s l ih => exact ih (Store.freeIfDone_wf h s)

theorem Store.removePunchAll_wf {st : Store} (h : st.wf = true) : st.removePunchAll.wf = true :=
  freeAll_wf _ (st := { st with dir := st.dir.map fun e => { e with oblPunch := false }, punchQ := [] }) h

theorem Store.abandonEntry_wf {st : Store} (h : st.wf = true) (slot : Nat) :
    (st.abandonEntry slot).wf = true := Store.freeIfDone_wf (Store.updateEntry_wf h _ _) _

theorem Store.allocate_wf {st : Store} (h : st.wf = true) (slot gap : Nat) (codes : List Code) (r : Bool) :
    (st.allocate slot gap codes r).wf = true := by
  unfold Store.allocate
  split
  · exact h
  · exact Store.setBlock_wf h _ _

theorem Store.storeSection_wf {st : Store} (h : st.wf = true) (slot gap : Nat) (codes : List Code) :
    (st.storeSection slot gap codes).wf = true :=
  Store.updateEntry_wf (Store.allocate_wf h _ _ _ _) _ _

theorem Store.storeFirst_wf {st : Store} (h : st.wf = true) (o n c : Nat) (p u : Bool) (codes : List Code) :
    (st.storeFirst o n c p u codes).wf = true :=
  Store.storeSection_wf (st := st.createReceived o n c p u) h _ _ _

theorem Store.openMessage_wf {st : Store} (h : st.wf = true) (d n c : Nat) :
    (st.openMessage d n c).wf = true := by
  unfold Store.openMessage
  exact Store.allocate_wf (by exact h) _ _ _ _

theorem Store.setOpenCodes_wf {st : Store} (h : st.wf = true) (slot : Nat) (codes : List Code) :
    (st.setOpenCodes slot codes).wf = true := by
  unfold Store.setOpenCodes
  split
  · exact h
  · exact Store.setBlock_wf h _ _

theorem Store.releaseOpen_wf {st : Store} (h : st.wf = true) (slot : Nat) (final : Bool) :
    (st.releaseOpen slot final).wf = true := by
  unfold Store.releaseOpen
  split
  · exact h
  · exact Store.setBlock_wf h _ _

end Sys2Proof.Machine
end

