-- ==== Sys2Proof/Laws/OpenBlock.lean ====
section
/-! SUPPORT. The open block of a composition: what it reads after writing it, after an allocation and after
an opening, and that a free slot is free. -/
namespace Sys2Proof.Machine

/-! ### Writing a block that is not FREE, on any ring -/

theorem ringGet_ringPut_live (r : List (Nat × Block)) (n : Nat) (b : Block) (hb : b ≠ Block.blank) :
    ringGet (ringPut r n b) n = b := by
  induction r with
  | nil => simp [ringPut, ringGet, hb]
  | cons q r ih =>
    obtain ⟨k, c⟩ := q
    unfold ringPut
    simp only [hb, if_false]
    split
    · simp [ringGet]
    · split
      · simp [ringGet]
      · rename_i hne
        have : k ≠ n := fun e => hne e.symm
        simp [ringGet, this, ih]

/-- The later of two writes to one block stands. -/
theorem ringPut_ringPut (r : List (Nat × Block)) (n : Nat) (a b : Block) (ha : a ≠ Block.blank)
    (hb : b ≠ Block.blank) : ringPut (ringPut r n a) n b = ringPut r n b := by
  induction r with
  | nil => simp [ringPut, ha, hb]
  | cons q r ih =>
    obtain ⟨k, c⟩ := q
    by_cases h1 : n < k
    · simp [ringPut, ha, hb, h1]
    · by_cases h2 : n = k
      · simp [ringPut, ha, hb, h2]
      · simp [ringPut, h1, h2, ih]

theorem Store.block_setBlock_live (st : Store) (n : Nat) (b : Block) (hb : b ≠ Block.blank) :
    (st.setBlock n b).block n = b := ringGet_ringPut_live _ _ _ hb

theorem Block.codes_ne_blank {b : Block} (h : b.codes ≠ []) : b ≠ Block.blank := by
  rintro rfl; exact h rfl

theorem Block.live_ne_blank {b : Block} (h : b.state = .live) : b ≠ Block.blank := by
  rintro rfl; cases h

/-! ### The open block -/

theorem Store.openBlock_some {st : Store} {slot b : Nat} :
    st.openBlock slot = some b ↔
      ∃ e, st.entry slot = some e ∧ e.chain.getLast? = some b ∧ (st.block b).released = false := by
  unfold Store.openBlock
  split
  · rename_i h; simp [h]
  · rename_i e h
    simp only [h, Option.some.injEq, exists_eq_left']
    split
    · rename_i h2; simp [h2]
    · rename_i c h2
      simp only [h2, Option.some.injEq]
      split
      · rename_i h3
        simp only [reduceCtorEq, false_iff, not_and, Bool.not_eq_false]
        rintro rfl; exact h3
      · rename_i h3
        constructor
        · intro h4; cases h4; exact ⟨rfl, by simpa using h3⟩
        · rintro ⟨rfl, -⟩; rfl

theorem Store.openCodes_some {st : Store} {slot : Nat} {codes : List Code} :
    st.openCodes slot = some codes ↔ ∃ b, st.openBlock slot = some b ∧ (st.block b).codes = codes := by
  simp [Store.openCodes, Option.map_eq_some_iff]

/-- Writing codes leaves the block open with those codes. -/
theorem Store.openBlock_setOpenCodes {st : Store} {slot b : Nat} {codes : List Code}
    (h : st.openBlock slot = some b) (hc : codes ≠ []) :
    (st.setOpenCodes slot codes).openBlock slot = some b := by
  obtain ⟨e, he, hl, hr⟩ := Store.openBlock_some.mp h
  refine Store.openBlock_some.mpr ⟨e, ?_, hl, ?_⟩
  · simp only [Store.setOpenCodes, h]
    exact he
  · simp only [Store.setOpenCodes, h]
    rw [Store.block_setBlock_live _ _ _ (Block.codes_ne_blank (by simpa using hc))]
    exact hr

theorem Store.openCodes_setOpenCodes {st : Store} {slot : Nat} {old codes : List Code}
    (h : st.openCodes slot = some old) (hc : codes ≠ []) :
    (st.setOpenCodes slot codes).openCodes slot = some codes := by
  obtain ⟨b, hb, -⟩ := Store.openCodes_some.mp h
  refine Store.openCodes_some.mpr ⟨b, Store.openBlock_setOpenCodes hb hc, ?_⟩
  simp only [Store.setOpenCodes, hb]
  rw [Store.block_setBlock_live _ _ _ (Block.codes_ne_blank (by simpa using hc))]

/-- Of two writings of codes the later stands. -/
theorem Store.setOpenCodes_setOpenCodes {st : Store} {slot : Nat} {x y : List Code} (hx : x ≠ [])
    (hy : y ≠ []) : (st.setOpenCodes slot x).setOpenCodes slot y = st.setOpenCodes slot y := by
  cases hb : st.openBlock slot with
  | none => simp [Store.setOpenCodes, hb]
  | some b =>
    have h1 := Store.openBlock_setOpenCodes hb hx
    have h2 : (st.setOpenCodes slot y) = st.setBlock b { st.block b with codes := y } := by
      simp [Store.setOpenCodes, hb]
    have h3 : (st.setOpenCodes slot x) = st.setBlock b { st.block b with codes := x } := by
      simp [Store.setOpenCodes, hb]
    have h4 : (st.setOpenCodes slot x).setOpenCodes slot y
        = (st.setOpenCodes slot x).setBlock b { (st.setOpenCodes slot x).block b with codes := y } := by
      generalize st.setOpenCodes slot x = u at h1
      simp [Store.setOpenCodes, h1]
    rw [h4, h2, h3, Store.block_setBlock_live _ _ _ (Block.codes_ne_blank (by simpa using hx))]
    simp only [Store.setBlock]
    rw [ringPut_ringPut _ _ _ _ (Block.codes_ne_blank (by simpa using hx))
      (Block.codes_ne_blank (by simpa using hy))]

/-! ### Entries, allocation, opening -/

theorem Store.entry_updateEntry {st : Store} {slot : Nat} {f : Entry → Entry} {e : Entry}
    (h : st.entry slot = some e) (hf : (f e).slot = slot) :
    (st.updateEntry slot f).entry slot = some (f e) := by
  have key : ∀ dir : List Entry, findSlot dir slot = some e →
      findSlot (dir.map fun x => if x.slot == slot then f x else x) slot = some (f e) := by
    intro dir
    induction dir with
    | nil => intro h; cases h
    | cons x dir ih =>
      intro h
      by_cases hx : x.slot = slot
      · have : x = e := by simpa [findSlot, hx] using h
        subst this
        simp [findSlot, hx, hf]
      · have h' : findSlot dir slot = some e := by simpa [findSlot, hx] using h
        have := ih h'
        simpa [findSlot, hx] using this
  exact key st.dir h

/-- An allocation without codes leaves an open empty block. -/
theorem Store.openCodes_allocate {st : Store} {slot gap : Nat} {e : Entry} (h : st.entry slot = some e) :
    (st.allocate slot gap [] false).openCodes slot = some [] := by
  have hs : e.slot = slot := by
    have := List.find?_some h
    simpa using this
  refine Store.openCodes_some.mpr ⟨st.head, Store.openBlock_some.mpr
    ⟨{ e with chain := e.chain ++ [st.head] }, ?_, by simp, ?_⟩, ?_⟩
  · simp only [Store.allocate, h]
    exact Store.entry_updateEntry (st := st.setBlock st.head _)
      (f := fun x => { x with chain := x.chain ++ [st.head] }) h hs
  · simp only [Store.allocate, h]
    show ((st.setBlock st.head _).block st.head).released = false
    rw [Store.block_setBlock_live _ _ _ (Block.live_ne_blank rfl)]
  · simp only [Store.allocate, h]
    show ((st.setBlock st.head _).block st.head).codes = []
    rw [Store.block_setBlock_live _ _ _ (Block.live_ne_blank rfl)]

/-- A list that holds every number below n has at least n members. -/
theorem length_of_covers (n : Nat) (l : List Nat) (h : ∀ m, m < n → m ∈ l) : n ≤ l.length := by
  induction n generalizing l with
  | zero => exact Nat.zero_le _
  | succ n ih =>
    have hn : n ∈ l := h n (Nat.lt_succ_self n)
    have := ih (l.erase n) fun m hm => (List.mem_erase_of_ne (by omega)).mpr (h m (by omega))
    have hl := List.length_erase_of_mem hn
    have := List.length_pos_of_mem hn
    omega

/-- While fewer than 32 entries are in use the free slot is used by none. -/
theorem Store.freeSlot_fresh {st : Store} (h : st.dir.length < 32) :
    ∀ e ∈ st.dir, e.slot ≠ st.freeSlot := by
  have hex : ∃ n ∈ List.range 32, (st.dir.any fun e => e.slot == n) = false := by
    refine Classical.byContradiction fun hno => ?_
    have hall : ∀ n, n < 32 → n ∈ st.dir.map fun e => e.slot := by
      intro n hn
      refine Classical.byContradiction fun hm => hno ⟨n, by simpa using hn, ?_⟩
      simp only [List.any_eq_false, beq_iff_eq]
      exact fun e he hs => hm (List.mem_map.mpr ⟨e, he, hs⟩)
    have := length_of_covers 32 _ hall
    simp at this
    omega
  obtain ⟨n, hn, hf⟩ := hex
  have hfind : ((List.range Config.entries).find? fun n => !(st.dir.any fun e => e.slot == n)).isSome := by
    rw [List.find?_isSome]
    exact ⟨n, hn, by simp [hf]⟩
  obtain ⟨m, hm⟩ := Option.isSome_iff_exists.mp hfind
  have hfree : st.freeSlot = m := by simp [Store.freeSlot, hm]
  have hp := List.find?_some hm
  intro e he
  rw [hfree]
  intro hs
  simp only [Bool.not_eq_true', List.any_eq_false] at hp
  exact hp e he (by simp [hs])

/-- A message just opened has an open empty block. -/
theorem Store.openCodes_openMessage {st : Store} (h : st.dir.length < 32) (d n c : Nat) :
    (st.openMessage d n c).openCodes st.freeSlot = some [] := by
  unfold Store.openMessage
  refine Store.openCodes_allocate (e := { slot := st.freeSlot, outgoing := true, peer := d, number := n
                                          cls := c, state := .composing, chain := [], sections := 0
                                          reason := none, oblPrint := false, oblPunch := false
                                          oblSend := true }) ?_
  have hf : st.dir.find? (fun e => e.slot == st.freeSlot) = none := by
    rw [List.find?_eq_none]
    intro e he
    simpa using Store.freeSlot_fresh h e he
  simp [Store.entry, findSlot, List.find?_append, hf]

end Sys2Proof.Machine
end

