-- ==== Sys2Proof/Laws/Composer.lean ====
section
/-! SUPPORT. Writing codes to the open block: one code, a code behind its shift, and a run of codes, while the
block has room; and LOCAL typing into a punch FIFO that fills. -/
namespace Sys2Proof.Machine

/-- The state after codes have been written to an open block that has room for them. -/
def State.wrote (s : State) (slot : Nat) (codes out : List Code) : State :=
  { s with
    store := s.store.setOpenCodes slot (codes ++ out)
    print := out.foldl (fun p x => p.echo (.code x)) s.print
    kb := { s.kb with case := out.foldl caseAfter s.kb.case, idleTimer := some 0, autoEnd := some 0 } }

theorem State.writeCode_room (s : State) (slot : Nat) (codes : List Code) (c : Code)
    (h : codes.length + 1 < 32) : s.writeCode slot codes c = s.wrote slot codes [c] := by
  have : ¬ codes.length + 1 ≥ Config.blockCodes := by show ¬ codes.length + 1 ≥ 32; omega
  unfold State.writeCode
  simp only [this, if_false]
  rfl

/-- Codes written one run behind another are one run. -/
theorem State.wrote_wrote (s : State) (slot : Nat) (codes a b : List Code) (ha : a ≠ []) (hb : b ≠ []) :
    (s.wrote slot codes a).wrote slot (codes ++ a) b = s.wrote slot codes (a ++ b) := by
  unfold State.wrote
  simp only [List.foldl_append, List.append_assoc]
  rw [Store.setOpenCodes_setOpenCodes (by simp [ha]) (by simp [hb])]

/-- An element that needs no shift writes its code. -/
theorem State.emitLine_one (s : State) (slot k : Nat) (codes : List Code) (e : Emit) (c : Code)
    (rest : List Emit) (he : emission s.kb.case e = some (c, [])) (hne : e ≠ .returnRelease)
    (ho : s.store.openCodes slot = some codes) (hl : codes.length + 1 < 32) :
    s.emitLine slot (k + 1) (e :: rest) = (s.wrote slot codes [c]).emitLine slot k rest := by
  simp only [State.emitLine, hne, if_false, he, ho, List.nil_append]
  rw [State.writeCode_room _ _ _ _ hl]

/-- An element that needs a shift writes the shift and then its code. -/
theorem State.emitLine_shift (s : State) (slot k : Nat) (codes : List Code) (e : Emit) (c d : Code)
    (rest : List Emit) (cs : CompCase) (h1 : emission s.kb.case e = some (c, [e]))
    (hc : caseAfter s.kb.case c = cs) (h2 : emission cs e = some (d, [])) (hne : e ≠ .returnRelease)
    (ho : s.store.openCodes slot = some codes) (hl : codes.length + 2 < 32) :
    s.emitLine slot (k + 2) (e :: rest) = (s.wrote slot codes [c, d]).emitLine slot k rest := by
  have first : s.emitLine slot (k + 2) (e :: rest)
      = (s.wrote slot codes [c]).emitLine slot (k + 1) (e :: rest) := by
    conv => lhs; unfold State.emitLine
    simp only [hne, if_false, h1, ho]
    rw [State.writeCode_room _ _ _ _ (by omega)]
    rfl
  have hcase : (s.wrote slot codes [c]).kb.case = cs := hc
  rw [first, State.emitLine_one _ _ _ (codes ++ [c]) e d rest (by rw [hcase]; exact h2) hne
    (Store.openCodes_setOpenCodes ho (by simp)) (by simp; omega)]
  rw [State.wrote_wrote _ _ _ _ _ (by simp) (by simp)]
  rfl

/-- A run of codes as they stand is written and ends the keystroke. -/
theorem State.emitLine_raws (out : List Code) (s : State) (slot k : Nat) (codes : List Code)
    (hne : out ≠ []) (ho : s.store.openCodes slot = some codes) (hl : codes.length + out.length < 32)
    (hk : out.length < k) :
    s.emitLine slot k (out.map Emit.raw) = (s.wrote slot codes out).keyDone := by
  induction out generalizing s k codes with
  | nil => exact absurd rfl hne
  | cons c out ih =>
    simp only [List.length_cons] at hl hk
    obtain ⟨k, rfl⟩ : ∃ j, k = j + 1 := ⟨k - 1, by omega⟩
    rw [List.map_cons, State.emitLine_one s slot k codes (.raw c) c _ rfl (by simp) ho (by omega)]
    cases out with
    | nil =>
      obtain ⟨k, rfl⟩ : ∃ j, k = j + 1 := ⟨k - 1, by simp at hk; omega⟩
      rfl
    | cons d out =>
      rw [ih _ _ (codes ++ [c]) (by simp) (Store.openCodes_setOpenCodes ho (by simp))
        (by simp at hl ⊢; omega) (by omega)]
      rw [State.wrote_wrote _ _ _ _ _ (by simp) (by simp)]
      rfl

/-! ### LOCAL typing (R138) -/

/-- A code typed in LOCAL has gone to the echo and to the local punch FIFO. -/
def State.typedLocal (s : State) (c : Code) : State := { s with
  print := s.print.echo (.code c)
  punch := { s.punch with fifo := s.punch.fifo ++ [c] }
  kb := { s.kb with case := caseAfter s.kb.case c } }

/-- Codes typed in LOCAL have gone to the echo and to the local punch FIFO, and the next one, already echoed, is
held with what is left of its keystroke. -/
def State.heldLocal (s : State) (one : List Code) (y : Code) (left : List Emit) : State := { s with
  print := (one ++ [y]).foldl (fun p x => p.echo (.code x)) s.print
  punch := { s.punch with fifo := s.punch.fifo ++ one }
  kb := { s.kb with hold := .localCode y left, case := (one ++ [y]).foldl caseAfter s.kb.case } }

theorem State.typedLocal_held (s : State) (c : Code) (one : List Code) (y : Code) (left : List Emit) :
    (s.typedLocal c).heldLocal one y left = s.heldLocal (c :: one) y left := by
  simp [State.typedLocal, State.heldLocal]

/-- A code that finds room in the local punch FIFO. -/
theorem State.emitLocal_room {s : State} {e : Emit} {c : Code} {left : List Emit} (k : Nat) (rest : List Emit)
    (hp : s.panel.punchSel = true) (hl : s.punch.fifo.length < 64)
    (he : emission s.kb.case e = some (c, left)) :
    s.emitLocal (k + 1) (e :: rest) = (s.typedLocal c).emitLocal k (left ++ rest) := by
  have hf : s.punch.fifoFull = false := by
    simp only [Punch.fifoFull, decide_eq_false_iff_not]; show ¬ s.punch.fifo.length ≥ 64; omega
  simp only [State.emitLocal, he]
  simp only [State.placeEcho, State.withKb, hp, if_true, hf, Bool.false_eq_true, if_false]
  rfl

/-- A code that finds the local punch FIFO full. -/
theorem State.emitLocal_held {s : State} {e : Emit} {c : Code} {left : List Emit} (k : Nat) (rest : List Emit)
    (hp : s.panel.punchSel = true) (hl : s.punch.fifo.length = 64)
    (he : emission s.kb.case e = some (c, left)) :
    s.emitLocal (k + 1) (e :: rest) = s.heldLocal [] c (left ++ rest) := by
  have hf : s.punch.fifoFull = true := by
    simp only [Punch.fifoFull, decide_eq_true_eq]; show s.punch.fifo.length ≥ 64; omega
  simp only [State.emitLocal, he]
  simp only [State.placeEcho, State.withKb, hp, if_true, hf]
  simp [State.heldLocal]

/-- LOCAL typing of these elements, from any state with too little room for their codes, puts what fits into both
FIFOs and holds the next code with what is left behind it. -/
def fillsLocal (es : List Emit) : Prop :=
  ∀ (one : List Code) (y : Code) (two : List Code) (s : State) (k : Nat), s.panel.punchSel = true →
    emitOutput s.kb.case es = one ++ y :: two → s.punch.fifo.length + one.length = 64 → 2 * es.length < k →
    s.emitLocal k es = s.heldLocal one y (leftAfter s.kb.case (one.length + 1) es)

/-- An element that emits one code with nothing left. -/
theorem fillsLocal.plain {rest : List Emit} (ih : fillsLocal rest) {s : State} {k : Nat} {one two : List Code}
    {y c : Code} {e : Emit} (hp : s.panel.punchSel = true) (hl : s.punch.fifo.length + one.length = 64)
    (hk : 2 * rest.length < k) (he : emission s.kb.case e = some (c, []))
    (ho : c :: emitOutput (caseAfter s.kb.case c) rest = one ++ y :: two) :
    s.emitLocal (k + 1) (e :: rest)
      = s.heldLocal one y (leftAfter (caseAfter s.kb.case c) one.length rest) := by
  cases one with
  | nil =>
    simp only [List.nil_append, List.cons.injEq] at ho
    rw [State.emitLocal_held k rest hp (by simpa using hl) he, ho.1]
    simp [leftAfter]
  | cons d one =>
    simp only [List.cons_append, List.cons.injEq] at ho
    simp only [List.length_cons] at hl
    rw [State.emitLocal_room k rest hp (by omega) he, List.nil_append,
      ih one y two (s.typedLocal c) k hp ho.2 (by simp [State.typedLocal]; omega) hk, State.typedLocal_held, ho.1]
    rfl

/-- A character that emits a shift before its code. -/
theorem fillsLocal.shifted {rest : List Emit} (ih : fillsLocal rest) {s : State} {k : Nat} {one two : List Code}
    {y c shift : Code} {e : Emit} {cs : CompCase} (hp : s.panel.punchSel = true)
    (hl : s.punch.fifo.length + one.length = 64) (hk : 2 * rest.length < k)
    (h1 : emission s.kb.case e = some (shift, [e])) (h2 : caseAfter s.kb.case shift = cs)
    (h3 : emission cs e = some (c, [])) (ho : shift :: c :: emitOutput (caseAfter cs c) rest = one ++ y :: two) :
    s.emitLocal (k + 2) (e :: rest) = s.heldLocal one y (match one.length with
      | 0 => e :: rest
      | m + 1 => leftAfter (caseAfter cs c) m rest) := by
  cases one with
  | nil =>
    simp only [List.nil_append, List.cons.injEq] at ho
    rw [State.emitLocal_held (k + 1) rest hp (by simpa using hl) h1, ho.1]
    rfl
  | cons d one =>
    simp only [List.cons_append, List.cons.injEq] at ho
    simp only [List.length_cons] at hl
    have hcs : (s.typedLocal shift).kb.case = cs := h2
    rw [State.emitLocal_room (k + 1) rest hp (by omega) h1, List.singleton_append,
      ih.plain (s := s.typedLocal shift) (one := one) (two := two) (y := y) hp
        (by simp [State.typedLocal]; omega) hk (by rw [hcs]; exact h3) (by rw [hcs]; exact ho.2),
      State.typedLocal_held, hcs, ho.1]
    rfl

theorem State.emitLocal_full (es : List Emit) : fillsLocal es := by
  induction es with
  | nil => intro one y two s k _ ho; simp [emitOutput] at ho
  | cons e rest ih =>
    intro one y two s k hp ho hl hk
    simp only [List.length_cons] at hk
    obtain ⟨k, rfl⟩ : ∃ j, k = j + 2 := ⟨k - 2, by omega⟩
    have silent : emission s.kb.case e = none → emitOutput s.kb.case rest = one ++ y :: two →
        leftAfter s.kb.case (one.length + 1) (e :: rest) = leftAfter s.kb.case (one.length + 1) rest →
        s.emitLocal (k + 2) (e :: rest)
          = s.heldLocal one y (leftAfter s.kb.case (one.length + 1) (e :: rest)) := by
      intro he ho hleft
      rw [hleft, ← ih one y two s (k + 1) hp ho hl (by omega)]
      simp only [State.emitLocal, he]
    cases e with
    | letter c =>
      by_cases h : s.kb.case = .letters
      · rw [ih.plain (c := c) (two := two) hp hl (by omega) (by simp [emission, h])
          (by simpa [emitOutput, h] using ho)]
        simp [leftAfter, h]
      · rw [ih.shifted (c := c) (shift := 31) (cs := .letters) (two := two) hp hl (by omega)
          (by simp [emission, h]) (by cases s.kb.case <;> rfl) (by simp [emission])
          (by simpa [emitOutput, h] using ho)]
        cases one <;> simp [leftAfter, h]
    | figure c =>
      by_cases h : s.kb.case = .figures
      · rw [ih.plain (c := c) (two := two) hp hl (by omega) (by simp [emission, h])
          (by simpa [emitOutput, h] using ho)]
        simp [leftAfter, h]
      · rw [ih.shifted (c := c) (shift := 30) (cs := .figures) (two := two) hp hl (by omega)
          (by simp [emission, h]) (by cases s.kb.case <;> rfl) (by simp [emission])
          (by simpa [emitOutput, h] using ho)]
        cases one <;> simp [leftAfter, h]
    | leadShift =>
      by_cases h : s.kb.case = .letters
      · exact silent (by simp [emission, h]) (by simpa [emitOutput, h] using ho) (by simp [leftAfter, h])
      · have hc : caseAfter s.kb.case 31 = .letters := by cases s.kb.case <;> rfl
        rw [ih.plain (c := 31) (two := two) hp hl (by omega) (by simp [emission, h])
          (by rw [hc]; simpa [emitOutput, h] using ho), hc]
        simp [leftAfter, h]
    | raw c =>
      rw [ih.plain (c := c) (two := two) hp hl (by omega) rfl (by simpa [emitOutput] using ho)]
      simp [leftAfter]
    | returnRelease => exact silent rfl (by simpa [emitOutput] using ho) (by simp [leftAfter])

end Sys2Proof.Machine
end

