-- ==== Sys2Proof/Laws/Ops.lean ====
section
/-! SUPPORT. What the shared operations can do, said once: the motor's idle time, keys that leave those handed
on, placing a notice or an echo item, making a journal entry, queueing a control record, the frame on line, and what
freeing leaves of the directory. -/
namespace Sys2Proof.Machine

/-! ### The motor and the keys handed on -/

theorem State.motorJudged_cases (s : State) :
    (s.print.motor = .running ∧ s.print.flight = .none ∧
      motorIdleTime s.panel.settings s.panel.attended ≤ s.print.motorIdle ∧
      s.motorJudged = { s with print := { s.print with motor := .off, flight := .motorStop } }) ∨
    ((s.print.motor ≠ .running ∨ s.print.flight ≠ .none ∨
      s.print.motorIdle < motorIdleTime s.panel.settings s.panel.attended) ∧ s.motorJudged = s) := by
  unfold State.motorJudged
  split
  · rename_i h
    obtain ⟨hi, ht⟩ := h
    simp only [PrintUnit.idling, Bool.and_eq_true, beq_iff_eq] at hi
    exact .inl ⟨hi.1, hi.2, ht, rfl⟩
  · rename_i h
    refine .inr ⟨?_, rfl⟩
    by_cases hm : s.print.motor = .running
    · by_cases hf : s.print.flight = .none
      · exact .inr (.inr (Nat.lt_of_not_le fun ht => h ⟨by simp [PrintUnit.idling, hm, hf], ht⟩))
      · exact .inr (.inl hf)
    · exact .inl hm

theorem isHanded_iff (key : Key) (h : Handed) : isHanded key h = true ↔ Handed.isOf key h := by
  cases h <;> simp [isHanded, Handed.isOf]

/-- Erasing the first with a property is what leavesHanded says. -/
theorem leavesHanded_eraseP (mine : Handed → Prop) (p : Handed → Bool) (hp : ∀ h, p h = true ↔ mine h)
    (l : List Handed) : leavesHanded mine l (l.eraseP p) := by
  constructor
  · rintro a h b rfl hh ha
    rw [List.eraseP_append_right]
    · simp [(hp h).2 hh]
    · exact fun x hx hpx => ha x hx ((hp x).1 hpx)
  · exact fun h => List.eraseP_of_forall_not fun x hx hpx => h x hx ((hp x).1 hpx)

theorem State.takeHanded_leaves (s : State) (key : Key) :
    leavesHanded (Handed.isOf key) s.kb.handed (s.takeHanded key).kb.handed :=
  leavesHanded_eraseP _ _ (isHanded_iff key) _

theorem leavesHanded_release (l : List Handed) :
    leavesHanded (fun h => h = .tapeFeedRelease) l (l.erase .tapeFeedRelease) := by
  rw [List.erase_eq_eraseP]
  exact leavesHanded_eraseP _ _ (fun h => by rw [beq_iff_eq]; exact eq_comm) _

/-! ### Notices and the echo FIFO -/

theorem PrintUnit.place_cases (p : PrintUnit) (n : Notice) :
    (p.notices.length < 16 ∧ p.place n = { p with notices := p.notices ++ [n] }) ∨
    (16 ≤ p.notices.length ∧ p.place n = { p with lost := min 255 (p.lost + 1) }) := by
  unfold PrintUnit.place
  by_cases h : p.notices.length < Config.noticePlaces
  · exact .inl ⟨h, if_pos h⟩
  · exact .inr ⟨Nat.le_of_not_lt h, if_neg h⟩

theorem PrintUnit.place_bounds (p : PrintUnit) (n : Notice) (h : p.notices.length ≤ 16)
    (hl : p.lost ≤ 255) : (p.place n).notices.length ≤ 16 ∧ (p.place n).lost ≤ 255 := by
  rcases p.place_cases n with ⟨h1, h2⟩ | ⟨h1, h2⟩
  · rw [h2]; simp; omega
  · rw [h2]; exact ⟨h, Nat.min_le_left _ _⟩

theorem PrintUnit.place_still (p : PrintUnit) (n : Notice) :
    p.place n = { p with notices := (p.place n).notices, lost := (p.place n).lost } := by
  rcases p.place_cases n with ⟨-, h⟩ | ⟨-, h⟩ <;> rw [h]

theorem PrintUnit.echo_cases (p : PrintUnit) (i : EchoItem) :
    (p.echoFifo.length < 256 ∧ p.echo i = { p with echoFifo := p.echoFifo ++ [i], echoIdle := none }) ∨
    (256 ≤ p.echoFifo.length ∧ p.echo i = { p with echoLost := true }) := by
  unfold PrintUnit.echo
  by_cases h : p.echoFifo.length < Config.echoPlaces
  · exact .inl ⟨h, if_pos h⟩
  · exact .inr ⟨Nat.le_of_not_lt h, if_neg h⟩

theorem PrintUnit.echo_bound (p : PrintUnit) (i : EchoItem) (h : p.echoFifo.length ≤ 256) :
    (p.echo i).echoFifo.length ≤ 256 := by
  rcases p.echo_cases i with ⟨h1, h2⟩ | ⟨h1, h2⟩
  · rw [h2]; simp; omega
  · rw [h2]; exact h

/-! ### The journal -/

@[simp] theorem Journal.makeRoom_minute (j : Journal) : j.makeRoom.minute = j.minute := by
  unfold Journal.makeRoom; split
  · split <;> rfl
  · rfl

@[simp] theorem Journal.makeRoom_clockSet (j : Journal) : j.makeRoom.clockSet = j.clockSet := by
  unfold Journal.makeRoom; split
  · split <;> rfl
  · rfl

@[simp] theorem Journal.makeRoom_divider (j : Journal) : j.makeRoom.divider = j.divider := by
  unfold Journal.makeRoom; split
  · split <;> rfl
  · rfl

@[simp] theorem Journal.add_minute (j : Journal) (k : JournalKind) (f : JournalFields) :
    (j.add k f).minute = j.minute := j.makeRoom_minute

@[simp] theorem Journal.add_clockSet (j : Journal) (k : JournalKind) (f : JournalFields) :
    (j.add k f).clockSet = j.clockSet := j.makeRoom_clockSet

@[simp] theorem Journal.add_divider (j : Journal) (k : JournalKind) (f : JournalFields) :
    (j.add k f).divider = j.divider := j.makeRoom_divider

@[simp] theorem Journal.add_nextNumber (j : Journal) (k : JournalKind) (f : JournalFields) :
    (j.add k f).nextNumber = nextEntryNumber j.nextNumber := rfl

/-- A ring with room gains the entry at its newest end; a full one loses its oldest entry for it. -/
theorem Journal.add_ring (j : Journal) (k : JournalKind) (f : JournalFields) :
    (j.add k f).ring = (if j.ring.length < 48 then j.ring else j.ring.tail)
      ++ [{ entryNo := j.nextNumber, time := j.time, kind := k, fields := f }] := by
  unfold Journal.add Journal.makeRoom
  by_cases h : j.ring.length < 48
  · have : ¬ Config.journalPlaces ≤ j.ring.length := Nat.not_le_of_lt h
    simp [h, this]
  · have h' : Config.journalPlaces ≤ j.ring.length := Nat.le_of_not_lt h
    simp only [ge_iff_le, h', if_true, h, if_false]
    cases hr : j.ring with
    | nil => simp [hr] at h
    | cons e r => rfl

theorem Journal.add_length (j : Journal) (k : JournalKind) (f : JournalFields) (h : j.ring.length ≤ 48) :
    (j.add k f).ring.length ≤ 48 := by
  rw [Journal.add_ring]
  split <;> simp <;> omega

theorem Journal.add_overwritten (j : Journal) (k : JournalKind) (f : JournalFields)
    (h : j.overwritten ≤ 255) : (j.add k f).overwritten ≤ 255 := by
  unfold Journal.add Journal.makeRoom
  split
  · split
    · exact h
    · exact Nat.min_le_left _ _
  · exact h

theorem nextEntryNumber_bounds (n : Nat) (h : 1 ≤ n) :
    1 ≤ nextEntryNumber n ∧ (n ≤ 9999 → nextEntryNumber n ≤ 9999) := by
  unfold nextEntryNumber
  split <;> omega

/-! ### The control queue and the reply watch -/

theorem Transmission.queueControl_some (t t' : Transmission) (k : FrameKind) (d n : Nat)
    (text : List Code) (w : Option Nat) (h : t.queueControl k d n text w = some t') :
    t.control.length < 6 ∧ t' = { t with
      control := t.control ++ [{ kind := k, dest := d, seq := t.seqCounter, number := n, text := text
                                 phase := .ready, counts := Counts.zero, delay := 0, watch := w }]
      seqCounter := (t.seqCounter + 1) % 8 } := by
  unfold Transmission.queueControl at h
  split at h
  · rename_i hl; cases h; exact ⟨hl, rfl⟩
  · cases h

theorem Transmission.queueControl_none (t : Transmission) (k : FrameKind) (d n : Nat) (text : List Code)
    (w : Option Nat) : t.queueControl k d n text w = none ↔ 6 ≤ t.control.length := by
  unfold Transmission.queueControl
  by_cases h : t.control.length < Config.controlPlaces
  · simp only [h, if_true, reduceCtorEq, false_iff]
    exact Nat.not_le_of_lt h
  · simp only [h, if_false, true_iff]
    exact Nat.le_of_not_lt h

theorem findControlOnLine_spec (l : List ControlRec) (n i : Nat) (r : ControlRec)
    (h : findControlOnLine n l = .control i r) : n ≤ i ∧ l[i - n]? = some r ∧ r.phase = .onLine := by
  induction l generalizing n with
  | nil => cases h
  | cons x l ih =>
    unfold findControlOnLine at h
    split at h
    · rename_i hx; cases h; simp [hx]
    · obtain ⟨h1, h2, h3⟩ := ih (n + 1) h
      refine ⟨by omega, ?_, h3⟩
      have : i - n = (i - (n + 1)) + 1 := by omega
      rw [this]; simpa using h2

/-- The control record on line stands in the queue at its place. -/
theorem Transmission.onLine_control (t : Transmission) (i : Nat) (r : ControlRec)
    (h : t.onLine = .control i r) : t.control[i]? = some r ∧ r.phase = .onLine := by
  unfold Transmission.onLine at h
  split at h
  · cases h
  · obtain ⟨-, h2, h3⟩ := findControlOnLine_spec _ _ _ _ h
    exact ⟨by simpa using h2, h3⟩

/-- The message on line stands in the send list. -/
theorem Transmission.onLine_message (t : Transmission) (r : SendRec) (h : t.onLine = .message r) :
    r ∈ t.sendList ∧ r.phase = .onLine := by
  unfold Transmission.onLine at h
  split at h
  · rename_i x hx
    cases h
    exact ⟨List.mem_of_find?_eq_some hx, by simpa using List.find?_some hx⟩
  · have : ∀ (l : List ControlRec) (n : Nat), findControlOnLine n l ≠ .message r := by
      intro l
      induction l with
      | nil => intro n; simp [findControlOnLine]
      | cons x l ih => intro n; unfold findControlOnLine; split; · simp
                       exact ih _
    exact absurd h (this _ _)

theorem refreshList_length (st : Store) (seen : List Nat) (l : List SendRec) :
    (refreshList st seen l).length = l.length := by
  induction l generalizing seen with
  | nil => rfl
  | cons r l ih => simp [refreshList, ih]

/-! ### The directory after freeing -/

@[simp] theorem Store.setBlock_dir (st : Store) (n : Nat) (b : Block) : (st.setBlock n b).dir = st.dir := rfl

theorem Store.reclaim_dir (k : Nat) (st : Store) : (Store.reclaim k st).dir = st.dir := by
  induction k generalizing st with
  | zero => rfl
  | succ k ih =>
    unfold Store.reclaim
    split
    · rw [ih]; rfl
    · rfl

theorem Store.spend_dir (l : List Nat) (st : Store) : (st.spend l).dir = st.dir := by
  induction l generalizing st with
  | nil => rfl
  | cons b l ih => unfold Store.spend; rw [ih]; rfl

/-- Freeing takes the entry away or leaves the directory as it is. -/
theorem Store.freeIfDone_dir (st : Store) (slot : Nat) :
    (st.freeIfDone slot).dir = st.dir ∨ (st.freeIfDone slot).dir = st.dir.filter fun x => x.slot != slot := by
  unfold Store.freeIfDone
  split
  · exact .inl rfl
  · split
    · right; rw [Store.reclaim_dir, Store.spend_dir]
    · exact .inl rfl

theorem Store.freeIfDone_length (st : Store) (slot : Nat) :
    (st.freeIfDone slot).dir.length ≤ st.dir.length := by
  rcases st.freeIfDone_dir slot with h | h
  · exact Nat.le_of_eq (congrArg List.length h)
  · exact Nat.le_trans (Nat.le_of_eq (congrArg List.length h)) (List.length_filter_le _ _)

theorem Store.updateEntry_length (st : Store) (slot : Nat) (f : Entry → Entry) :
    (st.updateEntry slot f).dir.length = st.dir.length := by simp [Store.updateEntry]

theorem freeAll_length (l : List Nat) (st : Store) : (freeAll st l).dir.length ≤ st.dir.length := by
  induction l generalizing st with
  | nil => exact Nat.le_refl _
  | cons s l ih => exact Nat.le_trans (ih _) (st.freeIfDone_length s)

theorem Store.closeEntry_length (st : Store) (slot : Nat) (r : Option Reason) :
    (st.closeEntry slot r).dir.length ≤ st.dir.length :=
  Nat.le_trans (Store.freeIfDone_length _ _) (Nat.le_of_eq (Store.updateEntry_length _ _ _))

theorem Store.leaveQueue_dir (st : Store) (o : Obligation) (slot : Nat) :
    (st.leaveQueue o slot).dir = st.dir := by cases o <;> rfl

theorem Store.removeObligation_length (st : Store) (o : Obligation) (slot : Nat) :
    (st.removeObligation o slot).dir.length ≤ st.dir.length :=
  Nat.le_trans (Store.freeIfDone_length _ _) 
    (Nat.le_of_eq ((congrArg List.length (Store.leaveQueue_dir _ _ _)).trans
      (Store.updateEntry_length _ _ _)))

theorem Store.abandonEntry_length (st : Store) (slot : Nat) :
    (st.abandonEntry slot).dir.length ≤ st.dir.length :=
  Nat.le_trans (Store.freeIfDone_length _ _) (Nat.le_of_eq (Store.updateEntry_length _ _ _))

theorem Store.removePunchAll_length (st : Store) : st.removePunchAll.dir.length ≤ st.dir.length :=
  Nat.le_trans (freeAll_length _ _) (by simp)

theorem Store.allocate_length (st : Store) (slot gap : Nat) (codes : List Code) (r : Bool) :
    (st.allocate slot gap codes r).dir.length = st.dir.length := by
  unfold Store.allocate
  split
  · rfl
  · simp [Store.updateEntry]

theorem Store.storeSection_length (st : Store) (slot gap : Nat) (codes : List Code) :
    (st.storeSection slot gap codes).dir.length = st.dir.length := by
  unfold Store.storeSection
  rw [Store.updateEntry_length, Store.allocate_length]

theorem Store.storeFirst_length (st : Store) (o n c : Nat) (p u : Bool) (codes : List Code) :
    (st.storeFirst o n c p u codes).dir.length = st.dir.length + 1 := by
  unfold Store.storeFirst
  rw [Store.storeSection_length]
  simp [Store.createReceived]

theorem Store.openMessage_length (st : Store) (d n c : Nat) :
    (st.openMessage d n c).dir.length = st.dir.length + 1 := by
  unfold Store.openMessage
  rw [Store.allocate_length]
  simp

end Sys2Proof.Machine
end

