-- ==== Sys2Proof/Laws/PerInstr.lean ====
section
/-! SUPPORT. A property of each command as syntax: the frame a well-formed command carries is within the
sizes of the frame layout. -/
namespace Sys2Proof.Laws

open Sys2Proof.Machine

/-- The frame a command carries, if any. -/
def FrameBound.carried : Instr → Option Frame
  | .textSection f => some f
  | .circularFirstSection f => some f
  | .circularContinuation f => some f
  | .who f => some f
  | .enquire f => some f
  | .ident f => some f
  | .status f => some f
  | .release f => some f
  | .frameNotHandedOn f => some f
  | .powerOn | .configReadAttemptFailed | .configReadRetry | .configReadEnd _ | .restart
  | .lineFree | .lineFault | .loadWindowEnd | .framingError | .truncation | .malformedFrame
  | .checkFailure | .breakRead | .recordTimerExpiry _ | .answerStart | .answerEchoMismatch
  | .startCellDriven | .loss | .arbitrationWon | .collision | .individualFrameSent
  | .circularFrameCompleted | .accept | .duplicate | .wait | .engaged | .refuse | .answerGarbled
  | .answerWindowEnd | .breakSignalEnd | .delayTimerExpiry _ | .replyWatchExpiry _ | .keyClosure _
  | .keyRelease _ | .textKey | .hereIs | .erase | .endKey | .dest | .destinationDigit | .whoKey
  | .enq | .mode | .time | .timeDigit | .breakKey | .openingRepeated | .blockRequestRepeated
  | .localCodeResumed | .idleReleaseExpiry | .autoEndExpiry | .attend | .print | .punch | .level
  | .paperFeed | .tapeFeed | .tapeFeedRelease | .punchResume | .journal _ | .printOperationComplete
  | .motorStartComplete | .motorStopComplete | .motorIdleExpiry | .echoIdleExpiry | .paperOut
  | .paperPresent | .punchOperationComplete _ _ | .tapeOut | .tapePresent | .tapeLow
  | .tapeLowCleared | .dayClockDividerExpiry | .lampFlash | .frameStartCell | .answerComplete
  | .restartContactOpened => none

/-- The frame that a well-formed command carries comes from a station, goes to a station or to all, has at
most 32 codes, and so at most 39 units (R22, R24). -/
def FrameBound.Statement (i : Instr) : Prop :=
  wellFormed i = true → ∀ f, FrameBound.carried i = some f →
    1 ≤ f.origin ∧ f.origin ≤ 62 ∧ f.dest ≤ 62 ∧ f.text.length ≤ 32 ∧ (frameUnits f).length ≤ 39

/-- A command without a frame. -/
theorem FrameBound.of_none (i : Instr) (h : FrameBound.carried i = none) : FrameBound.Statement i := by
  intro _ f hf
  rw [h] at hf
  cases hf

/-- A command with a frame that its well-formedness makes well-formed. -/
theorem FrameBound.of_frame (i : Instr) (f : Frame) (h : FrameBound.carried i = some f)
    (hw : wellFormed i = true → frameWellFormed f = true) : FrameBound.Statement i := by
  intro hi g hg
  rw [h] at hg
  cases hg
  have := hw hi
  simp only [frameWellFormed, Bool.and_eq_true, decide_eq_true_eq] at this
  refine ⟨by omega, by omega, by omega, by omega, ?_⟩
  simp only [frameUnits, headerUnits, textUnits, List.length_append, List.length_cons, List.length_nil,
    List.length_map]
  omega

theorem FrameBound.powerOn : FrameBound.Statement .powerOn := FrameBound.of_none _ rfl
theorem FrameBound.configReadAttemptFailed : FrameBound.Statement .configReadAttemptFailed :=
  FrameBound.of_none _ rfl
theorem FrameBound.configReadRetry : FrameBound.Statement .configReadRetry := FrameBound.of_none _ rfl
theorem FrameBound.configReadEnd (image : List Byte) : FrameBound.Statement (.configReadEnd image) :=
  FrameBound.of_none _ rfl
theorem FrameBound.restart : FrameBound.Statement .restart := FrameBound.of_none _ rfl
theorem FrameBound.lineFree : FrameBound.Statement .lineFree := FrameBound.of_none _ rfl
theorem FrameBound.lineFault : FrameBound.Statement .lineFault := FrameBound.of_none _ rfl
theorem FrameBound.loadWindowEnd : FrameBound.Statement .loadWindowEnd := FrameBound.of_none _ rfl
theorem FrameBound.framingError : FrameBound.Statement .framingError := FrameBound.of_none _ rfl
theorem FrameBound.truncation : FrameBound.Statement .truncation := FrameBound.of_none _ rfl
theorem FrameBound.malformedFrame : FrameBound.Statement .malformedFrame := FrameBound.of_none _ rfl
theorem FrameBound.checkFailure : FrameBound.Statement .checkFailure := FrameBound.of_none _ rfl
theorem FrameBound.breakRead : FrameBound.Statement .breakRead := FrameBound.of_none _ rfl
theorem FrameBound.textSection (f : Frame) : FrameBound.Statement (.textSection f) :=
  FrameBound.of_frame _ f rfl (by simp only [wellFormed, frameFor, Bool.and_eq_true]; intro h; simp [h])
theorem FrameBound.circularFirstSection (f : Frame) : FrameBound.Statement (.circularFirstSection f) :=
  FrameBound.of_frame _ f rfl (by simp only [wellFormed, frameFor, Bool.and_eq_true]; intro h; simp [h])
theorem FrameBound.circularContinuation (f : Frame) : FrameBound.Statement (.circularContinuation f) :=
  FrameBound.of_frame _ f rfl (by simp only [wellFormed, frameFor, Bool.and_eq_true]; intro h; simp [h])
theorem FrameBound.who (f : Frame) : FrameBound.Statement (.who f) :=
  FrameBound.of_frame _ f rfl (by simp only [wellFormed, frameFor, Bool.and_eq_true]; intro h; simp [h])
theorem FrameBound.enquire (f : Frame) : FrameBound.Statement (.enquire f) :=
  FrameBound.of_frame _ f rfl (by simp only [wellFormed, frameFor, Bool.and_eq_true]; intro h; simp [h])
theorem FrameBound.ident (f : Frame) : FrameBound.Statement (.ident f) :=
  FrameBound.of_frame _ f rfl (by simp only [wellFormed, frameFor, Bool.and_eq_true]; intro h; simp [h])
theorem FrameBound.status (f : Frame) : FrameBound.Statement (.status f) :=
  FrameBound.of_frame _ f rfl (by simp only [wellFormed, frameFor, Bool.and_eq_true]; intro h; simp [h])
theorem FrameBound.release (f : Frame) : FrameBound.Statement (.release f) :=
  FrameBound.of_frame _ f rfl (by simp only [wellFormed, frameFor, Bool.and_eq_true]; intro h; simp [h])
theorem FrameBound.recordTimerExpiry (r : RecordRef) : FrameBound.Statement (.recordTimerExpiry r) :=
  FrameBound.of_none _ rfl
theorem FrameBound.answerStart : FrameBound.Statement .answerStart := FrameBound.of_none _ rfl
theorem FrameBound.answerEchoMismatch : FrameBound.Statement .answerEchoMismatch :=
  FrameBound.of_none _ rfl
theorem FrameBound.startCellDriven : FrameBound.Statement .startCellDriven := FrameBound.of_none _ rfl
theorem FrameBound.loss : FrameBound.Statement .loss := FrameBound.of_none _ rfl
theorem FrameBound.arbitrationWon : FrameBound.Statement .arbitrationWon := FrameBound.of_none _ rfl
theorem FrameBound.collision : FrameBound.Statement .collision := FrameBound.of_none _ rfl
theorem FrameBound.individualFrameSent : FrameBound.Statement .individualFrameSent :=
  FrameBound.of_none _ rfl
theorem FrameBound.circularFrameCompleted : FrameBound.Statement .circularFrameCompleted :=
  FrameBound.of_none _ rfl
theorem FrameBound.accept : FrameBound.Statement .accept := FrameBound.of_none _ rfl
theorem FrameBound.duplicate : FrameBound.Statement .duplicate := FrameBound.of_none _ rfl
theorem FrameBound.wait : FrameBound.Statement .wait := FrameBound.of_none _ rfl
theorem FrameBound.engaged : FrameBound.Statement .engaged := FrameBound.of_none _ rfl
theorem FrameBound.refuse : FrameBound.Statement .refuse := FrameBound.of_none _ rfl
theorem FrameBound.answerGarbled : FrameBound.Statement .answerGarbled := FrameBound.of_none _ rfl
theorem FrameBound.answerWindowEnd : FrameBound.Statement .answerWindowEnd := FrameBound.of_none _ rfl
theorem FrameBound.breakSignalEnd : FrameBound.Statement .breakSignalEnd := FrameBound.of_none _ rfl
theorem FrameBound.delayTimerExpiry (r : DelayRef) : FrameBound.Statement (.delayTimerExpiry r) :=
  FrameBound.of_none _ rfl
theorem FrameBound.replyWatchExpiry (slot : Nat) : FrameBound.Statement (.replyWatchExpiry slot) :=
  FrameBound.of_none _ rfl
theorem FrameBound.keyClosure (k : Key) : FrameBound.Statement (.keyClosure k) :=
  FrameBound.of_none _ rfl
theorem FrameBound.keyRelease (k : Key) : FrameBound.Statement (.keyRelease k) :=
  FrameBound.of_none _ rfl
theorem FrameBound.textKey : FrameBound.Statement .textKey := FrameBound.of_none _ rfl
theorem FrameBound.hereIs : FrameBound.Statement .hereIs := FrameBound.of_none _ rfl
theorem FrameBound.erase : FrameBound.Statement .erase := FrameBound.of_none _ rfl
theorem FrameBound.endKey : FrameBound.Statement .endKey := FrameBound.of_none _ rfl
theorem FrameBound.dest : FrameBound.Statement .dest := FrameBound.of_none _ rfl
theorem FrameBound.destinationDigit : FrameBound.Statement .destinationDigit := FrameBound.of_none _ rfl
theorem FrameBound.whoKey : FrameBound.Statement .whoKey := FrameBound.of_none _ rfl
theorem FrameBound.enq : FrameBound.Statement .enq := FrameBound.of_none _ rfl
theorem FrameBound.mode : FrameBound.Statement .mode := FrameBound.of_none _ rfl
theorem FrameBound.time : FrameBound.Statement .time := FrameBound.of_none _ rfl
theorem FrameBound.timeDigit : FrameBound.Statement .timeDigit := FrameBound.of_none _ rfl
theorem FrameBound.breakKey : FrameBound.Statement .breakKey := FrameBound.of_none _ rfl
theorem FrameBound.openingRepeated : FrameBound.Statement .openingRepeated := FrameBound.of_none _ rfl
theorem FrameBound.blockRequestRepeated : FrameBound.Statement .blockRequestRepeated :=
  FrameBound.of_none _ rfl
theorem FrameBound.localCodeResumed : FrameBound.Statement .localCodeResumed := FrameBound.of_none _ rfl
theorem FrameBound.idleReleaseExpiry : FrameBound.Statement .idleReleaseExpiry :=
  FrameBound.of_none _ rfl
theorem FrameBound.autoEndExpiry : FrameBound.Statement .autoEndExpiry := FrameBound.of_none _ rfl
theorem FrameBound.attend : FrameBound.Statement .attend := FrameBound.of_none _ rfl
theorem FrameBound.print : FrameBound.Statement .print := FrameBound.of_none _ rfl
theorem FrameBound.punch : FrameBound.Statement .punch := FrameBound.of_none _ rfl
theorem FrameBound.level : FrameBound.Statement .level := FrameBound.of_none _ rfl
theorem FrameBound.paperFeed : FrameBound.Statement .paperFeed := FrameBound.of_none _ rfl
theorem FrameBound.tapeFeed : FrameBound.Statement .tapeFeed := FrameBound.of_none _ rfl
theorem FrameBound.tapeFeedRelease : FrameBound.Statement .tapeFeedRelease := FrameBound.of_none _ rfl
theorem FrameBound.punchResume : FrameBound.Statement .punchResume := FrameBound.of_none _ rfl
theorem FrameBound.journal (shift : Bool) : FrameBound.Statement (.journal shift) :=
  FrameBound.of_none _ rfl
theorem FrameBound.printOperationComplete : FrameBound.Statement .printOperationComplete :=
  FrameBound.of_none _ rfl
theorem FrameBound.motorStartComplete : FrameBound.Statement .motorStartComplete :=
  FrameBound.of_none _ rfl
theorem FrameBound.motorStopComplete : FrameBound.Statement .motorStopComplete :=
  FrameBound.of_none _ rfl
theorem FrameBound.motorIdleExpiry : FrameBound.Statement .motorIdleExpiry := FrameBound.of_none _ rfl
theorem FrameBound.echoIdleExpiry : FrameBound.Statement .echoIdleExpiry := FrameBound.of_none _ rfl
theorem FrameBound.paperOut : FrameBound.Statement .paperOut := FrameBound.of_none _ rfl
theorem FrameBound.paperPresent : FrameBound.Statement .paperPresent := FrameBound.of_none _ rfl
theorem FrameBound.punchOperationComplete (sense : Code) (feedHole : Bool) : FrameBound.Statement (.punchOperationComplete sense feedHole) :=
  FrameBound.of_none _ rfl
theorem FrameBound.tapeOut : FrameBound.Statement .tapeOut := FrameBound.of_none _ rfl
theorem FrameBound.tapePresent : FrameBound.Statement .tapePresent := FrameBound.of_none _ rfl
theorem FrameBound.tapeLow : FrameBound.Statement .tapeLow := FrameBound.of_none _ rfl
theorem FrameBound.tapeLowCleared : FrameBound.Statement .tapeLowCleared := FrameBound.of_none _ rfl
theorem FrameBound.dayClockDividerExpiry : FrameBound.Statement .dayClockDividerExpiry :=
  FrameBound.of_none _ rfl
theorem FrameBound.lampFlash : FrameBound.Statement .lampFlash := FrameBound.of_none _ rfl
theorem FrameBound.frameStartCell : FrameBound.Statement .frameStartCell := FrameBound.of_none _ rfl
theorem FrameBound.frameNotHandedOn (f : Frame) : FrameBound.Statement (.frameNotHandedOn f) :=
  FrameBound.of_frame _ f rfl fun h => h
theorem FrameBound.answerComplete : FrameBound.Statement .answerComplete := FrameBound.of_none _ rfl
theorem FrameBound.restartContactOpened : FrameBound.Statement .restartContactOpened :=
  FrameBound.of_none _ rfl

end Sys2Proof.Laws
end

