-- ==== Sys2Proof/Laws/State.lean ====
section
/-! SUPPORT. Each field of State after each named update: true by rfl, so that no proof unfolds one. -/
namespace Sys2Proof.Machine

/-! ### State.withLine -/

@[simp] theorem State.withLine_line (s : State) (l : LineUnit) : (s.withLine l).line = l := rfl
@[simp] theorem State.withLine_recv (s : State) (l : LineUnit) : (s.withLine l).recv = s.recv := rfl
@[simp] theorem State.withLine_send (s : State) (l : LineUnit) : (s.withLine l).send = s.send := rfl
@[simp] theorem State.withLine_store (s : State) (l : LineUnit) : (s.withLine l).store = s.store := rfl
@[simp] theorem State.withLine_kb (s : State) (l : LineUnit) : (s.withLine l).kb = s.kb := rfl
@[simp] theorem State.withLine_print (s : State) (l : LineUnit) : (s.withLine l).print = s.print := rfl
@[simp] theorem State.withLine_punch (s : State) (l : LineUnit) : (s.withLine l).punch = s.punch := rfl
@[simp] theorem State.withLine_journal (s : State) (l : LineUnit) : (s.withLine l).journal = s.journal := rfl
@[simp] theorem State.withLine_panel (s : State) (l : LineUnit) : (s.withLine l).panel = s.panel := rfl
@[simp] theorem State.withLine_bell (s : State) (l : LineUnit) : (s.withLine l).bell = s.bell := rfl
@[simp] theorem State.withLine_cell (s : State) (l : LineUnit) : (s.withLine l).cell = s.cell := rfl
@[simp] theorem State.withLine_pending (s : State) (l : LineUnit) : (s.withLine l).pending = s.pending := rfl

/-! ### State.withSend -/

@[simp] theorem State.withSend_line (s : State) (x : Transmission) : (s.withSend x).line = s.line := rfl
@[simp] theorem State.withSend_recv (s : State) (x : Transmission) : (s.withSend x).recv = s.recv := rfl
@[simp] theorem State.withSend_send (s : State) (x : Transmission) : (s.withSend x).send = x := rfl
@[simp] theorem State.withSend_store (s : State) (x : Transmission) : (s.withSend x).store = s.store := rfl
@[simp] theorem State.withSend_kb (s : State) (x : Transmission) : (s.withSend x).kb = s.kb := rfl
@[simp] theorem State.withSend_print (s : State) (x : Transmission) : (s.withSend x).print = s.print := rfl
@[simp] theorem State.withSend_punch (s : State) (x : Transmission) : (s.withSend x).punch = s.punch := rfl
@[simp] theorem State.withSend_journal (s : State) (x : Transmission) : (s.withSend x).journal = s.journal := rfl
@[simp] theorem State.withSend_panel (s : State) (x : Transmission) : (s.withSend x).panel = s.panel := rfl
@[simp] theorem State.withSend_bell (s : State) (x : Transmission) : (s.withSend x).bell = s.bell := rfl
@[simp] theorem State.withSend_cell (s : State) (x : Transmission) : (s.withSend x).cell = s.cell := rfl
@[simp] theorem State.withSend_pending (s : State) (x : Transmission) : (s.withSend x).pending = s.pending := rfl

/-! ### State.withKb -/

@[simp] theorem State.withKb_line (s : State) (kb : Keyboard) : (s.withKb kb).line = s.line := rfl
@[simp] theorem State.withKb_recv (s : State) (kb : Keyboard) : (s.withKb kb).recv = s.recv := rfl
@[simp] theorem State.withKb_send (s : State) (kb : Keyboard) : (s.withKb kb).send = s.send := rfl
@[simp] theorem State.withKb_store (s : State) (kb : Keyboard) : (s.withKb kb).store = s.store := rfl
@[simp] theorem State.withKb_kb (s : State) (kb : Keyboard) : (s.withKb kb).kb = kb := rfl
@[simp] theorem State.withKb_print (s : State) (kb : Keyboard) : (s.withKb kb).print = s.print := rfl
@[simp] theorem State.withKb_punch (s : State) (kb : Keyboard) : (s.withKb kb).punch = s.punch := rfl
@[simp] theorem State.withKb_journal (s : State) (kb : Keyboard) : (s.withKb kb).journal = s.journal := rfl
@[simp] theorem State.withKb_panel (s : State) (kb : Keyboard) : (s.withKb kb).panel = s.panel := rfl
@[simp] theorem State.withKb_bell (s : State) (kb : Keyboard) : (s.withKb kb).bell = s.bell := rfl
@[simp] theorem State.withKb_cell (s : State) (kb : Keyboard) : (s.withKb kb).cell = s.cell := rfl
@[simp] theorem State.withKb_pending (s : State) (kb : Keyboard) : (s.withKb kb).pending = s.pending := rfl

/-! ### State.withPanel -/

@[simp] theorem State.withPanel_line (s : State) (p : Panel) : (s.withPanel p).line = s.line := rfl
@[simp] theorem State.withPanel_recv (s : State) (p : Panel) : (s.withPanel p).recv = s.recv := rfl
@[simp] theorem State.withPanel_send (s : State) (p : Panel) : (s.withPanel p).send = s.send := rfl
@[simp] theorem State.withPanel_store (s : State) (p : Panel) : (s.withPanel p).store = s.store := rfl
@[simp] theorem State.withPanel_kb (s : State) (p : Panel) : (s.withPanel p).kb = s.kb := rfl
@[simp] theorem State.withPanel_print (s : State) (p : Panel) : (s.withPanel p).print = s.print := rfl
@[simp] theorem State.withPanel_punch (s : State) (p : Panel) : (s.withPanel p).punch = s.punch := rfl
@[simp] theorem State.withPanel_journal (s : State) (p : Panel) : (s.withPanel p).journal = s.journal := rfl
@[simp] theorem State.withPanel_panel (s : State) (p : Panel) : (s.withPanel p).panel = p := rfl
@[simp] theorem State.withPanel_bell (s : State) (p : Panel) : (s.withPanel p).bell = s.bell := rfl
@[simp] theorem State.withPanel_cell (s : State) (p : Panel) : (s.withPanel p).cell = s.cell := rfl
@[simp] theorem State.withPanel_pending (s : State) (p : Panel) : (s.withPanel p).pending = s.pending := rfl

/-! ### State.withPrint -/

@[simp] theorem State.withPrint_line (s : State) (p : PrintUnit) : (s.withPrint p).line = s.line := rfl
@[simp] theorem State.withPrint_recv (s : State) (p : PrintUnit) : (s.withPrint p).recv = s.recv := rfl
@[simp] theorem State.withPrint_send (s : State) (p : PrintUnit) : (s.withPrint p).send = s.send := rfl
@[simp] theorem State.withPrint_store (s : State) (p : PrintUnit) : (s.withPrint p).store = s.store := rfl
@[simp] theorem State.withPrint_kb (s : State) (p : PrintUnit) : (s.withPrint p).kb = s.kb := rfl
@[simp] theorem State.withPrint_print (s : State) (p : PrintUnit) : (s.withPrint p).print = p := rfl
@[simp] theorem State.withPrint_punch (s : State) (p : PrintUnit) : (s.withPrint p).punch = s.punch := rfl
@[simp] theorem State.withPrint_journal (s : State) (p : PrintUnit) : (s.withPrint p).journal = s.journal := rfl
@[simp] theorem State.withPrint_panel (s : State) (p : PrintUnit) : (s.withPrint p).panel = s.panel := rfl
@[simp] theorem State.withPrint_bell (s : State) (p : PrintUnit) : (s.withPrint p).bell = s.bell := rfl
@[simp] theorem State.withPrint_cell (s : State) (p : PrintUnit) : (s.withPrint p).cell = s.cell := rfl
@[simp] theorem State.withPrint_pending (s : State) (p : PrintUnit) : (s.withPrint p).pending = s.pending := rfl

/-! ### State.withPunch -/

@[simp] theorem State.withPunch_line (s : State) (p : Punch) : (s.withPunch p).line = s.line := rfl
@[simp] theorem State.withPunch_recv (s : State) (p : Punch) : (s.withPunch p).recv = s.recv := rfl
@[simp] theorem State.withPunch_send (s : State) (p : Punch) : (s.withPunch p).send = s.send := rfl
@[simp] theorem State.withPunch_store (s : State) (p : Punch) : (s.withPunch p).store = s.store := rfl
@[simp] theorem State.withPunch_kb (s : State) (p : Punch) : (s.withPunch p).kb = s.kb := rfl
@[simp] theorem State.withPunch_print (s : State) (p : Punch) : (s.withPunch p).print = s.print := rfl
@[simp] theorem State.withPunch_punch (s : State) (p : Punch) : (s.withPunch p).punch = p := rfl
@[simp] theorem State.withPunch_journal (s : State) (p : Punch) : (s.withPunch p).journal = s.journal := rfl
@[simp] theorem State.withPunch_panel (s : State) (p : Punch) : (s.withPunch p).panel = s.panel := rfl
@[simp] theorem State.withPunch_bell (s : State) (p : Punch) : (s.withPunch p).bell = s.bell := rfl
@[simp] theorem State.withPunch_cell (s : State) (p : Punch) : (s.withPunch p).cell = s.cell := rfl
@[simp] theorem State.withPunch_pending (s : State) (p : Punch) : (s.withPunch p).pending = s.pending := rfl

/-! ### State.ring -/

@[simp] theorem State.ring_line (s : State) : (s.ring).line = s.line := rfl
@[simp] theorem State.ring_recv (s : State) : (s.ring).recv = s.recv := rfl
@[simp] theorem State.ring_send (s : State) : (s.ring).send = s.send := rfl
@[simp] theorem State.ring_store (s : State) : (s.ring).store = s.store := rfl
@[simp] theorem State.ring_kb (s : State) : (s.ring).kb = s.kb := rfl
@[simp] theorem State.ring_print (s : State) : (s.ring).print = s.print := rfl
@[simp] theorem State.ring_punch (s : State) : (s.ring).punch = s.punch := rfl
@[simp] theorem State.ring_journal (s : State) : (s.ring).journal = s.journal := rfl
@[simp] theorem State.ring_panel (s : State) : (s.ring).panel = s.panel := rfl
@[simp] theorem State.ring_bell (s : State) : (s.ring).bell = s.bell + 1 := rfl
@[simp] theorem State.ring_cell (s : State) : (s.ring).cell = s.cell := rfl
@[simp] theorem State.ring_pending (s : State) : (s.ring).pending = s.pending := rfl

/-! ### State.notice -/

@[simp] theorem State.notice_line (s : State) (n : Notice) : (s.notice n).line = s.line := rfl
@[simp] theorem State.notice_recv (s : State) (n : Notice) : (s.notice n).recv = s.recv := rfl
@[simp] theorem State.notice_send (s : State) (n : Notice) : (s.notice n).send = s.send := rfl
@[simp] theorem State.notice_store (s : State) (n : Notice) : (s.notice n).store = s.store := rfl
@[simp] theorem State.notice_kb (s : State) (n : Notice) : (s.notice n).kb = s.kb := rfl
@[simp] theorem State.notice_print (s : State) (n : Notice) : (s.notice n).print = s.print.place n := rfl
@[simp] theorem State.notice_punch (s : State) (n : Notice) : (s.notice n).punch = s.punch := rfl
@[simp] theorem State.notice_journal (s : State) (n : Notice) : (s.notice n).journal = s.journal := rfl
@[simp] theorem State.notice_panel (s : State) (n : Notice) : (s.notice n).panel = s.panel := rfl
@[simp] theorem State.notice_bell (s : State) (n : Notice) : (s.notice n).bell = s.bell := rfl
@[simp] theorem State.notice_cell (s : State) (n : Notice) : (s.notice n).cell = s.cell := rfl
@[simp] theorem State.notice_pending (s : State) (n : Notice) : (s.notice n).pending = s.pending := rfl

/-! ### State.log -/

@[simp] theorem State.log_line (s : State) (k : JournalKind) (f : JournalFields) : (s.log k f).line = s.line := rfl
@[simp] theorem State.log_recv (s : State) (k : JournalKind) (f : JournalFields) : (s.log k f).recv = s.recv := rfl
@[simp] theorem State.log_send (s : State) (k : JournalKind) (f : JournalFields) : (s.log k f).send = s.send := rfl
@[simp] theorem State.log_store (s : State) (k : JournalKind) (f : JournalFields) : (s.log k f).store = s.store := rfl
@[simp] theorem State.log_kb (s : State) (k : JournalKind) (f : JournalFields) : (s.log k f).kb = s.kb := rfl
@[simp] theorem State.log_print (s : State) (k : JournalKind) (f : JournalFields) : (s.log k f).print = s.print := rfl
@[simp] theorem State.log_punch (s : State) (k : JournalKind) (f : JournalFields) : (s.log k f).punch = s.punch := rfl
@[simp] theorem State.log_journal (s : State) (k : JournalKind) (f : JournalFields) : (s.log k f).journal = s.journal.add k f := rfl
@[simp] theorem State.log_panel (s : State) (k : JournalKind) (f : JournalFields) : (s.log k f).panel = s.panel := rfl
@[simp] theorem State.log_bell (s : State) (k : JournalKind) (f : JournalFields) : (s.log k f).bell = s.bell := rfl
@[simp] theorem State.log_cell (s : State) (k : JournalKind) (f : JournalFields) : (s.log k f).cell = s.cell := rfl
@[simp] theorem State.log_pending (s : State) (k : JournalKind) (f : JournalFields) : (s.log k f).pending = s.pending := rfl

/-! ### State.placeEcho -/

@[simp] theorem State.placeEcho_line (s : State) (i : EchoItem) : (s.placeEcho i).line = s.line := rfl
@[simp] theorem State.placeEcho_recv (s : State) (i : EchoItem) : (s.placeEcho i).recv = s.recv := rfl
@[simp] theorem State.placeEcho_send (s : State) (i : EchoItem) : (s.placeEcho i).send = s.send := rfl
@[simp] theorem State.placeEcho_store (s : State) (i : EchoItem) : (s.placeEcho i).store = s.store := rfl
@[simp] theorem State.placeEcho_kb (s : State) (i : EchoItem) : (s.placeEcho i).kb = s.kb := rfl
@[simp] theorem State.placeEcho_print (s : State) (i : EchoItem) : (s.placeEcho i).print = s.print.echo i := rfl
@[simp] theorem State.placeEcho_punch (s : State) (i : EchoItem) : (s.placeEcho i).punch = s.punch := rfl
@[simp] theorem State.placeEcho_journal (s : State) (i : EchoItem) : (s.placeEcho i).journal = s.journal := rfl
@[simp] theorem State.placeEcho_panel (s : State) (i : EchoItem) : (s.placeEcho i).panel = s.panel := rfl
@[simp] theorem State.placeEcho_bell (s : State) (i : EchoItem) : (s.placeEcho i).bell = s.bell := rfl
@[simp] theorem State.placeEcho_cell (s : State) (i : EchoItem) : (s.placeEcho i).cell = s.cell := rfl
@[simp] theorem State.placeEcho_pending (s : State) (i : EchoItem) : (s.placeEcho i).pending = s.pending := rfl

/-! ### State.discard -/

@[simp] theorem State.discard_line (s : State) : (s.discard).line = s.line.discard := rfl
@[simp] theorem State.discard_recv (s : State) : (s.discard).recv = s.recv := rfl
@[simp] theorem State.discard_send (s : State) : (s.discard).send = s.send := rfl
@[simp] theorem State.discard_store (s : State) : (s.discard).store = s.store := rfl
@[simp] theorem State.discard_kb (s : State) : (s.discard).kb = s.kb := rfl
@[simp] theorem State.discard_print (s : State) : (s.discard).print = s.print := rfl
@[simp] theorem State.discard_punch (s : State) : (s.discard).punch = s.punch := rfl
@[simp] theorem State.discard_journal (s : State) : (s.discard).journal = s.journal := rfl
@[simp] theorem State.discard_panel (s : State) : (s.discard).panel = s.panel := rfl
@[simp] theorem State.discard_bell (s : State) : (s.discard).bell = s.bell := rfl
@[simp] theorem State.discard_cell (s : State) : (s.discard).cell = s.cell := rfl
@[simp] theorem State.discard_pending (s : State) : (s.discard).pending = s.pending := rfl

/-! ### State.withPrintSide -/

@[simp] theorem State.withPrintSide_line (s : State) (x : PrintSide) : (s.withPrintSide x).line = s.line := rfl
@[simp] theorem State.withPrintSide_recv (s : State) (x : PrintSide) : (s.withPrintSide x).recv = s.recv := rfl
@[simp] theorem State.withPrintSide_send (s : State) (x : PrintSide) : (s.withPrintSide x).send = s.send := rfl
@[simp] theorem State.withPrintSide_store (s : State) (x : PrintSide) : (s.withPrintSide x).store = x.store := rfl
@[simp] theorem State.withPrintSide_kb (s : State) (x : PrintSide) : (s.withPrintSide x).kb = s.kb := rfl
@[simp] theorem State.withPrintSide_print (s : State) (x : PrintSide) : (s.withPrintSide x).print = x.print := rfl
@[simp] theorem State.withPrintSide_punch (s : State) (x : PrintSide) : (s.withPrintSide x).punch = s.punch := rfl
@[simp] theorem State.withPrintSide_journal (s : State) (x : PrintSide) : (s.withPrintSide x).journal = x.journal := rfl
@[simp] theorem State.withPrintSide_panel (s : State) (x : PrintSide) : (s.withPrintSide x).panel = s.panel := rfl
@[simp] theorem State.withPrintSide_bell (s : State) (x : PrintSide) : (s.withPrintSide x).bell = x.bell := rfl
@[simp] theorem State.withPrintSide_cell (s : State) (x : PrintSide) : (s.withPrintSide x).cell = s.cell := rfl
@[simp] theorem State.withPrintSide_pending (s : State) (x : PrintSide) : (s.withPrintSide x).pending = s.pending := rfl

/-! ### State.withPunchSide -/

@[simp] theorem State.withPunchSide_line (s : State) (x : PunchSide) : (s.withPunchSide x).line = s.line := rfl
@[simp] theorem State.withPunchSide_recv (s : State) (x : PunchSide) : (s.withPunchSide x).recv = s.recv := rfl
@[simp] theorem State.withPunchSide_send (s : State) (x : PunchSide) : (s.withPunchSide x).send = s.send := rfl
@[simp] theorem State.withPunchSide_store (s : State) (x : PunchSide) : (s.withPunchSide x).store = x.store := rfl
@[simp] theorem State.withPunchSide_kb (s : State) (x : PunchSide) : (s.withPunchSide x).kb = s.kb := rfl
@[simp] theorem State.withPunchSide_print (s : State) (x : PunchSide) : (s.withPunchSide x).print = s.print := rfl
@[simp] theorem State.withPunchSide_punch (s : State) (x : PunchSide) : (s.withPunchSide x).punch = x.punch := rfl
@[simp] theorem State.withPunchSide_journal (s : State) (x : PunchSide) : (s.withPunchSide x).journal = s.journal := rfl
@[simp] theorem State.withPunchSide_panel (s : State) (x : PunchSide) : (s.withPunchSide x).panel = s.panel := rfl
@[simp] theorem State.withPunchSide_bell (s : State) (x : PunchSide) : (s.withPunchSide x).bell = s.bell := rfl
@[simp] theorem State.withPunchSide_cell (s : State) (x : PunchSide) : (s.withPunchSide x).cell = s.cell := rfl
@[simp] theorem State.withPunchSide_pending (s : State) (x : PunchSide) : (s.withPunchSide x).pending = s.pending := rfl

/-! ### State.pushPunch -/

@[simp] theorem State.pushPunch_line (s : State) (c : Code) : (s.pushPunch c).line = s.line := rfl
@[simp] theorem State.pushPunch_recv (s : State) (c : Code) : (s.pushPunch c).recv = s.recv := rfl
@[simp] theorem State.pushPunch_send (s : State) (c : Code) : (s.pushPunch c).send = s.send := rfl
@[simp] theorem State.pushPunch_store (s : State) (c : Code) : (s.pushPunch c).store = s.store := rfl
@[simp] theorem State.pushPunch_kb (s : State) (c : Code) : (s.pushPunch c).kb = s.kb := rfl
@[simp] theorem State.pushPunch_print (s : State) (c : Code) : (s.pushPunch c).print = s.print := rfl
@[simp] theorem State.pushPunch_punch (s : State) (c : Code) : (s.pushPunch c).punch = { s.punch with fifo := s.punch.fifo ++ [c] } := rfl
@[simp] theorem State.pushPunch_journal (s : State) (c : Code) : (s.pushPunch c).journal = s.journal := rfl
@[simp] theorem State.pushPunch_panel (s : State) (c : Code) : (s.pushPunch c).panel = s.panel := rfl
@[simp] theorem State.pushPunch_bell (s : State) (c : Code) : (s.pushPunch c).bell = s.bell := rfl
@[simp] theorem State.pushPunch_cell (s : State) (c : Code) : (s.pushPunch c).cell = s.cell := rfl
@[simp] theorem State.pushPunch_pending (s : State) (c : Code) : (s.pushPunch c).pending = s.pending := rfl

end Sys2Proof.Machine
end

