-- ==== Sys2Proof/Laws/Settle.lean ====
section
/-! SUPPORT. What settling and the guards of commands can do: the fields they leave alone, and how a fact
about the mechanism units is carried through what they do of their own accord. -/
namespace Sys2Proof.Machine

/-! ### Running -/

/-- A fact that each thing the print unit does keeps holds after all it does. -/
theorem PrintSide.run_keeps (env : PrintEnv) (P : PrintSide → Prop)
    (hstep : ∀ x y, P x → x.step env = some y → P y) (k : Nat) (x : PrintSide) (h : P x) :
    P (PrintSide.run env k x) := by
  induction k generalizing x with
  | zero => exact h
  | succ k ih =>
    unfold PrintSide.run
    split
    · exact h
    · rename_i y hy
      exact ih y (hstep x y h hy)

/-- A fact that each thing the punch unit does keeps holds after all it does. -/
theorem PunchSide.run_keeps (leader : Nat) (relocal : Bool) (P : PunchSide → Prop)
    (hstep : ∀ x y, P x → x.step leader relocal = some y → P y) (k : Nat) (x : PunchSide) (h : P x) :
    P (PunchSide.run leader relocal k x) := by
  induction k generalizing x with
  | zero => exact h
  | succ k ih =>
    unfold PunchSide.run
    split
    · exact h
    · rename_i y hy
      exact ih y (hstep x y h hy)

/-- A print unit with nothing to do stays as it is. -/
theorem PrintSide.run_still (env : PrintEnv) (k : Nat) (x : PrintSide) (h : x.step env = none) :
    PrintSide.run env k x = x := by
  cases k with
  | zero => rfl
  | succ k => unfold PrintSide.run; rw [h]

/-- A punch unit with nothing to do stays as it is. -/
theorem PunchSide.run_still (leader : Nat) (relocal : Bool) (k : Nat) (x : PunchSide)
    (h : x.step leader relocal = none) : PunchSide.run leader relocal k x = x := by
  cases k with
  | zero => rfl
  | succ k => unfold PunchSide.run; rw [h]

/-- All that the print unit can do of its own accord: a copy begins, a grant point is judged, a grant point is
kept through a stall, or with nothing in flight the next operation is issued. -/
theorem PrintSide.step_cases {env : PrintEnv} {x y : PrintSide} (h : x.step env = some y) :
    (x.print.copy = none ∧ ∃ slot, x.store.printQ.head? = some slot ∧ y = x.withCopy (CopyPos.start slot)) ∨
    (x.grantPoint env = true ∧ x.print.stalled = false ∧ y = x.judge env) ∨
    (x.grantPoint env = true ∧ x.print.stalled = true ∧ x.print.grantDue = false ∧
      y = { x with print := { x.print with grantDue := true } }) ∨
    (x.print.flight = .none ∧ x.issueNext env = some y) := by
  unfold PrintSide.step at h
  split at h
  · rename_i slot rest hc hq
    cases h
    exact .inl ⟨hc, slot, by rw [hq]; rfl, rfl⟩
  · split at h
    · rename_i hg; cases h; exact .inr (.inl ⟨hg.1, hg.2, rfl⟩)
    · rename_i hg
      split at h
      · rename_i hd
        cases h
        exact .inr (.inr (.inl ⟨hd.1, by simpa using fun hs => hg ⟨hd.1, hs⟩, hd.2, rfl⟩))
      · split at h
        · cases h
        · rename_i hf; exact .inr (.inr (.inr ⟨by simpa using hf, h⟩))

/-- A printer with something in flight and no grant point to judge does nothing of its own accord, once a copy
has its position. -/
theorem PrintSide.step_in_flight (env : PrintEnv) (x : PrintSide) (h : x.print.flight ≠ .none)
    (hc : x.print.copy.isSome = true ∨ x.store.printQ = []) (hg : x.grantPoint env = false) :
    x.step env = none := by
  cases hs : x.step env with
  | none => rfl
  | some y =>
    rcases PrintSide.step_cases hs with ⟨hn, slot, hq, -⟩ | ⟨hp, -⟩ | ⟨hp, -⟩ | ⟨hf, -⟩
    · rcases hc with hc | hc
      · rw [hn] at hc; simp at hc
      · rw [hc] at hq; simp at hq
    · rw [hg] at hp; cases hp
    · rw [hg] at hp; cases hp
    · exact absurd hf h

/-- While an operation of the holder is in flight there is no grant point to judge. -/
theorem PrintSide.grantPoint_own (env : PrintEnv) (x : PrintSide) (o : MechOp) (st : Stream) (item : Bool)
    (hf : x.print.flight = .op o (.stream st item)) (hh : x.print.holder = some st) :
    x.grantPoint env = false := by
  simp [PrintSide.grantPoint, PrintUnit.holderActs, PrintUnit.servesHolder, hf, hh]

/-- Nothing is issued while something is in flight: only a copy's position, the holder, a grant point kept and
the saved echo line with its closing can change. -/
theorem PrintSide.step_holds {env : PrintEnv} {x y : PrintSide} (h : x.print.flight ≠ .none)
    (hs : x.step env = some y) : ∃ c hd g ei sv pr pf, y = { x with print := { x.print with
      copy := c, holder := hd, grantDue := g, echoIdle := ei, saved := sv, pre := pr, preFor := pf } } := by
  rcases PrintSide.step_cases hs with ⟨-, slot, -, rfl⟩ | ⟨-, -, rfl⟩ | ⟨-, -, -, rfl⟩ | ⟨hf, -⟩
  · exact ⟨_, _, _, _, _, _, _, rfl⟩
  · unfold PrintSide.judge
    split
    · exact ⟨_, _, _, _, _, _, _, rfl⟩
    · split <;> exact ⟨_, _, _, _, _, _, _, rfl⟩
  · exact ⟨_, _, _, _, _, _, _, rfl⟩
  · exact absurd hf h

/-- All that the punch unit can do of its own accord: a copy begins, or with nothing in flight a turning off
takes effect, a closing leader is over, or the next operation is issued. -/
theorem PunchSide.step_cases {leader : Nat} {relocal : Bool} {x y : PunchSide}
    (h : x.step leader relocal = some y) :
    (∃ slot, x.beginning = some slot ∧
      y = { x with punch := { x.punch with copy := some { entry := slot, phase := .lead leader } } }) ∨
    (x.punch.flight = none ∧
      (x.punch.offDue = true ∧ y = { x with punch := x.punch.turnedOff leader relocal } ∨
        x.punch.offDue = false ∧
          (x.punch.closingOver = true ∧ y = { x with punch := x.punch.closed leader } ∨
            x.punch.closingOver = false ∧ x.punch.stalled = false ∧ x.issueNext leader = some y))) := by
  unfold PunchSide.step at h
  split at h
  · rename_i slot hb; cases h; exact .inl ⟨slot, hb, rfl⟩
  · split at h
    · cases h
    · rename_i hf
      have hf : x.punch.flight = none := by simpa using hf
      refine .inr ⟨hf, ?_⟩
      split at h
      · rename_i ho; cases h; exact .inl ⟨ho, rfl⟩
      · rename_i ho
        refine .inr ⟨by simpa using ho, ?_⟩
        split at h
        · rename_i hc; cases h; exact .inl ⟨hc, rfl⟩
        · rename_i hc
          split at h
          · cases h
          · rename_i hs; exact .inr ⟨by simpa using hc, by simpa using hs, h⟩

/-- A punch with an operation in flight and no copy to begin does nothing of its own accord. -/
theorem PunchSide.step_in_flight (leader : Nat) (relocal : Bool) (x : PunchSide)
    (h : x.punch.flight.isSome = true) (hb : x.beginning = none) : x.step leader relocal = none := by
  unfold PunchSide.step
  rw [hb]
  simp [h]

/-! ### What settling leaves alone -/

@[simp] theorem State.settle_line (s : State) : s.settle.line = s.line := by
  unfold State.settle; split <;> rfl

@[simp] theorem State.settle_recv (s : State) : s.settle.recv = s.recv := by
  unfold State.settle; split <;> rfl

@[simp] theorem State.settle_send (s : State) : s.settle.send = s.send := by
  unfold State.settle; split <;> rfl

@[simp] theorem State.settle_kb (s : State) : s.settle.kb = s.kb := by
  unfold State.settle; split <;> rfl

@[simp] theorem State.settle_panel (s : State) : s.settle.panel = s.panel := by
  unfold State.settle; split <;> rfl

@[simp] theorem State.settle_cell (s : State) : s.settle.cell = s.cell := by
  unfold State.settle; split <;> rfl

@[simp] theorem State.settle_pending (s : State) : s.settle.pending = s.pending := by
  unfold State.settle; split <;> rfl

/-! ### The guards of commands -/

@[simp] theorem State.given_true (s : State) (f : State → State) : s.given true f = f s := rfl
@[simp] theorem State.given_false (s : State) (f : State → State) : s.given false f = s := rfl

theorem State.whenLive_live {s : State} (h : s.live = true) (f : State → State) : s.whenLive f = f s := by
  unfold State.whenLive; rw [if_pos h]

theorem State.whenLive_reading {s : State} (h : s.live = false) (f : State → State) : s.whenLive f = s := by
  unfold State.whenLive; rw [h]; rfl

theorem State.acting_live {s : State} (h : s.live = true) (f : State → State) :
    s.acting f = (f s).settle := State.whenLive_live h _

theorem State.acting_reading {s : State} (h : s.live = false) (f : State → State) : s.acting f = s :=
  State.whenLive_reading h _

theorem State.live_iff (s : State) : s.live = true ↔ s.panel.phase = .done := by
  simp [State.live]

/-! ### Readings that updates leave alone -/

@[simp] theorem State.live_withLine (s : State) (l : LineUnit) : (s.withLine l).live = s.live := rfl
@[simp] theorem State.live_withKb (s : State) (kb : Keyboard) : (s.withKb kb).live = s.live := rfl
@[simp] theorem State.live_withSend (s : State) (t : Transmission) : (s.withSend t).live = s.live := rfl
@[simp] theorem State.live_notice (s : State) (n : Notice) : (s.notice n).live = s.live := rfl
@[simp] theorem State.live_log (s : State) (k : JournalKind) (f : JournalFields) :
    (s.log k f).live = s.live := rfl

end Sys2Proof.Machine
end

