-- ==== Sys2Proof/Laws/Print.lean ====
section
/-! SUPPORT. What the print unit's shared operations can do: the three outcomes of issuing an operation and of
beginning a generated line, and what is left of the store and the journal. -/
namespace Sys2Proof.Machine

/-! ### What stands before an operation -/

theorem PrintUnit.before_some (p q : PrintUnit) (h : p.before = some q) :
    (p.motor = .running ∧ p.firstCR = true ∧
      q = { p with flight := .op .cr .initial, firstCR := false }) ∨
    (p.motor ≠ .running ∧ q = { p with motor := .starting, flight := .motorStart }) := by
  unfold PrintUnit.before at h
  split at h
  · rename_i hm
    split at h
    · rename_i hf; cases h; exact .inl ⟨hm, hf, rfl⟩
    · cases h
  · rename_i hm; cases h; exact .inr ⟨hm, rfl⟩

theorem PrintUnit.before_none (p : PrintUnit) (h : p.before = none) :
    p.motor = .running ∧ p.firstCR = false := by
  unfold PrintUnit.before at h
  split at h
  · rename_i hm
    split at h
    · cases h
    · rename_i hf; exact ⟨hm, by simpa using hf⟩
  · cases h

theorem feedOp_quiet (pl l : Nat) : strikes (feedOp pl l) = false := by
  unfold feedOp; split <;> rfl

theorem closeOps_quiet (col : Nat) : ∀ o ∈ closeOps col, strikes o = false := by
  unfold closeOps; split <;> simp [strikes]

/-! ### The outcomes of issuing and of beginning a line -/

/-- Issuing starts the motor or the carriage return of R168, or makes the wrap, or puts the operation in
flight: a feed at the page's last line as a page. -/
theorem PrintSide.issue_cases (env : PrintEnv) (st : Stream) (item : Bool) (o : MechOp) (x c : PrintSide) :
    (∃ p, x.print.before = some p ∧ x.issue env st item o c = { x with print := p }) ∨
    (strikes o = true ∧ env.settings.width + 1 ≤ x.print.column ∧ ∃ y, (y = x ∨ y = c) ∧
      x.issue env st item o c
        = { y with print := { y.print with pre := [.cr, .feed], preFor := .stream st false } }) ∨
    (¬ (strikes o = true ∧ env.settings.width + 1 ≤ x.print.column) ∧ ∃ q,
      (q = o ∨ o = .feed ∧ q = feedOp env.settings.pageLength x.print.pageLine) ∧
      x.issue env st item o c = { c with print := { c.print with flight := .op q (.stream st item) } }) := by
  unfold PrintSide.issue
  split
  · rename_i p h; exact .inl ⟨p, h, rfl⟩
  · by_cases hw : strikes o = true ∧ x.print.column ≥ env.settings.width + 1
    · rw [if_pos hw]
      refine .inr (.inl ⟨hw.1, hw.2, _, ?_, rfl⟩)
      by_cases ho : o = .space
      · simp [ho]
      · simp [ho]
    · rw [if_neg hw]
      refine .inr (.inr ⟨hw, _, ?_, rfl⟩)
      by_cases ho : o = .feed
      · exact .inr ⟨ho, if_pos ho⟩
      · exact .inl (if_neg ho)

/-- Beginning a generated line closes an open line first, or starts what stands before an operation, or
begins. -/
theorem PrintSide.beginLine_cases (st : Stream) (x b : PrintSide) :
    (x.print.openLine = true ∧ x.beginLine st b
      = { x with print := { x.print with pre := closeOps x.print.column, preFor := .stream st false } }) ∨
    (x.print.openLine = false ∧ ∃ p, x.print.before = some p ∧ x.beginLine st b = { x with print := p }) ∨
    (x.print.openLine = false ∧ x.beginLine st b = b) := by
  unfold PrintSide.beginLine
  split
  · rename_i h; exact .inl ⟨h, rfl⟩
  · rename_i h
    have h : x.print.openLine = false := by simpa using h
    split
    · rename_i p hp; exact .inr (.inl ⟨h, p, hp, rfl⟩)
    · exact .inr (.inr ⟨h, rfl⟩)

/-- An element of a generated line is issued as its operation, or is a ring. -/
theorem PrintSide.issueElem_cases (env : PrintEnv) (st : Stream) (e : Elem) (x c : PrintSide) :
    (∃ o, x.issueElem env st e c = x.issue env st false o c) ∨
    x.issueElem env st e c = { c with bell := c.bell + 1 } := by
  cases e with
  | strike s => cases s with
    | glyph n => exact .inl ⟨_, rfl⟩
    | space => exact .inl ⟨_, rfl⟩
  | bell => exact .inr rfl
  | cr => exact .inl ⟨_, rfl⟩
  | feed => exact .inl ⟨_, rfl⟩

/-! ### The carriage -/

/-- The part of the carriage's bounds that the print unit keeps for a width. -/
structure PrintUnit.carriage (p : PrintUnit) (width : Nat) : Prop where
  high : p.column ≤ width + 1
  flight : (∀ o why, p.flight = .op o why → strikes o = false) ∨ p.column ≤ width
  pre : ∀ o ∈ p.pre, strikes o = false

theorem PrintUnit.carriage_before {p q : PrintUnit} {w : Nat} (h : p.carriage w) (hb : p.before = some q) :
    q.carriage w ∧ q.column = p.column := by
  rcases p.before_some q hb with ⟨-, -, rfl⟩ | ⟨-, rfl⟩
  · exact ⟨⟨h.high, .inl (by rintro o why ho; cases ho; rfl), h.pre⟩, rfl⟩
  · exact ⟨⟨h.high, .inl (by rintro o why ho; cases ho), h.pre⟩, rfl⟩

/-- Two print units alike where the carriage is concerned. -/
theorem PrintUnit.carriage_congr {p q : PrintUnit} {w : Nat} (h : p.carriage w) (hc : q.column = p.column)
    (hf : q.flight = p.flight) (hp : q.pre = p.pre) : q.carriage w :=
  ⟨by rw [hc]; exact h.high, by rw [hc, hf]; exact h.flight, by rw [hp]; exact h.pre⟩

theorem PrintSide.carriage_issue {env : PrintEnv} {st : Stream} {item : Bool} {o : MechOp}
    {x c : PrintSide} (h : x.print.carriage env.settings.width) (hc : c.print.carriage env.settings.width)
    (hcol : c.print.column = x.print.column) :
    (x.issue env st item o c).print.carriage env.settings.width ∧
      (x.issue env st item o c).print.column = x.print.column := by
  rcases x.issue_cases env st item o c with ⟨p, hb, e⟩ | ⟨-, -, y, hy, e⟩ | ⟨hn, q, hq, e⟩
  · rw [e]; exact PrintUnit.carriage_before h hb
  · rw [e]
    rcases hy with rfl | rfl
    · exact ⟨⟨h.high, h.flight, by simp [strikes]⟩, rfl⟩
    · exact ⟨⟨hc.high, hc.flight, by simp [strikes]⟩, hcol⟩
  · rw [e]
    refine ⟨⟨hc.high, ?_, hc.pre⟩, hcol⟩
    by_cases hs : strikes o = true
    · right
      have hw : ¬ env.settings.width + 1 ≤ x.print.column := fun hw => hn ⟨hs, hw⟩
      show c.print.column ≤ env.settings.width
      omega
    · left
      rintro o' why ho
      cases ho
      rcases hq with rfl | ⟨rfl, rfl⟩
      · simpa using hs
      · exact feedOp_quiet _ _

theorem PrintSide.carriage_issueElem {env : PrintEnv} {st : Stream} {e : Elem} {x c : PrintSide}
    (h : x.print.carriage env.settings.width) (hc : c.print.carriage env.settings.width)
    (hcol : c.print.column = x.print.column) :
    (x.issueElem env st e c).print.carriage env.settings.width ∧
      (x.issueElem env st e c).print.column = x.print.column := by
  rcases x.issueElem_cases env st e c with ⟨o, ho⟩ | ho <;> rw [ho]
  · exact PrintSide.carriage_issue h hc hcol
  · exact ⟨hc, hcol⟩

theorem PrintSide.carriage_beginLine {st : Stream} {x b : PrintSide} {w : Nat} (h : x.print.carriage w)
    (hb : b.print.carriage w) (hcol : b.print.column = x.print.column) :
    (x.beginLine st b).print.carriage w ∧ (x.beginLine st b).print.column = x.print.column := by
  rcases x.beginLine_cases st b with ⟨-, e⟩ | ⟨-, p, hp, e⟩ | ⟨-, e⟩ <;> rw [e]
  · exact ⟨⟨h.high, h.flight, closeOps_quiet _⟩, rfl⟩
  · exact PrintUnit.carriage_before h hp
  · exact ⟨hb, hcol⟩

/-! ### The carriage through what the print unit does of its own accord -/

theorem PrintUnit.popEcho_still (p : PrintUnit) :
    p.popEcho.column = p.column ∧ p.popEcho.flight = p.flight ∧ p.popEcho.pre = p.pre := by
  unfold PrintUnit.popEcho; split <;> exact ⟨rfl, rfl, rfl⟩

theorem PrintSide.carriage_notices {env : PrintEnv} {x y : PrintSide}
    (h : x.print.carriage env.settings.width) (hs : x.actNotices env = some y) :
    y.print.carriage env.settings.width ∧ y.print.column = x.print.column := by
  unfold PrintSide.actNotices at hs
  split at hs
  · cases hs; exact PrintSide.carriage_issueElem h (PrintUnit.carriage_congr h rfl rfl rfl) rfl
  · split at hs
    · cases hs; exact PrintSide.carriage_beginLine h (PrintUnit.carriage_congr h rfl rfl rfl) rfl
    · split at hs
      · cases hs
      · cases hs; exact PrintSide.carriage_beginLine h (PrintUnit.carriage_congr h rfl rfl rfl) rfl

theorem PrintSide.carriage_echoItem {env : PrintEnv} {x : PrintSide} (i : EchoItem)
    (h : x.print.carriage env.settings.width) :
    (x.actEchoItem env i).print.carriage env.settings.width ∧
      (x.actEchoItem env i).print.column = x.print.column := by
  obtain ⟨h1, h2, h3⟩ := x.print.popEcho_still
  have hp := PrintUnit.carriage_congr h h1 h2 h3
  cases i with
  | code c =>
    unfold PrintSide.actEchoItem
    have hq : PrintUnit.carriage
        { x.print.popEcho with echoCase := codeCase env.settings.unshiftOnSpace c x.print.echoCase }
        env.settings.width := PrintUnit.carriage_congr hp rfl rfl rfl
    cases hc : codeAct c x.print.echoCase with
    | nothing => simp only [hc]; exact ⟨hq, h1⟩
    | ring => simp only [hc]; exact ⟨hq, h1⟩
    | op o => simp only [hc]; exact PrintSide.carriage_issue h hq h1
  | eraseMarker cs => exact PrintSide.carriage_issue h (PrintUnit.carriage_congr hp rfl rfl rfl) h1
  | destMarker d c => exact PrintSide.carriage_beginLine h (PrintUnit.carriage_congr hp rfl rfl rfl) h1
  | autoEnd => exact PrintSide.carriage_beginLine h (PrintUnit.carriage_congr hp rfl rfl rfl) h1

theorem PrintSide.carriage_echo {env : PrintEnv} {x y : PrintSide}
    (h : x.print.carriage env.settings.width) (hs : x.actEcho env = some y) :
    y.print.carriage env.settings.width ∧ y.print.column = x.print.column := by
  unfold PrintSide.actEcho at hs
  split at hs
  · cases hs; exact PrintSide.carriage_issueElem h (PrintUnit.carriage_congr h rfl rfl rfl) rfl
  · split at hs
    · cases hs; exact PrintSide.carriage_issue h (PrintUnit.carriage_congr h rfl rfl rfl) rfl
    · split at hs
      · cases hs
      · split at hs
        · cases hs; exact ⟨PrintUnit.carriage_congr h rfl rfl rfl, rfl⟩
        · split at hs
          · cases hs; exact PrintSide.carriage_beginLine h (PrintUnit.carriage_congr h rfl rfl rfl) rfl
          · cases hs; exact PrintSide.carriage_echoItem _ h

theorem PrintSide.carriage_copyText {env : PrintEnv} {x y : PrintSide} {c : CopyPos}
    (h : x.print.carriage env.settings.width) (hs : x.actCopyText env c = some y) :
    y.print.carriage env.settings.width ∧ y.print.column = x.print.column := by
  unfold PrintSide.actCopyText at hs
  split at hs
  · cases hs
  · dsimp only at hs
    split at hs
    · unfold PrintSide.actCopyEnd at hs
      repeat' (split at hs)
      all_goals first
        | (cases hs; done)
        | (cases hs; exact ⟨⟨h.high, h.flight, closeOps_quiet _⟩, rfl⟩)
        | (cases hs; exact ⟨PrintUnit.carriage_congr h rfl rfl rfl, rfl⟩)
        | (cases hs; exact PrintSide.carriage_beginLine h (PrintUnit.carriage_congr h rfl rfl rfl) rfl)
    · split at hs
      · cases hs; exact PrintSide.carriage_beginLine h (PrintUnit.carriage_congr h rfl rfl rfl) rfl
      · obtain ⟨code, -, rfl⟩ := Option.map_eq_some_iff.mp hs
        unfold PrintSide.actCopyCode
        simp only
        split
        · exact ⟨PrintUnit.carriage_congr h rfl rfl rfl, rfl⟩
        · exact ⟨PrintUnit.carriage_congr h rfl rfl rfl, rfl⟩
        · exact PrintSide.carriage_issue h (PrintUnit.carriage_congr h rfl rfl rfl) rfl

theorem PrintSide.carriage_copy {env : PrintEnv} {x y : PrintSide}
    (h : x.print.carriage env.settings.width) (hs : x.actCopy env = some y) :
    y.print.carriage env.settings.width ∧ y.print.column = x.print.column := by
  unfold PrintSide.actCopy at hs
  split at hs
  · cases hs
  · split at hs
    · cases hs; exact PrintSide.carriage_issueElem h (PrintUnit.carriage_congr h rfl rfl rfl) rfl
    · split at hs
      · cases hs
        split <;> exact ⟨PrintUnit.carriage_congr h rfl rfl rfl, rfl⟩
      · cases hs
        unfold PrintSide.actCopyPage
        split
        · exact PrintSide.carriage_issue h (PrintUnit.carriage_congr h rfl rfl rfl) rfl
        · exact ⟨PrintUnit.carriage_congr h rfl rfl rfl, rfl⟩
      · obtain ⟨e, -, rfl⟩ := Option.map_eq_some_iff.mp hs
        exact PrintSide.carriage_beginLine h (PrintUnit.carriage_congr h rfl rfl rfl) rfl
      · exact PrintSide.carriage_copyText h hs
      · cases hs; exact ⟨PrintUnit.carriage_congr h rfl rfl rfl, rfl⟩

theorem PrintSide.carriage_report {env : PrintEnv} {x y : PrintSide}
    (h : x.print.carriage env.settings.width) (hs : x.actReport env = some y) :
    y.print.carriage env.settings.width ∧ y.print.column = x.print.column := by
  unfold PrintSide.actReport at hs
  repeat' (split at hs)
  all_goals first
    | (cases hs; done)
    | (cases hs; exact PrintSide.carriage_issueElem h (PrintUnit.carriage_congr h rfl rfl rfl) rfl)
    | (cases hs; exact PrintSide.carriage_beginLine h (PrintUnit.carriage_congr h rfl rfl rfl) rfl)
    | skip
  cases hs
  unfold PrintSide.actEntries
  simp only
  repeat' split
  all_goals first
    | exact PrintSide.carriage_beginLine h (PrintUnit.carriage_congr h rfl rfl rfl) rfl
    | exact ⟨PrintUnit.carriage_congr h rfl rfl rfl, rfl⟩

theorem PrintSide.carriage_act {env : PrintEnv} {x y : PrintSide} (st : Stream)
    (h : x.print.carriage env.settings.width) (hs : x.act env st = some y) :
    y.print.carriage env.settings.width ∧ y.print.column = x.print.column := by
  cases st
  · exact PrintSide.carriage_notices h hs
  · exact PrintSide.carriage_echo h hs
  · exact PrintSide.carriage_copy h hs
  · exact PrintSide.carriage_report h hs

theorem PrintSide.carriage_issueOwed {env : PrintEnv} {x : PrintSide}
    (h : x.print.carriage env.settings.width) :
    (x.print.issueOwed env).carriage env.settings.width ∧
      (x.print.issueOwed env).column = x.print.column := by
  unfold PrintUnit.issueOwed
  split
  · rename_i q hq; exact PrintUnit.carriage_before h hq
  · exact ⟨⟨h.high, .inl (by rintro o why ho; cases ho; exact feedOp_quiet _ _), h.pre⟩, rfl⟩

theorem PrintSide.carriage_issuePre {env : PrintEnv} {x : PrintSide} {o : MechOp} {rest : List MechOp}
    (h : x.print.carriage env.settings.width) (hp : x.print.pre = o :: rest) :
    (x.print.issuePre env o rest).carriage env.settings.width ∧
      (x.print.issuePre env o rest).column = x.print.column := by
  unfold PrintUnit.issuePre
  simp only
  split
  · rename_i q hq; exact PrintUnit.carriage_before h hq
  · refine ⟨⟨h.high, .inl ?_, fun o' ho' => h.pre o' (by rw [hp]; exact List.mem_cons_of_mem _ ho')⟩, rfl⟩
    rintro o' why ho
    simp at ho
    rw [← ho.1]
    split
    · exact feedOp_quiet _ _
    · exact h.pre o (by rw [hp]; exact List.mem_cons_self ..)

theorem PrintSide.carriage_holderTurn {env : PrintEnv} {x y : PrintSide} (st : Stream)
    (h : x.print.carriage env.settings.width) (hs : x.holderTurn env st = some y) :
    y.print.carriage env.settings.width ∧ y.print.column = x.print.column := by
  unfold PrintSide.holderTurn at hs
  obtain ⟨z, hz, rfl⟩ := Option.map_eq_some_iff.mp hs
  split
  · exact ⟨⟨h.high, h.flight, closeOps_quiet _⟩, rfl⟩
  · exact PrintSide.carriage_act _ h hz

theorem PrintSide.carriage_issueNext {env : PrintEnv} {x y : PrintSide}
    (h : x.print.carriage env.settings.width) (hs : x.issueNext env = some y) :
    y.print.carriage env.settings.width ∧ y.print.column = x.print.column := by
  unfold PrintSide.issueNext at hs
  split at hs
  · split at hs
    · cases hs; exact PrintSide.carriage_issueOwed h
    · cases hs
  · split at hs
    · cases hs; exact PrintSide.carriage_issueOwed h
    · split at hs
      · rename_i hp; cases hs; exact PrintSide.carriage_issuePre h hp
      · obtain ⟨st, -, hz⟩ := Option.bind_eq_some_iff.mp hs
        exact PrintSide.carriage_holderTurn st h hz

theorem PrintSide.carriage_judge {env : PrintEnv} {x : PrintSide}
    (h : x.print.carriage env.settings.width) :
    (x.judge env).print.carriage env.settings.width ∧ (x.judge env).print.column = x.print.column := by
  unfold PrintSide.judge
  split
  · exact ⟨PrintUnit.carriage_congr h rfl rfl rfl, rfl⟩
  · split
    · exact ⟨⟨h.high, h.flight, closeOps_quiet _⟩, rfl⟩
    · exact ⟨PrintUnit.carriage_congr h rfl rfl rfl, rfl⟩

theorem PrintSide.carriage_step {env : PrintEnv} {x y : PrintSide}
    (h : x.print.carriage env.settings.width) (hs : x.step env = some y) :
    y.print.carriage env.settings.width ∧ y.print.column = x.print.column := by
  rcases PrintSide.step_cases hs with ⟨-, slot, -, rfl⟩ | ⟨-, -, rfl⟩ | ⟨-, -, -, rfl⟩ | ⟨-, hn⟩
  · exact ⟨PrintUnit.carriage_congr h rfl rfl rfl, rfl⟩
  · exact PrintSide.carriage_judge h
  · exact ⟨PrintUnit.carriage_congr h rfl rfl rfl, rfl⟩
  · exact PrintSide.carriage_issueNext h hn

end Sys2Proof.Machine
end

