-- ==== Sys2Proof/Laws/Store.lean ====
section
/-! SUPPORT. The message store: every operation on it keeps it sound, and what allocation and freeing leave
(R53 to R62). -/
namespace Sys2Proof.Machine

/-! ### The ring's list -/

theorem ringPut_keys (r : List (Nat × Block)) (n : Nat) (b : Block) :
    ∀ p ∈ ringPut r n b, p.1 = n ∨ ∃ q ∈ r, q.1 = p.1 := by
  induction r with
  | nil => unfold ringPut; split <;> simp
  | cons q r ih =>
    obtain ⟨k, c⟩ := q
    intro p hp
    unfold ringPut at hp
    split at hp
    · split at hp
      · exact .inr ⟨p, hp, rfl⟩
      · rcases List.mem_cons.mp hp with rfl | hp
        · exact .inl rfl
        · exact .inr ⟨p, hp, rfl⟩
    · split at hp
      · split at hp
        · exact .inr ⟨p, by simp [hp], rfl⟩
        · rcases List.mem_cons.mp hp with rfl | hp
          · exact .inl rfl
          · exact .inr ⟨p, by simp [hp], rfl⟩
      · rcases List.mem_cons.mp hp with rfl | hp
        · exact .inr ⟨(k, c), by simp, rfl⟩
        · rcases ih p hp with h | ⟨q, hq, h⟩
          · exact .inl h
          · exact .inr ⟨q, by simp [hq], h⟩

/-- A listed block more or less: the length follows what was read and what is written. -/
theorem ringPut_length (r : List (Nat × Block)) (n : Nat) (b : Block) (h : ringWf r = true) :
    (ringPut r n b).length + (if ringGet r n = Block.blank then 0 else 1)
      = r.length + if b = Block.blank then 0 else 1 := by
  induction r with
  | nil => unfold ringPut; by_cases hb : b = Block.blank <;> simp [ringGet, hb]
  | cons q r ih =>
    obtain ⟨k, c⟩ := q
    obtain ⟨hc, hlow, hr⟩ := (ringWf_cons k c r).mp h
    unfold ringPut
    split
    · rename_i hlt
      have hg : ringGet ((k, c) :: r) n = Block.blank := by
        refine ringGet_below _ _ fun p hp => ?_
        rcases List.mem_cons.mp hp with rfl | hp
        · exact hlt
        · exact Nat.lt_trans hlt (hlow p hp)
      by_cases hb : b = Block.blank <;> simp [hg, hb]
    · split
      · rename_i heq
        subst heq
        by_cases hb : b = Block.blank <;> simp [ringGet, hb, hc]
      · rename_i hne
        have : k ≠ n := fun e => hne e.symm
        have := ih hr
        simp only [ringGet, if_neg ‹k ≠ n›, List.length_cons]
        omega

theorem Store.block_setBlock {st : Store} (h : st.wf = true) (n m : Nat) (b : Block) :
    (st.setBlock n b).block m = if m = n then b else st.block m := by
  by_cases hm : m = n
  · rw [if_pos hm, hm, Store.block_setBlock_same h]
  · rw [if_neg hm, Store.block_setBlock_other h _ _ _ hm]

/-! ### Places behind the tail -/

theorem Store.behindTail_lt (st : Store) (i : Nat) : st.behindTail i < 256 := Nat.mod_lt _ (by decide)

theorem Store.behindTail_inj (st : Store) {i j : Nat} (hi : i < 256) (hj : j < 256)
    (h : st.behindTail i = st.behindTail j) : i = j := by
  unfold Store.behindTail at h; omega

theorem Store.behindTail_surj (st : Store) {n : Nat} (hn : n < 256) : ∃ i, i < 256 ∧ st.behindTail i = n := by
  refine ⟨(n + 256 - st.tail % 256) % 256, Nat.mod_lt _ (by decide), ?_⟩
  unfold Store.behindTail; omega

/-! ### What soundness says of one block or entry -/

theorem Store.behindTail_zero {st : Store} (h : st.tail < 256) : st.behindTail 0 = st.tail := by
  unfold Store.behindTail; omega

/-- A block outside the used part of the ring reads as a FREE one, so it is not listed. -/
theorem Store.block_lt {st : Store} (h : ∀ p ∈ st.ring, p.1 < 256) {n : Nat}
    (hn : (st.block n).state ≠ .free) : n < 256 := by
  by_contra hge
  have : ∀ r : List (Nat × Block), (∀ p ∈ r, p.1 < 256) → ringGet r n = Block.blank := by
    intro r
    induction r with
    | nil => intro _; rfl
    | cons p r ih =>
      intro hp
      obtain ⟨k, b⟩ := p
      have hk : k < 256 := hp (k, b) (by simp)
      have : k ≠ n := by omega
      simp [ringGet, this, ih fun p h => hp p (by simp [h])]
  exact hn (by rw [Store.block, this _ h]; rfl)

/-! ### Entries -/

/-- The one entry of a slot. -/
theorem Store.entry_mem {st : Store} {slot : Nat} {e : Entry} (h : st.entry slot = some e) :
    e ∈ st.dir ∧ e.slot = slot := by
  unfold Store.entry findSlot at h
  exact ⟨List.mem_of_find?_eq_some h, by simpa using List.find?_some h⟩

theorem Store.entry_none {st : Store} {slot : Nat} (h : st.entry slot = none) :
    ∀ e ∈ st.dir, e.slot ≠ slot := by
  unfold Store.entry findSlot at h
  intro e he
  simpa using List.find?_eq_none.mp h e he

theorem slots_unique {dir : List Entry} (h : (dir.map fun e => e.slot).Nodup) {a b : Entry} (ha : a ∈ dir)
    (hb : b ∈ dir) (hs : a.slot = b.slot) : a = b := by
  exact List.inj_on_of_nodup_map h ha hb hs

/-- With one entry for each slot, rewriting a slot's entry writes one value there. -/
theorem map_slot {dir : List Entry} (h : (dir.map fun e => e.slot).Nodup) {slot : Nat} {e : Entry}
    (he : e ∈ dir) (hs : e.slot = slot) (f : Entry → Entry) :
    (dir.map fun x => if x.slot == slot then f x else x)
      = dir.map fun x => if x.slot = slot then f e else x := by
  refine List.map_congr_left fun x hx => ?_
  by_cases hxs : x.slot = slot
  · simp [slots_unique h hx he (hxs.trans hs.symm)]
  · simp [hxs]

/-! ### Rewriting entries -/

/-- Entries rewritten with their slots and chains kept, and queues that match: the order stays. -/
theorem Store.ordered.entries {st : Store} (h : st.ordered) (g : Entry → Entry) (p q : List Nat)
    (hs : ∀ e, (g e).slot = e.slot) (hc : ∀ e, (g e).chain = e.chain)
    (hp : p = ((st.dir.map g).filter fun e => e.oblPrint).map fun e => e.slot)
    (hq : q = ((st.dir.map g).filter fun e => e.oblPunch).map fun e => e.slot) :
    { st with dir := st.dir.map g, printQ := p, punchQ := q }.ordered := by
  refine ⟨h.form, h.free, h.tail, h.head, h.listed, h.numbers, h.used, h.unused, ?_, ?_, ?_, ?_, hp, hq⟩
  · show ((st.dir.map g).map fun e => e.slot).Nodup
    rw [List.map_map, show ((fun e : Entry => e.slot) ∘ g) = fun e => e.slot from funext hs]
    exact h.slots
  · intro e he
    obtain ⟨x, hx, rfl⟩ := List.mem_map.mp he
    rw [hc, hs]
    exact h.chains x hx
  · intro b hb
    obtain ⟨e, he, ho, hbe⟩ := h.owners b hb
    exact ⟨g e, List.mem_map.mpr ⟨e, he, rfl⟩, (hs e).trans ho, (hc e).symm ▸ hbe⟩
  · intro e he
    obtain ⟨x, hx, rfl⟩ := List.mem_map.mp he
    rw [hc]
    exact h.ascending x hx

/-- The slots of the entries with a mark, after entries were rewritten that keep slot and mark. -/
theorem queue_map (dir : List Entry) (g : Entry → Entry) (P : Entry → Bool) (hs : ∀ e, (g e).slot = e.slot)
    (hP : ∀ e, P (g e) = P e) : ((dir.map g).filter P).map (fun e => e.slot)
      = (dir.filter P).map fun e => e.slot := by
  rw [List.filter_map, List.map_map, show (P ∘ g) = P from funext hP,
    show ((fun e : Entry => e.slot) ∘ g) = fun e => e.slot from funext hs]

/-- An entry rewritten where its slot is named. -/
def atSlot (slot : Nat) (f : Entry → Entry) (e : Entry) : Entry := if e.slot == slot then f e else e

/-- What the rewriting keeps of an entry it keeps of all. -/
theorem atSlot_keeps {α : Type} (slot : Nat) {f : Entry → Entry} (g : Entry → α) (h : ∀ e, g (f e) = g e)
    (e : Entry) : g (atSlot slot f e) = g e := by
  unfold atSlot; split
  · exact h e
  · rfl

/-- An entry rewritten with slot, chain and copy obligations kept: the order stays. -/
theorem Store.ordered.updateEntry {st : Store} (h : st.ordered) (slot : Nat) (f : Entry → Entry)
    (hs : ∀ e, (f e).slot = e.slot) (hc : ∀ e, (f e).chain = e.chain)
    (hp : ∀ e, (f e).oblPrint = e.oblPrint) (hq : ∀ e, (f e).oblPunch = e.oblPunch) :
    (st.updateEntry slot f).ordered := by
  refine h.entries (atSlot slot f) st.printQ st.punchQ (atSlot_keeps slot _ hs) (atSlot_keeps slot _ hc) ?_ ?_
  · rw [queue_map _ _ _ (atSlot_keeps slot _ hs) (atSlot_keeps slot _ hp), h.printQueue]
  · rw [queue_map _ _ _ (atSlot_keeps slot _ hs) (atSlot_keeps slot _ hq), h.punchQueue]

theorem clearObligation_slot (o : Obligation) (e : Entry) : (clearObligation o e).slot = e.slot := by
  cases o <;> rfl

theorem clearObligation_chain (o : Obligation) (e : Entry) : (clearObligation o e).chain = e.chain := by
  cases o <;> rfl

/-- One mark cleared at a slot: its entry leaves the queue of the marked ones. -/
theorem queue_clear (dir : List Entry) (slot : Nat) (g : Entry → Entry) (P : Entry → Bool)
    (hP : ∀ e, P (g e) = false) : ((dir.map (atSlot slot g)).filter P).map (fun e => e.slot)
      = ((dir.filter P).map fun e => e.slot).filter fun x => x != slot := by
  induction dir with
  | nil => rfl
  | cons e dir ih =>
    by_cases he : e.slot = slot
    · by_cases hPe : P e = true <;> simpa [atSlot, he, hP, hPe] using ih
    · by_cases hPe : P e = true <;> simpa [atSlot, he, hPe] using ih

/-- An obligation removed with its place in the queue, before any freeing: the order stays (R59, R62). -/
theorem Store.ordered.clear {st : Store} (h : st.ordered) (o : Obligation) (slot : Nat) :
    ((st.updateEntry slot (clearObligation o)).leaveQueue o slot).ordered := by
  have hs := atSlot_keeps slot (fun e => e.slot) (clearObligation_slot o)
  have hc := atSlot_keeps slot (fun e => e.chain) (clearObligation_chain o)
  cases o with
  | print =>
    refine h.entries (atSlot slot (clearObligation .print)) (st.printQ.filter fun x => x != slot) st.punchQ hs hc
      ?_ ?_
    · rw [queue_clear st.dir slot (clearObligation .print) (fun e => e.oblPrint) (fun _ => rfl), h.printQueue]
    · exact h.punchQueue.trans (queue_map _ _ _ hs (atSlot_keeps slot (fun e => e.oblPunch) fun _ => rfl)).symm
  | punch =>
    refine h.entries (atSlot slot (clearObligation .punch)) st.printQ (st.punchQ.filter fun x => x != slot) hs hc
      ?_ ?_
    · exact h.printQueue.trans (queue_map _ _ _ hs (atSlot_keeps slot (fun e => e.oblPrint) fun _ => rfl)).symm
    · rw [queue_clear st.dir slot (clearObligation .punch) (fun e => e.oblPunch) (fun _ => rfl), h.punchQueue]
  | send =>
    exact h.updateEntry slot (clearObligation .send) (clearObligation_slot _) (clearObligation_chain _)
      (fun _ => rfl) (fun _ => rfl)

/-! ### Writing a LIVE block -/

/-- A LIVE block written with state, owner and section number kept: the order stays. -/
theorem Store.ordered.retouch {st : Store} (h : st.ordered) {n : Nat} {b : Block}
    (hn : (st.block n).state = .live) (hb : b.state = .live) (ho : b.owner = (st.block n).owner)
    (hsec : b.secNo = (st.block n).secNo) : (st.setBlock n b).ordered := by
  have hblk : ∀ m, (st.setBlock n b).block m = if m = n then b else st.block m :=
    fun m => Store.block_setBlock h.form n m b
  have hstate : ∀ m, ((st.setBlock n b).block m).state = (st.block m).state := by
    intro m; rw [hblk]; split
    · rename_i e; rw [e, hb, hn]
    · rfl
  have hown : ∀ m, ((st.setBlock n b).block m).owner = (st.block m).owner := by
    intro m; rw [hblk]; split
    · rename_i e; rw [e, ho]
    · rfl
  have hno : ∀ m, ((st.setBlock n b).block m).secNo = (st.block m).secNo := by
    intro m; rw [hblk]; split
    · rename_i e; rw [e, hsec]
    · rfl
  have hlt : n < 256 := Store.block_lt h.numbers (by rw [hn]; simp)
  refine ⟨ringPut_wf _ _ _ h.form, h.free, h.tail, h.head, ?_, ?_, ?_, ?_, h.slots, ?_, ?_, ?_, h.printQueue,
    h.punchQueue⟩
  · have hl := ringPut_length st.ring n b h.form
    rw [if_neg (Block.live_ne_blank hb),
      if_neg (show ringGet st.ring n ≠ Block.blank from Block.live_ne_blank hn)] at hl
    have := h.listed
    show (ringPut st.ring n b).length = _
    simp only [Store.setBlock]
    omega
  · intro p hp
    rcases ringPut_keys st.ring n b p hp with h1 | ⟨q, hq, h1⟩
    · exact h1 ▸ hlt
    · exact h1 ▸ h.numbers q hq
  · intro i hi
    rw [hstate]
    exact h.used i hi
  · intro i hi hi'
    rw [hblk, if_neg]
    · exact h.unused i hi hi'
    · rintro he
      have := h.unused i hi hi'
      have he : st.behindTail i = n := he
      rw [he] at this
      rw [this] at hn; cases hn
  · intro e he
    refine ⟨(h.chains e he).1, fun m hm => ?_⟩
    rw [hstate, hown]
    exact (h.chains e he).2 m hm
  · intro m hm
    rw [hstate] at hm
    rw [hown]
    exact h.owners m hm
  · intro e he
    simp only [hno]
    exact h.ascending e he

/-! ### Allocation (R54, R60) -/

/-- In a rising list the last number is the greatest. -/
theorem le_getLast (l : List Nat) (h : l.Pairwise (· < ·)) (m : Nat) (hm : l.getLast? = some m) :
    ∀ a ∈ l, a ≤ m := by
  obtain ⟨k, rfl⟩ := List.getLast?_eq_some_iff.mp hm
  intro a ha
  rcases List.mem_append.mp ha with ha | ha
  · exact Nat.le_of_lt ((List.pairwise_append.mp h).2.2 a ha m (by simp))
  · simp at ha; omega

/-- The next section number lies above every number of the chain (R60). -/
theorem Store.nextSection_above {st : Store} {e : Entry} (gap : Nat)
    (h : (e.chain.map fun b => (st.block b).secNo).Pairwise (· < ·)) :
    ∀ b ∈ e.chain, (st.block b).secNo < st.nextSection e gap := by
  intro b hb
  unfold Store.nextSection
  cases hl : e.chain.getLast? with
  | none => rw [List.getLast?_eq_none_iff] at hl; rw [hl] at hb; cases hb
  | some l =>
    have := le_getLast _ h (st.block l).secNo (by rw [List.getLast?_map, hl]; rfl) _
      (List.mem_map.mpr ⟨b, hb, rfl⟩)
    show (st.block b).secNo < (st.block l).secNo + 1 + gap
    omega

/-- The block at the head is FREE while one is. -/
theorem Store.ordered.head_blank {st : Store} (h : st.ordered) (hf : 0 < st.free) :
    st.block st.head = Block.blank := by
  have := h.unused _ (Nat.le_refl _) (by have := h.free; omega)
  rwa [Store.behindTail, ← h.head] at this

theorem Store.ordered.live_ne_head {st : Store} (h : st.ordered) (hf : 0 < st.free) {n : Nat}
    (hn : (st.block n).state = .live) : n ≠ st.head := by
  rintro rfl; rw [h.head_blank hf] at hn; cases hn

/-- Allocation at the head: what it leaves, and that it keeps the store sound. -/
theorem Store.sound.allocate {st : Store} (h : st.sound) {slot : Nat} {e : Entry} (he : st.entry slot = some e)
    (hf : 0 < st.free) (gap : Nat) (codes : List Code) (rel : Bool) :
    (st.allocate slot gap codes rel).sound ∧
    st.allocated (st.allocate slot gap codes rel)
      { state := .live, owner := slot, secNo := st.nextSection e gap, gap := gap, codes := codes
        released := rel } ∧
    (st.allocate slot gap codes rel).dir
      = st.dir.map (atSlot slot fun x => { x with chain := x.chain ++ [st.head] }) ∧
    st.sameQueues (st.allocate slot gap codes rel) := by
  obtain ⟨hem, hes⟩ := Store.entry_mem he
  generalize hb : ({ state := .live, owner := slot, secNo := st.nextSection e gap, gap := gap, codes := codes
                     released := rel } : Block) = b
  have hu : st.allocate slot gap codes rel
      = { st with ring := ringPut st.ring st.head b, head := ringNext st.head, free := st.free - 1
                  dir := st.dir.map (atSlot slot fun x => { x with chain := x.chain ++ [st.head] }) } := by
    simp only [Store.allocate, he, hb]; rfl
  generalize st.allocate slot gap codes rel = u at hu
  have hlive : b.state = .live := by rw [← hb]
  have hblk : ∀ m, u.block m = if m = st.head then b else st.block m := by
    intro m; rw [hu]; exact Store.block_setBlock h.form st.head m b
  have hold : ∀ m, (st.block m).state = .live → u.block m = st.block m := by
    intro m hm; rw [hblk, if_neg (h.live_ne_head hf hm)]
  have hfree := h.free
  have hhead := h.head
  have ha : st.allocated u b := by
    refine ⟨by rw [hblk, if_pos rfl], fun n hn => by rw [hblk, if_neg hn], by rw [hu]; rfl, by rw [hu], ?_⟩
    rw [hu]; show st.free - 1 + 1 = st.free; omega
  have hchain : ∀ x ∈ st.dir, st.head ∉ x.chain := by
    intro x hx hm
    exact h.live_ne_head hf ((h.chains x hx).2 _ hm).2.1 rfl
  have hdir : u.dir = st.dir.map (atSlot slot fun x => { x with chain := x.chain ++ [st.head] }) := by rw [hu]
  have hsl : ∀ x, (atSlot slot (fun x => { x with chain := x.chain ++ [st.head] }) x).slot = x.slot :=
    atSlot_keeps slot (fun x : Entry => x.slot) fun _ => rfl
  have hbt : ∀ i, u.behindTail i = st.behindTail i := by intro i; rw [hu]; rfl
  refine ⟨⟨⟨?_, ?_, ?_, ?_, ?_, ?_, ?_, ?_, ?_, ?_, ?_, ?_, ?_, ?_⟩, ?_⟩, ha, hdir, by rw [hu]; exact ⟨rfl, rfl⟩⟩
  · rw [hu]; exact ringPut_wf _ _ _ h.form
  · rw [hu]; show st.free - 1 ≤ 256; omega
  · rw [hu]; exact h.tail
  · rw [hu]
    show (st.head + 1) % 256 = (st.tail + (256 - (st.free - 1))) % 256
    omega
  · have hl := ringPut_length st.ring st.head b h.form
    rw [if_neg (Block.live_ne_blank hlive),
      if_pos (show ringGet st.ring st.head = Block.blank from h.head_blank hf)] at hl
    have := h.listed
    rw [hu]; show (ringPut st.ring st.head b).length = 256 - (st.free - 1); omega
  · intro p hp
    rw [hu] at hp
    rcases ringPut_keys st.ring st.head b p hp with h1 | ⟨q, hq, h1⟩
    · rw [h1, hhead]; exact Nat.mod_lt _ (by decide)
    · exact h1 ▸ h.numbers q hq
  · intro i hi
    rw [hu] at hi
    have hi : i < 256 - (st.free - 1) := hi
    rw [hbt, hblk]
    split
    · rw [hlive]; simp
    · rename_i hne
      refine h.used i ?_
      have : i ≠ 256 - st.free := by
        rintro rfl; exact hne hhead.symm
      omega
  · intro i hi hi'
    rw [hu] at hi
    have hi : 256 - (st.free - 1) ≤ i := hi
    rw [hbt, hblk, if_neg]
    · exact h.unused i (by omega) hi'
    · intro he
      have := st.behindTail_inj hi' (show 256 - st.free < 256 by omega) (he.trans hhead)
      omega
  · rw [hdir, List.map_map, show ((fun e : Entry => e.slot) ∘ _) = fun e => e.slot from funext hsl]
    exact h.slots
  · intro y hy
    rw [hdir] at hy
    obtain ⟨x, hx, rfl⟩ := List.mem_map.mp hy
    obtain ⟨hnd, hall⟩ := h.chains x hx
    unfold atSlot
    split
    · rename_i hxs
      have hxs : x.slot = slot := by simpa using hxs
      refine ⟨List.nodup_append.mpr ⟨hnd, by simp, ?_⟩, ?_⟩
      · intro a ha c hc
        simp at hc
        rintro rfl; exact hchain x hx (hc ▸ ha)
      · intro m hm
        rcases List.mem_append.mp hm with hm | hm
        · rw [hold m (hall m hm).2.1]; exact hall m hm
        · simp at hm
          subst hm
          rw [hblk, if_pos rfl]
          refine ⟨by rw [hhead]; exact Nat.mod_lt _ (by decide), hlive, ?_⟩
          rw [← hb]; exact hxs.symm
    · refine ⟨hnd, fun m hm => ?_⟩
      rw [hold m (hall m hm).2.1]; exact hall m hm
  · intro m hm
    rw [hdir]
    by_cases hmh : m = st.head
    · refine ⟨_, List.mem_map.mpr ⟨e, hem, rfl⟩, ?_, ?_⟩
      · rw [hsl, hblk, if_pos hmh, ← hb]; exact hes
      · simp [atSlot, hes, hmh]
    · rw [hblk, if_neg hmh] at hm ⊢
      obtain ⟨x, hx, ho, hmx⟩ := h.owners m hm
      refine ⟨_, List.mem_map.mpr ⟨x, hx, rfl⟩, (hsl x).trans ho, ?_⟩
      unfold atSlot; split
      · exact List.mem_append_left _ hmx
      · exact hmx
  · intro y hy
    rw [hdir] at hy
    obtain ⟨x, hx, rfl⟩ := List.mem_map.mp hy
    have hxm : (x.chain.map fun b => (u.block b).secNo) = x.chain.map fun b => (st.block b).secNo := by
      refine List.map_congr_left fun m hm => ?_
      rw [hold m ((h.chains x hx).2 m hm).2.1]
    unfold atSlot
    split
    · rename_i hxs
      have : x = e := slots_unique h.slots hx hem ((by simpa using hxs : x.slot = slot).trans hes.symm)
      subst this
      dsimp only
      rw [List.map_append, hxm]
      refine List.pairwise_append.mpr ⟨h.ascending x hx, by simp, ?_⟩
      intro a ha c hc
      obtain ⟨m, hm, rfl⟩ := List.mem_map.mp ha
      simp only [List.map_cons, List.map_nil, List.mem_singleton] at hc
      rw [hc, hblk, if_pos rfl, ← hb]
      exact Store.nextSection_above gap (h.ascending x hx) m hm
    · rw [hxm]; exact h.ascending x hx
  · rw [hdir]
    have : u.printQ = st.printQ := by rw [hu]
    rw [this]
    exact h.printQueue.trans (queue_map _ _ _ hsl (atSlot_keeps slot (fun e => e.oblPrint) fun _ => rfl)).symm
  · rw [hdir]
    have : u.punchQ = st.punchQ := by rw [hu]
    rw [this]
    exact h.punchQueue.trans (queue_map _ _ _ hsl (atSlot_keeps slot (fun e => e.oblPunch) fun _ => rfl)).symm
  · intro _
    have ht : u.tail = st.tail := by rw [hu]
    rw [ht, hblk]
    split
    · exact hlive
    · rename_i hne
      by_cases hfull : st.free < 256
      · exact h.tailLive hfull
      · exfalso
        have htl := h.tail
        apply hne; rw [hhead]; omega

/-! ### Freeing and reclamation (R55, R57) -/

/-- The tail passes the SPENT blocks up to the first LIVE one, or up to the head, and each becomes FREE (R55). -/
theorem Store.ordered.reclaim : ∀ (fuel : Nat) {st : Store}, st.ordered → 256 - st.free ≤ fuel →
    (Store.reclaim fuel st).sound ∧ (Store.reclaim fuel st).dir = st.dir ∧
    (Store.reclaim fuel st).head = st.head ∧ st.sameQueues (Store.reclaim fuel st) ∧
    ∃ k, k ≤ 256 - st.free ∧ (Store.reclaim fuel st).free = st.free + k ∧
      (Store.reclaim fuel st).tail = st.behindTail k ∧
      (∀ i, i < k → (st.block (st.behindTail i)).state = .spent ∧
        (Store.reclaim fuel st).block (st.behindTail i) = Block.blank) ∧
      (∀ i, k ≤ i → i < 256 →
        (Store.reclaim fuel st).block (st.behindTail i) = st.block (st.behindTail i)) ∧
      (k < 256 - st.free →
        ((Store.reclaim fuel st).block (Store.reclaim fuel st).tail).state = .live) := by
  have stays : ∀ {st : Store}, st.ordered → (st.free < 256 → (st.block st.tail).state = .live) →
      st.sound ∧ st.dir = st.dir ∧ st.head = st.head ∧ st.sameQueues st ∧
      ∃ k, k ≤ 256 - st.free ∧ st.free = st.free + k ∧ st.tail = st.behindTail k ∧
        (∀ i, i < k → (st.block (st.behindTail i)).state = .spent ∧
          st.block (st.behindTail i) = Block.blank) ∧
        (∀ i, k ≤ i → i < 256 → st.block (st.behindTail i) = st.block (st.behindTail i)) ∧
        (k < 256 - st.free → (st.block st.tail).state = .live) := by
    intro st h ht
    exact ⟨⟨h, ht⟩, rfl, rfl, ⟨rfl, rfl⟩, 0, Nat.zero_le _, rfl, (Store.behindTail_zero h.tail).symm,
      fun i hi => absurd hi (Nat.not_lt_zero i), fun _ _ _ => rfl, fun hk => ht (by omega)⟩
  intro fuel
  induction fuel with
  | zero =>
    intro st h hf
    exact stays (st := st) h fun hlt => absurd hf (by omega)
  | succ fuel ih =>
    intro st h hf
    have htl := h.tail
    have hfr := h.free
    unfold Store.reclaim
    split
    · rename_i hsp
      have hlt : st.free < 256 := by
        by_contra hge
        have := h.unused 0 (by omega) (by decide)
        rw [Store.behindTail_zero htl] at this
        rw [this] at hsp; cases hsp
      generalize hu : ({ st.setBlock st.tail Block.blank with
        tail := ringNext st.tail, free := st.free + 1 } : Store) = u
      have hut : u.tail = (st.tail + 1) % 256 := by rw [← hu]; rfl
      have huf : u.free = st.free + 1 := by rw [← hu]
      have hblk : ∀ m, u.block m = if m = st.tail then Block.blank else st.block m := by
        intro m; rw [← hu]; exact Store.block_setBlock h.form st.tail m _
      have hbt : ∀ i, u.behindTail i = st.behindTail (i + 1) := by
        intro i; unfold Store.behindTail; rw [hut]; omega
      have hne : ∀ i, i + 1 < 256 → st.behindTail (i + 1) ≠ st.tail := by
        intro i hi he
        have := st.behindTail_inj hi (show 0 < 256 by decide) (he.trans (Store.behindTail_zero htl).symm)
        omega
      have hlast : u.behindTail 255 = st.tail := by rw [hbt]; unfold Store.behindTail; omega
      have hlive : ∀ m, (st.block m).state = .live → u.block m = st.block m := by
        intro m hm; rw [hblk, if_neg]; rintro rfl; rw [hm] at hsp; cases hsp
      have hord : u.ordered := by
        refine ⟨by rw [← hu]; exact ringPut_wf _ _ _ h.form, by omega, by rw [hut]; omega, ?_, ?_, ?_, ?_, ?_,
          by rw [← hu]; exact h.slots, ?_, ?_, ?_, by rw [← hu]; exact h.printQueue,
          by rw [← hu]; exact h.punchQueue⟩
        · have : u.head = st.head := by rw [← hu]; rfl
          rw [this, h.head, hut, huf]; omega
        · have hl := ringPut_length st.ring st.tail Block.blank h.form
          rw [if_pos rfl, if_neg (show ringGet st.ring st.tail ≠ Block.blank from fun e => by
            rw [show st.block st.tail = Block.blank from e] at hsp; cases hsp)] at hl
          have := h.listed
          rw [huf, ← hu]
          show (ringPut st.ring st.tail Block.blank).length = _
          omega
        · intro p hp
          rw [← hu] at hp
          rcases ringPut_keys st.ring st.tail Block.blank p hp with h1 | ⟨q, hq, h1⟩
          · exact h1 ▸ htl
          · exact h1 ▸ h.numbers q hq
        · intro i hi
          rw [hbt, hblk, if_neg (hne i (by omega))]
          exact h.used (i + 1) (by omega)
        · intro i hi hi'
          by_cases h255 : i = 255
          · rw [h255, hlast, hblk, if_pos rfl]
          · rw [hbt, hblk, if_neg (hne i (by omega))]
            exact h.unused (i + 1) (by omega) (by omega)
        · intro e he
          rw [← hu] at he
          refine ⟨(h.chains e he).1, fun m hm => ?_⟩
          have := (h.chains e he).2 m hm
          rw [hlive m this.2.1]; exact this
        · intro m hm
          have hmne : m ≠ st.tail := by rintro rfl; rw [hblk, if_pos rfl] at hm; cases hm
          rw [hblk, if_neg hmne] at hm ⊢
          obtain ⟨e, he, ho, hb⟩ := h.owners m hm
          exact ⟨e, by rw [← hu]; exact he, ho, hb⟩
        · intro e he
          rw [← hu] at he
          have : (e.chain.map fun b => (u.block b).secNo) = e.chain.map fun b => (st.block b).secNo :=
            List.map_congr_left fun m hm => by rw [hlive m ((h.chains e he).2 m hm).2.1]
          rw [this]; exact h.ascending e he
      obtain ⟨hs, hd, hh, hq, k, hk, hfree, htail, hback, hrest, hfin⟩ := ih hord (by omega)
      refine ⟨hs, by rw [hd, ← hu]; rfl, by rw [hh, ← hu]; rfl, ⟨by rw [hq.1, ← hu]; rfl,
        by rw [hq.2, ← hu]; rfl⟩, k + 1, by omega, by omega, by rw [htail, hbt], ?_, ?_, fun hlt => hfin (by omega)⟩
      · intro i hi
        cases i with
        | zero =>
          rw [Store.behindTail_zero htl]
          refine ⟨hsp, ?_⟩
          have := hrest 255 (by omega) (by decide)
          rw [hlast] at this
          rw [this, hblk, if_pos rfl]
        | succ i =>
          have := hback i (by omega)
          rw [hbt, hblk, if_neg (hne i (by omega))] at this
          exact this
      · intro i hi hi'
        obtain ⟨i, rfl⟩ : ∃ j, i = j + 1 := ⟨i - 1, by omega⟩
        have := hrest i (by omega) (by omega)
        rw [hbt, hblk, if_neg (hne i (by omega))] at this
        exact this
    · rename_i hns
      refine stays h fun hlt => ?_
      have := h.used 0 (by omega)
      rw [Store.behindTail_zero htl] at this
      cases hst : (st.block st.tail).state with
      | free => exact absurd hst this
      | spent => exact absurd hst hns
      | live => rfl

/-- The blocks of a chain become SPENT and no other block changes. -/
theorem Store.block_spend (l : List Nat) : ∀ {st : Store}, st.wf = true → ∀ m,
    (st.spend l).block m = if m ∈ l then { st.block m with state := .spent } else st.block m := by
  induction l with
  | nil => intro st _ m; simp [Store.spend]
  | cons b l ih =>
    intro st h m
    unfold Store.spend
    rw [ih (Store.setBlock_wf h _ _), Store.block_setBlock h]
    by_cases hm : m = b
    · subst hm; by_cases hl : m ∈ l <;> simp [hl]
    · simp [hm]

theorem Store.spend_length (l : List Nat) : ∀ {st : Store}, st.wf = true →
    (∀ m ∈ l, st.block m ≠ Block.blank) → (st.spend l).ring.length = st.ring.length := by
  induction l with
  | nil => intro st _ _; rfl
  | cons b l ih =>
    intro st h hl
    unfold Store.spend
    have hsp : ({ st.block b with state := .spent } : Block) ≠ Block.blank := by
      intro e; have := congrArg Block.state e; cases this
    rw [ih (Store.setBlock_wf h _ _)]
    · have := ringPut_length st.ring b { st.block b with state := .spent } h
      rw [if_neg hsp, if_neg (show ringGet st.ring b ≠ Block.blank from hl b (by simp))] at this
      exact Nat.add_right_cancel this
    · intro m hm
      rw [Store.block_setBlock h]
      split
      · exact hsp
      · exact hl m (by simp [hm])

theorem Store.spend_numbers (l : List Nat) : ∀ {st : Store}, (∀ m ∈ l, m < 256) →
    (∀ p ∈ st.ring, p.1 < 256) → ∀ p ∈ (st.spend l).ring, p.1 < 256 := by
  induction l with
  | nil => intro st _ h; exact h
  | cons b l ih =>
    intro st hl h
    unfold Store.spend
    refine ih (fun m hm => hl m (by simp [hm])) fun p hp => ?_
    rcases ringPut_keys st.ring b _ p hp with h1 | ⟨q, hq, h1⟩
    · exact h1 ▸ hl b (by simp)
    · exact h1 ▸ h q hq

theorem Store.spend_rest (l : List Nat) : ∀ st : Store, st.spend l = { st with ring := (st.spend l).ring } := by
  induction l with
  | nil => intro st; rfl
  | cons b l ih => intro st; unfold Store.spend; rw [ih]; rfl

theorem Store.sound.updateEntry {st : Store} (h : st.sound) (slot : Nat) (f : Entry → Entry)
    (hs : ∀ e, (f e).slot = e.slot) (hc : ∀ e, (f e).chain = e.chain)
    (hp : ∀ e, (f e).oblPrint = e.oblPrint) (hq : ∀ e, (f e).oblPunch = e.oblPunch) :
    (st.updateEntry slot f).sound := ⟨h.toordered.updateEntry slot f hs hc hp hq, h.tailLive⟩

/-- An entry without a copy obligation leaves the directory and its blocks become SPENT: all but the tail is in
order (R57). -/
theorem Store.sound.remove {st : Store} (h : st.sound) {e : Entry} (he : e ∈ st.dir)
    (hp : e.oblPrint = false) (hq : e.oblPunch = false) :
    (Store.spend { st with dir := st.dir.filter fun x => x.slot != e.slot } e.chain).ordered := by
  have hblk : ∀ m, (Store.spend { st with dir := st.dir.filter fun x => x.slot != e.slot } e.chain).block m
      = if m ∈ e.chain then { st.block m with state := .spent } else st.block m := fun m =>
    Store.block_spend e.chain (st := { st with dir := st.dir.filter fun x => x.slot != e.slot }) h.form m
  have hlen := Store.spend_length e.chain (st := { st with dir := st.dir.filter fun x => x.slot != e.slot }) h.form
    fun m hm hb => by
      have := ((h.chains e he).2 m hm).2.1
      rw [show st.block m = Block.blank from hb] at this; cases this
  have hnum := Store.spend_numbers e.chain (st := { st with dir := st.dir.filter fun x => x.slot != e.slot })
    (fun m hm => ((h.chains e he).2 m hm).1) h.numbers
  have hwf := Store.spend_wf e.chain (st := { st with dir := st.dir.filter fun x => x.slot != e.slot }) h.form
  have hrest := Store.spend_rest e.chain { st with dir := st.dir.filter fun x => x.slot != e.slot }
  generalize Store.spend { st with dir := st.dir.filter fun x => x.slot != e.slot } e.chain = u at *
  have hmem : ∀ x ∈ u.dir, x ∈ st.dir ∧ x.slot ≠ e.slot := by
    intro x hx
    rw [hrest] at hx
    obtain ⟨h1, h2⟩ := List.mem_filter.mp hx
    exact ⟨h1, by simpa using h2⟩
  have hother : ∀ x ∈ u.dir, ∀ m ∈ x.chain, u.block m = st.block m := by
    intro x hx m hm
    obtain ⟨hxd, hxs⟩ := hmem x hx
    rw [hblk, if_neg]
    intro hme
    exact hxs (((h.chains x hxd).2 m hm).2.2.symm.trans ((h.chains e he).2 m hme).2.2)
  have hbt : ∀ i, u.behindTail i = st.behindTail i := by intro i; rw [hrest]; rfl
  have hqueue : ∀ P : Entry → Bool, P e = false →
      (st.dir.filter P).map (fun e => e.slot) = (u.dir.filter P).map fun e => e.slot := by
    intro P hPe
    rw [hrest]
    show _ = ((st.dir.filter fun x => x.slot != e.slot).filter P).map fun e => e.slot
    rw [List.filter_filter]
    congr 1
    refine List.filter_congr fun x hx => ?_
    by_cases hxs : x.slot = e.slot
    · rw [slots_unique h.slots hx he hxs]; simp [hPe]
    · simp [hxs]
  refine ⟨hwf, by rw [hrest]; exact h.free, by rw [hrest]; exact h.tail, by rw [hrest]; exact h.head, ?_, hnum,
    ?_, ?_, ?_, ?_, ?_, ?_, ?_, ?_⟩
  · rw [hlen, hrest]; exact h.listed
  · intro i hi
    rw [hrest] at hi
    rw [hbt, hblk]
    split
    · simp
    · exact h.used i hi
  · intro i hi hi'
    rw [hrest] at hi
    rw [hbt, hblk, if_neg]
    · exact h.unused i hi hi'
    · intro hm
      have := ((h.chains e he).2 _ hm).2.1
      rw [h.unused i hi hi'] at this; cases this
  · rw [hrest]
    exact h.slots.sublist (List.Sublist.map _ List.filter_sublist)
  · intro x hx
    refine ⟨(h.chains x (hmem x hx).1).1, fun m hm => ?_⟩
    rw [hother x hx m hm]
    exact (h.chains x (hmem x hx).1).2 m hm
  · intro m hm
    rw [hblk] at hm ⊢
    split at hm
    · cases hm
    · rename_i hme
      rw [if_neg hme]
      obtain ⟨x, hx, ho, hmx⟩ := h.owners m hm
      refine ⟨x, ?_, ho, hmx⟩
      rw [hrest]
      refine List.mem_filter.mpr ⟨hx, ?_⟩
      have : x.slot ≠ e.slot := fun hs => hme (slots_unique h.slots hx he hs ▸ hmx)
      simpa using this
  · intro x hx
    rw [show (x.chain.map fun b => (u.block b).secNo) = x.chain.map fun b => (st.block b).secNo from
      List.map_congr_left fun m hm => by rw [hother x hx m hm]]
    exact h.ascending x (hmem x hx).1
  · rw [← hqueue (fun e => e.oblPrint) hp, ← h.printQueue, hrest]
  · rw [← hqueue (fun e => e.oblPunch) hq, ← h.punchQueue, hrest]

/-- A CLOSED entry without obligations is freed, and the tail moves over SPENT blocks (R55, R57). -/
theorem Store.sound.freed {st : Store} (h : st.sound) {slot : Nat} {e : Entry} (he : st.entry slot = some e)
    (hc : e.state = .closed) (ho : hasObligation e = false) :
    (st.freeIfDone slot).sound ∧ st.freed (st.freeIfDone slot) e ∧ st.sameQueues (st.freeIfDone slot) := by
  obtain ⟨hem, rfl⟩ := Store.entry_mem he
  have hp : e.oblPrint = false ∧ e.oblPunch = false := by
    unfold hasObligation at ho; simp at ho; exact ⟨ho.1.1, ho.1.2⟩
  have hord := h.remove hem hp.1 hp.2
  have hblk : ∀ m, (Store.spend { st with dir := st.dir.filter fun x => x.slot != e.slot } e.chain).block m
      = if m ∈ e.chain then { st.block m with state := .spent } else st.block m := fun m =>
    Store.block_spend e.chain (st := { st with dir := st.dir.filter fun x => x.slot != e.slot }) h.form m
  have hrest := Store.spend_rest e.chain { st with dir := st.dir.filter fun x => x.slot != e.slot }
  have hf : st.freeIfDone e.slot
      = Store.reclaim 256 (Store.spend { st with dir := st.dir.filter fun x => x.slot != e.slot } e.chain) := by
    unfold Store.freeIfDone
    rw [he]
    simp only [hc, ho, and_self, if_true]
    rfl
  rw [hf]
  generalize Store.spend { st with dir := st.dir.filter fun x => x.slot != e.slot } e.chain = u at *
  have hbt : ∀ i, u.behindTail i = st.behindTail i := by intro i; rw [hrest]; rfl
  have hfr : u.free = st.free := by rw [hrest]
  obtain ⟨hs, hd, hh, hq, k, hk, hfree, htail, hback, hkeep, hfin⟩ := hord.reclaim 256 (by omega)
  refine ⟨hs, ⟨by rw [hd, hrest], by rw [hh, hrest], k, by omega, by omega, by rw [htail, hbt], ?_, ?_,
    fun hlt => hfin (by omega)⟩, by rw [hq.1, hrest], by rw [hq.2, hrest]⟩
  · intro i hi
    have := hback i hi
    rw [hbt, hblk] at this
    refine ⟨?_, this.2⟩
    by_cases hm : st.behindTail i ∈ e.chain
    · exact .inl hm
    · rw [if_neg hm] at this; exact .inr this.1
  · intro i hi hi'
    have := hkeep i hi hi'
    rw [hbt, hblk] at this
    exact this

/-- Freeing what is done keeps a store sound. -/
theorem Store.sound.freeIfDone {st : Store} (h : st.sound) (slot : Nat) : (st.freeIfDone slot).sound := by
  cases he : st.entry slot with
  | none => unfold Store.freeIfDone; rw [he]; exact h
  | some e =>
    by_cases hd : e.state = .closed ∧ hasObligation e = false
    · exact (h.freed he hd.1 hd.2).1
    · unfold Store.freeIfDone; rw [he]; simp only [if_neg hd]; exact h

/-- With one entry for each slot, rewriting a slot's entry gives the directory with it. -/
theorem Store.sound.dirWith {st : Store} (h : st.sound) {slot : Nat} {e : Entry} (he : st.entry slot = some e)
    (f : Entry → Entry) (hf : (f e).slot = slot) : st.dir.map (atSlot slot f) = st.dirWith (f e) := by
  obtain ⟨hm, hs⟩ := Store.entry_mem he
  unfold Store.dirWith
  rw [hf]
  exact map_slot h.slots hm hs f

/-- What freeing leaves of an entry just rewritten: the entry as it is while it is not CLOSED or has an
obligation, and a freed entry otherwise (R57). -/
theorem Store.sound.finish {st : Store} (h : st.sound) {slot : Nat} {e : Entry} (he : st.entry slot = some e)
    (f : Entry → Entry) (hf : (f e).slot = slot) (hc : (f e).chain = e.chain) (p q : List Nat)
    (hu : { st with dir := st.dir.map (atSlot slot f), printQ := p, punchQ := q }.sound) :
    (Store.freeIfDone { st with dir := st.dir.map (atSlot slot f), printQ := p, punchQ := q } slot).printQ = p ∧
    (Store.freeIfDone { st with dir := st.dir.map (atSlot slot f), printQ := p, punchQ := q } slot).punchQ = q ∧
    ((f e).state = .closed → hasObligation (f e) = false → st.freed
      (Store.freeIfDone { st with dir := st.dir.map (atSlot slot f), printQ := p, punchQ := q } slot) e) ∧
    (¬ ((f e).state = .closed ∧ hasObligation (f e) = false) →
      Store.freeIfDone { st with dir := st.dir.map (atSlot slot f), printQ := p, punchQ := q } slot
        = { st with dir := st.dirWith (f e), printQ := p, punchQ := q }) := by
  have hue : Store.entry { st with dir := st.dir.map (atSlot slot f), printQ := p, punchQ := q } slot
      = some (f e) := Store.entry_updateEntry (f := f) he hf
  have hfil : (st.dir.map (atSlot slot f)).filter (fun x => x.slot != slot)
      = st.dir.filter fun x => x.slot != slot := by
    rw [h.dirWith he f hf]
    unfold Store.dirWith
    rw [hf]
    clear hue hu he h
    induction st.dir with
    | nil => rfl
    | cons x dir ih =>
      by_cases hx : x.slot = slot
      · simpa [hx, hf] using ih
      · simpa [hx] using ih
  by_cases hd : (f e).state = .closed ∧ hasObligation (f e) = false
  · obtain ⟨-, b, c⟩ := hu.freed hue hd.1 hd.2
    refine ⟨c.1, c.2, fun _ _ => ⟨b.directory.trans ?_, b.head, ?_⟩, fun hn => absurd hd hn⟩
    · rw [hf, (Store.entry_mem he).2]; exact hfil
    · have := b.reclaimed
      rw [hc] at this
      exact this
  · have hk : Store.freeIfDone { st with dir := st.dir.map (atSlot slot f), printQ := p, punchQ := q } slot
        = { st with dir := st.dirWith (f e), printQ := p, punchQ := q } := by
      unfold Store.freeIfDone
      rw [hue]
      simp only [if_neg hd]
      rw [h.dirWith he f hf]
    rw [hk]
    exact ⟨rfl, rfl, fun h1 h2 => absurd ⟨h1, h2⟩ hd, fun _ => rfl⟩

/-! ### Every operation keeps the store sound -/

theorem Store.sound.closeEntry {st : Store} (h : st.sound) (slot : Nat) (r : Option Reason) :
    (st.closeEntry slot r).sound := by
  unfold Store.closeEntry
  refine Store.sound.freeIfDone (h.updateEntry slot _ ?_ ?_ ?_ ?_) slot <;> exact fun _ => rfl

theorem Store.sound.removeObligation {st : Store} (h : st.sound) (o : Obligation) (slot : Nat) :
    (st.removeObligation o slot).sound := by
  have ht : ((st.updateEntry slot (clearObligation o)).leaveQueue o slot).sound :=
    ⟨h.toordered.clear o slot, by cases o <;> exact h.tailLive⟩
  exact ht.freeIfDone slot

theorem Store.sound.abandonEntry {st : Store} (h : st.sound) (slot : Nat) : (st.abandonEntry slot).sound := by
  unfold Store.abandonEntry
  refine Store.sound.freeIfDone (h.updateEntry slot _ ?_ ?_ ?_ ?_) slot <;> exact fun _ => rfl

theorem freeAll_sound (l : List Nat) : ∀ {st : Store}, st.sound → (freeAll st l).sound := by
  induction l with
  | nil => intro st h; exact h
  | cons s l ih => intro st h; exact ih (h.freeIfDone s)

theorem Store.sound.removePunchAll {st : Store} (h : st.sound) : st.removePunchAll.sound := by
  refine freeAll_sound _ ⟨h.toordered.entries (fun e => { e with oblPunch := false }) st.printQ [] (fun _ => rfl)
    (fun _ => rfl) ?_ ?_, h.tailLive⟩
  · exact h.printQueue.trans (queue_map _ (fun e => { e with oblPunch := false }) _ (fun _ => rfl)
      fun _ => rfl).symm
  · rw [List.filter_eq_nil_iff.mpr]
    · rfl
    · intro e he
      obtain ⟨x, -, rfl⟩ := List.mem_map.mp he
      simp

theorem Store.sound.storeSection {st : Store} (h : st.sound) (hf : 0 < st.free) (slot gap : Nat)
    (codes : List Code) : (st.storeSection slot gap codes).sound := by
  cases he : st.entry slot with
  | none =>
    unfold Store.storeSection Store.allocate
    rw [he]
    exact h.updateEntry slot _ (fun _ => rfl) (fun _ => rfl) (fun _ => rfl) fun _ => rfl
  | some e =>
    exact (h.allocate he hf gap codes true).1.updateEntry slot _ (fun _ => rfl) (fun _ => rfl) (fun _ => rfl)
      fun _ => rfl

/-- The open block of an entry is LIVE. -/
theorem Store.sound.openBlock_live {st : Store} (h : st.sound) {slot b : Nat} (hb : st.openBlock slot = some b) :
    (st.block b).state = .live := by
  obtain ⟨e, he, hl, -⟩ := Store.openBlock_some.mp hb
  exact ((h.chains e (Store.entry_mem he).1).2 b (List.mem_of_getLast? hl)).2.1

theorem Store.sound.retouch {st : Store} (h : st.sound) {n : Nat} {b : Block} (hn : (st.block n).state = .live)
    (hb : b.state = .live) (ho : b.owner = (st.block n).owner) (hsec : b.secNo = (st.block n).secNo) :
    (st.setBlock n b).sound := by
  refine ⟨h.toordered.retouch hn hb ho hsec, fun hf => ?_⟩
  show ((st.setBlock n b).block st.tail).state = .live
  rw [Store.block_setBlock h.form]
  split
  · exact hb
  · exact h.tailLive hf

theorem Store.sound.setOpenCodes {st : Store} (h : st.sound) (slot : Nat) (codes : List Code) :
    (st.setOpenCodes slot codes).sound := by
  unfold Store.setOpenCodes
  split
  · exact h
  · rename_i b hb
    exact h.retouch (h.openBlock_live hb) (h.openBlock_live hb) rfl rfl

theorem Store.sound.releaseOpen {st : Store} (h : st.sound) (slot : Nat) (final : Bool) :
    (st.releaseOpen slot final).sound := by
  unfold Store.releaseOpen
  split
  · exact h
  · rename_i b hb
    exact (h.retouch (b := { st.block b with released := true }) (h.openBlock_live hb) (h.openBlock_live hb) rfl
      rfl).updateEntry slot _ (fun _ => rfl) (fun _ => rfl) (fun _ => rfl) fun _ => rfl

/-- A new entry without blocks joins a free slot, and the copy queues its obligations name. -/
theorem Store.sound.append {st : Store} (h : st.sound) (e : Entry) (hs : ∀ x ∈ st.dir, x.slot ≠ e.slot)
    (hc : e.chain = []) :
    { st with
      dir := st.dir ++ [e]
      printQ := if e.oblPrint then st.printQ ++ [e.slot] else st.printQ
      punchQ := if e.oblPunch then st.punchQ ++ [e.slot] else st.punchQ }.sound := by
  refine ⟨⟨h.form, h.free, h.tail, h.head, h.listed, h.numbers, h.used, h.unused, ?_, ?_, ?_, ?_, ?_, ?_⟩,
    h.tailLive⟩
  · show ((st.dir ++ [e]).map fun e => e.slot).Nodup
    rw [List.map_append]
    refine List.nodup_append.mpr ⟨h.slots, by simp, ?_⟩
    intro a ha b hb hab
    obtain ⟨x, hx, rfl⟩ := List.mem_map.mp ha
    simp at hb
    exact hs x hx (hab.trans hb)
  · intro x hx
    rcases List.mem_append.mp hx with hx | hx
    · exact h.chains x hx
    · simp at hx; subst hx; rw [hc]; exact ⟨List.nodup_nil, fun _ hb => by cases hb⟩
  · intro b hb
    obtain ⟨x, hx, ho, hbx⟩ := h.owners b hb
    exact ⟨x, List.mem_append_left _ hx, ho, hbx⟩
  · intro x hx
    rcases List.mem_append.mp hx with hx | hx
    · exact h.ascending x hx
    · simp at hx; subst hx; rw [hc]; exact List.Pairwise.nil
  · show _ = ((st.dir ++ [e]).filter fun e => e.oblPrint).map fun e => e.slot
    rw [List.filter_append, List.map_append, ← h.printQueue]
    cases hp : e.oblPrint <;> simp [hp]
  · show _ = ((st.dir ++ [e]).filter fun e => e.oblPunch).map fun e => e.slot
    rw [List.filter_append, List.map_append, ← h.punchQueue]
    cases hp : e.oblPunch <;> simp [hp]

theorem Store.entry_append {st : Store} {e : Entry} (hs : ∀ x ∈ st.dir, x.slot ≠ e.slot) (p q : List Nat) :
    Store.entry { st with dir := st.dir ++ [e], printQ := p, punchQ := q } e.slot = some e := by
  have hf : st.dir.find? (fun x => x.slot == e.slot) = none := by
    rw [List.find?_eq_none]
    intro x hx
    simpa using hs x hx
  simp [Store.entry, findSlot, List.find?_append, hf]

theorem Store.sound.createReceived {st : Store} (h : st.sound) (hd : st.dir.length < 32) (o n c : Nat)
    (p u : Bool) : (st.createReceived o n c p u).sound := by
  exact h.append { slot := st.freeSlot, outgoing := false, peer := o, number := n, cls := c, state := .receiving
                   chain := [], sections := 0, reason := none, oblPrint := receivedPrint p u, oblPunch := u
                   oblSend := false } (Store.freeSlot_fresh hd) rfl

theorem Store.sound.storeFirst {st : Store} (h : st.sound) (hd : st.dir.length < 32) (hf : 0 < st.free)
    (o n c : Nat) (p u : Bool) (codes : List Code) : (st.storeFirst o n c p u codes).sound :=
  (h.createReceived hd o n c p u).storeSection hf _ _ _

theorem Store.sound.openMessage {st : Store} (h : st.sound) (hd : st.dir.length < 32) (hf : 0 < st.free)
    (d n c : Nat) : (st.openMessage d n c).sound := by
  have hs := Store.freeSlot_fresh hd
  have ha := h.append { slot := st.freeSlot, outgoing := true, peer := d, number := n, cls := c
                        state := .composing, chain := [], sections := 0, reason := none, oblPrint := false
                        oblPunch := false, oblSend := true } hs rfl
  exact (ha.allocate (Store.entry_append (e := { slot := st.freeSlot, outgoing := true, peer := d, number := n
                                                 cls := c, state := .composing, chain := [], sections := 0
                                                 reason := none, oblPrint := false, oblPunch := false
                                                 oblSend := true }) hs st.printQ st.punchQ) hf 0 [] false).1

theorem Store.reset_sound : State.reset.store.sound := by
  refine ⟨⟨rfl, by decide, by decide, by decide, by decide, ?_, ?_, ?_, by decide, ?_, ?_, ?_, rfl, rfl⟩, ?_⟩
  · intro p hp; cases hp
  · intro i hi; exact absurd hi (Nat.not_lt_zero i)
  · intro i _ _; rfl
  · intro e he; cases he
  · intro b hb; cases hb
  · intro e he; cases he
  · intro hf; exact absurd hf (by decide)

end Sys2Proof.Machine
end

