-- ==== Sys2Proof/Laws/Turn.lean ====
section
/-! SUPPORT. What each mechanism unit takes up next: which streams wait, which grant is made, and the steps of
a stream whose turn it is. -/
namespace Sys2Proof.Machine

/-! ### Which streams wait (R151) -/

theorem PrintSide.waits_notices (env : PrintEnv) (x : PrintSide) :
    x.waits env .notices = true ↔ x.print.noticesWait := by
  unfold PrintSide.waits PrintSide.act PrintSide.actNotices PrintUnit.noticesWait
  dsimp only
  cases x.print.noticeScript <;> cases x.print.lostDue <;> cases x.print.notices <;> simp

theorem PrintSide.waits_echo (env : PrintEnv) (x : PrintSide) :
    x.waits env .echo = true ↔ x.print.echoWaits := by
  unfold PrintSide.waits PrintSide.act PrintSide.actEcho PrintUnit.echoWaits
  dsimp only
  cases x.print.echoScript <;> cases x.print.reprint <;> cases x.print.echoFifo <;>
    cases x.print.saved <;> cases x.print.echoLost <;> simp

theorem PrintSide.waits_report (env : PrintEnv) (x : PrintSide) : x.waits env .report = true ↔
    x.print.reportScript ≠ [] ∨ ∃ r, x.journal.report = some r ∧ r.stage ≠ .ended := by
  unfold PrintSide.waits PrintSide.act PrintSide.actReport
  dsimp only
  cases x.print.reportScript with
  | cons e rest => simp
  | nil =>
    cases hr : x.journal.report with
    | none => simp
    | some r => cases hs : r.stage <;> simp [hs]

theorem PrintSide.waits_noCopy (env : PrintEnv) (x : PrintSide) (h : x.print.copy = none) :
    x.waits env .copy = false := by
  simp [PrintSide.waits, PrintSide.act, PrintSide.actCopy, h]

/-- Where the text phase stands, a gap line or a code is left in the block, unless the chain is at its end. -/
theorem CopyPos.onText_spec (st : Store) (chain : List Nat) (c : CopyPos) :
    ((∃ n, chain[(c.onText st chain).block - c.block]? = some n ∧
        ((st.block n).gap > 0 ∧ (c.onText st chain).gapDone = false ∨
          (c.onText st chain).code < (st.block n).codes.length)) ∨
      chain[(c.onText st chain).block - c.block]? = none) ∧ c.block ≤ (c.onText st chain).block := by
  induction chain generalizing c with
  | nil => simp [CopyPos.onText]
  | cons n rest ih =>
    unfold CopyPos.onText
    split
    · rename_i h; exact ⟨.inl ⟨n, by simp, h⟩, Nat.le_refl _⟩
    · obtain ⟨h1, h2⟩ := ih { c with block := c.block + 1, code := 0, gapDone := false }
      simp only at h1 h2
      refine ⟨?_, by omega⟩
      have e : ∀ m, c.block + 1 ≤ m → m - c.block = m - (c.block + 1) + 1 := by intro m hm; omega
      rw [e _ h2, List.getElem?_cons_succ]
      exact h1

/-- The text phase stands at a block with a gap line or a code left exactly when one of the rest of the chain
has one. -/
theorem CopyPos.onText_left (st : Store) (e : Entry) (c : CopyPos) :
    (e.chain[(c.onText st (e.chain.drop c.block)).block]? ≠ none) ↔ st.textLeft e c := by
  suffices H : ∀ (l : List Nat) (c : CopyPos), e.chain.drop c.block = l →
      ((e.chain[(c.onText st l).block]? ≠ none) ↔ st.textLeft e c) from H _ c rfl
  intro l
  induction l with
  | nil =>
    intro c hl
    have hlen : e.chain.length ≤ c.block := by simpa using hl
    have hn : e.chain[c.block]? = none := List.getElem?_eq_none hlen
    simp only [CopyPos.onText, hn, ne_eq, not_true, false_iff]
    rintro ⟨i, n, hi, hc, -⟩
    rw [List.getElem?_eq_none (Nat.le_trans hlen hi)] at hc
    cases hc
  | cons n rest ih =>
    intro c hl
    have hb : e.chain[c.block]? = some n := by
      have := congrArg (fun l => l[0]?) hl
      simpa using this
    have hrest : e.chain.drop (c.block + 1) = rest := by
      rw [← List.tail_drop, hl, List.tail_cons]
    unfold CopyPos.onText
    split
    · rename_i h
      simp only [hb, ne_eq, reduceCtorEq, not_false_iff, true_iff]
      exact ⟨c.block, n, Nat.le_refl _, hb, by simpa using h⟩
    · rename_i h
      rw [ih _ hrest]
      constructor
      · rintro ⟨i, m, hi, hc, hm⟩
        simp only at hi hm
        refine ⟨i, m, by omega, hc, ?_⟩
        have : i ≠ c.block := by omega
        simp only [this, if_false, false_imp_iff, and_true]
        simp only [imp_true_iff, and_true, ite_self] at hm
        exact hm
      · rintro ⟨i, m, hi, hc, hm⟩
        by_cases hib : i = c.block
        · subst hib
          rw [hb] at hc; cases hc
          exact absurd (by simpa using hm) h
        · refine ⟨i, m, by simp only; omega, hc, ?_⟩
          simp only [hib, if_false, false_imp_iff, and_true] at hm
          simpa using hm

/-- When the copy waits (R151). -/
theorem PrintSide.waits_copy (env : PrintEnv) (x : PrintSide) : x.waits env .copy = true ↔
    ∃ c, x.print.copy = some c ∧ (c.script ≠ [] ∨ c.phase = .bell ∨ c.phase = .page ∨ c.phase = .finish ∨
      c.phase = .banner ∧ (x.store.entry c.entry).isSome = true ∨
      c.phase = .text ∧ ∃ e, x.store.entry c.entry = some e ∧ (x.store.textLeft e c ∨ e.state = .closed)) := by
  unfold PrintSide.waits PrintSide.act PrintSide.actCopy
  dsimp only
  cases x.print.copy with
  | none => simp
  | some c =>
    simp only [Option.some.injEq, exists_eq_left']
    cases hsc : c.script with
    | cons a l => simp
    | nil =>
      cases hph : c.phase
      · simp
      · simp
      · simp [PrintSide.actCopyBanner]
      · simp only [ne_eq, not_true, false_or, reduceCtorEq, true_and, false_and]
        unfold PrintSide.actCopyText
        cases he : x.store.entry c.entry with
        | none => simp
        | some e =>
          simp only [Option.some.injEq, exists_eq_left']
          rw [← CopyPos.onText_left]
          have hsp := CopyPos.onText_spec x.store (e.chain.drop c.block) c
          rw [List.getElem?_drop] at hsp
          have hble : c.block + ((c.onText x.store (e.chain.drop c.block)).block - c.block)
              = (c.onText x.store (e.chain.drop c.block)).block := by have := hsp.2; omega
          rw [hble] at hsp
          cases hch : e.chain[(c.onText x.store (e.chain.drop c.block)).block]? with
          | none =>
            simp only [ne_eq, not_true, false_or]
            unfold PrintSide.actCopyEnd
            by_cases hcl : e.state = .closed
            · simp only [hcl, if_true, iff_true]
              split
              · rfl
              · split <;> rfl
            · simp [hcl]
          | some n =>
            simp only [ne_eq, reduceCtorEq, not_false_iff, true_or, iff_true]
            rw [hch] at hsp
            by_cases hg : (x.store.block n).gap > 0 ∧ (c.onText x.store (e.chain.drop c.block)).gapDone = false
            · rw [if_pos hg]; rfl
            · rw [if_neg hg]
              obtain ⟨m, hm, h⟩ := hsp.1.resolve_right (by simp)
              cases hm
              have hlt := h.resolve_left hg
              simp [hlt]
      · simp

/-- Waiting reads neither the carriage nor what is in flight or due. -/
theorem PrintSide.waits_congr {env : PrintEnv} {x y : PrintSide} (st : Stream) (h1 : y.store = x.store)
    (h2 : y.journal = x.journal) (h3 : y.print.noticeScript = x.print.noticeScript)
    (h4 : y.print.lostDue = x.print.lostDue) (h5 : y.print.notices = x.print.notices)
    (h6 : y.print.echoScript = x.print.echoScript) (h7 : y.print.reprint = x.print.reprint)
    (h8 : y.print.echoFifo = x.print.echoFifo) (h9 : y.print.copy = x.print.copy)
    (h10 : y.print.reportScript = x.print.reportScript) : y.waits env st = x.waits env st := by
  rw [Bool.eq_iff_iff]
  cases st
  · rw [waits_notices, waits_notices, PrintUnit.noticesWait, PrintUnit.noticesWait, h3, h4, h5]
  · rw [waits_echo, waits_echo, PrintUnit.echoWaits, PrintUnit.echoWaits, h6, h7, h8]
  · rw [waits_copy, waits_copy, h1, h9]
  · rw [waits_report, waits_report, h2, h10]

/-- The first of the streams, by priority, that waits (R153). -/
theorem PrintSide.firstWaiting_eq (env : PrintEnv) (x : PrintSide) : x.firstWaiting env =
    if x.waits env .notices = true then some .notices
    else if x.waits env .echo = true then some .echo
    else if x.waits env .copy = true then some .copy
    else if x.waits env .report = true then some .report else none := by
  unfold PrintSide.firstWaiting
  simp only [List.find?_cons, List.find?_nil]
  cases x.waits env .notices <;> cases x.waits env .echo <;> cases x.waits env .copy <;>
    cases x.waits env .report <;> rfl

theorem PrintSide.firstWaiting_waits {env : PrintEnv} {x : PrintSide} {st : Stream}
    (h : x.firstWaiting env = some st) : x.waits env st = true := by
  unfold PrintSide.firstWaiting at h
  exact List.find?_some h

theorem PrintSide.firstWaiting_none {env : PrintEnv} {x : PrintSide} (h : x.firstWaiting env = none)
    (st : Stream) : x.waits env st = false := by
  unfold PrintSide.firstWaiting at h
  have := List.find?_eq_none.mp h st (by cases st <;> simp)
  simpa using this

theorem PrintSide.othersWait_iff (env : PrintEnv) (x : PrintSide) (h : x.waits env .echo = false) :
    x.othersWait env = true ↔ x.firstWaiting env ≠ none := by
  rw [PrintSide.firstWaiting_eq, h]
  unfold PrintSide.othersWait
  simp only [List.any_cons, List.any_nil, Bool.or_false, Bool.or_eq_true]
  cases x.waits env .notices <;> cases x.waits env .copy <;> cases x.waits env .report <;> simp

/-! ### Running the print unit -/

theorem PrintSide.run_succ {env : PrintEnv} {x y : PrintSide} (h : x.step env = some y) (k : Nat) :
    PrintSide.run env (k + 1) x = PrintSide.run env k y := by
  rw [PrintSide.run, h]

theorem PrintSide.run_last {env : PrintEnv} {x y : PrintSide} (h : x.step env = some y)
    (hy : y.step env = none) (k : Nat) : PrintSide.run env (k + 1) x = y := by
  rw [PrintSide.run_succ h, PrintSide.run_still _ _ _ hy]

/-- The print unit does one thing and no more. -/
theorem PrintSide.settles {env : PrintEnv} {x y : PrintSide} (h : x.step env = some y)
    (hy : y.step env = none) : PrintSide.run env printFuel x = y :=
  PrintSide.run_last h hy (printFuel - 1)

/-- The copy has its position, or no entry waits for one. -/
def PrintSide.placed (x : PrintSide) : Prop := x.print.copy.isSome = true ∨ x.store.printQ = []

/-- Once a copy has its position, the print unit judges a grant point, or keeps it in the stall, or issues. -/
theorem PrintSide.step_placed (env : PrintEnv) (x : PrintSide) (h : x.placed) : x.step env =
    if x.grantPoint env = true ∧ x.print.stalled = false then some (x.judge env)
    else if x.grantPoint env = true ∧ x.print.grantDue = false then
      some { x with print := { x.print with grantDue := true } }
    else if x.print.flight ≠ .none then none
    else x.issueNext env := by
  unfold PrintSide.step
  split
  · rename_i slot rest hc hq
    rcases h with h | h
    · rw [hc] at h; simp at h
    · rw [hq] at h; simp at h
  · rfl

/-- In the stall nothing is issued unless the feed of a PAPER FEED is to end it (R165, R166). -/
theorem PrintSide.issueNext_stalled (env : PrintEnv) (x : PrintSide) (h : x.print.stalled = true)
    (hn : x.print.stallFeed = false ∨ x.print.paperPresent = false) : x.issueNext env = none := by
  unfold PrintSide.issueNext
  rw [if_pos h, if_neg]
  rintro ⟨a, b⟩
  rcases hn with h | h <;> simp [h] at a b

/-- A stream that holds the printer and waits, with no grant point kept, meets none. -/
theorem PrintSide.grantPoint_waits (env : PrintEnv) (x : PrintSide) (st : Stream)
    (hh : x.print.holder = some st) (hg : x.print.grantDue = false) (hw : x.waits env st = true) :
    x.grantPoint env = false := by
  simp [PrintSide.grantPoint, PrintSide.grantArises, hh, hg, hw]

/-- The holder's turn: nothing is in flight or stands before its next operation, and the open line, if there is
one, is its own. -/
structure PrintSide.ready (x : PrintSide) (st : Stream) : Prop where
  flight : x.print.flight = .none
  paper : x.print.stalled = false
  fed : x.print.owedFeeds = 0
  lines : x.print.pre = []
  judged : x.print.grantDue = false
  placed : x.placed
  holder : x.print.holder = some st
  line : x.print.openLine = false ∨ x.print.owner = some st

/-- In its turn the holder does its next thing. -/
theorem PrintSide.ready_step {env : PrintEnv} {x y : PrintSide} {st : Stream} (h : x.ready st)
    (ha : x.act env st = some y) : x.step env = some y := by
  have hw : x.waits env st = true := by simp [PrintSide.waits, ha]
  have hm : x.print.mustClose st = false := by
    rcases h.line with hl | hl <;> simp [PrintUnit.mustClose, hl]
  rw [x.step_placed env h.placed, x.grantPoint_waits env st h.holder h.judged hw]
  simp [h.flight, PrintSide.issueNext, h.paper, h.fed, h.lines, h.holder, PrintSide.holderTurn, ha, hm]

/-- An operation of the holder in flight: the print unit does nothing more. -/
theorem PrintSide.issued_still {env : PrintEnv} {y : PrintSide} {st : Stream} {o : MechOp} {b : Bool}
    (hf : y.print.flight = .op o (.stream st b)) (hh : y.print.holder = some st) (hp : y.placed) :
    y.step env = none :=
  y.step_in_flight env (by rw [hf]; simp) hp (y.grantPoint_own env o st b hf hh)

/-- In its turn the holder issues one operation and no more. -/
theorem PrintSide.ready_run {env : PrintEnv} {x y : PrintSide} {st : Stream} {o : MechOp} {b : Bool}
    (h : x.ready st) (ha : x.act env st = some y) (hf : y.print.flight = .op o (.stream st b))
    (hh : y.print.holder = some st) (hp : y.placed) (k : Nat) : PrintSide.run env (k + 1) x = y :=
  PrintSide.run_last (PrintSide.ready_step h ha) (PrintSide.issued_still hf hh hp) k

/-! ### Issuing with the motor running -/

/-- An operation that does not wrap. -/
theorem PrintSide.issue_plain {env : PrintEnv} {x c : PrintSide} {st : Stream} {item : Bool} {o : MechOp}
    (ht : x.print.turning) (hw : ¬ (strikes o = true ∧ env.settings.width + 1 ≤ x.print.column)) :
    x.issue env st item o c = { c with print := { c.print with
      flight := .op (if o = .feed then feedOp env.settings.pageLength x.print.pageLine else o)
        (.stream st item) } } := by
  unfold PrintSide.issue PrintUnit.before
  simp only [ht.1, ht.2, Bool.false_eq_true, if_false]
  rw [if_neg hw]

/-- An operation that wraps: the line end comes first, and a space is dropped by it (R147). -/
theorem PrintSide.issue_wrap {env : PrintEnv} {x c : PrintSide} {st : Stream} {item : Bool} {o : MechOp}
    (ht : x.print.turning) (hw : strikes o = true ∧ env.settings.width + 1 ≤ x.print.column) :
    x.issue env st item o c = { (if o = .space then c else x) with print :=
      { (if o = .space then c else x).print with pre := [.cr, .feed], preFor := .stream st false } } := by
  unfold PrintSide.issue PrintUnit.before
  simp only [ht.1, ht.2, Bool.false_eq_true, if_false]
  rw [if_pos hw]

/-- In its turn a stream whose next thing is an operation that does not wrap issues it and no more. -/
theorem PrintSide.issue_run {env : PrintEnv} {x c : PrintSide} {st : Stream} {item : Bool} {o : MechOp}
    (hr : x.ready st) (ht : x.print.turning)
    (hw : ¬ (strikes o = true ∧ env.settings.width + 1 ≤ x.print.column))
    (ha : x.act env st = some (x.issue env st item o c)) (hh : c.print.holder = some st) (hp : c.placed)
    (k : Nat) : PrintSide.run env (k + 1) x = { c with print := { c.print with
      flight := .op (if o = .feed then feedOp env.settings.pageLength x.print.pageLine else o)
        (.stream st item) } } := by
  rw [PrintSide.issue_plain ht hw] at ha
  exact PrintSide.ready_run hr ha rfl hh hp k

/-- The next operation of a wrap or line end of the holder's. -/
theorem PrintSide.pre_step {env : PrintEnv} {y : PrintSide} {st : Stream} {o : MechOp} {rest : List MechOp}
    (hf : y.print.flight = .none) (hs : y.print.stalled = false) (ho : y.print.owedFeeds = 0) (hp : y.placed)
    (hh : y.print.holder = some st) (hpre : y.print.pre = o :: rest)
    (hfor : y.print.preFor = .stream st false) (ht : y.print.turning) :
    y.step env = some { y with print := { y.print with
      pre := rest
      flight := .op (if o = .feed then feedOp env.settings.pageLength y.print.pageLine else o)
        (.stream st false) } } := by
  have hg : y.grantPoint env = false := by
    simp [PrintSide.grantPoint, PrintUnit.holderActs, hpre, hfor, PrintUnit.servesHolder, hh]
  rw [PrintSide.step_placed _ _ hp, hg]
  simp [hf, PrintSide.issueNext, hs, ho, hpre, PrintUnit.issuePre, PrintUnit.before, ht.1, ht.2, hfor]

/-- In its turn a stream that begins a generated line on a closed line issues the line's first glyph. -/
theorem PrintSide.line_run {env : PrintEnv} {x y c : PrintSide} {st : Stream} {g : Nat}
    (hr : x.ready st) (ha : x.act env st = some (x.beginLine st y)) (ho : x.print.openLine = false)
    (ht : x.print.turning) (hy : y.ready st) (hty : y.print.turning)
    (hcol : y.print.column ≤ env.settings.width)
    (hay : y.act env st = some (y.issue env st false (.glyph g) c)) (hh : c.print.holder = some st)
    (hp : c.placed) (k : Nat) : PrintSide.run env (k + 2) x
      = { c with print := { c.print with flight := .op (.glyph g) (.stream st false) } } := by
  have e : x.beginLine st y = y := by
    simp [PrintSide.beginLine, ho, PrintUnit.before, ht.1, ht.2]
  rw [e] at ha
  rw [PrintSide.run_succ (PrintSide.ready_step hr ha),
    PrintSide.issue_run hy hty (by simp [strikes]; omega) hay hh hp]
  rfl

/-- A stream that begins a generated line while its own line is open closes that line first (R5, R148). -/
theorem PrintSide.close_run {env : PrintEnv} {x y : PrintSide} {st : Stream} {o : MechOp} {rest : List MechOp}
    (hr : x.ready st) (ha : x.act env st = some (x.beginLine st y)) (ho : x.print.openLine = true)
    (ht : x.print.turning) (hcl : closeOps x.print.column = o :: rest) (k : Nat) :
    PrintSide.run env (k + 2) x = { x with print := { x.print with
      pre := rest, preFor := .stream st false
      flight := .op (if o = .feed then feedOp env.settings.pageLength x.print.pageLine else o)
        (.stream st false) } } := by
  have e : x.beginLine st y
      = { x with print := { x.print with pre := o :: rest, preFor := .stream st false } } := by
    unfold PrintSide.beginLine; rw [if_pos ho, hcl]
  rw [e] at ha
  rw [PrintSide.run_succ (PrintSide.ready_step hr ha)]
  exact PrintSide.run_last
    (PrintSide.pre_step (y := { x with print := { x.print with pre := o :: rest, preFor := .stream st false } })
      hr.flight hr.paper hr.fed hr.placed hr.holder rfl rfl ht)
    (PrintSide.issued_still (st := st) rfl hr.holder hr.placed) k

/-- A code that strikes (R2, R4). -/
theorem codeAct_glyph {c : Code} {cs : PrintCase} (h : 4 ≤ c.val) (h9 : c.val ≤ 29)
    (h' : ¬ (c.val = 25 ∧ cs = .figures)) :
    codeAct c cs = .op (.glyph (if cs = .letters then c.val - 4 else c.val + 22)) := by
  unfold codeAct
  rw [if_neg (by omega), if_neg (by omega), if_neg (by omega), if_neg (by omega)]
  cases cs
  · rfl
  · have : c.val ≠ 25 := fun e => h' ⟨e, rfl⟩
    simp [this]

/-- With nothing in flight, a stream that holds the printer, or is granted it, comes to its turn. -/
theorem State.printTurn_ready {s : State} {st : Stream} (h : s.printTurn st) :
    ∃ (ei : Option Nat) (k : Nat) (x : PrintSide),
      x = { s.printSide with print := { s.print with holder := some st, echoIdle := ei } } ∧ x.ready st ∧
      PrintSide.run s.printEnv printFuel s.printSide = PrintSide.run s.printEnv (k + 3) x := by
  have hr : ∀ ei, PrintSide.ready
      { s.printSide with print := { s.print with holder := some st, echoIdle := ei } } st :=
    fun ei => ⟨h.flight, h.paper, h.fed, h.lines, h.judged, h.placed, rfl, h.line⟩
  have hp : s.printSide.placed := h.placed
  rcases h.holder with hh | ⟨hn, hw⟩
  · have e : s.printSide
        = { s.printSide with print := { s.print with holder := some st, echoIdle := s.print.echoIdle } } := by
      rw [← hh]; rfl
    exact ⟨s.print.echoIdle, printFuel - 3, s.printSide, e, e ▸ hr s.print.echoIdle, rfl⟩
  · refine ⟨if st = .echo then s.print.echoIdle else none, printFuel - 4, _, rfl, hr _, ?_⟩
    refine PrintSide.run_succ (k := printFuel - 1) ?_
    have hg : s.printSide.grantPoint s.printEnv = true := by
      have : s.printSide.grantArises s.printEnv = true := by
        unfold PrintSide.grantArises
        rw [show s.printSide.print.holder = none from hn, hw]
        rfl
      have ha : s.printSide.print.holderActs = false := by
        unfold PrintUnit.holderActs
        rw [show s.printSide.print.flight = .none from h.flight, show s.printSide.print.pre = [] from h.lines]
        rfl
      unfold PrintSide.grantPoint
      rw [this, ha]
      simp
    have he : s.printSide.print.echoStays = false := by
      unfold PrintUnit.echoStays
      rw [show s.printSide.print.holder = none from hn]
      rfl
    rw [PrintSide.step_placed _ _ hp, if_pos ⟨hg, h.paper⟩]
    unfold PrintSide.judge
    rw [he]
    simp only [Bool.false_eq_true, false_and, if_false, PrintSide.grant, hw, Option.some.injEq]
    rw [← h.judged]
    rfl

/-- What settling leaves at the printer. -/
theorem State.settle_print {s : State} (h : s.panel.phase = .done) :
    s.settle.print = (PrintSide.run s.printEnv printFuel s.printSide).print := by
  unfold State.settle
  rw [if_pos ((State.live_iff s).mpr h)]
  rfl

theorem State.settle_bell {s : State} (h : s.panel.phase = .done) :
    s.settle.bell = (PrintSide.run s.printEnv printFuel s.printSide).bell := by
  unfold State.settle
  rw [if_pos ((State.live_iff s).mpr h)]
  rfl

theorem State.settle_journal {s : State} (h : s.panel.phase = .done) :
    s.settle.journal = (PrintSide.run s.printEnv printFuel s.printSide).journal := by
  unfold State.settle
  rw [if_pos ((State.live_iff s).mpr h)]
  rfl

/-! ### The store under the print unit -/

theorem Store.reclaim_punchQ (k : Nat) (st : Store) : (Store.reclaim k st).punchQ = st.punchQ := by
  induction k generalizing st with
  | zero => rfl
  | succ k ih =>
    unfold Store.reclaim
    split
    · rw [ih]; rfl
    · rfl

theorem Store.spend_punchQ (l : List Nat) (st : Store) : (st.spend l).punchQ = st.punchQ := by
  induction l generalizing st with
  | nil => rfl
  | cons a l ih => unfold Store.spend; rw [ih]; rfl

theorem Store.freeIfDone_punchQ (st : Store) (slot : Nat) : (st.freeIfDone slot).punchQ = st.punchQ := by
  unfold Store.freeIfDone
  split
  · rfl
  · split
    · rw [Store.reclaim_punchQ, Store.spend_punchQ]
    · rfl

/-- What a removed obligation leaves of the punch queue. -/
theorem Store.removeObligation_punchQ (st : Store) (o : Obligation) (slot : Nat) :
    (st.removeObligation o slot).punchQ
      = if o = .punch then st.punchQ.filter (fun x => x != slot) else st.punchQ := by
  unfold Store.removeObligation
  rw [Store.freeIfDone_punchQ]
  cases o <;> rfl

theorem PrintSide.issue_store (env : PrintEnv) (st : Stream) (item : Bool) (o : MechOp) (x c : PrintSide)
    (h : c.store = x.store) : (x.issue env st item o c).store = x.store := by
  unfold PrintSide.issue
  split
  · rfl
  · split
    · dsimp only; split
      · exact h
      · rfl
    · exact h

theorem PrintSide.beginLine_store (st : Stream) (x b : PrintSide) (h : b.store = x.store) :
    (x.beginLine st b).store = x.store := by
  unfold PrintSide.beginLine
  split
  · rfl
  · split
    · rfl
    · exact h

theorem PrintSide.issueElem_store (env : PrintEnv) (st : Stream) (e : Elem) (x c : PrintSide)
    (h : c.store = x.store) : (x.issueElem env st e c).store = x.store := by
  unfold PrintSide.issueElem
  split <;> first | exact PrintSide.issue_store env st _ _ x c h | exact h

/-- What the streams other than the store copy leave alone: the store and the copy's position. -/
def PrintSide.copies (x : PrintSide) : Store × Option CopyPos := (x.store, x.print.copy)

theorem PrintUnit.before_copy {p q : PrintUnit} (h : p.before = some q) : q.copy = p.copy := by
  rcases p.before_some q h with ⟨-, -, rfl⟩ | ⟨-, rfl⟩ <;> rfl

theorem PrintSide.issue_copies (env : PrintEnv) (st : Stream) (item : Bool) (o : MechOp) (x c : PrintSide)
    (h : c.copies = x.copies) : (x.issue env st item o c).copies = x.copies := by
  rcases PrintSide.issue_cases env st item o x c with ⟨p, hp, e⟩ | ⟨-, -, y, hy, e⟩ | ⟨-, q, -, e⟩
  · rw [e]; exact congrArg (Prod.mk x.store) (PrintUnit.before_copy hp)
  · rw [e]
    rcases hy with rfl | rfl
    · rfl
    · exact h
  · rw [e]; exact h

theorem PrintSide.beginLine_copies (st : Stream) (x b : PrintSide) (h : b.copies = x.copies) :
    (x.beginLine st b).copies = x.copies := by
  rcases PrintSide.beginLine_cases st x b with ⟨-, e⟩ | ⟨-, p, hp, e⟩ | ⟨-, e⟩
  · rw [e]; rfl
  · rw [e]; exact congrArg (Prod.mk x.store) (PrintUnit.before_copy hp)
  · rw [e]; exact h

theorem PrintSide.issueElem_copies (env : PrintEnv) (st : Stream) (e : Elem) (x c : PrintSide)
    (h : c.copies = x.copies) : (x.issueElem env st e c).copies = x.copies := by
  rcases PrintSide.issueElem_cases env st e x c with ⟨o, e⟩ | e
  · rw [e]; exact PrintSide.issue_copies env st _ _ x c h
  · rw [e]; exact h

/-- The store copy changes the store only by removing its own PRINT obligation at its finish (R161). -/
theorem PrintSide.actCopy_store {env : PrintEnv} {x y : PrintSide} (h : x.actCopy env = some y) :
    y.store = x.store ∨
      ∃ c, x.print.copy = some c ∧ y.store = x.store.removeObligation .print c.entry := by
  unfold PrintSide.actCopy at h
  split at h
  · cases h
  · rename_i c hc
    split at h
    · cases h; exact .inl (PrintSide.issueElem_store _ _ _ _ _ rfl)
    · split at h
      · cases h; split <;> exact .inl rfl
      · cases h
        unfold PrintSide.actCopyPage
        split
        · exact .inl (PrintSide.issue_store _ _ _ _ _ _ rfl)
        · exact .inl rfl
      · unfold PrintSide.actCopyBanner at h
        obtain ⟨e, -, rfl⟩ := Option.map_eq_some_iff.mp h
        exact .inl (PrintSide.beginLine_store _ _ _ rfl)
      · unfold PrintSide.actCopyText at h
        split at h
        · cases h
        · have hent : ∀ l (c : CopyPos), (c.onText x.store l).entry = c.entry := by
            intro l
            induction l with
            | nil => intro c; rfl
            | cons n l ih => intro c; unfold CopyPos.onText; split
                             · rfl
                             · rw [ih]
          dsimp only at h
          split at h
          · unfold PrintSide.actCopyEnd at h
            split at h
            · split at h
              · cases h; exact .inl (PrintSide.beginLine_store _ _ _ rfl)
              · split at h
                · cases h; exact .inl rfl
                · cases h; exact .inr ⟨c, hc, by rw [PrintSide.finishCopy, hent]⟩
            · cases h
          · split at h
            · cases h; exact .inl (PrintSide.beginLine_store _ _ _ rfl)
            · obtain ⟨code, -, rfl⟩ := Option.map_eq_some_iff.mp h
              unfold PrintSide.actCopyCode
              dsimp only
              split <;> first | exact .inl (PrintSide.issue_store _ _ _ _ _ _ rfl) | exact .inl rfl
      · cases h; exact .inr ⟨c, hc, rfl⟩

theorem PrintSide.actNotices_copies {env : PrintEnv} {x y : PrintSide} (h : x.actNotices env = some y) :
    y.copies = x.copies := by
  unfold PrintSide.actNotices at h
  split at h
  · cases h; exact PrintSide.issueElem_copies _ _ _ _ _ rfl
  · split at h
    · cases h; exact PrintSide.beginLine_copies _ _ _ rfl
    · split at h
      · cases h
      · cases h; exact PrintSide.beginLine_copies _ _ _ rfl

theorem PrintSide.actEcho_copies {env : PrintEnv} {x y : PrintSide} (h : x.actEcho env = some y) :
    y.copies = x.copies := by
  unfold PrintSide.actEcho at h
  split at h
  · cases h; exact PrintSide.issueElem_copies _ _ _ _ _ rfl
  · split at h
    · cases h; exact PrintSide.issue_copies _ _ _ _ _ _ rfl
    · split at h
      · cases h
      · split at h
        · cases h; rfl
        · split at h
          · cases h; exact PrintSide.beginLine_copies _ _ _ rfl
          · cases h
            have hp : x.print.popEcho.copy = x.print.copy := by unfold PrintUnit.popEcho; split <;> rfl
            have hc : ∀ p : PrintUnit, p.copy = x.print.popEcho.copy →
                PrintSide.copies { x with print := p } = x.copies :=
              fun p h => congrArg (Prod.mk x.store) (h.trans hp)
            unfold PrintSide.actEchoItem
            split
            · dsimp only
              split
              · exact hc _ rfl
              · exact hc _ rfl
              · exact PrintSide.issue_copies _ _ _ _ _ _ (hc _ rfl)
            · exact PrintSide.issue_copies _ _ _ _ _ _ (hc _ rfl)
            · exact PrintSide.beginLine_copies _ _ _ (hc _ rfl)
            · exact PrintSide.beginLine_copies _ _ _ (hc _ rfl)

theorem PrintSide.actReport_copies {env : PrintEnv} {x y : PrintSide} (h : x.actReport env = some y) :
    y.copies = x.copies := by
  unfold PrintSide.actReport at h
  split at h
  · cases h; exact PrintSide.issueElem_copies _ _ _ _ _ rfl
  · split at h
    · cases h
    · split at h
      · cases h; exact PrintSide.beginLine_copies _ _ _ rfl
      · cases h
        unfold PrintSide.actEntries
        dsimp only
        split
        · exact PrintSide.beginLine_copies _ _ _ rfl
        · split
          · exact PrintSide.beginLine_copies _ _ _ rfl
          · split
            · exact PrintSide.beginLine_copies _ _ _ rfl
            · split
              · rfl
              · exact PrintSide.beginLine_copies _ _ _ rfl
      · cases h; exact PrintSide.beginLine_copies _ _ _ rfl
      · cases h

/-- The print unit changes the store only where a copy finishes, and begins a copy only where one waits (R159,
R161). -/
theorem PrintSide.step_copies {env : PrintEnv} {x y : PrintSide} (h : x.step env = some y) :
    y.copies = x.copies ∨
      x.print.copy = none ∧ y.store = x.store ∧ (∃ slot, x.store.printQ.head? = some slot) ∨
      ∃ c, x.print.copy = some c ∧
        (y.store = x.store ∨ y.store = x.store.removeObligation .print c.entry) := by
  rcases PrintSide.step_cases h with ⟨hc, slot, hs, rfl⟩ | ⟨-, -, rfl⟩ | ⟨-, -, -, rfl⟩ | ⟨-, hi⟩
  · exact .inr (.inl ⟨hc, rfl, slot, hs⟩)
  · left
    unfold PrintSide.judge
    split
    · rfl
    · split <;> rfl
  · exact .inl rfl
  · have hb : ∀ p q : PrintUnit, p.before = some q → p.copy = x.print.copy →
        PrintSide.copies { x with print := q } = x.copies :=
      fun p q hb hp => congrArg (Prod.mk x.store) ((PrintUnit.before_copy hb).trans hp)
    have hw : PrintSide.copies { x with print := x.print.issueOwed env } = x.copies := by
      unfold PrintUnit.issueOwed
      split
      · rename_i q hq; exact hb _ q hq rfl
      · rfl
    unfold PrintSide.issueNext at hi
    split at hi
    · split at hi <;> cases hi
      exact .inl hw
    · split at hi
      · cases hi; exact .inl hw
      · split at hi
        · rename_i o rest hpre
          cases hi
          left
          unfold PrintUnit.issuePre
          split
          · rename_i q hq; exact hb _ q hq rfl
          · rfl
        · obtain ⟨st, -, hi⟩ := Option.bind_eq_some_iff.mp hi
          obtain ⟨z, hz, rfl⟩ := Option.map_eq_some_iff.mp hi
          split
          · exact .inl rfl
          · cases st
            · exact .inl (PrintSide.actNotices_copies hz)
            · exact .inl (PrintSide.actEcho_copies hz)
            · obtain ⟨c, hc⟩ : ∃ c, x.print.copy = some c := by
                cases hc : x.print.copy with
                | none => simp [PrintSide.act, PrintSide.actCopy, hc] at hz
                | some c => exact ⟨c, rfl⟩
              refine .inr (.inr ⟨c, hc, ?_⟩)
              rcases PrintSide.actCopy_store hz with h | ⟨c', hc', h⟩
              · exact .inl h
              · rw [hc] at hc'; cases hc'; exact .inr h
            · exact .inl (PrintSide.actReport_copies hz)

theorem PrintSide.step_store {env : PrintEnv} {x y : PrintSide} (h : x.step env = some y) :
    y.store = x.store ∨
      ∃ c, x.print.copy = some c ∧ y.store = x.store.removeObligation .print c.entry := by
  rcases PrintSide.step_copies h with h | ⟨-, h, -⟩ | ⟨c, hc, h | h⟩
  · exact .inl (congrArg Prod.fst h)
  · exact .inl h
  · exact .inl h
  · exact .inr ⟨c, hc, h⟩

/-- What the print unit does leaves the punch queue alone. -/
theorem State.settlePrint_punchQ (s : State) : s.settlePrint.store.punchQ = s.store.punchQ := by
  refine PrintSide.run_keeps s.printEnv (fun x => x.store.punchQ = s.store.punchQ) ?_ printFuel s.printSide rfl
  intro x y hx hs
  rcases PrintSide.step_store hs with h | ⟨c, -, h⟩
  · rw [h, hx]
  · rw [h, Store.removeObligation_punchQ]; exact hx

/-- With an operation or motor command in flight the print unit leaves the store alone. -/
theorem State.settlePrint_store {s : State} (h : s.print.flight ≠ .none) : s.settlePrint.store = s.store := by
  refine (PrintSide.run_keeps s.printEnv (fun x => x.store = s.store ∧ x.print.flight ≠ .none) ?_
    printFuel s.printSide ⟨rfl, h⟩).1
  rintro x y ⟨hx, hf⟩ hs
  obtain ⟨c, hd, g, ei, sv, pr, pf, rfl⟩ := PrintSide.step_holds hf hs
  exact ⟨hx, hf⟩

/-- What the print unit does leaves the store alone while something is in flight, or no copy is in progress and
none waits. -/
theorem State.printKeepsStore.settlePrint {s : State} (h : s.printKeepsStore) :
    s.settlePrint.store = s.store := by
  rcases h with h | ⟨hc, hq⟩
  · exact State.settlePrint_store h
  · refine congrArg Prod.fst (PrintSide.run_keeps s.printEnv (fun x => x.copies = s.printSide.copies) ?_
      printFuel s.printSide rfl)
    intro x y hx hs
    have hxc : x.print.copy = none := (congrArg Prod.snd hx).trans hc
    have hxs : x.store = s.store := congrArg Prod.fst hx
    rcases PrintSide.step_copies hs with h | ⟨-, -, slot, h⟩ | ⟨c, h, -⟩
    · exact h.trans hx
    · rw [hxs, hq] at h; cases h
    · rw [hxc] at h; cases h

/-! ### Running the punch unit -/

theorem PunchSide.run_succ {l : Nat} {r : Bool} {x y : PunchSide} (h : x.step l r = some y) (k : Nat) :
    PunchSide.run l r (k + 1) x = PunchSide.run l r k y := by
  rw [PunchSide.run, h]

/-- The punch unit does one thing and no more. -/
theorem PunchSide.run_last {l : Nat} {r : Bool} {x y : PunchSide} (h : x.step l r = some y)
    (hy : y.step l r = none) (k : Nat) : PunchSide.run l r (k + 1) x = y := by
  rw [PunchSide.run_succ h, PunchSide.run_still _ _ _ _ hy]

/-- With no copy to begin, nothing in flight, no turning off, no closing leader over and no stall, the punch
unit issues. -/
theorem PunchSide.step_turn (l : Nat) (r : Bool) (x : PunchSide) (hb : x.beginning = none)
    (hf : x.punch.flight = none) (ho : x.punch.offDue = false) (hc : x.punch.closeLeft ≠ some 0)
    (hs : x.punch.stalled = false) : x.step l r = x.issueNext l := by
  unfold PunchSide.step
  rw [hb]
  simp [hf, ho, Punch.closingOver, hc, hs]

theorem PunchSide.no_beginning (x : PunchSide) (h : x.punch.mayBegin = false ∨ x.store.punchQ = []) :
    x.beginning = none := by
  unfold PunchSide.beginning
  rcases h with h | h <;> simp [h]

/-- A stalled punch with nothing in flight, no turning off due and no closing leader over does nothing (R174). -/
theorem PunchSide.step_stalled (l : Nat) (r : Bool) (x : PunchSide) (hs : x.punch.stalled = true)
    (hf : x.punch.flight = none) (ho : x.punch.offDue = false) (hc : x.punch.closingOver = false) :
    x.step l r = none := by
  unfold PunchSide.step
  rw [PunchSide.no_beginning _ (.inl (by simp [Punch.mayBegin, hs]))]
  simp [hf, ho, hc, hs]

/-- What settling leaves at the punch. -/
theorem State.settle_punch {s : State} (h : s.panel.phase = .done) : s.settle.punch
    = (PunchSide.run s.panel.settings.leader s.relocal punchFuel
        { punch := s.punch, store := s.settlePrint.store }).punch := by
  unfold State.settle
  rw [if_pos ((State.live_iff s).mpr h)]
  rfl

theorem State.settle_store {s : State} (h : s.panel.phase = .done) : s.settle.store
    = (PunchSide.run s.panel.settings.leader s.relocal punchFuel
        { punch := s.punch, store := s.settlePrint.store }).store := by
  unfold State.settle
  rw [if_pos ((State.live_iff s).mpr h)]
  rfl

/-- In its turn the punch unit issues one operation and no more, when no copy can begin. -/
theorem State.punch_issues {s : State} (h : s.punchTurn) {q : Punch} (f : Code × PunchSource)
    (hb : s.punch.mayBegin = false) (hq : q.flight = some f) (hbq : q.mayBegin = false)
    (hi : ∀ st : Store, PunchSide.issueNext { punch := s.punch, store := st } s.panel.settings.leader
      = some { punch := q, store := st }) : s.settle.punch = q := by
  rw [State.settle_punch h.live]
  have hs : s.punch.stalled = false := by simp [Punch.stalled, h.tapeOut, h.fault]
  refine congrArg PunchSide.punch (PunchSide.run_last (k := punchFuel - 1)
    (y := { punch := q, store := s.settlePrint.store }) ?_ ?_)
  · rw [PunchSide.step_turn _ _ _ (PunchSide.no_beginning _ (.inl hb)) h.flight h.off h.closing hs]
    exact hi _
  · exact PunchSide.step_in_flight _ _ _ (by simp [hq]) (PunchSide.no_beginning _ (.inl hbq))

/-- In its turn the punch unit with nothing to issue and no copy to begin stands. -/
theorem State.punch_stands {s : State} (h : s.punchTurn) (hb : s.punch.mayBegin = false)
    (hi : ∀ st : Store, PunchSide.issueNext { punch := s.punch, store := st } s.panel.settings.leader = none) :
    s.settle.punch = s.punch := by
  have hs : s.punch.stalled = false := by simp [Punch.stalled, h.tapeOut, h.fault]
  rw [State.settle_punch h.live, PunchSide.run_still]
  rw [PunchSide.step_turn _ _ _ (PunchSide.no_beginning _ (.inl hb)) h.flight h.off h.closing hs]
  exact hi _

/-- Nothing comes before the store copy at the punch: nothing in flight, no stall, turning off, restart mark, TAPE
FEED or reservation (R171, R177, R179). -/
structure Punch.servesCopy (p : Punch) : Prop where
  flight : p.flight = none
  stall : p.stalled = false
  off : p.offDue = false
  closing : p.closeLeft ≠ some 0
  mark : p.markLeft = 0
  feed : p.tapeFeed = false
  reserved : p.reservation.holdsPunch = false

theorem Punch.noBegin {p : Punch} {c : PunchCopy} (h : p.copy = some c) : p.mayBegin = false := by
  simp [Punch.mayBegin, h]

theorem Punch.servesCopy.step {p : Punch} (h : p.servesCopy) {c : PunchCopy} (hc : p.copy = some c)
    (st : Store) (l : Nat) (r : Bool) :
    PunchSide.step { punch := p, store := st } l r = PunchSide.copyStep { punch := p, store := st } l := by
  rw [PunchSide.step_turn _ _ _ (PunchSide.no_beginning _ (.inl (Punch.noBegin hc))) h.flight h.off h.closing
    h.stall]
  simp [PunchSide.issueNext, h.mark, h.feed, h.reserved]

/-- A copy that punches a code issues it and no more. -/
theorem Punch.servesCopy.issues {p : Punch} (h : p.servesCopy) {c : PunchCopy} (hc : p.copy = some c)
    {st : Store} {l : Nat} {r : Bool} {code : Code} (ha : copyAct st l c = .punch code) (k : Nat) :
    PunchSide.run l r (k + 1) { punch := p, store := st }
      = { punch := { p with flight := some (code, .copy) }, store := st } := by
  refine PunchSide.run_last ?_ (PunchSide.step_in_flight _ _ _ rfl
    (PunchSide.no_beginning _ (.inl (Punch.noBegin (c := c) hc)))) k
  rw [h.step hc]
  simp [PunchSide.copyStep, hc, ha, Punch.issue]

/-- A copy whose phase ends goes on in the next. -/
theorem Punch.servesCopy.moves {p : Punch} (h : p.servesCopy) {c : PunchCopy} (hc : p.copy = some c)
    {st : Store} {l : Nat} {r : Bool} {ph : PunchPhase} (ha : copyAct st l c = .move ph) (k : Nat) :
    PunchSide.run l r (k + 1) { punch := p, store := st }
      = PunchSide.run l r k { punch := { p with copy := some { c with phase := ph } }, store := st } := by
  refine PunchSide.run_succ ?_ k
  rw [h.step hc]
  simp [PunchSide.copyStep, hc, ha]

end Sys2Proof.Machine
end

