-- ==== Sys2Proof/Tests/Slice0.lean ====
section
/-! SUPPORT. Tests on fixed values: ill-formed commands refused, the manual's worked figures, single steps, and
for each statement with hypotheses states that meet them. -/
namespace Sys2Proof.Tests

open Sys2Proof Sys2Proof.Machine

/-! ### Helpers -/

/-- The next state of a command. -/
def after (r : Result) : State :=
  match r with
  | .next t => t
  | .fault _ => State.reset
  | .refused _ => State.reset

/-- Station 7: the stand-in settings with a number and an answerback of twenty codes 4. -/
def settings7 : Settings :=
  { Settings.configFault with station := some 7, answerback := List.replicate 20 4 }

/-- Station 7 with the read ended and the line free. -/
def on : State :=
  { State.reset with
    panel := { Panel.initial with phase := .done, settings := settings7 }
    line := { LineUnit.initial with rx := .ready, quietRun := 14 } }

def withLineOf (s : State) (l : LineUnit) : State := { s with line := l }
def withKbOf (s : State) (k : Keyboard) : State := { s with kb := k }
def withPanelOf (s : State) (p : Panel) : State := { s with panel := p }
def withStoreOf (s : State) (st : Store) : State := { s with store := st }
def withSendOf (s : State) (t : Transmission) : State := { s with send := t }
def withRecvOf (s : State) (r : Reception) : State := { s with recv := r }
def withPunchOf (s : State) (p : Punch) : State := { s with punch := p }
def withPrintOf (s : State) (p : PrintUnit) : State := { s with print := p }
def withJournalOf (s : State) (j : Journal) : State := { s with journal := j }

/-- The receiver in the middle of a frame of another station. -/
def hearing : State := withLineOf on { on.line with rx := .frame, quietRun := 0 }

/-- A receiver in the answer window of others, and the station's own transmitter awaiting its answer. -/
def window : State := withLineOf on { on.line with rx := .answer, quietRun := 2, winCells := 2 }
def awaiting : State := withLineOf on { window.line with tx := .awaitAnswer }

def textFrame (origin dest cls number seq : Nat) (first final : Bool) (text : List Code) : Frame :=
  { rank := 4, origin := origin, kind := .text, seq := seq, dest := dest, cls := cls, number := number
    first := first, final := final, text := text }

def controlOf (kind : FrameKind) (origin dest seq number : Nat) (text : List Code) : Frame :=
  { rank := 4, origin := origin, kind := kind, seq := seq, dest := dest, cls := 0, number := number
    first := true, final := true, text := text }

/-- An image of station 7 with the given option byte 1, width byte and selection byte 29. -/
def imageBody (options width selections : Nat) : List Byte :=
  [byteOf 7, byteOf options, byteOf width, byteOf 12, byteOf 70, byteOf 0]
    ++ List.replicate 20 (byteOf 40) ++ [byteOf 0, byteOf 45, byteOf 3, byteOf selections]

/-- Thirty bytes with their two check bytes. -/
def sealed (body : List Byte) : List Byte := body ++ [byteOf (doubleSum body).1, byteOf (doubleSum body).2]

def imageOf (options width selections : Nat) : List Byte := sealed (imageBody options width selections)

def recordOf (origin number next entry : Nat) : Record :=
  { origin := origin, number := number, cls := 1, next := next, entry := entry, timer := 5 }

def entryOf (slot : Nat) (outgoing : Bool) (state : EntryState) (chain : List Nat) (sections : Nat) :
    Entry :=
  { slot := slot, outgoing := outgoing, peer := 12, number := 1, cls := 1, state := state, chain := chain
    sections := sections, reason := none, oblPrint := !outgoing, oblPunch := false, oblSend := outgoing }

def blockOf (owner secNo : Nat) (codes : List Code) (released : Bool) : Block :=
  { state := .live, owner := owner, secNo := secNo, gap := 0, codes := codes, released := released }

def sendOf (phase : Phase) (done : Nat) (counts : Counts) : SendRec :=
  { entry := 0, dest := 12, cls := 1, number := 1, phase := phase, done := done, counts := counts
    delay := 0, lastTried := none }

def queuedOf (kind : FrameKind) (phase : Phase) (counts : Counts) : ControlRec :=
  { kind := kind, dest := 12, seq := 0, number := 0, text := [], phase := phase, counts := counts
    delay := 0, watch := none }

def countsOf (tries waits engageds : Nat) : Counts :=
  { w := 0, n := 0, tries := tries, waits := waits, engageds := engageds }

/-- A message composed to station 12: one open block with these codes, sections released before it. -/
def composing (codes : List Code) (released : Nat) : State :=
  { on with
    store := { on.store with
      ring := [(0, blockOf 0 released codes false)], head := 1, free := 255
      dir := [entryOf 0 true .composing [0] released] }
    send := { on.send with msgCounter := 2, sendList := [sendOf .pending 0 Counts.zero] }
    kb := { on.kb with comp := .composing, dest := some (12, 1), case := .letters, current := some 0
                       idleTimer := some 0, autoEnd := some 0 } }

/-- The same with its only block released, so that no block is open. -/
def between (free : Nat) : State :=
  withKbOf (withStoreOf (composing [4] 0)
    { (composing [4] 0).store with
      ring := [(0, blockOf 0 0 [4] true)], free := free
      dir := [entryOf 0 true .composing [0] 1] })
    { (composing [4] 0).kb with case := .unknown, idleTimer := none }

/-- A key waiting at the head of the queue. -/
def pressed (s : State) (key : Key) (shift : Bool) : State :=
  withKbOf s { s.kb with queue := [{ key := key, shift := shift }] }

def inComp (s : State) (c : CompState) : State := withKbOf s { s.kb with comp := c }

/-- The printer turning, held by a stream with nothing in flight; and a received entry of one block, stored whole
or closed. -/
def printing (st : Stream) (p : PrintUnit) : State :=
  withPrintOf on { p with motor := .running, firstCR := false, holder := some st }
def stored (state : EntryState) (reason : Option Reason) (b : Block) : Store :=
  { on.store with ring := [(0, b)], head := 1, free := 255
                  dir := [{ entryOf 0 false state [0] 1 with reason := reason }] }
def copyAt (phase : CopyPhase) (code : Nat) : CopyPos := { CopyPos.start 0 with phase := phase, code := code }

/-- A message whose section is on line, and a control frame on line, the answer awaited. -/
def sectionOut (counts : Counts) : State :=
  withSendOf awaiting { on.send with sendList := [sendOf .onLine 0 counts] }
def requestOut (counts : Counts) : State :=
  withSendOf awaiting { on.send with control := [queuedOf .who .onLine counts] }

/-! ### WellFormed: each check refuses an ill-formed command -/

theorem test_wf_accepts :
    wellFormed (.textSection (textFrame 12 7 1 1 0 true false [4])) = true ∧
    wellFormed (.circularFirstSection (textFrame 62 0 2 255 7 true true [])) = true ∧
    wellFormed (.circularContinuation (textFrame 1 0 0 1 1 false true [])) = true ∧
    wellFormed (.who (controlOf .who 12 7 0 0 [])) = true ∧
    wellFormed (.release (controlOf .release 12 0 0 3 [])) = true := by decide

theorem test_wf_refuses_rank_origin :
    wellFormed (.textSection { textFrame 12 7 1 1 0 true false [4] with rank := 16 }) = false ∧
    wellFormed (.textSection (textFrame 0 7 1 1 0 true false [4])) = false ∧
    wellFormed (.textSection (textFrame 63 7 1 1 0 true false [4])) = false := by decide

theorem test_wf_refuses_fields :
    wellFormed (.textSection (textFrame 12 7 1 1 8 true false [4])) = false ∧
    wellFormed (.textSection (textFrame 12 63 1 1 0 true false [4])) = false ∧
    wellFormed (.textSection (textFrame 12 7 3 1 0 true false [4])) = false ∧
    wellFormed (.textSection (textFrame 12 7 1 256 0 true false [4])) = false ∧
    wellFormed (.textSection (textFrame 12 7 1 0 0 true false [4])) = false := by decide

theorem test_wf_refuses_text :
    wellFormed (.textSection (textFrame 12 7 1 1 0 true false (List.replicate 33 4))) = false ∧
    wellFormed (.textSection (textFrame 12 7 1 1 0 true false [])) = false := by decide

theorem test_wf_refuses_control :
    wellFormed (.who (controlOf .who 12 7 0 0 [4])) = false ∧
    wellFormed (.ident (controlOf .ident 12 7 0 0 [4])) = false ∧
    wellFormed (.status (controlOf .status 12 7 0 0 [4])) = false ∧
    wellFormed (.who { controlOf .who 12 7 0 0 [] with first := false }) = false ∧
    wellFormed (.who { controlOf .who 12 7 0 0 [] with final := false }) = false ∧
    wellFormed (.who { controlOf .who 12 7 0 0 [] with cls := 1 }) = false ∧
    wellFormed (.who (controlOf .who 12 0 0 0 [])) = false := by decide

theorem test_wf_refuses_other_row :
    wellFormed (.textSection (textFrame 12 0 1 1 0 true false [4])) = false ∧
    wellFormed (.circularFirstSection (textFrame 12 7 1 1 0 true false [4])) = false ∧
    wellFormed (.circularFirstSection (textFrame 12 0 1 1 0 false false [4])) = false ∧
    wellFormed (.circularContinuation (textFrame 12 0 1 1 0 true false [4])) = false ∧
    wellFormed (.enquire (controlOf .who 12 7 0 0 [])) = false ∧
    wellFormed (.release (controlOf .enquire 12 7 0 0 [])) = false ∧
    wellFormed (.frameNotHandedOn (textFrame 0 7 1 1 0 true false [4])) = false := by decide

theorem test_wf_refuses_references :
    wellFormed (.configReadEnd [byteOf 7]) = false ∧
    wellFormed (.recordTimerExpiry (.circular 0 1)) = false ∧
    wellFormed (.recordTimerExpiry (.circular 63 1)) = false ∧
    wellFormed (.recordTimerExpiry (.circular 1 0)) = false ∧
    wellFormed (.recordTimerExpiry (.circular 1 256)) = false ∧
    wellFormed (.delayTimerExpiry (.message 32)) = false ∧
    wellFormed (.delayTimerExpiry (.control 6)) = false ∧
    wellFormed (.replyWatchExpiry 4) = false := by decide

/-- The table gives its rows no bits. -/
theorem test_decode_none : decodeTableWord 0 0 = none := rfl

/-! ### Worked figures of the manual -/

/-- Chapter 2, the checked WHO: units 65, 202, 84, 0, 192 and check units 42, 76. -/
theorem test_who_units : frameUnits (controlOf .who 7 21 2 0 [])
    = [65, 202, 84, 0, 192, 42, 76].map byteOf := by decide

theorem test_who_read : readFrame ([65, 202, 84, 0, 192, 42, 76].map byteOf)
    = some (controlOf .who 7 21 2 0 []) := by decide

/-- The same with one check unit wrong, and with the origin number 63. -/
theorem test_who_refused : readFrame ([65, 202, 84, 0, 192, 42, 75].map byteOf) = none ∧
    malformedNow ([79, 202].map byteOf) = true := by decide

/-- Chapter 2: ACCEPT for sequence 2 is 40 and 215; 213 in place of 215 is garbled. -/
theorem test_answer_units : answerAU1 .accept 2 = byteOf 40 ∧ answerAU2 .accept 2 = byteOf 215 ∧
    judgeAnswer (byteOf 40) (byteOf 215) 2 = some .accept ∧
    judgeAnswer (byteOf 40) (byteOf 213) 2 = none := by decide

/-- Chapter 2, arbitration: rank 4 of station 21 begins 0100 0101, rank 6 of station 7 0110 0001. -/
theorem test_first_units : (frameUnits { controlOf .who 21 7 0 0 [] with rank := 4 }).head? = some (byteOf 69) ∧
    (frameUnits { controlOf .who 7 21 0 0 [] with rank := 6 }).head? = some (byteOf 97) := by decide

/-- Chapter 3: idle windows from E = 4089. -/
theorem test_load_falls : loadUpdate 4089 0 = 3577 ∧ loadUpdate 3577 0 = 3129 ∧
    loadUpdate 2094 0 = 1832 ∧ latchUpdate true 2094 = true ∧ latchUpdate true 1832 = false := by decide

/-- Chapter 3: the ageing step for E of 1592 and of 4089. -/
theorem test_ageing : ageingStep 1592 = 910 ∧ ageingStep 4089 = 1534 := by decide

/-- Chapter 3: ranks of fresh and of fully aged frames. -/
theorem test_ranks : rankOf 0 0 0 512 = 4 ∧ rankOf 1 0 0 512 = 9 ∧ rankOf 2 0 0 512 = 13 ∧
    rankOf 1 0 15 512 = 3 ∧ rankOf 2 65535 0 1534 = 7 := by decide

/-- Chapter 7, the composer's codes: SHIFT with 1 behind a letter is 30 4; the case behind a space in figures
is unknown. -/
theorem test_key_output : keyOutput [] { key := .code 0, shift := true } .letters = [30, 4] ∧
    keyOutput [] { key := .code 18, shift := false } .unknown = [31, 22] ∧
    caseAfter .figures 1 = .unknown ∧ caseAfter .letters 1 = .letters := by decide

/-- Chapter 11, the clamped fields: width 90 is 80, page length 12 is 20, leader 70 is 60, try limit 0 is 1,
answerback 40 is a blank, 45 tens of seconds are 30, level 3 is 2. -/
theorem test_clamped : (settingsOf (imageOf 233 90 3)).width = 80 ∧
    (settingsOf (imageOf 233 90 3)).pageLength = 20 ∧ (settingsOf (imageOf 233 90 3)).leader = 60 ∧
    (settingsOf (imageOf 233 90 3)).tryLimit = 1 ∧ (settingsOf (imageOf 233 90 3)).answerback.head? = some 0 ∧
    (settingsOf (imageOf 233 90 3)).unattendedIdle10s = 30 ∧
    (settingsOf (imageOf 233 90 3)).acceptLevel = 2 := by decide

/-- Chapter 10: the number in four digits of an entry line, and a time. -/
theorem test_digits : digits 4 37 = [digitElem 0, digitElem 0, digitElem 3, digitElem 7] ∧
    timeText (some 845) = [digitElem 1, digitElem 4, digitElem 0, digitElem 5] := by decide

/-! ### Single steps -/

def replyTo (c : Instr) (s : State) : Option (AnswerCode × Nat) := (after (exec c s)).line.answerDue

theorem test_first_section_accepted :
    replyTo (.textSection (textFrame 12 7 1 1 0 true false [4])) hearing = some (.accept, 0) := by decide

theorem test_final_section_completes :
    (after (exec (.textSection (textFrame 12 7 1 1 0 true true [4])) hearing)).recv.completion
      = some (12, 1, 0) := by decide

theorem test_who_answered :
    replyTo (.who (controlOf .who 12 7 3 0 [])) hearing = some (.accept, 3) ∧
    (after (exec (.who (controlOf .who 12 7 3 0 [])) hearing)).send.control.map (fun r => (r.kind, r.seq))
      = [(.ident, 0)] := by decide

theorem test_clash :
    (after (exec (.frameNotHandedOn (textFrame 7 12 1 1 0 true false [4])) hearing)).line.clash = true := by
  decide

theorem test_circular_missed :
    (after (exec (.circularFirstSection (textFrame 12 0 1 1 0 true false [4]))
      (withStoreOf hearing { on.store with free := 15 }))).journal.ring.map (fun e => e.kind)
      = [.circularMissed] := by decide

theorem test_read_ends_ready :
    (after (exec (.configReadEnd (imageOf 8 72 1)) State.reset)).journal.ring.map (fun e => (e.entryNo, e.kind))
      = [(1, .start)] := by decide

theorem test_read_fault_local :
    (after (exec (.configReadEnd []) State.reset)).kb.comp = .localMode := by decide

theorem test_motor_starts_for_notice :
    (after (exec .level on)).print.flight = .motorStart ∧
    (after (exec .level on)).panel.acceptLevel = 1 := by decide

theorem test_first_operation_returns_carriage :
    (after (exec .motorStartComplete (after (exec .level on)))).print.flight = .op .cr .initial := by decide

theorem test_key_written :
    ((after (exec .textKey (pressed (composing [5] 0) (.code 0) false))).store.block 0).codes = [5, 4] := by
  decide

theorem test_erase_removes :
    ((after (exec .erase (pressed (composing [5, 4] 0) .erase false))).store.block 0).codes = [5] := by decide

theorem test_end_releases :
    (after (exec .endKey (pressed (composing [5, 4] 0) .endKey false))).send.sendList.map (fun r => r.phase)
      = [.ready] := by decide

theorem test_break_closes_composer :
    (after (exec .breakKey (composing [5] 0))).kb.comp = .lineIdle ∧
    (after (exec .breakKey (composing [5] 0))).store.dir = [] := by decide

theorem test_tape_out_mark :
    (after (exec .tapeOut on)).punch.markLeft = 5 ∧ (after (exec .tapeOut on)).punch.stallTapeOut = true := by
  decide

theorem test_withdrawn_silent :
    (after (exec .endKey (pressed (composing [] 0) .endKey false))).journal.ring = [] ∧
    (after (exec .endKey (pressed (composing [] 0) .endKey false))).send.sendList = [] := by decide

/-- R51: at the boundary of its start cell an attempt cut by LINE FAULT still drives that cell, later not. -/
theorem test_start_cell_owed :
    (withLineOf on { on.line with tx := .contend, rx := .frame }.faultBegins).line.drives = .dominant ∧
    (withLineOf on { on.line with tx := .contend, rx := .frame, txSent := 3 }.faultBegins).line.drives
      = .recessive := by decide

/-- R93: a section taken before the waiting expiry keeps the record. -/
theorem test_restarted_record_stays :
    let r := { recordOf 12 1 1 0 with timer := Config.recordTime }
    (after (exec (.recordTimerExpiry .hold) (withRecvOf on { on.recv with hold := some r }))).recv.hold
      = some r := by decide

/-- R141: a code taken before the waiting idle release keeps the block open. -/
theorem test_restarted_idle_stays :
    (after (exec .idleReleaseExpiry (composing [5] 0))).store = (composing [5] 0).store := by decide

/-- R150: the strike of an echo item in flight at RESTART rings the margin bell of width 72 in column 65. -/
theorem test_margin_bell_after_restart :
    (after (exec .printOperationComplete (withPrintOf on { on.print with
      motor := .running, column := 64, flight := .op (.glyph 0) (.orphan true) }))).bell = 1 := by decide

/-- R149: a page operation that waits for the motor is not given once the page line is 1. -/
theorem test_page_passed_over :
    (after (exec .motorStopComplete (withStoreOf (withPanelOf (printing .copy { on.print with
        copy := some (copyAt .page 0) }) { on.panel with settings :=
          { settings7 with pagePerMessage := true, pageLength := 66, banner := true } })
      (stored .receiving none (blockOf 0 0 [4] true))))).print.flight = .op (.glyph 12) (.stream .copy false) := by
  decide

/-- R166: the feed of an earlier PAPER FEED completes in the stall and does not end it. -/
theorem test_earlier_feed_keeps_stall :
    let s := after (exec .paperFeed (after (exec .paperPresent (after (exec .paperOut (withPrintOf on { on.print with
      motor := .running, flight := .op .feed .paperFeed, owedFeeds := 1, firstCR := false }))))))
    let t := after (exec .printOperationComplete s)
    s.print.feedBefore = true ∧ t.print.stalled = true ∧ t.print.flight = .op .feed .paperFeed ∧
    (after (exec .printOperationComplete t)).print.stalled = false := by decide

/-- R131: with the latch set before the waiting expiry the block stays below 2T. -/
theorem test_latched_idle_stays :
    let s := withLineOf (withKbOf (composing [5] 0) { (composing [5] 0).kb with idleTimer := some 36000 })
      { on.line with latch := true }
    (after (exec .idleReleaseExpiry s)).store = s.store := by decide

/-- R154: an item taken before the waiting expiry has started the echo's idle timer anew. -/
theorem test_echo_expiry_after_item :
    (after (exec .echoIdleExpiry (printing .echo { on.print with
      openLine := true, owner := some .echo, echoIdle := some 0 }))).print.echoIdle = some 0 := by decide

/-- R146: at a stalled printer ATTEND taken before the waiting expiry lengthens the idle time, and the motor runs
on; without it the motor is stopped. -/
theorem test_attend_keeps_motor :
    let s := withPanelOf (withPrintOf on { on.print with
      motor := .running, stalled := true, paperPresent := false, motorIdle := 720000 })
      { on.panel with attended := false }
    (after (exec .motorIdleExpiry s)).print.motor = .off ∧
    (after (exec .motorIdleExpiry (after (exec .attend s)))).print.motor = .running := by decide

/-- R189: a setting taken before the waiting expiry keeps its minute. -/
theorem test_set_minute_stays :
    (after (exec .dayClockDividerExpiry (withJournalOf on (on.journal.setClock 700)))).journal.minute = 700 := by
  decide

/-! ### States that meet the hypotheses of the statements -/

/-- A station that waits: nothing to drive, no key and no held request. -/
theorem quiet_line (s : State) (h : s.send.select s.line.loadE = none) : ¬ s.mayDrive := by
  rintro ⟨-, -, -, -, -, -, -, c, -, -, hc, -⟩
  simp [h] at hc

/-- CommandKeepsQueue: keys and a release handed on; a key in each state of the composer; each held request that
would be granted; a window of 256 cells, an answer due in its third cell, a frame selected. -/
theorem test_witness_own_commands :
    let opening := withKbOf on { on.kb with hold := .opening }
    let a := withLineOf window { window.line with answerDue := some (.accept, 0) }
    let d := withSendOf on { on.send with control := [queuedOf .who .ready Counts.zero] }
    handedCommand (.key { key := .journal, shift := true }) (.journal true) ∧
    handedCommand .tapeFeedRelease .tapeFeedRelease ∧
    (pressed on .dest true).composerTakes .dest ∧
    (pressed (inComp on (.destEntry 1 true none)) (.code 1) true).composerTakes .destinationDigit ∧
    (pressed (inComp on (.timeEntry true [])) .erase false).composerTakes .erase ∧
    opening.composerTakes .openingRepeated ∧
    (withKbOf (between 1) { (between 1).kb with hold := .endBlock }).composerTakes .blockRequestRepeated ∧
    (withKbOf on { on.kb with hold := .localCode 4 [] }).composerTakes .localCodeResumed ∧
    on.composerStill ∧ (withStoreOf opening { on.store with free := 0 }).composerStill ∧
    on.kb.handed = [] ∧ on.pending = [] ∧
    256 ≤ (withLineOf on { on.line with windowCells := 256 }).line.windowCells ∧ on.line.windowCells < 256 ∧
    a.line.rx = .answer ∧ a.line.winCells = 2 ∧ a.line.answerDue.isSome = true ∧ d.mayDrive := by
  refine ⟨.inr ⟨_, rfl, ?_⟩, .inl ⟨rfl, rfl⟩, .inl ⟨_, _, rfl, rfl, .inl ⟨rfl, rfl, ?_⟩⟩,
    .inl ⟨_, _, rfl, rfl, .inr ⟨.inl rfl, .inr (.inr ⟨rfl, rfl⟩)⟩⟩,
    .inl ⟨_, _, rfl, rfl, .inr ⟨.inr rfl, .inl ?_⟩⟩, .inr (.inl ⟨rfl, ?_, rfl⟩),
    .inr (.inr (.inl ⟨.inr (.inl rfl), ?_, rfl⟩)), .inr (.inr (.inr ⟨⟨_, _, rfl⟩, .inl rfl, rfl⟩)), .inl ⟨rfl, rfl⟩,
    .inr (.inl ⟨rfl, ?_⟩), rfl, rfl, ?_, ?_, rfl, rfl, rfl,
    ⟨rfl, rfl, by decide, rfl, rfl, rfl, 7, _, _, rfl, rfl, rfl⟩⟩
  all_goals first
    | decide
    | (simp only [State.mayOpen]; decide)
    | simp [queueCommand, entryCommand]

/-- A cell passes: nothing waits and nothing is to be driven. -/
theorem cell_of (s : State) (h : s.panel.phase = .done) (hp : s.pending = []) (hh : s.kb.handed = [])
    (hk : s.kb.hold = .none) (hq : s.kb.queue = []) (hw : s.line.windowCells < 256)
    (ha : ¬ (s.line.rx = .answer ∧ s.line.winCells = 2 ∧ s.line.answerDue.isSome = true))
    (hs : s.send.select s.line.loadE = none) : s.cellPasses :=
  ⟨h, hp, hh, .inl ⟨hk, hq⟩, hw, ha, quiet_line s hs⟩

/-- LineFreeAndStart and SendingExpiries: one cell in each state of the receiver, of the own frame and answer, with
an assembly between units, inside a unit, at its stop cell, at a dominant stop cell and two cells behind it; the
timers at their ends. -/
theorem test_witness_cell :
    let asm (bits : Option (List Bool)) (stopLow : Bool) (gap : Nat) (units : List Byte) : LineUnit :=
      { hearing.line with asm := { bits := bits, stopLow := stopLow, gap := gap, units := units } }
    let f := controlOf .who 7 12 0 0 []
    let sending (sent : Nat) (cells : List Level) : State := withLineOf on { on.line with
      tx := .send, rx := .frame, quietRun := 0, outFrame := some f, txSent := sent, txCells := cells }
    let own := withLineOf window { window.line with answering := true, ansCells := [.recessive] }
    on.cellPasses ∧ hearing.cellPasses ∧ window.cellPasses ∧ awaiting.cellPasses ∧ own.cellPasses ∧
    (withLineOf hearing (asm none false 0 [])).cellPasses ∧
    (withLineOf hearing (asm none false 2 [byteOf 65])).cellPasses ∧
    (withLineOf hearing (asm (some (List.replicate 7 true)) false 0 [])).cellPasses ∧
    (withLineOf hearing (asm (some (List.replicate 8 true)) false 0 [])).cellPasses ∧
    (withLineOf hearing (asm (some (List.replicate 8 true)) true 0 [])).cellPasses ∧
    (sending 12 [.recessive, .recessive]).cellPasses ∧ (sending 69 [.recessive]).cellPasses ∧
    (withLineOf on { on.line with tx := .breaking, breakCells := 19 }).cellPasses ∧
    (withLineOf on { on.line with domRun := 200 }).cellPasses ∧
    (withLineOf on { on.line with quietRun := 13 }).cellPasses ∧
    (withLineOf window { window.line with winCells := 5 }).cellPasses ∧ 6 ≤ 5 + 1 ∧
    201 ≤ 200 + 1 ∧ 20 ≤ 19 + 1 ∧ frameWellFormed f = true ∧ f.dest ≠ 0 ∧
    (composing [5] 0).cellPasses ∧ (5 : Nat) ≤ 5 := by
  refine ⟨?_, ?_, ?_, ?_, ?_, ?_, ?_, ?_, ?_, ?_, ?_, ?_, ?_, ?_, ?_, ?_, ?_⟩
  all_goals first
    | exact cell_of _ rfl rfl rfl rfl rfl (by decide) (by decide) rfl
    | decide
    | exact ⟨by decide, by decide, by decide, by decide, by decide,
        cell_of _ rfl rfl rfl rfl rfl (by decide) (by decide) rfl, by decide⟩

/-- The units of a frame read to its last one, and what the last unit makes of them. -/
theorem test_witness_cell_units :
    let f := controlOf .who 7 21 2 0 []
    let last := [65, 202, 84, 0, 192, 42].map byteOf
    frameUnits f = last ++ [byteOf 76] ∧ malformedNow (last ++ [byteOf 76]) = false ∧
    frameComplete (last ++ [byteOf 75]) = true ∧ checkPassed (last ++ [byteOf 75]) = false ∧
    malformedNow (last ++ [byteOf 75]) = false ∧ malformedNow [byteOf 79, byteOf 202] = true ∧
    judgeAnswer (byteOf 40) (byteOf 215) 2 = some .accept ∧
    judgeAnswer (byteOf 40) (byteOf 213) 2 = none := by decide

theorem test_witness_settle_frame : ringWf State.reset.store.ring = true := rfl

/-- Both units busy; a motor command in flight with nobody holding the printer and a notice waiting; an idle echo
with its line open. -/
theorem test_witness_settle_still :
    let s := withPunchOf (withPrintOf on { on.print with flight := .motorStart })
      { on.punch with flight := some (4, .code) }
    let n := withPrintOf s { s.print with notices := [.restart] }
    let e := withPrintOf s { s.print with holder := some .echo, openLine := true, owner := some .echo
                                          echoIdle := some (10 * Config.second) }
    let f := withPrintOf e { e.print with notices := [.restart] }
    s.panel.phase = .done ∧ s.print.flight ≠ .none ∧ s.punch.flight.isSome = true ∧ s.store.printQ = [] ∧
    s.print.copy = none ∧ s.print.stalled = false ∧ s.print.holder = none ∧ n.print.notices ≠ [] ∧
    n.printSide.firstWaiting n.printEnv = some .notices ∧
    (withPrintOf n { n.print with stalled := true }).print.stalled = true ∧ e.print.pre = [] ∧
    e.printSide.firstWaiting e.printEnv = none ∧ e.print.echoFifo = [] ∧
    f.printSide.firstWaiting f.printEnv = some .notices ∧ f.print.echoIdle = some (10 * Config.second) ∧
    (withPrintOf s { s.print with copy := some (CopyPos.start 0) }).print.copy.isSome = true ∧
    (withStoreOf s { s.store with printQ := [0] }).store.printQ = [0] := by decide

/-- SettleStill: an operation of the holder in flight; a copy in its text with a code left, and at its stored
end. -/
theorem test_witness_settle_copy :
    let s := withStoreOf (printing .copy { on.print with
      flight := .op .cr (.stream .copy false), copy := some (copyAt .text 0) })
      (stored .receiving none (blockOf 0 0 [4] true))
    s.print.flight = .op .cr (.stream .copy false) ∧ s.print.holder = some .copy ∧
    s.store.entry 0 = some (entryOf 0 false .receiving [0] 1) ∧
    s.printSide.waits s.printEnv .copy = true ∧
    (withPrintOf s { s.print with copy := some (copyAt .text 1) }).printSide.waits s.printEnv .copy
      = false := by decide

theorem test_witness_reading :
    waitsForRead .restart = true ∧ State.reset.panel.phase ≠ .done := by decide

theorem test_witness_read_attempts :
    (State.reset.withPhase (.attempt 2)).panel.phase = .attempt 2 ∧ 2 < 3 ∧
    (State.reset.withPhase (.attempt 3)).panel.phase = .attempt 3 ∧
    (State.reset.withPhase (.retryWait 2 0)).panel.phase = .retryWait 2 0 ∧ State.reset.pending = [] ∧
    (State.reset.withPhase (.retryWait 1 120)).panel.phase = .retryWait 1 120 ∧
    (State.reset.withPhase .notResponding).panel.phase = .notResponding := by decide

theorem test_witness_read_ends :
    State.reset.panel.phase = .attempt 1 ∧ imageValid (imageOf 233 90 3) = true ∧
    imageValid (imageBody 233 90 3 ++ [0, 0]) = false ∧ State.reset.journal.ring = [] ∧
    State.reset.punch.tapeOut = false ∧ State.reset.punch.flight = none ∧
    State.reset.punch.stallTapeOut = false ∧ State.reset.punch.outPending = false ∧
    (withPunchOf State.reset { State.reset.punch with tapeOut := true }).punch.tapeOut = true ∧
    imageBit (imageOf 233 90 3) 1 3 = true ∧ imageBit (imageOf 1 90 3) 1 3 = false ∧
    imageValid (imageOf 1 90 3) = true ∧
    (State.reset.withPhase .notResponding).panel.phase = .notResponding := by decide

/-- SettingsInRange: valid images with the bytes at and around the edges of their ranges, and every option. -/
theorem test_witness_settings :
    ([63, 64, 80, 81, 255].all fun w => imageValid (imageOf 255 w 255)) = true ∧
    ([(0, 1), (0, 62), (1, 191), (3, 0), (3, 1), (3, 19), (3, 99), (3, 100), (4, 60), (4, 61), (5, 1), (5, 8),
      (5, 9), (6, 31), (25, 32), (26, 30), (26, 31), (27, 0), (27, 30), (28, 0), (28, 9), (28, 10)].all fun p =>
        imageValid (sealed ((imageBody 0 72 0).set p.1 (byteOf p.2)))) = true ∧
    unitAt (sealed ((imageBody 0 72 0).set 25 (byteOf 32))) (6 + 19) = 32 := by decide

/-- The contact taken and not; the transmitter at the start cell and in SEND; the echo holding the printer; fifteen
and sixteen notices; a hold, a circular record and a message to close. -/
theorem test_witness_restart :
    let n (k : Nat) := withPrintOf on { on.print with notices := List.replicate k .tapeOut }
    let r := withRecvOf (composing [5] 0) { on.recv with hold := some (recordOf 12 1 1 0), circ := [recordOf 1 2 0 1] }
    on.panel.phase = .done ∧ on.panel.restartTaken = false ∧
    (withPanelOf on { on.panel with restartTaken := true }).panel.restartTaken = true ∧
    (withLineOf on { on.line with tx := .contend }).line.txSent = 0 ∧
    (withLineOf on { on.line with tx := .send }).line.tx = .send ∧
    (printing .echo on.print).print.holder = some .echo ∧ (n 15).print.notices.length < 16 ∧
    16 ≤ (n 16).print.notices.length ∧ r.recv.hold = some (recordOf 12 1 1 0) ∧
    r.recv.circ = [recordOf 1 2 0 1] ∧ r.send.sendList = [sendOf .pending 0 Counts.zero] := by decide

/-- The divider run down, one unit short of full, full and stopped; the journal with 47 and 48 entries, with a
report that has its oldest still to print and one that has not. -/
theorem test_witness_clock :
    let s := withJournalOf on { on.journal with divider := some 0, minute := 1439, clockSet := true }
    let e : JournalEntry := { entryNo := 9999, time := none, kind := .start, fields := {} }
    let j (k : Nat) : Journal := { on.journal with ring := List.replicate k e, nextNumber := 9999 }
    let r : Report := { snapshot := [9999, 1], toPrint := [9999], wasEmpty := false, skip := 0, clear := true
                        stage := .entries }
    s.journal.divider = some 0 ∧ s.journal.minute ≤ 1439 ∧ on.journal.divider = none ∧ 0 < 60 * Config.second ∧
    (withJournalOf s { s.journal with divider := some (60 * Config.second) }).journal.divider
      = some (60 * Config.second) ∧
    (j 47).ring.length < 48 ∧ 48 ≤ (j 48).ring.length ∧ (j 48).ring = e :: List.replicate 47 e ∧
    (j 48).report = none ∧ { j 48 with report := some r }.report = some r ∧ e.entryNo ∈ r.toPrint ∧
    e.entryNo ∉ { r with toPrint := [1] }.toPrint ∧
    on.panel.phase = .done ∧ State.reset.panel.phase ≠ .done := by decide

theorem test_witness_line_free : on.panel.phase = .done ∧ on.line.rx = .ready := by decide

theorem test_witness_line_fault :
    on.panel.phase = .done ∧ on.line.lineFault = false ∧ awaiting.line.tx = .awaitAnswer ∧
    (withLineOf on { on.line with lineFault := true }).line.lineFault = true ∧
    (withLineOf on { on.line with tx := .contend }).line.txSent = 0 ∧
    (withLineOf on { on.line with tx := .contend, txSent := 1 }).line.tx = .contend := by decide

/-- New estimates at the edges of the latch's three bands: 3584, 3583, 2048 and 2047. -/
theorem test_witness_load_window :
    loadUpdate 3584 (16 * 224) = 3584 ∧ loadUpdate 3583 (16 * 224) = 3583 ∧
    loadUpdate 2048 (16 * 128) = 2048 ∧ loadUpdate 2047 (16 * 128) = 2047 ∧ on.panel.phase = .done ∧
    on.line.latch = false ∧ on.kb.idleTimer = none := by decide

/-- LoadWindow: the latch clears with a block to release and the time at T and just below it; a block without
codes. -/
theorem test_witness_latch_cleared :
    let at' (n : Nat) := withLineOf (withKbOf (composing [5] 0) { (composing [5] 0).kb with idleTimer := some n })
      { on.line with latch := true, loadE := 2048 }
    (at' 36000).line.latch = true ∧ (after (exec .loadWindowEnd (at' 36000))).line.latch = false ∧
    (at' 36000).kb.idleTimer = some 36000 ∧
    (at' 36000).panel.settings.idleReleaseS * Config.second = 36000 ∧
    35999 < (at' 35999).panel.settings.idleReleaseS * Config.second ∧ (at' 36000).kb.comp = .composing ∧
    (at' 36000).kb.current = some 0 ∧ (at' 36000).store.openCodes 0 = some [5] ∧
    (composing [] 0).store.openCodes 0 = some [] := by decide

theorem test_witness_load_bounds :
    0 ≤ 4096 ∧ 4096 ≤ 4096 ∧ 0 + 8 ≤ 8 ∧ 4089 ≤ 4096 ∧ 4096 ≤ 4089 + 7 := by decide

/-- FrameDiscarded and BreakRead: the middle of another station's frame, and the two answer windows. -/
theorem test_witness_discarded :
    hearing.panel.phase = .done ∧ hearing.line.rx = .frame ∧ hearing.line.tx ≠ .contend ∧
    hearing.line.tx ≠ .send ∧ awaiting.line.rx = .answer ∧ awaiting.line.tx = .awaitAnswer ∧
    window.line.rx = .answer ∧ window.line.tx ≠ .awaitAnswer := by decide

/-- To another station; in CLASH LOCKOUT; of the station's own number. -/
theorem test_witness_not_handed_on :
    let f := textFrame 12 21 1 1 0 true false [4]
    let g := textFrame 12 7 1 1 0 true false [4]
    let h := textFrame 7 21 1 1 0 true false [4]
    frameWellFormed f = true ∧ f.dest ≠ 0 ∧ hearing.line.rx = .frame ∧ hearing.own ≠ some f.dest ∧
    frameWellFormed g = true ∧
    (withLineOf hearing { hearing.line with clash := true }).line.clash = true ∧
    frameWellFormed h = true ∧ hearing.own = some h.origin ∧ hearing.line.clash = false := by decide

theorem test_witness_answer_driven :
    let s := withLineOf window { window.line with answerDue := some (.refuse, 7) }
    s.panel.phase = .done ∧ s.line.rx = .answer ∧ s.line.answerDue = some (.refuse, 7) ∧
    s.line.clash = false ∧ s.line.lineFault = false ∧ s.panel.configFault = false ∧
    s.line.tx ≠ .awaitAnswer ∧ (withLineOf s { s.line with lineFault := true }).line.lineFault = true ∧
    (withLineOf s { s.line with answering := true }).line.answering = true := by decide

theorem test_witness_round_trip :
    frameWellFormed { textFrame 62 62 2 255 7 false false (List.replicate 32 31) with rank := 15 } = true ∧
    frameWellFormed { textFrame 1 0 0 1 0 true true [] with rank := 0 } = true := by decide

theorem test_witness_answer_units : 0 < 8 ∧ 7 < 8 ∧ (7 : Nat) ≠ 0 := by decide

theorem test_witness_individual :
    hearing.panel.phase = .done ∧ hearing.line.rx = .frame ∧ hearing.line.tx = .idle ∧
    hearing.own = some 7 ∧ hearing.line.clash = false ∧
    frameWellFormed (textFrame 12 7 1 1 0 true false [4]) = true ∧
    frameWellFormed (controlOf .who 12 7 0 0 []) = true ∧
    frameWellFormed (controlOf .enquire 12 7 0 0 []) = true ∧
    frameWellFormed (controlOf .ident 12 7 0 0 (List.replicate 20 4)) = true ∧
    frameWellFormed (controlOf .status 12 7 0 0 (List.replicate 6 4)) = true ∧
    frameWellFormed (controlOf .release 12 7 0 9 []) = true := by decide

/-- Eight blocks and 31 entries in use; seven blocks; 32 entries; a class above the level; a final section, attended
and not, with five and six records in the control queue. -/
theorem test_witness_first_section :
    let dir31 := (List.range 31).map fun n => entryOf n false .closed [] 1
    let s := withStoreOf hearing { hearing.store with free := 8, dir := dir31 }
    hearing.recv.hold = none ∧ hearing.recv.completion ≠ some (12, 1, 0) ∧
    1 ≤ s.panel.acceptLevel ∧ 8 ≤ s.store.free ∧ s.store.dir.length < 32 ∧
    (withStoreOf s { s.store with free := 7 }).store.free < 8 ∧
    32 ≤ (withStoreOf s { s.store with dir := dir31 ++ [entryOf 31 false .closed [] 1] }).store.dir.length ∧
    (withPanelOf s { s.panel with acceptLevel := 0 }).panel.acceptLevel < 1 ∧
    frameWellFormed (textFrame 12 7 1 1 0 true true [4]) = true ∧ s.panel.attended = true ∧
    (withPanelOf s { s.panel with attended := false }).panel.attended = false ∧
    (withRecvOf s { s.recv with completion := some (12, 2, 0) }).recv.completion ≠ some (12, 1, 0) ∧
    (withRecvOf s { s.recv with completion := some (13, 1, 0) }).recv.completion = some (13, 1, 0) ∧
    (List.replicate 5 (queuedOf .ident .ready Counts.zero)).length < 6 ∧
    6 ≤ (List.replicate 6 (queuedOf .ident .ready Counts.zero)).length := by decide

/-- The completion record met; another origin's hold; a stale continuation; the sequences around the next; no
block and one; a final section; another number, first and not. -/
theorem test_witness_held_section :
    let s := withRecvOf hearing { hearing.recv with hold := some (recordOf 12 1 1 0) }
    let t := withStoreOf s (stored .receiving none (blockOf 0 0 [4] true))
    let other := withStoreOf s { t.store with free := 7 }
    (withRecvOf hearing { hearing.recv with completion := some (12, 1, 0) }).recv.completion
      = some (12, 1, 0) ∧
    s.recv.completion ≠ some (12, 1, 1) ∧ s.recv.hold = some (recordOf 12 1 1 0) ∧
    (recordOf 12 1 1 0).origin ≠ 13 ∧ hearing.recv.hold = none ∧
    frameWellFormed (textFrame 12 7 1 1 1 false false [4]) = true ∧ 1 ≤ s.store.free ∧
    (0 + 1) % 8 = (recordOf 12 1 1 0).next ∧ (2 + 1) % 8 ≠ (recordOf 12 1 1 0).next ∧
    (withStoreOf s { s.store with free := 0 }).store.free = 0 ∧
    (withStoreOf s { s.store with free := 1 }).store.free = 1 ∧
    frameWellFormed (textFrame 12 7 1 1 1 false true [4]) = true ∧
    ((t.store.storeSection 0 0 [4]).entry 0).map (fun e => e.reason) = some none ∧
    s.panel.attended = true ∧ (withPanelOf s { s.panel with attended := false }).panel.attended = false ∧
    s.send.control.length < 6 ∧ frameWellFormed (textFrame 12 7 1 2 0 true false [4]) = true ∧
    frameWellFormed (textFrame 12 7 1 2 0 true true [4]) = true ∧
    frameWellFormed (textFrame 12 7 1 2 0 false false [4]) = true ∧ (recordOf 12 1 1 0).number ≠ 2 ∧
    1 ≤ s.panel.acceptLevel ∧ (withPanelOf s { s.panel with acceptLevel := 0 }).panel.acceptLevel < 1 ∧
    8 ≤ (t.store.closeEntry 0 (some .superseded)).free ∧
    (other.store.closeEntry 0 (some .superseded)).free < 8 := by decide

/-- Another origin's frame and one of the station's own number, with and without CLASH LOCKOUT; a repeat; a class
above the level; three records; fifteen blocks; sixteen blocks; a record to supersede; a final section. -/
theorem test_witness_circular_first :
    let f := textFrame 12 0 1 1 0 true false [4]
    let full := withRecvOf hearing { hearing.recv with
      circ := [recordOf 1 1 1 0, recordOf 2 1 1 1, recordOf 3 1 1 2] }
    let old := withRecvOf hearing { hearing.recv with
      circ := [recordOf 1 1 1 1, recordOf 12 9 1 0, recordOf 3 1 1 2] }
    frameWellFormed f = true ∧ f.kind = .text ∧ f.dest = 0 ∧ f.first = true ∧ f.final = false ∧
    hearing.own ≠ some f.origin ∧ frameWellFormed { f with origin := 7 } = true ∧
    hearing.own = some { f with origin := 7 }.origin ∧ hearing.line.clash = false ∧
    (withLineOf hearing { hearing.line with clash := true }).line.clash = true ∧
    f.cls ≤ hearing.panel.acceptLevel ∧ hearing.recv.circ.length < 3 ∧
    3 ≤ full.recv.circ.length ∧ (∀ r ∈ full.recv.circ, r.origin ≠ f.origin) ∧
    ([recordOf 12 1 1 0].any fun r => r.origin == f.origin && r.number == f.number) = true ∧
    (withStoreOf hearing { hearing.store with free := 16 }).store.free = 16 ∧
    (withStoreOf hearing { hearing.store with free := 15 }).store.free < 16 ∧
    (withPanelOf hearing { hearing.panel with acceptLevel := 0 }).panel.acceptLevel < f.cls ∧
    (old.recv.circ.filter fun x => x.origin == f.origin) = [recordOf 12 9 1 0] ∧
    (recordOf 12 9 1 0).number ≠ f.number ∧
    (old.recv.circ.filter fun x => x.origin != f.origin).length < 3 ∧
    frameWellFormed (textFrame 12 0 1 1 0 true true [4]) = true ∧
    ((hearing.store.storeFirst 12 1 1 true false [4]).entry hearing.store.freeSlot).map (fun e => e.reason)
      = some none := by decide

/-- Another origin's frame and one of the station's own number; no record; a record whose next sequence lies one
before, at and behind the frame's; no block and one; a final section, with the entry stored. -/
theorem test_witness_circular_next :
    let f := textFrame 12 0 1 1 3 false false [4]
    let s := withRecvOf hearing { hearing.recv with circ := [recordOf 2 1 1 1, recordOf 12 1 2 0] }
    let t := withStoreOf s (stored .receiving none (blockOf 0 0 [4] true))
    frameWellFormed f = true ∧ f.dest = 0 ∧ f.first = false ∧ f.final = false ∧
    hearing.own ≠ some f.origin ∧ frameWellFormed { f with origin := 7 } = true ∧
    hearing.own = some { f with origin := 7 }.origin ∧ hearing.recv.circ = [] ∧ (recordOf 12 1 3 0).next < 8 ∧
    (recordOf 12 1 4 0).next < 8 ∧ (recordOf 12 1 7 0).next < 8 ∧
    s.recv.findCircular 12 1 = some (recordOf 12 1 2 0) ∧
    1 ≤ (withStoreOf hearing { hearing.store with free := 1 }).store.free ∧
    (withStoreOf hearing { hearing.store with free := 0 }).store.free = 0 ∧
    frameWellFormed (textFrame 12 0 1 1 3 false true [4]) = true ∧
    t.store.entry 0 = some (entryOf 0 false .receiving [0] 1) ∧
    ((t.store.storeSection 0 1 [4]).entry 0).isSome = true := by decide

/-- No repeat with five and with six records queued, and a repeat. -/
theorem test_witness_requests :
    let five := List.replicate 5 (queuedOf .ident .ready Counts.zero)
    let s := withSendOf hearing { hearing.send with control := five }
    let t := withSendOf hearing { hearing.send with control := five ++ [queuedOf .ident .ready Counts.zero] }
    s.recv.recent ≠ some (12, .who, 0) ∧ s.send.control.length < 6 ∧ 6 ≤ t.send.control.length ∧
    (withRecvOf hearing { hearing.recv with recent := some (12, .who, 0) }).recv.recent
      = some (12, .who, 0) := by decide

theorem test_witness_status :
    let s := withRecvOf (withLineOf on { on.line with loadE := 4089 })
      { on.recv with hold := some (recordOf 62 1 1 0) }
    s.panel.acceptLevel ≤ 2 ∧ s.store.dir.length ≤ 32 ∧ s.holdOrigin ≤ 62 ∧ s.line.loadE ≤ 4089 := by decide

/-- The record at the head of the watch; behind two that do not match, with another match behind it; none. -/
theorem test_witness_replies :
    let w : WatchRec := { slot := 0, peer := 12, kind := .ident, timer := some 3 }
    let x : WatchRec := { w with slot := 1, peer := 13 }
    let y : WatchRec := { w with slot := 2, kind := .status }
    let z : WatchRec := { w with slot := 3 }
    let s := withSendOf hearing { hearing.send with watch := [w] }
    let t := withSendOf hearing { hearing.send with watch := [x, y, w, z] }
    s.recv.recent ≠ some (12, .ident, 0) ∧ s.send.watch = [] ++ w :: [] ∧ w.peer = 12 ∧ w.kind = .ident ∧
    t.send.watch = [x, y] ++ w :: [z] ∧ (∀ r ∈ [x, y], ¬ (r.peer = 12 ∧ r.kind = FrameKind.ident)) ∧
    (∀ r ∈ [x, y] ++ [z], r.slot ≠ w.slot) ∧
    (∀ r ∈ hearing.send.watch, ¬ (r.peer = 12 ∧ r.kind = FrameKind.ident)) ∧
    (withRecvOf hearing { hearing.recv with recent := some (12, .ident, 0) }).recv.recent
      = some (12, .ident, 0) := by decide

/-- An individual and a circular RELEASE, with the hold matching and not, a circular record matching, both. -/
theorem test_witness_release :
    let f := controlOf .release 12 7 0 1 []
    let g := controlOf .release 12 0 0 1 []
    let s := withRecvOf (withStoreOf hearing (stored .receiving none (blockOf 0 0 [4] true)))
      { hearing.recv with hold := some (recordOf 12 1 1 0) }
    let c := withRecvOf s { hearing.recv with circ := [recordOf 12 1 1 0] }
    let both := withRecvOf s { s.recv with circ := [recordOf 12 1 1 1] }
    frameWellFormed f = true ∧ frameWellFormed g = true ∧ s.own ≠ some f.origin ∧ s.own = some f.dest ∧
    s.line.clash = false ∧ g.dest = 0 ∧ frameWellFormed { g with origin := 7 } = true ∧
    s.own = some { g with origin := 7 }.origin ∧ s.recv.hold = some (recordOf 12 1 1 0) ∧
    s.recv.findCircular 12 1 = none ∧ c.recv.hold = none ∧
    c.recv.findCircular 12 1 = some (recordOf 12 1 1 0) ∧ both.recv.hold = some (recordOf 12 1 1 0) ∧
    both.recv.findCircular 12 1 = some (recordOf 12 1 1 1) ∧
    s.store.entry 0 = some (entryOf 0 false .receiving [0] 1) ∧
    hasObligation (entryOf 0 false .receiving [0] 1) = true ∧
    ¬ ((recordOf 12 2 1 0).origin = f.origin ∧ (recordOf 12 2 1 0).number = f.number) := by decide

/-- A record whose time has run down, one unit short of full, and one just restarted. -/
theorem test_witness_record_timer :
    let r := recordOf 12 1 1 0
    let full := { r with timer := 120 * Config.second }
    r.timer < 120 * Config.second ∧ 120 * Config.second - 1 < 120 * Config.second ∧
    (withRecvOf on { on.recv with hold := some r }).recv.hold = some r ∧
    (withRecvOf on { on.recv with circ := [r] }).recv.findCircular 12 1 = some r ∧
    120 * Config.second ≤ full.timer ∧
    (withRecvOf on { on.recv with hold := some full }).recv.hold = some full ∧
    (withRecvOf on { on.recv with circ := [full] }).recv.findCircular 12 1 = some full := by decide

/-- A READY section of a released block, and a READY control frame, each selected on the free line. -/
theorem test_witness_start_cell :
    let s := withSendOf (composing [4] 0) { on.send with sendList := [sendOf .ready 0 Counts.zero] }
    let t := withSendOf on { on.send with control := [queuedOf .who .ready Counts.zero] }
    let c : Candidate := { rank := 9, w := 0, control := false, place := 0 }
    let d : Candidate := { rank := 4, w := 0, control := true, place := 0 }
    s.line.tx = .idle ∧ s.line.rx = .ready ∧ 14 ≤ s.line.quietRun ∧ s.line.lineFault = false ∧
    s.line.clash = false ∧ s.panel.configFault = false ∧ s.own = some 7 ∧
    s.send.select s.line.loadE = some c ∧ (s.frameOf 7 c).isSome = true ∧
    t.send.select t.line.loadE = some d ∧ (t.frameOf 7 d).isSome = true ∧
    (withLineOf s { s.line with quietRun := 13 }).line.quietRun < 14 := by decide

theorem test_witness_rank :
    let t := withSendOf on { on.send with control := [queuedOf .who .ready Counts.zero] }
    t.offer.isSome = true ∧ 511 < 512 ∧ 512 ≤ 1536 := by decide

theorem test_witness_attempt :
    let s := withLineOf (sectionOut Counts.zero) { on.line with tx := .contend }
    let t := withLineOf (requestOut Counts.zero) { on.line with tx := .contend }
    let f := controlOf .who 7 12 0 0 []
    s.line.tx = .contend ∧ s.send.onLine = .message (sendOf .onLine 0 Counts.zero) ∧
    t.send.onLine = .control 0 (queuedOf .who .onLine Counts.zero) ∧ f.dest ≠ 0 ∧
    (withLineOf s { s.line with tx := .send, outFrame := some f }).line.outFrame = some f ∧
    (withLineOf s { s.line with tx := .breaking }).line.tx = .breaking := by decide

/-- An answer read and a circular frame completed; a final and a further section; a control frame. -/
theorem test_witness_done :
    let s := sectionOut Counts.zero
    let closed := withStoreOf s { s.store with dir := [entryOf 0 true .closed [0] 1] }
    let f := textFrame 7 0 1 1 0 true true [4]
    let c := withLineOf s { s.line with tx := .send, outFrame := some f }
    s.line.tx = .awaitAnswer ∧ c.line.tx = .send ∧ c.line.outFrame = some f ∧ f.dest = 0 ∧
    isFinalSection s.store (sendOf .onLine 0 Counts.zero) = false ∧
    isFinalSection closed.store (sendOf .onLine 0 Counts.zero) = true ∧
    closed.send.onLine = .message (sendOf .onLine 0 Counts.zero) ∧
    (requestOut Counts.zero).send.onLine = .control 0 (queuedOf .who .onLine Counts.zero) ∧
    awaiting.send.onLine = .none := by decide

/-- FrameDone: of two PENDING records with one destination the first becomes READY, and not the second; a request
with its RESERVED reply-watch record. -/
theorem test_witness_ready :
    let st := stored .closed none (blockOf 0 0 [4] true)
    let r := sendOf .pending 0 Counts.zero
    let q := { queuedOf .who .onLine Counts.zero with watch := some 3 }
    becomesReady st [r, r] 0 r ∧ ¬ becomesReady st [r, r] 1 r ∧ ([r, r][1]? = some r) ∧
    (withSendOf awaiting { on.send with control := [q] }).send.onLine = .control 0 q := by
  refine ⟨⟨rfl, by decide, _, rfl, by decide⟩, fun h => absurd h.2.1 (by decide), rfl, by decide⟩

/-- The 29th and 30th WAIT, the 23rd and 24th ENGAGED; nothing on line. -/
theorem test_witness_delays :
    (sectionOut (countsOf 0 28 22)).send.onLine = .message (sendOf .onLine 0 (countsOf 0 28 22)) ∧
    (countsOf 0 28 22).waits < 29 ∧ (countsOf 0 28 22).engageds < 23 ∧
    29 ≤ (countsOf 0 29 23).waits ∧ 23 ≤ (countsOf 0 29 23).engageds ∧
    (requestOut (countsOf 0 29 23)).send.onLine = .control 0 (queuedOf .who .onLine (countsOf 0 29 23)) ∧
    (sectionOut (countsOf 0 29 23)).line.tx = .awaitAnswer ∧ awaiting.send.onLine = .none ∧
    awaiting.line.tx = .awaitAnswer := by decide

/-- With a try limit of 4: the third and the fourth unanswered try; a collision in SEND. -/
theorem test_witness_no_answer :
    let s := sectionOut (countsOf 2 0 0)
    s.panel.settings.tryLimit = 4 ∧ (countsOf 2 0 0).tries + 1 < 4 ∧ 4 ≤ (countsOf 3 0 0).tries + 1 ∧
    s.line.tx = .awaitAnswer ∧ s.line.rx = .answer ∧
    s.send.onLine = .message (sendOf .onLine 0 (countsOf 2 0 0)) ∧
    (requestOut (countsOf 3 0 0)).send.onLine = .control 0 (queuedOf .who .onLine (countsOf 3 0 0)) ∧
    (withLineOf s { s.line with tx := .send }).line.tx = .send ∧
    window.line.rx = .answer ∧ window.line.tx ≠ .awaitAnswer := by decide

/-- A message current and composed, current and closed, and not current; a request with its watch record and a
second record linked to it, one without; nothing on line. -/
theorem test_witness_refuse :
    let m := withKbOf (sectionOut Counts.zero) (composing [5] 0).kb
    let r := { queuedOf .who .onLine Counts.zero with watch := some 0 }
    (sectionOut Counts.zero).line.tx = .awaitAnswer ∧
    (sectionOut Counts.zero).send.onLine = .message (sendOf .onLine 0 Counts.zero) ∧
    (withSendOf awaiting { on.send with control := [r] }).send.onLine = .control 0 r ∧
    (withSendOf awaiting { on.send with control := [r, { r with phase := .ready }] }).send.onLine
      = .control 0 r ∧
    m.kb.current = some (sendOf .onLine 0 Counts.zero).entry ∧ m.kb.comp = .composing ∧
    (inComp m .lineReady).kb.comp ≠ .composing ∧ (sectionOut Counts.zero).kb.current ≠ some 0 ∧
    awaiting.send.onLine = .none ∧
    (requestOut Counts.zero).send.onLine = .control 0 (queuedOf .who .onLine Counts.zero) := by decide

theorem test_witness_expiries :
    let w : WatchRec := { slot := 3, peer := 12, kind := .ident, timer := some 0 }
    (([w].find? fun x => x.slot == 3 && x.timer.isSome) = some w) ∧
    (∀ r ∈ on.send.watch, ¬ (r.slot = 3 ∧ r.timer.isSome = true)) ∧ on.panel.phase = .done ∧
    (withSendOf on { on.send with watch := [w] }).send.watch = [w] := by decide

/-- Two and three keys held; fifteen and sixteen waiting; a key down. -/
theorem test_witness_keys :
    let s := withKbOf on { on.kb with
      down := [.code 0, .code 1], held := [.code 0, .code 1]
      queue := List.replicate 15 { key := .space, shift := false } }
    Key.endKey ∉ s.kb.down ∧ Key.endKey ≠ .shift ∧ isVacant .endKey = false ∧ s.kb.held.length < 3 ∧
    s.kb.queue.length < 16 ∧ Key.code 1 ∈ s.kb.down ∧
    Key.breakKey ∈ [Key.breakKey, .attend, .print, .punch, .level, .paperFeed, .tapeFeed, .punchResume, .journal] ∧
    3 ≤ (withKbOf s { s.kb with held := [.code 0, .code 1, .space] }).kb.held.length ∧
    16 ≤ (List.replicate 16 ({ key := .space, shift := false } : Keystroke)).length := by decide

/-- Thirty-one and thirty-two codes; RETURN with its option on; LINE-IDLE. -/
theorem test_witness_text :
    let s := pressed (composing (List.replicate 30 4) 0) (.code 0) false
    let t := pressed (composing (List.replicate 31 4) 0) (.code 0) false
    let r := pressed (withPanelOf (composing [4] 0)
      { on.panel with settings := { settings7 with returnReleases := true } }) .ret false
    s.kb.hold = .none ∧ s.kb.queue = [{ key := .code 0, shift := false }] ∧
    s.panel.settings.answerback.length = 20 ∧ s.kb.comp = .composing ∧ s.kb.current = some 0 ∧
    s.store.openCodes 0 = some (List.replicate 30 4) ∧
    (keyOutput s.panel.settings.answerback { key := .code 0, shift := false } s.kb.case).length = 1 ∧
    t.store.openCodes 0 = some (List.replicate 31 4) ∧ r.panel.settings.returnReleases = true ∧
    r.line.latch = false ∧ r.store.openCodes 0 = some [4] ∧ isTextKey (.code 0) = true ∧
    on.kb.comp = .lineIdle := by decide

/-- PUNCH off and on, 63 and 64 codes waiting for the tape, a code held. -/
theorem test_witness_local :
    let s := pressed (inComp on .localMode) (.code 0) false
    let p := withPanelOf s { s.panel with punchSel := true }
    let f := withPunchOf p { on.punch with fifo := List.replicate 64 4 }
    s.kb.comp = .localMode ∧ s.kb.hold = .none ∧ s.kb.queue = [{ key := .code 0, shift := false }] ∧
    s.panel.punchSel = false ∧ p.panel.punchSel = true ∧ (List.replicate 62 (4 : Code)).length + 2 ≤ 64 ∧
    64 ≤ f.punch.fifo.length ∧
    keyOutput [] { key := .code 0, shift := false } .letters = [4] ∧
    (withKbOf f { f.kb with hold := .localCode 4 [] }).kb.hold = .localCode 4 [] := by decide

/-- COMPOSING, LOCAL with PUNCH off, and on with 63 and 64 codes waiting, LINE-IDLE, and the two entries. -/
theorem test_witness_erase :
    let s := pressed (composing [5, 4] 0) .erase false
    let l := withPanelOf (inComp on .localMode) { on.panel with punchSel := true }
    s.kb.hold = .none ∧ s.kb.queue = [{ key := .erase, shift := false }] ∧ s.kb.comp = .composing ∧
    s.kb.current = some 0 ∧ s.store.openCodes 0 = some [5, 4] ∧
    (composing [] 1).store.openCodes 0 = some [] ∧ (between 255).store.openCodes 0 = none ∧
    (inComp on .localMode).kb.comp = .localMode ∧ on.kb.comp = .lineIdle ∧ on.panel.punchSel = false ∧
    l.panel.punchSel = true ∧ (List.replicate 63 (4 : Code)).length < 64 ∧
    (withPunchOf l { l.punch with fifo := List.replicate 64 4 }).punch.fifo.length = 64 ∧
    (inComp s (.destEntry 1 true (some 2))).kb.comp = .destEntry 1 true (some 2) ∧
    (inComp s (.timeEntry true [2])).kb.comp = .timeEntry true [2] := by decide

/-- Open with codes; open and empty behind a section; no open block with and without a free block; withdrawn; END in
the three states without a composition. -/
theorem test_witness_end :
    let s := pressed (composing [5, 4] 0) .endKey false
    s.kb.hold = .none ∧ s.kb.comp = .composing ∧ s.kb.current = some 0 ∧
    s.kb.queue = [{ key := .endKey, shift := false }] ∧
    (withKbOf s { s.kb with autoEnd := some 1 }).kb.autoEnd = some 1 ∧ 0 < 1 ∧
    s.store.openCodes 0 = some [5, 4] ∧ (composing [] 1).store.openCodes 0 = some [] ∧
    (composing [] 1).store.released 0 ≠ 0 ∧ (between 1).store.openCodes 0 = none ∧
    1 ≤ (between 1).store.free ∧ (between 0).store.free = 0 ∧
    (composing [] 0).store.openCodes 0 = some [] ∧ (composing [] 0).store.released 0 = 0 ∧
    (pressed on .endKey false).kb.comp = .lineIdle ∧ (inComp s .lineReady).kb.comp = .lineReady ∧
    (inComp s .localMode).kb.comp = .localMode := by decide

/-- Numbers 62 and 63, and the station's own; a key that is no digit. -/
theorem test_witness_destination :
    let s := pressed on .dest true
    let t := pressed (inComp on (.destEntry 1 true (some 6))) (.code 1) true
    s.kb.hold = .none ∧ s.kb.queue = [{ key := .dest, shift := true }] ∧ s.kb.comp = .lineIdle ∧
    digitOf { key := .code 1, shift := true } = some 2 ∧ t.kb.comp = .destEntry 1 true (some 6) ∧
    10 * 6 + 2 ≤ 62 ∧ t.own ≠ some 62 ∧ 62 < 10 * 6 + 3 ∧ t.own = some (10 * 0 + 7) ∧
    (inComp on (.destEntry 1 false none)).kb.comp = .destEntry 1 false none ∧
    (inComp on (.destEntry 2 true none)).kb.comp = .destEntry 2 true none ∧
    digitOf { key := .code 1, shift := false } = none ∧ isTextKey (.code 1) = true ∧
    (inComp on .localMode).kb.comp = .localMode := by decide

/-- Every row that takes a key which is no digit in an entry. -/
theorem test_witness_entry_commands :
    entryCommand { key := .space, shift := false } .textKey ∧
    entryCommand { key := .hereIs, shift := false } .hereIs ∧
    entryCommand { key := .erase, shift := false } .erase ∧
    entryCommand { key := .endKey, shift := true } .endKey ∧
    entryCommand { key := .who, shift := false } .whoKey ∧ entryCommand { key := .enq, shift := false } .enq ∧
    entryCommand { key := .mode, shift := false } .mode ∧
    entryCommand { key := .time, shift := false } .time := by
  refine ⟨?_, ?_, ?_, ?_, ?_, ?_, ?_, ?_⟩ <;> simp [entryCommand, isTextKey, digitOf]

/-- Three watch records and five control records; four and six; destination 0. -/
theorem test_witness_request_keys :
    let w : WatchRec := { slot := 0, peer := 12, kind := .ident, timer := none }
    let s := pressed (withKbOf on { on.kb with comp := .lineReady, dest := some (12, 1) }) .who false
    let t := withSendOf s { s.send with
      watch := List.replicate 3 w, control := List.replicate 5 (queuedOf .ident .ready Counts.zero) }
    s.kb.hold = .none ∧ s.kb.queue = [{ key := .who, shift := false }] ∧ s.kb.comp = .lineReady ∧
    s.kb.dest = some (12, 1) ∧ t.send.watch.length < 4 ∧ t.send.control.length < 6 ∧
    4 ≤ (List.replicate 4 w).length ∧
    6 ≤ (List.replicate 6 (queuedOf .ident .ready Counts.zero)).length ∧
    on.kb.comp = .lineIdle := by decide

/-- 23:59 and 24:00; LOCAL with and without CONFIG FAULT. -/
theorem test_witness_mode_time :
    let s := pressed on .mode false
    let t := pressed (inComp on (.timeEntry true [2, 3, 5])) (.code 8) true
    s.kb.hold = .none ∧ s.kb.queue = [{ key := .mode, shift := false }] ∧ s.kb.comp = .lineIdle ∧
    (inComp on .localMode).kb.comp = .localMode ∧ on.panel.configFault = false ∧
    (withPanelOf on { on.panel with configFault := true }).panel.configFault = true ∧
    digitOf { key := .code 8, shift := true } = some 9 ∧ t.kb.comp = .timeEntry true [2, 3, 5] ∧
    10 * 2 + 3 ≤ 23 ∧ 10 * 5 + 9 ≤ 59 ∧ 23 < 10 * 2 + 4 ∧ 59 < 10 * 6 + 0 ∧
    [2, 3].length < 3 ∧ on.punch.offDue = false ∧
    (withPanelOf s { s.panel with punchSel := true }).panel.punchSel = true ∧
    (inComp (pressed on .dest false) (.timeEntry false [])).kb.comp = .timeEntry false [] := by decide

/-- ModeAndTime: the four reservations, with and without a copy, codes in the FIFO and a closing leader begun. -/
theorem test_witness_reservations :
    let p : Reservation → Punch := fun r => { on.punch with reservation := r }
    (p .none).reservation = .none ∧ (p .none).copy = none ∧
    ({ p .none with copy := some { entry := 0, phase := .text 0 0 } } : Punch).copy.isSome = true ∧
    (p (.waiting true)).reservation = .waiting true ∧ (p (.waiting false)).reservation = .waiting false ∧
    (p (.waiting true)).fifo = [] ∧ ({ p (.waiting true) with fifo := [4] } : Punch).fifo ≠ [] ∧
    (p .active).reservation = .active ∧ (p (.closing false)).closeLeft = none ∧
    ({ p (.closing true) with closeLeft := some 0 } : Punch).closeLeft = some 0 := by decide

/-- BreakKey, SelectionKeys and MechanismKeys: of the keys handed on the first PRINT, the only BREAK and the release
leave; of ATTEND there is none. -/
theorem test_witness_handed :
    let k (key : Key) : Handed := .key { key := key, shift := false }
    let l : List Handed := [k .breakKey, k .print, .tapeFeedRelease, k .print]
    l = [k .breakKey] ++ k .print :: [.tapeFeedRelease, k .print] ∧ Handed.isOf .print (k .print) ∧
    (∀ x ∈ [k .breakKey], ¬ Handed.isOf .print x) ∧ (∀ h ∈ l, ¬ Handed.isOf .attend h) ∧
    l = [k .breakKey, k .print] ++ .tapeFeedRelease :: [k .print] ∧
    l = [] ++ k .breakKey :: [k .print, .tapeFeedRelease, k .print] ∧ Handed.isOf .breakKey (k .breakKey) := by
  simp [Handed.isOf]

/-- No current message; a message being composed, on line, with and without sections done, with the control
queue at five and six. -/
theorem test_witness_break :
    let s := composing [5] 0
    let t := withSendOf s { s.send with
      sendList := [sendOf .onLine 1 Counts.zero]
      control := List.replicate 5 (queuedOf .ident .ready Counts.zero) }
    on.kb.current = none ∧ s.currentRecord = some (sendOf .pending 0 Counts.zero) ∧
    (sendOf .pending 0 Counts.zero).done = 0 ∧ s.kb.comp = .composing ∧
    t.currentRecord = some (sendOf .onLine 1 Counts.zero) ∧ (sendOf .onLine 1 Counts.zero).done ≠ 0 ∧
    t.send.control.length < 6 ∧ (inComp t .lineReady).kb.comp ≠ .composing ∧
    6 ≤ (List.replicate 6 (queuedOf .ident .ready Counts.zero)).length := by decide

/-- An opening with three and four records, 31 and 32 entries, one block and none; held requests. -/
theorem test_witness_held :
    let s := pressed (withKbOf on { on.kb with comp := .lineReady, dest := some (12, 1) }) (.code 0) false
    let o := withKbOf s { s.kb with hold := .opening }
    let b := withKbOf (between 1) { (between 1).kb with hold := .block [.letter (keyCode 0)] }
    let e := withKbOf (between 1) { (between 1).kb with hold := .endBlock }
    s.kb.queue = [{ key := .code 0, shift := false }] ∧ s.kb.dest = some (12, 1) ∧ s.kb.hold = .none ∧
    s.kb.comp = .lineReady ∧ s.panel.settings.answerback.length = 20 ∧ s.send.sendList.length < 4 ∧
    1 ≤ s.store.free ∧ s.store.dir.length < 32 ∧ o.kb.hold = .opening ∧ isTextKey (.code 0) = true ∧
    4 ≤ (List.replicate 4 (sendOf .ready 0 Counts.zero)).length ∧ (between 0).store.free = 0 ∧
    32 ≤ ((List.range 32).map fun n => entryOf n false .closed [] 1).length ∧
    b.kb.hold = .block [.letter (keyCode 0)] ∧ b.kb.current = some 0 ∧
    b.store.entry 0 = some (entryOf 0 true .composing [0] 1) ∧ b.store.openCodes 0 = none ∧
    1 ≤ b.store.free ∧ b.kb.case = .unknown ∧ e.kb.hold = .endBlock ∧
    (composing [5] 0).store.openCodes 0 = some [5] ∧ (composing [5] 0).kb.idleTimer = some 0 ∧
    (composing [5] 0).kb.autoEnd = some 0 ∧
    (withKbOf (composing [5] 0) { (composing [5] 0).kb with idleTimer := some 1 }).kb.idleTimer = some 1 := by
  decide

theorem test_witness_selections :
    let p := withPanelOf on { on.panel with punchSel := true }
    on.panel.punchSel = false ∧ p.panel.punchSel = true ∧ p.kb.hold = .none ∧ on.panel.acceptLevel = 2 ∧
    (withPanelOf on { on.panel with acceptLevel := 0 }).panel.acceptLevel = 0 ∧
    (withPanelOf on { on.panel with acceptLevel := 1 }).panel.acceptLevel = 1 ∧ p.punch.flight = none ∧
    (withPunchOf p { p.punch with flight := some (4, .code) }).punch.flight.isSome = true ∧
    (withKbOf p { p.kb with hold := .localCode 4 [] }).kb.hold = .localCode 4 [] ∧
    (withKbOf p { p.kb with hold := .localCode 4 [.raw 5] }).kb.hold = .localCode 4 [.raw 5] := by decide

theorem test_witness_mechanism_keys :
    let t := withPunchOf on { on.punch with stallFault := true, markLeft := 5 }
    on.print.paperPresent = true ∧ on.punch.stallTapeOut = false ∧ on.punch.stallFault = false ∧
    on.punch.copy = none ∧ on.punch.markLeft = 0 ∧ (∀ b, on.punch.reservation ≠ .waiting b) ∧
    t.punch.stallFault = true ∧ t.punch.tapeOut = false ∧ 0 < t.punch.markLeft ∧
    (withPunchOf t { t.punch with tapeOut := true }).punch.tapeOut = true ∧ on.journal.report = none ∧
    (withJournalOf on (on.journal.beginReport true)).journal.report.isSome = true := by decide

theorem test_witness_print :
    let g := withPrintOf on { on.print with
      motor := .running, flight := .op (.glyph 0) (.stream .notices false) }
    let f := withPrintOf on { on.print with motor := .running, flight := .op .feed (.stream .echo false) }
    on.print.flight = .none ∧ g.print.flight = .op (.glyph 0) (.stream .notices false) ∧
    f.print.flight = .op .feed (.stream .echo false) ∧ f.print.column = 1 ∧
    (withPrintOf on { on.print with flight := .motorStart }).print.flight = .motorStart ∧
    (withPrintOf on { on.print with flight := .motorStop }).print.flight = .motorStop ∧
    (withPrintOf on { on.print with motor := .running }).print.motor = .running ∧
    on.panel.attended = true ∧ (withPanelOf on { on.panel with attended := false }).panel.attended = false ∧
    on.panel.settings.attendedIdleMin * 60 * Config.second = 7200000 ∧
    on.panel.settings.unattendedIdle10s * 10 * Config.second = 720000 ∧
    (withPrintOf on { on.print with motorIdle := 7200000 }).print.motorIdle = 7200000 ∧
    (withPrintOf on { on.print with motorIdle := 719999 }).print.motorIdle < 720000 ∧
    (withPrintOf on { on.print with echoIdle := some 3 }).print.echoIdle = some 3 := by decide

/-- PrintCompletion: each stream in its turn, the echo also at the column behind the last, and a stream granted
by coming first. -/
theorem test_witness_turns :
    (printing .echo { on.print with echoFifo := [.code 4] }).printTurn .echo ∧
    (withPrintOf on { on.print with echoFifo := [.code 4] }).printTurn .echo ∧
    (printing .echo { on.print with echoFifo := [.code 4], column := 73, openLine := true
                                    owner := some .echo }).printTurn .echo ∧
    (printing .notices { on.print with notices := [.restart] }).printTurn .notices ∧
    (withStoreOf (printing .copy { on.print with copy := some (copyAt .text 0) })
      (stored .receiving none (blockOf 0 0 [4] true))).printTurn .copy ∧
    (withJournalOf (printing .report on.print) (on.journal.beginReport false)).printTurn .report ∧
    (printing .echo on.print).print.turning := by
  refine ⟨?_, ?_, ?_, ?_, ?_, ?_, rfl, rfl⟩
  all_goals constructor
  all_goals first
    | exact rfl
    | exact .inl rfl
    | exact .inr rfl
    | exact .inr ⟨rfl, by decide⟩

/-- PrintCompletion: the items, texts and places at the edges of its clauses. -/
theorem test_witness_next_operation :
    let st := stored .closed (some .gap) { blockOf 0 0 [4] true with gap := 7 }
    let s := printing .copy { on.print with copy := some (copyAt .text 1), openLine := true
                                            owner := some .notices }
    on.print.column = 1 ∧ on.panel.settings.width = 72 ∧ (4 : Code).val = 4 ∧ (29 : Code).val = 29 ∧
    on.print.motor = .off ∧ on.print.firstCR = true ∧ on.print.saved = none ∧ on.print.reprint = [] ∧
    noticeText false .restart ≠ [] ∧ st.entry 0 = some { entryOf 0 false .closed [0] 1 with reason := some .gap } ∧
    (st.block 0).gap = 7 ∧ (st.block 0).codes[0]? = some 4 ∧ (copyAt .text 0).gapDone = false ∧
    { copyAt .text 0 with gapDone := true }.gapDone = true ∧ (copyAt .bell 0).phase = .bell ∧
    (on.journal.beginReport false).report.map (fun r => r.stage) = some .header ∧
    s.print.holder = some .copy ∧ s.print.owner ≠ some .copy ∧ s.print.openLine = true ∧
    (withStoreOf s (stored .receiving none (blockOf 0 0 [4, 5] true))).printSide.waits s.printEnv .copy
      = true ∧
    on.panel.settings.banner = true ∧ on.panel.settings.pagePerMessage = false := by decide

theorem test_witness_sensors :
    State.reset.panel.phase ≠ .done ∧ on.panel.phase = .done ∧ on.punch.stallTapeOut = false ∧
    on.punch.outPending = false ∧ on.punch.flight = none ∧
    (withPunchOf on { on.punch with flight := some (4, .code) }).punch.flight.isSome = true ∧
    (withPunchOf on { on.punch with stallTapeOut := true }).punch.stallTapeOut = true := by decide

theorem test_witness_punch :
    let s := withPunchOf on { on.punch with
      flight := some (4, .copy), copy := some { entry := 0, phase := .text 0 3 } }
    on.punch.flight = none ∧ s.punch.flight = some (4, .copy) ∧ s.punch.outPending = false ∧
    s.punch.tapeOut = false ∧ s.punch.copy = some { entry := 0, phase := .text 0 3 } ∧
    (5 : Code) ≠ 4 ∧ (withPunchOf s { s.punch with tapeOut := true }).punch.tapeOut = true ∧
    (withPunchOf s { s.punch with copy := some { entry := 0, phase := .lead 1 } }).punch.copy
      = some { entry := 0, phase := .lead 1 } := by decide

/-- PunchCompletion: the punch in its turn, free for a copy and reserved. -/
theorem test_witness_punch_turn :
    on.punchTurn ∧ on.punch.copyFree ∧ (withPunchOf on { on.punch with markLeft := 5 }).punchTurn ∧
    (withPunchOf on { on.punch with reservation := .closing true, closeLeft := some 1 }).punchTurn := by
  refine ⟨?_, ⟨rfl, rfl, rfl⟩, ?_, ?_⟩
  all_goals constructor
  all_goals decide

/-- PunchCompletion: the sources in their order, a closing leader over, each phase of a copy, a copy to begin and
not, a turning off. -/
theorem test_witness_punch_next :
    let r := withPunchOf on { on.punch with reservation := .closing false, redo := some 4, fifo := [5] }
    let s := withStoreOf (withPrintOf on { on.print with flight := .motorStop })
      { stored .closed none { blockOf 0 0 [4] true with gap := 1 } with punchQ := [0] }
    let t := withPunchOf s { s.punch with flight := some (0, .feed) }
    r.punch.markLeft = 0 ∧ r.punch.tapeFeed = false ∧ r.punch.reservation.holdsPunch = true ∧
    r.punch.closeLeft = none ∧ r.punch.leadLeft = 0 ∧ r.punch.copy = none ∧ 0 < r.panel.settings.leader ∧
    (withPunchOf r { r.punch with closeLeft := some 0 }).punch.closeLeft = some 0 ∧
    s.print.flight ≠ .none ∧ s.store.entry 0 = some (entryOf 0 false .closed [0] 1) ∧
    (s.store.block 0).codes[0]? = some 4 ∧ 0 < (s.store.block 0).gap ∧
    (entryOf 0 false .closed [0] 1).chain[0]? = some 0 ∧ (entryOf 0 false .closed [0] 1).chain[1]? = none ∧
    (withPunchOf s { s.punch with copy := some { entry := 0, phase := .trail 0 } }).punch.copy
      = some { entry := 0, phase := .trail 0 } ∧
    t.store.punchQ = [0] ∧ t.punch.copy = none ∧ t.punch.flight.isSome = true ∧ t.punch.offDue = false ∧
    (withPunchOf t { t.punch with tapeLow := true }).punch.tapeLow = true ∧
    (withPunchOf on { on.punch with offDue := true }).punch.offDue = true ∧ on.kb.inLocal = false := by decide

/-- TextWritten: a shift as the 32nd code, RETURN with its code 2 as the 32nd, with the option and without, HERE IS
over the end of the block; no open block, with a free block and without, for each kind of key. -/
theorem test_witness_text_over :
    let l := List.replicate 31 (4 : Code)
    let back := settings7.answerback
    let s := composing l 0
    let r := withPanelOf s { s.panel with settings := { settings7 with returnReleases := true } }
    keyOutput back { key := .code 0, shift := true } .letters = [30] ++ [4] ∧ l.length + [30].length = 32 ∧
    keyOutput back { key := .ret, shift := false } .letters = [2] ++ [3] ∧
    keyOutput back { key := .hereIs, shift := false } .letters
      = List.replicate 12 4 ++ List.replicate 8 4 ∧ (List.replicate 20 (4 : Code)).length + 12 = 32 ∧
    s.store.openCodes 0 = some l ∧ (composing (List.replicate 20 4) 0).store.openCodes 0
      = some (List.replicate 20 4) ∧ s.kb.case = .letters ∧
    (withStoreOf s { s.store with free := 0 }).store.free = 0 ∧ 1 ≤ s.store.free ∧
    r.panel.settings.returnReleases = true ∧ r.line.latch = false ∧
    (between 1).store.openCodes 0 = none ∧
    (between 1).store.entry 0 = some (entryOf 0 true .composing [0] 1) ∧ 1 ≤ (between 1).store.free ∧
    (between 0).store.free = 0 ∧ (between 0).kb.case ≠ .letters ∧ (between 1).kb.comp = .composing ∧
    (between 1).kb.current = some 0 ∧ textCommand { key := .hereIs, shift := false } .hereIs ∧
    textCommand { key := .ret, shift := false } .textKey := by
  refine ⟨rfl, rfl, rfl, rfl, rfl, ?_⟩
  simp only [textCommand]
  decide

/-- LocalTyping: a keystroke whose second code finds the FIFO full, and one whose first does; a code held with an
element behind it, resumed at 63, 62 and 64. -/
theorem test_witness_local_full :
    let p (n : Nat) := withPunchOf (withPanelOf (inComp on .localMode) { on.panel with punchSel := true })
      { on.punch with fifo := List.replicate n 4 }
    let h := withKbOf (p 63) { (p 63).kb with hold := .localCode 30 [.raw 5], case := .figures }
    keyOutput settings7.answerback { key := .code 0, shift := true } .letters = [30] ++ 4 :: [] ∧
    (p 63).punch.fifo.length + [(30 : Code)].length = 64 ∧ (p 63).panel.punchSel = true ∧
    keyOutput settings7.answerback { key := .code 0, shift := true } .letters = [] ++ 30 :: [4] ∧
    64 ≤ (p 64).punch.fifo.length ∧ h.kb.hold = .localCode 30 [.raw 5] ∧ h.punch.fifo.length = 63 ∧
    emission h.kb.case (.raw 5) = some (5, []) ∧ emitOutput .figures [.raw 5] = [5] ∧ [Emit.raw 5].length ≤ 25 ∧
    (p 62).punch.fifo.length + 1 + [(5 : Code)].length ≤ 64 := by decide

/-- HeldRequests: an opening by RETURN with its option, a held RETURN, and the idle timer at T and 2T, one unit
short of each, with the latch clear and set. -/
theorem test_witness_held_return :
    let r := pressed (withPanelOf (withKbOf on { on.kb with comp := .lineReady, dest := some (12, 1) })
      { on.panel with settings := { settings7 with returnReleases := true } }) .ret false
    let es : List Emit := [.raw 2, .raw 3, .returnRelease]
    let b := withKbOf (between 1) { (between 1).kb with hold := .block es }
    let idle (n : Nat) := withKbOf (composing [5] 0) { (composing [5] 0).kb with idleTimer := some n }
    textCommand { key := .ret, shift := false } .textKey ∧ r.kb.hold = .none ∧ r.kb.comp = .lineReady ∧
    r.mayOpen ∧ r.panel.settings.returnReleases = true ∧ r.line.latch = false ∧
    keyOutput r.panel.settings.answerback { key := .ret, shift := false } .letters = [2, 3] ∧
    b.kb.hold = .block es ∧ es = [.raw 2, .raw 3] ++ [.returnRelease] ∧
    .returnRelease ∉ ([.raw 2, .raw 3] : List Emit) ∧ (emission b.kb.case (.raw 2)).isSome = true ∧
    es.length ≤ 25 ∧ (emitOutput b.kb.case es).length < 32 ∧
    on.panel.settings.idleReleaseS * Config.second = 36000 ∧ (idle 36000).kb.idleTimer = some 36000 ∧
    (idle 35999).kb.idleTimer = some 35999 ∧ (idle 72000).kb.idleTimer = some 72000 ∧
    (withLineOf (idle 71999) { on.line with latch := true }).line.latch = true ∧
    (idle 36000).store.openCodes 0 = some (5 :: []) := by
  simp only [textCommand, State.mayOpen]
  decide

/-- SettleStill: a copy that waits at an idle printer, with the motor off and turning, and one with a page to give
first. -/
theorem test_witness_settle_idle :
    let s := withStoreOf on { stored .receiving none (blockOf 0 0 [4] true) with printQ := [0] }
    let t := withPrintOf s { s.print with motor := .running, firstCR := false }
    let p := withPanelOf (withPrintOf t { t.print with pageLine := 2 })
      { on.panel with settings := { settings7 with pagePerMessage := true, pageLength := 66 } }
    s.panel.phase = .done ∧ s.print.flight = .none ∧ s.print.stalled = false ∧ s.print.owedFeeds = 0 ∧
    s.print.pre = [] ∧ s.print.grantDue = false ∧ s.print.holder = none ∧ s.print.openLine = false ∧
    s.print.column ≤ s.panel.settings.width ∧ s.printSide.firstWaiting s.printEnv = none ∧
    s.print.copy = none ∧ s.store.printQ = [0] ∧
    s.store.entry 0 = some (entryOf 0 false .receiving [0] 1) ∧ s.panel.settings.banner = true ∧
    s.print.motor = .off ∧ t.print.motor = .running ∧ t.print.firstCR = false ∧
    p.panel.settings.pagePerMessage = true ∧ p.panel.settings.pageLength ≠ 0 ∧ p.print.pageLine ≠ 1 := by decide

/-- MechanismKeys: the stall with a feed in flight that was owed before. -/
theorem test_witness_feed_before :
    let s := withPrintOf on { on.print with
      motor := .running, flight := .op .feed .paperFeed, owedFeeds := 1, stalled := true }
    s.print.stalled = true ∧ s.print.stallFeed = false ∧ s.print.flight.feedsPaper = true ∧
    s.print.paperPresent = true := by decide

/-- PrintCompletion: what a line's end finishes, with the feed in flight at column 1: a notice with notices lost, a
copy in its finish, a report with its clear; and the feed of a PAPER FEED, with and without one given before. -/
theorem test_witness_line_ends :
    let f (st : Stream) (p : PrintUnit) := printing st { p with flight := .op .feed (.stream st false) }
    let n := f .notices { on.print with noticeLine := true, lost := 3 }
    let c := withStoreOf (f .copy { on.print with copy := some (copyAt .finish 0) })
      (stored .closed none (blockOf 0 0 [4] true))
    let q : Report := { snapshot := [1], toPrint := [], wasEmpty := false, skip := 0, clear := true
                        stage := .ended }
    let r := withJournalOf (f .report on.print) { on.journal with report := some q }
    let o := printing .echo { on.print with flight := .op .feed .paperFeed, stalled := true, feedBefore := true }
    n.print.flight = .op .feed (.stream .notices false) ∧ n.print.column = 1 ∧ n.print.noticeScript = [] ∧
    n.print.noticeLine = true ∧ 0 < n.print.lost ∧ c.print.copy = some (copyAt .finish 0) ∧
    (copyAt .finish 0).phase = .finish ∧ (copyAt .finish 0).script = [] ∧ r.print.reportScript = [] ∧
    r.journal.report.map (fun x => x.stage) = some .ended ∧ o.print.flight = .op .feed .paperFeed ∧
    o.print.feedBefore = true ∧ on.print.feedBefore = false ∧
    (withPrintOf o { o.print with flight := .op (.glyph 0) (.stream .echo true), column := 64 }).print.column
      + 1 + 7 = on.panel.settings.width := by decide

/-- PrintCompletion: the echo's marker lines and ECHO LOST, with the line closed, open and open at column 1; the
codes that need no operation before a glyph; NOTICES LOST. -/
theorem test_witness_echo_lines :
    let e (p : PrintUnit) := printing .echo { p with echoFifo := [.destMarker 12 1] }
    let o := e { on.print with openLine := true, owner := some .echo, column := 5 }
    let l := printing .notices { on.print with lostDue := true, lost := 255 }
    (e on.print).printTurn .echo ∧ o.printTurn .echo ∧ l.printTurn .notices ∧ o.print.turning ∧
    (e on.print).print.openLine = false ∧ o.print.openLine = true ∧ 1 < o.print.column ∧
    (withPrintOf o { o.print with column := 1 }).print.column = 1 ∧
    (withPrintOf o { o.print with echoFifo := [.autoEnd], echoLost := true }).print.echoFifo ≠ [] ∧
    (printing .echo { on.print with echoFifo := [.code 30, .code 4] }).print.echoFifo
      = .code 30 :: .code 4 :: [] ∧ (30 : Code).val = 30 ∧ (25 : Code).val = 25 ∧
    l.print.lostDue = true ∧ l.print.noticeScript = [] := by
  refine ⟨?_, ?_, ?_, ⟨rfl, rfl⟩, ?_⟩
  · constructor <;> first | exact rfl | exact .inl rfl | exact .inr rfl
  · constructor <;> first | exact rfl | exact .inl rfl | exact .inr rfl
  · constructor <;> first | exact rfl | exact .inl rfl | exact .inr rfl
  · decide

/-- PrintCompletion: a copy at a control code, at a shift before a glyph, in the page phase with a page to give and
at page line 1; the report with no entries, a skip, an entry and the footer. -/
theorem test_witness_copy_report :
    let g : Settings := { settings7 with pagePerMessage := true, pageLength := 66 }
    let st := stored .receiving none (blockOf 0 0 [1, 30, 4] true)
    let s := withStoreOf (printing .copy { on.print with copy := some (copyAt .text 0) }) st
    let p (line : Nat) := withPanelOf (withPrintOf s { s.print with
      copy := some (copyAt .page 0), pageLine := line }) { on.panel with settings := g }
    let e : JournalEntry := { entryNo := 1, time := none, kind := .start, fields := {} }
    let r : Report := { snapshot := [1], toPrint := [1], wasEmpty := false, skip := 0, clear := true
                        stage := .entries }
    let j (r : Report) := withJournalOf (printing .report on.print) { on.journal with
      ring := [e], report := some r }
    s.printTurn .copy ∧ (p 2).printTurn .copy ∧ (p 1).printTurn .copy ∧ (j r).printTurn .report ∧
    (j { r with wasEmpty := true }).printTurn .report ∧ (j { r with skip := 3 }).printTurn .report ∧
    (j { r with toPrint := [] }).printTurn .report ∧ (j { r with stage := .footer }).printTurn .report ∧
    (st.block 0).codes[0]? = some 1 ∧ (st.block 0).codes[1]? = some 30 ∧ (st.block 0).codes[2]? = some 4 ∧
    (p 2).print.pageLine ≠ 1 ∧ (p 1).print.pageLine = 1 ∧
    (j r).journal.ring.find? (fun x => x.entryNo == 1) = some e := by
  refine ⟨?_, ?_, ?_, ?_, ?_, ?_, ?_, ?_, ?_⟩
  all_goals first
    | decide
    | (constructor <;> first | exact rfl | exact .inl rfl | exact .inr rfl)

/-- PunchCompletion: the phases of a copy with an operation in flight and at their ends; the reservation WAITING
with its session open and ended; a copy that begins at the idle punch, with a leader and without. -/
theorem test_witness_punch_copy :
    let at_ (ph : PunchPhase) (f : Option (Code × PunchSource)) := withStoreOf (withPunchOf on { on.punch with
      flight := f, copy := some { entry := 0, phase := ph } })
      { stored .closed (some .gap) (blockOf 0 0 [4] true) with punchQ := [0] }
    let w (b : Bool) := withPunchOf (at_ (.trail 0) none) { (at_ (.trail 0) none).punch with
      reservation := .waiting b, leadLeft := 10 }
    let idle := withPunchOf (at_ (.lead 0) none) on.punch
    (at_ (.gap 0 8) (some (31, .copy))).punch.copy = some { entry := 0, phase := .gap 0 8 } ∧
    (at_ (.incomplete 1) (some (31, .copy))).punch.copy = some { entry := 0, phase := .incomplete 1 } ∧
    (at_ (.trail 1) (some (0, .copy))).punch.copy = some { entry := 0, phase := .trail 1 } ∧
    (at_ (.incomplete 0) none).punchTurn ∧ (at_ (.incomplete 0) none).punch.copyFree ∧
    (at_ (.incomplete 0) none).printKeepsStore ∧ (at_ (.gap 0 0) none).punchTurn ∧
    (at_ (.block 1) none).punchTurn ∧ (entryOf 0 false .closed [0] 1).chain[1]? = none ∧
    (at_ (.text 0 1) none).punchTurn ∧ (w true).punchTurn ∧ (w true).punch.copyFree ∧ (w false).punchTurn ∧
    (w true).punch.reservation = .waiting true ∧ (w true).punch.redo = none ∧
    (w true).store.entry 0 = some { entryOf 0 false .closed [0] 1 with reason := some .gap } ∧
    idle.punchTurn ∧ idle.printKeepsStore ∧ idle.punch.copy = none ∧ idle.store.punchQ = [0] ∧
    idle.punch.reservation = .none ∧ 0 < idle.panel.settings.leader ∧
    (withPanelOf idle { idle.panel with settings := { settings7 with leader := 0 } }).panel.settings.leader = 0 ∧
    (idle.store.block 0).gap = 0 ∧ (idle.store.block 0).codes[0]? = some 4 := by
  refine ⟨?_, ?_, ?_, ?_, ⟨rfl, rfl, rfl⟩, .inr ⟨rfl, rfl⟩, ?_, ?_, ?_, ?_, ?_, ⟨rfl, rfl, rfl⟩, ?_, ?_, ?_, ?_, ?_,
    .inr ⟨rfl, rfl⟩, ?_⟩
  all_goals first
    | decide
    | (constructor <;> decide)

/-- PrintCompletion: the scripts of the four streams, in the line, behind a bell, at the column behind the last and
with the motor off; and the elements of a line. -/
theorem test_witness_scripts :
    let l : List Elem := [.strike (.glyph 3), .cr, .feed]
    let n (l : List Elem) := printing .notices { on.print with noticeScript := l }
    let e := printing .echo { on.print with echoScript := l }
    let c := printing .copy { on.print with copy := some { copyAt .text 0 with script := .bell :: l } }
    let r := printing .report { on.print with reportScript := .strike .space :: l, column := 73 }
    let off := withPrintOf (n l) { (n l).print with motor := .off, firstCR := true }
    (n l).printTurn .notices ∧ e.printTurn .echo ∧ c.printTurn .copy ∧ r.printTurn .report ∧
    off.printTurn .notices ∧ (n [.feed]).printTurn .notices ∧ (n l).print.turning ∧
    (n l).scriptOf .notices = .strike (.glyph 3) :: [.cr, .feed] ∧ e.scriptOf .echo = l ∧
    c.scriptOf .copy = .bell :: .strike (.glyph 3) :: [.cr, .feed] ∧
    r.scriptOf .report = .strike .space :: l ∧ r.print.column = r.panel.settings.width + 1 ∧
    off.print.motor = .off ∧ (n l).elemOp (.strike (.glyph 3)) = some (.glyph 3) ∧
    (n l).elemOp .feed = some .feed ∧ (n l).print.column ≤ (n l).panel.settings.width := by
  refine ⟨?_, ?_, ?_, ?_, ?_, ?_, ⟨rfl, rfl⟩, ?_⟩
  all_goals first
    | decide
    | (constructor <;> first | exact rfl | exact .inl rfl | exact .inr rfl)

/-- PrintCompletion: a reprint, a copy behind the last column, the rest of a wrap and of another stream's closing,
with the motor running and off, a feed owed and the feed that ends the stall. -/
theorem test_witness_rests :
    let s := printing .echo { on.print with reprint := [.glyph 3, .space] }
    let c := withStoreOf (printing .copy { on.print with copy := some (copyAt .text 0), column := 73 })
      (stored .receiving none (blockOf 0 0 [4, 1, 2, 3] true))
    let w := printing .echo { on.print with
      pre := [.feed], preFor := .stream .echo false, openLine := true, owner := some .echo }
    let f := printing .notices { on.print with pre := [.cr, .feed], preFor := .closing, notices := [.restart] }
    let o := printing .echo { on.print with owedFeeds := 1, echoFifo := [.code 4] }
    let t := withPrintOf on { on.print with stalled := true, stallFeed := true, owedFeeds := 1 }
    s.printTurn .echo ∧ c.printTurn .copy ∧ c.print.turning ∧ s.print.reprint = .glyph 3 :: [.space] ∧
    c.print.column = c.panel.settings.width + 1 ∧ (c.store.block 0).codes[0]? = some 4 ∧
    (c.store.block 0).codes[1]? = some 1 ∧ (c.store.block 0).codes[2]? = some 2 ∧
    (c.store.block 0).codes[3]? = some 3 ∧ (c.store.block 0).gap = 0 ∧
    w.print.pre = .feed :: [] ∧ w.holderStays ∧ w.print.turning ∧ f.print.pre = .cr :: [.feed] ∧ f.holderStays ∧
    ¬ (f.print.holder = some .echo ∧ f.print.openLine = true ∧ f.print.owner = some .echo) ∧
    (withPrintOf f { f.print with motor := .off }).print.motor = .off ∧ f.copyPlaced ∧ o.copyPlaced ∧
    o.holderStays ∧ 0 < o.print.owedFeeds ∧ o.print.stalled = false ∧ o.print.flight = .none ∧ t.copyPlaced ∧
    t.print.stalled = true ∧ t.print.stallFeed = true ∧ t.print.paperPresent = true ∧ t.print.motor ≠ .running := by
  refine ⟨?_, ?_, ⟨rfl, rfl⟩, rfl, rfl, rfl, rfl, rfl, rfl, rfl, rfl,
    .inr ⟨.echo, rfl, .inl ⟨by decide, false, rfl⟩⟩, ⟨rfl, rfl⟩, rfl, .inr ⟨.notices, rfl, .inr ⟨rfl, rfl⟩⟩,
    by decide, rfl, .inr rfl, .inr rfl, .inr ⟨.echo, rfl, .inr ⟨rfl, rfl⟩⟩, by decide, rfl, rfl, .inr rfl, rfl, rfl,
    rfl, by decide⟩
  all_goals constructor <;> first | exact rfl | exact .inl rfl | exact .inr rfl

/-- SettleStill and PunchCompletion: the stall with nothing in flight, with a stream that waits for no holder, with
a holder that has nothing to act on and with a grant point kept; the stalled punch. -/
theorem test_witness_stalls :
    let s := withPrintOf on { on.print with stalled := true, notices := [.restart] }
    let h := withPrintOf s { s.print with holder := some .echo, grantDue := true }
    let p := withPunchOf on { on.punch with stallFault := true, markLeft := 5 }
    s.print.stalled = true ∧ s.print.flight = .none ∧ s.print.stallFeed = false ∧ s.copyPlaced ∧
    s.print.holder = none ∧ s.printSide.firstWaiting s.printEnv = some .notices ∧
    h.print.holder = some .echo ∧ h.printSide.waits h.printEnv .echo = false ∧ h.print.openLine = false ∧
    h.print.pre = [] ∧ h.print.grantDue = true ∧ p.punch.flight = none ∧ p.punch.offDue = false ∧
    p.punch.closeLeft ≠ some 0 ∧ p.punch.stallFault = true ∧ 0 < p.punch.markLeft := by
  refine ⟨rfl, rfl, rfl, .inr rfl, ?_⟩
  decide

/-- SumsInRange: the sums of two bytes by hand from R25, and images with a good and a bad sum. -/
theorem test_witness_sums :
    doubleSum [byteOf 1] = (2, 2) ∧ doubleSum [byteOf 1, byteOf 250] = (1, 3) ∧
    imageValid (imageOf 0 72 0) = true ∧
    imageValid ((imageOf 0 72 0).take 31 ++ [byteOf 251]) = false ∧ (imageOf 0 72 0).length = 32 := by decide

/-- LocalTyping: a keystroke resumed with room for two codes and three left, and what stays of a character whose
shift has been emitted (R10, by hand). -/
theorem test_witness_local_resumed :
    let s := withKbOf (withPunchOf (withPanelOf (inComp on .localMode) { on.panel with punchSel := true })
      { on.punch with fifo := List.replicate 62 4 }) { on.kb with hold := .localCode 31 [.raw 5, .raw 6], case := .letters }
    s.kb.hold = .localCode 31 [.raw 5, .raw 6] ∧ emitOutput s.kb.case [.raw 5, .raw 6] = [5] ++ 6 :: [] ∧
    s.punch.fifo.length + 1 + [(5 : Code)].length = 64 ∧ s.panel.punchSel = true ∧
    leftAfter .letters 2 [.raw 5, .raw 6] = [] ∧ leftAfter .letters 1 [.figure 4, .raw 5] = [.figure 4, .raw 5] ∧
    leftAfter .letters 2 [.figure 4, .raw 5] = [.raw 5] := by decide

/-- A circular section of the hold's origin restarts the hold's timer, with no circular record (R73). -/
theorem test_circular_restarts_hold :
    let h : Record := { recordOf 12 1 1 0 with timer := 1 }
    (after (exec (.circularContinuation (textFrame 12 0 1 9 0 false true [4]))
      (withRecvOf hearing { hearing.recv with hold := some h }))).recv.hold.map (fun r => (r.timer, r.number))
      = some (120 * Config.second, 1) := by decide

/-- FormsKept: sound stores with an entry whose block is open, a received entry, one without blocks, one CLOSED with
its last obligation and one without any, a free block beside each. -/
theorem test_witness_sound :
    let st := State.reset.store
    let a := st.openMessage 12 1 1
    let r := st.storeFirst 12 1 1 true true [4]
    let n := (st.createReceived 12 1 1 true false)
    let c := (r.removeObligation .punch 0).closeEntry 0 none
    let b := (r.removeObligation .punch 0).removeObligation .print 0
    st.sound ∧ a.sound ∧ r.sound ∧ n.sound ∧ c.sound ∧ b.sound ∧ st.dir.length < 32 ∧ 0 < a.free ∧ 0 < n.free ∧
    a.openBlock 0 = some 0 ∧
    (a.entry 0).map (fun e => (e.state, e.oblPrint, e.oblPunch)) = some (.composing, false, false) ∧
    r.openBlock 0 = none ∧ (r.entry 0).map (fun e => (e.chain, hasObligation e, e.oblPunch)) = some ([0], true, true) ∧
    (n.entry 0).map (fun e => e.chain) = some [] ∧
    (c.entry 0).map (fun e => (e.state, hasObligation (clearObligation .print e))) = some (.closed, false) ∧
    (b.entry 0).map (fun e => hasObligation e) = some false := by
  have h0 := Store.reset_sound
  have hr := h0.storeFirst (by decide) (by decide) 12 1 1 true true [4]
  refine ⟨h0, h0.openMessage (by decide) (by decide) 12 1 1, hr, h0.createReceived (by decide) 12 1 1 true false,
    (hr.removeObligation .punch 0).closeEntry 0 none, (hr.removeObligation .punch 0).removeObligation .print 0, ?_⟩
  decide

/-- CapacitiesKept: fifteen and sixteen notices, 255 and 256 items of the echo FIFO. -/
theorem test_witness_places :
    (List.replicate 15 Notice.restart).length < 16 ∧ 16 ≤ (List.replicate 16 Notice.restart).length ∧
    (List.replicate 255 EchoItem.autoEnd).length < 256 ∧ 256 ≤ (List.replicate 256 EchoItem.autoEnd).length := by
  simp only [List.length_replicate]
  decide

/-- FormsKept, CapacitiesKept, CarriageKept, LoadEstimateBounds: a state after the read that meets every
invariant, a strike in flight in the last column that may hold one, and whose step answers a next state. -/
theorem test_witness_invariants :
    let s := { withPrintOf on { on.print with
        motor := .running, column := 72, flight := .op .space (.stream .echo true) } with
      pending := [.tapeLow] }
    s.line.bounded ∧ ringWf s.store.ring = true ∧ s.withinCapacity ∧ s.journal.bounded ∧ s.panelBounded ∧
    s.carriageBounded ∧ s.store.sound ∧ ∃ t, step s = .next t := by
  refine ⟨?_, rfl, ?_, ?_, ⟨?_, by decide⟩, ?_, Store.reset_sound, _, rfl⟩
  · unfold LineUnit.bounded; decide
  · constructor <;> decide
  · unfold Journal.bounded; decide
  · constructor <;> decide
  · constructor <;> first | decide | exact .inr (by decide)

end Sys2Proof.Tests
end

section
/-! SUPPORT. What a completion at the printer changes and leaves alone: the carriage, the line and its owner, the
part of the stream served, the bell, the store and the journal (R144 to R152, R155, R161, R162, R166, R187). -/
namespace Sys2Proof.Machine

/-! ### The parts of a completion -/

/-- What no part of a completion beyond the carriage's own touches. -/
def PrintUnit.frame (p : PrintUnit) :
    Flight × Nat × Motor × Nat × Nat × List Notice × List EchoItem × Nat :=
  (p.flight, p.motorIdle, p.motor, p.column, p.pageLine, p.notices, p.echoFifo, p.lost)

theorem PrintUnit.lineAfter_frame (p : PrintUnit) (o : MechOp) (w : Option Stream) :
    (p.lineAfter o w).frame = p.frame := by
  unfold PrintUnit.lineAfter
  split
  · rfl
  · split <;> rfl

@[simp] theorem PrintUnit.lineAfter_column (p : PrintUnit) (o : MechOp) (w : Option Stream) :
    (p.lineAfter o w).column = p.column := by
  unfold PrintUnit.lineAfter
  split
  · rfl
  · split <;> rfl

theorem PrintUnit.lineAfter_strike (p : PrintUnit) {o : MechOp} (w : Option Stream) (h : strikes o = true) :
    p.lineAfter o w = { p with openLine := true, owner := w } := if_pos h

theorem endsLine_strike {o : MechOp} (h : strikes o = true) (column : Nat) : endsLine o column = false := by
  cases o <;> simp [endsLine, strikes] at h ⊢

theorem strikes_iff (o : MechOp) : strikes o = true ↔ (∃ n, o = .glyph n) ∨ o = .space := by
  cases o <;> simp [strikes]

theorem columnAfter_strike {o : MechOp} (h : strikes o = true) (column : Nat) :
    columnAfter o column = column + 1 := by
  cases o <;> simp [strikes, columnAfter] at h ⊢

/-- A feed or page at column 1 ends the line. -/
theorem endsLine_feed {o : MechOp} (h : o = .feed ∨ o = .page) {column : Nat} (hc : column = 1) :
    endsLine o (columnAfter o column) = true := by
  rcases h with rfl | rfl <;> simp [endsLine, columnAfter, hc]

theorem PrintUnit.lineAfter_end (p : PrintUnit) {o : MechOp} (w : Option Stream)
    (h : endsLine o p.column = true) : p.lineAfter o w = { p with openLine := false, owner := none } := by
  have hs : strikes o ≠ true := fun hs => by rw [endsLine_strike hs] at h; cases h
  unfold PrintUnit.lineAfter
  rw [if_neg hs, if_pos h]

/-- The part of a stream is its image and timer, or the marks of its notice line. -/
theorem PrintUnit.streamAfter_rest (p : PrintUnit) (o : MechOp) (st : Stream) : ∃ im ei nl ld,
    p.streamAfter o st = { p with echoImage := im, echoIdle := ei, noticeLine := nl, lostDue := ld } := by
  cases st with
  | notices =>
    unfold PrintUnit.streamAfter
    dsimp only
    split <;> exact ⟨_, _, _, _, rfl⟩
  | echo => exact ⟨_, _, _, _, rfl⟩
  | copy => exact ⟨_, _, _, _, rfl⟩
  | report => exact ⟨_, _, _, _, rfl⟩

theorem PrintUnit.streamAfter_noticeEnd {p : PrintUnit} {o : MechOp} (h : endsLine o p.column = true)
    (hs : p.noticeScript = []) (hl : p.noticeLine = true) :
    p.streamAfter o .notices = { p with noticeLine := false, lostDue := decide (0 < p.lost) } :=
  if_pos ⟨h, by rw [hs]; rfl, hl⟩

theorem PrintSide.marginBell_eq (env : PrintEnv) (x : PrintSide) (o : MechOp) (item : Bool) :
    x.marginBell env o item = { x with
      bell := x.bell +
        if item = true ∧ strikes o = true ∧ x.print.column + 7 = env.settings.width then 1 else 0 } := by
  unfold PrintSide.marginBell
  split <;> rfl

/-- The end of a copy touches its position and the store, that of a report the journal. -/
theorem PrintSide.endsAfter_rest (x : PrintSide) (o : MechOp) (st : Stream) : ∃ cp sto j,
    x.endsAfter o st = { x with print := { x.print with copy := cp }, store := sto, journal := j } ∧
    (st ≠ .copy → sto = x.store) ∧ (st ≠ .report → j = x.journal) := by
  cases st with
  | notices => exact ⟨_, _, _, rfl, fun _ => rfl, fun _ => rfl⟩
  | echo => exact ⟨_, _, _, rfl, fun _ => rfl, fun _ => rfl⟩
  | copy =>
    unfold PrintSide.endsAfter
    dsimp only
    split
    · exact ⟨_, _, _, rfl, by simp, fun _ => rfl⟩
    · split <;> exact ⟨_, _, _, rfl, by simp, fun _ => rfl⟩
  | report =>
    unfold PrintSide.endsAfter
    dsimp only
    split
    · exact ⟨_, _, _, rfl, fun _ => rfl, by simp⟩
    · split <;> exact ⟨_, _, _, rfl, fun _ => rfl, by simp⟩

/-- With the line end that was a copy's last operation the copy finishes (R161). -/
theorem PrintSide.endsAfter_copy {x : PrintSide} {o : MechOp} {c : CopyPos} (hc : x.print.copy = some c)
    (h : endsLine o x.print.column = true) (hp : c.phase = .finish) (hs : c.script = []) :
    (x.endsAfter o .copy).print.copy = none ∧
    (x.endsAfter o .copy).store = x.store.removeObligation .print c.entry := by
  simp [PrintSide.endsAfter, hc, h, hp, hs, PrintSide.finishCopy]

/-- With the line end that was the report's last operation the report ends (R187). -/
theorem PrintSide.endsAfter_report {x : PrintSide} {o : MechOp} {r : Report} (hr : x.journal.report = some r)
    (h : endsLine o x.print.column = true) (he : r.stage = .ended) (hs : x.print.reportScript = []) :
    (x.endsAfter o .report).journal = x.journal.endReport := by
  simp [PrintSide.endsAfter, hr, h, he, hs]

/-! ### The completion of an operation -/

/-- Whether an operation may ring the margin bell: it strikes an item of the echo FIFO, also one that RESTART found
in flight (R150; log 16). -/
def OpFor.echoes : OpFor → Bool
  | .stream .echo item => item
  | .orphan item => item
  | _ => false

theorem OpFor.echoes_other {why : OpFor} (h : ∀ b, why ≠ .stream .echo b ∧ why ≠ .orphan b) :
    why.echoes = false := by
  cases why with
  | stream st item => cases st <;> first | rfl | exact absurd rfl (h item).1
  | orphan item => exact absurd rfl (h item).2
  | closing => rfl
  | paperFeed => rfl
  | initial => rfl

/-- The carriage and the motor after an operation, whatever it served (R144, R146). -/
def PrintSide.moved (env : PrintEnv) (x : PrintSide) (o : MechOp) : PrintUnit :=
  { x.print with flight := .none, motorIdle := 0, column := columnAfter o x.print.column
                 pageLine := pageLineAfter env.settings.pageLength o x.print.pageLine }

/-- The print unit after an operation for a stream, before the margin bell and the end of a copy or report. -/
def PrintSide.served (env : PrintEnv) (x : PrintSide) (o : MechOp) (st : Stream) : PrintSide :=
  let p := ((x.moved env o).lineAfter o (some st)).streamAfter o st
  { x with print := { p with grantDue := p.grantDue || endsLine o p.column } }

theorem PrintSide.opDone_stream (env : PrintEnv) (x : PrintSide) (o : MechOp) (st : Stream) (item : Bool) :
    x.opDone env o (.stream st item)
      = ((x.served env o st).marginBell env o (OpFor.stream st item).echoes).endsAfter o st := by
  have h : (item && st == Stream.echo) = (OpFor.stream st item).echoes := by
    cases st <;> simp [OpFor.echoes]
  rw [← h]
  rfl

/-- The line end of a copy's or the report's operation. -/
theorem PrintSide.served_end {env : PrintEnv} {x : PrintSide} {o : MechOp} {st : Stream}
    (h : endsLine o (columnAfter o x.print.column) = true) (hst : st = .copy ∨ st = .report) :
    x.served env o st = { x with print := { x.moved env o with
      openLine := false, owner := none
      grantDue := x.print.grantDue || endsLine o (columnAfter o x.print.column) } } := by
  unfold PrintSide.served
  rw [PrintUnit.lineAfter_end (x.moved env o) _ h]
  rcases hst with rfl | rfl <;> rfl

theorem PrintSide.served_frame (env : PrintEnv) (x : PrintSide) (o : MechOp) (st : Stream) :
    (x.served env o st).print.frame = (x.moved env o).frame := by
  obtain ⟨im, ei, nl, ld, e⟩ := ((x.moved env o).lineAfter o (some st)).streamAfter_rest o st
  unfold PrintSide.served
  rw [e]
  exact PrintUnit.lineAfter_frame _ _ _

/-- What a completed operation of a stream leaves: the stream's part, the bell, and what the end of a copy or of a
report touches. -/
theorem PrintSide.opDone_stream_rest (env : PrintEnv) (x : PrintSide) (o : MechOp) (st : Stream) (item : Bool) :
    ∃ cp sto j, x.opDone env o (.stream st item) = {
      print := { (x.served env o st).print with copy := cp }
      store := sto
      journal := j
      bell := x.bell + if (OpFor.stream st item).echoes = true ∧ strikes o = true ∧
        columnAfter o x.print.column + 7 = env.settings.width then 1 else 0 } ∧
    (st ≠ .copy → sto = x.store) ∧ (st ≠ .report → j = x.journal) := by
  obtain ⟨cp, sto, j, e, hs, hj⟩ := PrintSide.endsAfter_rest
    ((x.served env o st).marginBell env o (OpFor.stream st item).echoes) o st
  have hc : (x.served env o st).print.column = columnAfter o x.print.column :=
    congrArg (fun f => f.2.2.2.1) (x.served_frame env o st)
  rw [PrintSide.marginBell_eq, hc] at e hs hj
  refine ⟨cp, sto, j, ?_, hs, hj⟩
  rw [PrintSide.opDone_stream, PrintSide.marginBell_eq, hc, e]
  rfl

/-- Whatever it served, a completion moves the carriage and leaves the notices, the lost count and the echo FIFO. -/
theorem PrintSide.opDone_frame (env : PrintEnv) (x : PrintSide) (o : MechOp) (why : OpFor) :
    (x.opDone env o why).print.frame = (x.moved env o).frame := by
  cases why with
  | stream st item =>
    obtain ⟨cp, sto, j, e, -, -⟩ := x.opDone_stream_rest env o st item
    rw [e]
    exact x.served_frame env o st
  | closing => exact PrintUnit.lineAfter_frame _ _ _
  | paperFeed =>
    show (x.moved env o).owedDone.frame = _
    unfold PrintUnit.owedDone
    split <;> rfl
  | initial => rfl
  | orphan item =>
    show (PrintSide.marginBell env _ o item).print.frame = _
    rw [PrintSide.marginBell_eq]
    exact PrintUnit.lineAfter_frame _ _ _

/-- Only a store copy's operation reaches the store. -/
theorem PrintSide.opDone_store {env : PrintEnv} (x : PrintSide) (o : MechOp) {why : OpFor}
    (h : ∀ item, why ≠ .stream .copy item) : (x.opDone env o why).store = x.store := by
  cases why with
  | stream st item =>
    obtain ⟨cp, sto, j, e, hs, -⟩ := x.opDone_stream_rest env o st item
    rw [e]
    exact hs fun c => h item (by rw [c])
  | orphan item =>
    show (PrintSide.marginBell env _ o item).store = _
    rw [PrintSide.marginBell_eq]
  | closing => rfl
  | paperFeed => rfl
  | initial => rfl

/-- Only the report's operation reaches the journal. -/
theorem PrintSide.opDone_journal {env : PrintEnv} (x : PrintSide) (o : MechOp) {why : OpFor}
    (h : ∀ item, why ≠ .stream .report item) : (x.opDone env o why).journal = x.journal := by
  cases why with
  | stream st item =>
    obtain ⟨cp, sto, j, e, -, hj⟩ := x.opDone_stream_rest env o st item
    rw [e]
    exact hj fun c => h item (by rw [c])
  | orphan item =>
    show (PrintSide.marginBell env _ o item).journal = _
    rw [PrintSide.marginBell_eq]
  | closing => rfl
  | paperFeed => rfl
  | initial => rfl

/-- The bell rings for the margin bell alone. -/
theorem PrintSide.opDone_bell (env : PrintEnv) (x : PrintSide) (o : MechOp) (why : OpFor) :
    (x.opDone env o why).bell = x.bell + if why.echoes = true ∧ strikes o = true ∧
      columnAfter o x.print.column + 7 = env.settings.width then 1 else 0 := by
  cases why with
  | stream st item =>
    obtain ⟨cp, sto, j, e, -, -⟩ := x.opDone_stream_rest env o st item
    rw [e]
  | orphan item =>
    show (PrintSide.marginBell env _ o item).bell = _
    rw [PrintSide.marginBell_eq, PrintUnit.lineAfter_column]
    rfl
  | closing => rfl
  | paperFeed => rfl
  | initial => rfl

/-- The completion of a PAPER FEED's feed (R166; log 17). -/
theorem PrintSide.opDone_paperFeed (env : PrintEnv) (x : PrintSide) (o : MechOp) :
    (x.opDone env o .paperFeed).print = if x.print.feedBefore = true
      then { x.moved env o with owedFeeds := x.print.owedFeeds - 1, feedBefore := false }
      else { x.moved env o with
        owedFeeds := x.print.owedFeeds - 1, stalled := x.print.stalled && !x.print.stallFeed
        stallFeed := false } := rfl

/-! ### The line and the stream served -/

/-- The echo's image follows its operations, and its idle timer starts from zero (R152, R155). -/
theorem PrintSide.opDone_echo (env : PrintEnv) (x : PrintSide) (o : MechOp) (item : Bool) :
    (x.opDone env o (.stream .echo item)).print.echoIdle = some 0 ∧
    (x.opDone env o (.stream .echo item)).print.echoImage
      = imageAfter o (columnAfter o x.print.column) x.print.echoImage := by
  obtain ⟨cp, sto, j, e, -, -⟩ := x.opDone_stream_rest env o .echo item
  rw [e]
  refine ⟨rfl, ?_⟩
  show imageAfter o ((x.moved env o).lineAfter o (some .echo)).column
    ((x.moved env o).lineAfter o (some .echo)).echoImage = _
  rw [PrintUnit.lineAfter_column]
  congr 1
  unfold PrintUnit.lineAfter
  split
  · rfl
  · split <;> rfl

/-- A strike opens a line of its stream and makes no grant point (R148, R152). -/
theorem PrintSide.opDone_strike {env : PrintEnv} (x : PrintSide) {o : MechOp} (st : Stream) (item : Bool)
    (h : strikes o = true) :
    (x.opDone env o (.stream st item)).print.openLine = true ∧
    (x.opDone env o (.stream st item)).print.owner = some st ∧
    (x.opDone env o (.stream st item)).print.grantDue = x.print.grantDue := by
  obtain ⟨cp, sto, j, e, -, -⟩ := x.opDone_stream_rest env o st item
  obtain ⟨im, ei, nl, ld, e'⟩ := ((x.moved env o).lineAfter o (some st)).streamAfter_rest o st
  rw [PrintUnit.lineAfter_strike _ _ h] at e'
  rw [e]
  unfold PrintSide.served
  rw [PrintUnit.lineAfter_strike _ _ h, e']
  exact ⟨rfl, rfl, (congrArg (x.print.grantDue || ·) (endsLine_strike h _)).trans (Bool.or_false _)⟩

/-- A feed or page at column 1 ends the line and is a grant point (R148, R149, R152). -/
theorem PrintSide.opDone_end {env : PrintEnv} (x : PrintSide) {o : MechOp} (st : Stream) (item : Bool)
    (h : endsLine o (columnAfter o x.print.column) = true) :
    (x.opDone env o (.stream st item)).print.openLine = false ∧
    (x.opDone env o (.stream st item)).print.owner = none ∧
    (x.opDone env o (.stream st item)).print.grantDue = true := by
  obtain ⟨cp, sto, j, e, -, -⟩ := x.opDone_stream_rest env o st item
  obtain ⟨im, ei, nl, ld, e'⟩ := ((x.moved env o).lineAfter o (some st)).streamAfter_rest o st
  rw [PrintUnit.lineAfter_end _ _ h] at e'
  rw [e]
  unfold PrintSide.served
  rw [PrintUnit.lineAfter_end (x.moved env o) _ h, e']
  exact ⟨rfl, rfl, (congrArg (x.print.grantDue || ·) h).trans (Bool.or_true _)⟩

/-- The line end of a notice makes the lost line due when notices were lost (R162). -/
theorem PrintSide.opDone_noticeEnd {env : PrintEnv} (x : PrintSide) {o : MechOp} (item : Bool)
    (h : endsLine o (columnAfter o x.print.column) = true) (hs : x.print.noticeScript = [])
    (hl : x.print.noticeLine = true) :
    (x.opDone env o (.stream .notices item)).print.noticeLine = false ∧
    (x.opDone env o (.stream .notices item)).print.lostDue = decide (0 < x.print.lost) := by
  obtain ⟨cp, sto, j, e, -, -⟩ := x.opDone_stream_rest env o .notices item
  rw [e]
  unfold PrintSide.served
  rw [PrintUnit.lineAfter_end (x.moved env o) _ h, PrintUnit.streamAfter_noticeEnd
    (p := { x.moved env o with openLine := false, owner := none }) h hs hl]
  exact ⟨rfl, rfl⟩

/-- The line end of a copy in its finish removes PRINT and discards the position (R161). -/
theorem PrintSide.opDone_copyEnd {env : PrintEnv} (x : PrintSide) {o : MechOp} (item : Bool) {c : CopyPos}
    (h : endsLine o (columnAfter o x.print.column) = true) (hc : x.print.copy = some c)
    (hp : c.phase = .finish) (hs : c.script = []) :
    (x.opDone env o (.stream .copy item)).print.copy = none ∧
    (x.opDone env o (.stream .copy item)).store = x.store.removeObligation .print c.entry := by
  rw [PrintSide.opDone_stream, PrintSide.marginBell_eq, PrintSide.served_end h (.inl rfl)]
  exact PrintSide.endsAfter_copy hc h hp hs

/-- The line end of the footer ends the report (R187). -/
theorem PrintSide.opDone_reportEnd {env : PrintEnv} (x : PrintSide) {o : MechOp} (item : Bool) {r : Report}
    (h : endsLine o (columnAfter o x.print.column) = true) (hr : x.journal.report = some r)
    (he : r.stage = .ended) (hs : x.print.reportScript = []) :
    (x.opDone env o (.stream .report item)).journal = x.journal.endReport := by
  rw [PrintSide.opDone_stream, PrintSide.marginBell_eq, PrintSide.served_end h (.inr rfl)]
  exact PrintSide.endsAfter_report hr h he hs

/-- The report's end: with its clear requested the snapshot's entries leave the ring (R187, R188). -/
theorem Journal.endReport_eq {j : Journal} {r : Report} (h : j.report = some r) :
    j.endReport = if r.clear = true then { j with
        report := none, overwritten := 0
        ring := j.ring.filter fun n => !r.snapshot.contains n.entryNo }
      else { j with report := none } := by
  unfold Journal.endReport
  rw [h]

/-! ### The three inputs -/

/-- The three completion inputs act alike (log 11). -/
theorem exec_printCompletion {c : Instr} (h : c = .printOperationComplete ∨ c = .motorStartComplete ∨
    c = .motorStopComplete) {s : State} (hl : s.panel.phase = .done) :
    exec c s = .next s.printCompletes.settle := by
  have ha : s.acting State.printCompletes = s.printCompletes.settle :=
    State.acting_live ((State.live_iff s).mpr hl) _
  rcases h with rfl | rfl | rfl <;> exact congrArg Host.Outcome.next ha

theorem State.printCompletes_none {s : State} (h : s.print.flight = .none) : s.printCompletes = s := by
  unfold State.printCompletes PrintSide.complete
  rw [show s.printSide.print.flight = .none from h]
  rfl

theorem State.printCompletes_motorStart {s : State} (h : s.print.flight = .motorStart) :
    s.printCompletes = { s with print := { s.print with motor := .running, flight := .none, motorIdle := 0 } } := by
  unfold State.printCompletes PrintSide.complete
  rw [show s.printSide.print.flight = .motorStart from h]
  rfl

theorem State.printCompletes_motorStop {s : State} (h : s.print.flight = .motorStop) :
    s.printCompletes = { s with print := { s.print with flight := .none } } := by
  unfold State.printCompletes PrintSide.complete
  rw [show s.printSide.print.flight = .motorStop from h]
  rfl

theorem State.printCompletes_op {s : State} {o : MechOp} {why : OpFor} (h : s.print.flight = .op o why) :
    s.printCompletes = s.withPrintSide (s.printSide.opDone s.printEnv o why) := by
  unfold State.printCompletes PrintSide.complete
  rw [show s.printSide.print.flight = .op o why from h]

/-- The motor is stopped when its time has reached the idle time of the selection as it stands, and runs on
otherwise (R146; log 26). -/
theorem exec_motorIdleExpiry {s : State} (hl : s.panel.phase = .done) (hm : s.print.motor = .running)
    (hf : s.print.flight = .none) : exec .motorIdleExpiry s = .next (State.settle
      (if motorIdleTime s.panel.settings s.panel.attended ≤ s.print.motorIdle
        then { s with print := { s.print with motor := .off, flight := .motorStop } } else s)) := by
  have hexec : exec .motorIdleExpiry s = .next s.motorJudged.settle :=
    congrArg Host.Outcome.next (State.acting_live ((State.live_iff s).mpr hl) _)
  rw [hexec]
  rcases s.motorJudged_cases with ⟨-, -, hge, he⟩ | ⟨hm' | hf' | hlt, he⟩
  · rw [he, if_pos hge]
  · exact absurd hm hm'
  · exact absurd hf hf'
  · rw [he, if_neg (Nat.not_le.mpr hlt)]

/-- The echo idle timer's expiry brings it to its time, unless an item has restarted it (R154; log 26). -/
theorem exec_echoIdleExpiry {s : State} (hl : s.panel.phase = .done) {n : Nat} (hn : s.print.echoIdle = some n) :
    exec .echoIdleExpiry s = .next (State.settle { s with
      print := { s.print with echoIdle := some (if n = 0 then 0 else max n Config.echoIdleTime) } }) := by
  refine (congrArg Host.Outcome.next (State.acting_live ((State.live_iff s).mpr hl) _)).trans ?_
  simp only [PrintUnit.echoIdles, hn, Option.map_some]

end Sys2Proof.Machine
end

section
/-! SUPPORT. A stream in its turn: what stands before its operation, a wrap, the elements of a generated line and its
beginning, and the reading of all this at the state that settling leaves (R144, R147, R148, R168). -/
namespace Sys2Proof.Machine

/-! ### A print side in a stream's turn -/

/-- What decides that a stream may take its next operation, besides the copy's place. -/
def PrintUnit.stance (p : PrintUnit) : Flight × Bool × Nat × List MechOp × Bool × Option Stream × Bool ×
    Option Stream × Motor × Bool × Nat × Nat :=
  (p.flight, p.stalled, p.owedFeeds, p.pre, p.grantDue, p.holder, p.openLine, p.owner, p.motor, p.firstCR,
    p.column, p.pageLine)

theorem PrintSide.ready.of_stance {x y : PrintSide} {st : Stream} (h : x.ready st) (hp : y.placed)
    (he : y.print.stance = x.print.stance) : y.ready st := by
  simp only [PrintUnit.stance, Prod.mk.injEq] at he
  obtain ⟨hf, hs, ho, hl, hg, hh, hop, how, -, -, -, -⟩ := he
  exact ⟨hf.trans h.flight, hs.trans h.paper, ho.trans h.fed, hl.trans h.lines, hg.trans h.judged, hp,
    hh.trans h.holder, by rw [hop, how]; exact h.line⟩

theorem PrintUnit.turning.of_stance {p q : PrintUnit} (h : p.turning) (he : q.stance = p.stance) :
    q.turning := by
  simp only [PrintUnit.stance, Prod.mk.injEq] at he
  obtain ⟨-, -, -, -, -, -, -, -, hm, hc, -, -⟩ := he
  exact ⟨hm.trans h.1, hc.trans h.2⟩

theorem PrintUnit.column_of_stance {p q : PrintUnit} (he : q.stance = p.stance) : q.column = p.column := by
  simp only [PrintUnit.stance, Prod.mk.injEq] at he
  obtain ⟨-, -, -, -, -, -, -, -, -, -, hc, -⟩ := he
  exact hc

theorem PrintUnit.openLine_of_stance {p q : PrintUnit} (he : q.stance = p.stance) :
    q.openLine = p.openLine := by
  simp only [PrintUnit.stance, Prod.mk.injEq] at he
  obtain ⟨-, -, -, -, -, -, ho, -, -, -, -, -⟩ := he
  exact ho

theorem PrintUnit.pageLine_of_stance {p q : PrintUnit} (he : q.stance = p.stance) :
    q.pageLine = p.pageLine := by
  simp only [PrintUnit.stance, Prod.mk.injEq] at he
  obtain ⟨-, -, -, -, -, -, -, -, -, -, -, hl⟩ := he
  exact hl

/-- In its turn the holder does its next thing, and the print unit goes on. -/
theorem PrintSide.ready_next {env : PrintEnv} {x y : PrintSide} {st : Stream} (h : x.ready st)
    (ha : x.act env st = some y) (k : Nat) : PrintSide.run env (k + 1) x = PrintSide.run env k y :=
  PrintSide.run_succ (PrintSide.ready_step h ha) k

/-- What the streams' waiting reads. -/
def PrintSide.wants (x : PrintSide) : Store × Journal × List Elem × Bool × List Notice × List Elem ×
    List Strike × List EchoItem × Option CopyPos × List Elem :=
  (x.store, x.journal, x.print.noticeScript, x.print.lostDue, x.print.notices, x.print.echoScript,
    x.print.reprint, x.print.echoFifo, x.print.copy, x.print.reportScript)

theorem PrintSide.waits_of_wants {env : PrintEnv} {x y : PrintSide} {st : Stream} {b : Bool}
    (hw : x.waits env st = b) (h : y.wants = x.wants) : y.waits env st = b := by
  simp only [PrintSide.wants, Prod.mk.injEq] at h
  obtain ⟨h1, h2, h3, h4, h5, h6, h7, h8, h9, h10⟩ := h
  exact (PrintSide.waits_congr st h1 h2 h3 h4 h5 h6 h7 h8 h9 h10).trans hw

/-- What stands before an operation touches the motor, its command or the carriage return, and puts it in flight. -/
theorem PrintUnit.before_rest {p q : PrintUnit} (h : p.before = some q) : ∃ m f b,
    q = { p with motor := m, flight := f, firstCR := b } ∧ f ≠ .none ∧
      ∀ st item o, f ≠ .op o (.stream st item) := by
  rcases p.before_some q h with ⟨-, -, rfl⟩ | ⟨-, rfl⟩ <;> exact ⟨_, _, _, rfl, by simp, by simp⟩

theorem PrintUnit.before_off {p : PrintUnit} (hm : p.motor ≠ .running) :
    p.before = some { p with motor := .starting, flight := .motorStart } := by
  unfold PrintUnit.before
  split
  · exact absurd ‹_› hm
  · rfl

theorem PrintUnit.before_first {p : PrintUnit} (hm : p.motor = .running) (hf : p.firstCR = true) :
    p.before = some { p with flight := .op .cr .initial, firstCR := false } := by
  unfold PrintUnit.before
  simp [hm, hf]

theorem PrintUnit.before_turning {p : PrintUnit} (h : p.turning) : p.before = none := by
  unfold PrintUnit.before
  simp [h.1, h.2]

/-- A stream whose operation waits for the motor, or for the carriage return of R168, gets that and no more. -/
theorem PrintSide.before_run {env : PrintEnv} {x : PrintSide} {p : PrintUnit} {st : Stream} (hr : x.ready st)
    (hb : x.print.before = some p) (ha : x.act env st = some { x with print := p }) (k : Nat) :
    PrintSide.run env (k + 1) x = { x with print := p } := by
  refine PrintSide.run_last (PrintSide.ready_step hr ha) ?_ k
  have hw : x.waits env st = true := by simp [PrintSide.waits, ha]
  obtain ⟨m, f, b, rfl, hf, -⟩ := PrintUnit.before_rest hb
  exact PrintSide.step_in_flight env _ hf hr.placed
    (PrintSide.grantPoint_waits env _ st hr.holder hr.judged (PrintSide.waits_of_wants hw rfl))

/-- A strike at column width + 1: the wrap's carriage return is issued, its feed is due, and a space is dropped
(R147; log 15). -/
theorem PrintSide.wrap_run {env : PrintEnv} {x c y : PrintSide} {st : Stream} {item : Bool} {o : MechOp}
    (hr : x.ready st) (ht : x.print.turning) (hw : strikes o = true ∧ env.settings.width + 1 ≤ x.print.column)
    (ha : x.act env st = some (x.issue env st item o c)) (hy : y = if o = .space then c else x)
    (hyr : y.ready st) (hyt : y.print.turning) (k : Nat) : PrintSide.run env (k + 2) x
      = { y with print := { y.print with
          pre := [.feed], preFor := .stream st false, flight := .op .cr (.stream st false) } } := by
  rw [PrintSide.issue_wrap ht hw, ← hy] at ha
  rw [PrintSide.ready_next hr ha]
  exact PrintSide.run_last
    (PrintSide.pre_step (y := { y with print := { y.print with pre := [.cr, .feed], preFor := .stream st false } })
      hyr.flight hyr.paper hyr.fed hyr.placed hyr.holder rfl rfl hyt)
    (PrintSide.issued_still (st := st) rfl hyr.holder hyr.placed) k

/-! ### The generated lines of the four streams -/

/-- What is left of the generated line a stream has begun. -/
def PrintSide.scriptOf (x : PrintSide) : Stream → List Elem
  | .notices => x.print.noticeScript
  | .echo => x.print.echoScript
  | .copy => match x.print.copy with
    | some c => c.script
    | none => []
  | .report => x.print.reportScript

theorem PrintSide.scriptOf_congr {x y : PrintSide} (h : x.print = y.print) (st : Stream) :
    x.scriptOf st = y.scriptOf st := by
  cases st <;> simp only [PrintSide.scriptOf, h]

/-- The print side with this left of a stream's line. -/
def PrintSide.withScript (x : PrintSide) (st : Stream) (l : List Elem) : PrintSide :=
  match st with
  | .notices => { x with print := { x.print with noticeScript := l } }
  | .echo => { x with print := { x.print with echoScript := l } }
  | .copy => { x with print := { x.print with copy := x.print.copy.map fun c => { c with script := l } } }
  | .report => { x with print := { x.print with reportScript := l } }

@[simp] theorem PrintSide.withScript_bell (x : PrintSide) (st : Stream) (l : List Elem) :
    (x.withScript st l).bell = x.bell := by cases st <;> rfl

theorem PrintSide.withScript_stance (x : PrintSide) (st : Stream) (l : List Elem) :
    (x.withScript st l).print.stance = x.print.stance := by cases st <;> rfl

theorem PrintSide.withScript_placed {x : PrintSide} (h : x.placed) (st : Stream) (l : List Elem) :
    (x.withScript st l).placed := by
  cases st with
  | notices => exact h
  | echo => exact h
  | copy => exact h.imp (fun hc => (Option.isSome_map).trans hc) id
  | report => exact h

/-- The rest of a line begun is what the stream then has. -/
theorem PrintSide.scriptOf_withScript {x : PrintSide} {st : Stream} (h : x.scriptOf st ≠ []) (l : List Elem) :
    (x.withScript st l).scriptOf st = l := by
  cases st with
  | notices => rfl
  | echo => rfl
  | copy =>
    cases hc : x.print.copy with
    | none => simp [PrintSide.scriptOf, hc] at h
    | some c => simp [PrintSide.scriptOf, PrintSide.withScript, hc]
  | report => rfl

/-- A stream with a line begun acts on the next of its elements. -/
theorem PrintSide.act_script {env : PrintEnv} {x : PrintSide} {st : Stream} {e : Elem} {rest : List Elem}
    (h : x.scriptOf st = e :: rest) :
    x.act env st = some (x.issueElem env st e (x.withScript st rest)) := by
  cases st with
  | notices =>
    have h : x.print.noticeScript = e :: rest := h
    simp [PrintSide.act, PrintSide.actNotices, h, PrintSide.withScript]
  | echo =>
    have h : x.print.echoScript = e :: rest := h
    simp [PrintSide.act, PrintSide.actEcho, h, PrintSide.withScript]
  | copy =>
    cases hc : x.print.copy with
    | none => simp [PrintSide.scriptOf, hc] at h
    | some c =>
      have h : c.script = e :: rest := by simpa [PrintSide.scriptOf, hc] using h
      simp [PrintSide.act, PrintSide.actCopy, hc, h, PrintSide.withScript, PrintSide.withCopy]
  | report =>
    have h : x.print.reportScript = e :: rest := h
    simp [PrintSide.act, PrintSide.actReport, h, PrintSide.withScript]

/-- The operation an element asks for; a bell asks for none (R5, R8). -/
def Elem.asks : Elem → Option MechOp
  | .strike k => some (strikeOp k)
  | .cr => some .cr
  | .feed => some .feed
  | .bell => none

theorem PrintSide.issueElem_asks {env : PrintEnv} {st : Stream} {e : Elem} {o : MechOp} (h : e.asks = some o)
    (x c : PrintSide) : x.issueElem env st e c = x.issue env st false o c := by
  cases e with
  | strike k => cases k <;> cases h <;> rfl
  | cr => cases h; rfl
  | feed => cases h; rfl
  | bell => cases h

theorem PrintSide.act_asks {env : PrintEnv} {x : PrintSide} {st : Stream} {e : Elem} {o : MechOp}
    {rest : List Elem} (h : x.scriptOf st = e :: rest) (he : e.asks = some o) :
    x.act env st = some (x.issue env st false o (x.withScript st rest)) := by
  rw [PrintSide.act_script h, PrintSide.issueElem_asks he]

/-- The print side with the bell at the head of a stream's line rung (R8, R150). -/
def PrintSide.rang (x : PrintSide) (st : Stream) (l : List Elem) : PrintSide :=
  { x.withScript st l with bell := x.bell + 1 }

theorem PrintSide.rang_scriptOf (x : PrintSide) (st : Stream) (l : List Elem) :
    (x.rang st l).scriptOf st = (x.withScript st l).scriptOf st := by cases st <;> rfl

theorem PrintSide.act_bell {env : PrintEnv} {x : PrintSide} {st : Stream} {rest : List Elem}
    (h : x.scriptOf st = .bell :: rest) : x.act env st = some (x.rang st rest) := by
  rw [PrintSide.act_script h, PrintSide.issueElem, PrintSide.withScript_bell]
  rfl

/-- The print side with an operation of a stream put in flight. -/
def PrintSide.issuing (x : PrintSide) (o : MechOp) (st : Stream) (item : Bool) : PrintSide :=
  { x with print := { x.print with flight := .op o (.stream st item) } }

/-- In its turn a stream that begins a generated line on a closed line issues the line's first glyph. -/
theorem PrintSide.begin_run {env : PrintEnv} {x y : PrintSide} {st : Stream} {g : Nat} {rest : List Elem}
    (hr : x.ready st) (ht : x.print.turning) (ho : x.print.openLine = false)
    (hcol : x.print.column ≤ env.settings.width) (ha : x.act env st = some (x.beginLine st y))
    (hyr : y.ready st) (hy : y.print.stance = x.print.stance)
    (hs : y.scriptOf st = .strike (.glyph g) :: rest) (k : Nat) :
    PrintSide.run env (k + 2) x = (y.withScript st rest).issuing (.glyph g) st false := by
  have hc : (y.withScript st rest).ready st :=
    hyr.of_stance (PrintSide.withScript_placed hyr.placed st rest) (y.withScript_stance st rest)
  exact PrintSide.line_run hr ha ho ht hyr (ht.of_stance hy)
    (by rw [PrintUnit.column_of_stance hy]; exact hcol)
    (PrintSide.act_asks hs rfl) hc.holder hc.placed k

/-- The print side stands with the printer as another does, and a copy keeps its place. -/
def PrintSide.stands (y x : PrintSide) : Prop := (x.placed → y.placed) ∧ y.print.stance = x.print.stance

theorem PrintSide.ready.stands {x y : PrintSide} {st : Stream} (h : x.ready st) (hy : y.stands x) : y.ready st :=
  h.of_stance (hy.1 h.placed) hy.2

theorem PrintSide.withScript_stands (x : PrintSide) (st : Stream) (l : List Elem) : (x.withScript st l).stands x :=
  ⟨fun h => PrintSide.withScript_placed h st l, x.withScript_stance st l⟩

theorem PrintSide.rang_stands (x : PrintSide) (st : Stream) (l : List Elem) : (x.rang st l).stands x :=
  x.withScript_stands st l

@[simp] theorem PrintSide.issuing_scriptOf (x : PrintSide) (o : MechOp) (st st' : Stream) (item : Bool) :
    (x.issuing o st item).scriptOf st' = x.scriptOf st' := by
  cases st' <;> rfl

/-! ### The state that settling leaves -/

/-- The print side of a state with a stream in its turn: a grant has stopped the echo idle timer or left it. -/
def State.inTurn (s : State) (st : Stream) (ei : Option Nat) : PrintSide :=
  { s.printSide with print := { s.print with holder := some st, echoIdle := ei } }

/-- Settling leaves the printer, the bell and the journal as this print side has them, and the punch unit its
store. -/
def State.settlesTo (s : State) (y : PrintSide) : Prop :=
  s.settle.print = y.print ∧ s.settle.bell = y.bell ∧ s.settle.journal = y.journal ∧
    s.settlePrint.store = y.store

theorem State.settlesTo_run {s : State} (h : s.panel.phase = .done) {y : PrintSide}
    (hy : PrintSide.run s.printEnv printFuel s.printSide = y) : s.settlesTo y :=
  ⟨(State.settle_print h).trans (congrArg _ hy), (State.settle_bell h).trans (congrArg _ hy),
    (State.settle_journal h).trans (congrArg _ hy), congrArg PrintSide.store hy⟩

@[simp] theorem State.scriptOf_inTurn (s : State) (st : Stream) (ei : Option Nat) :
    (s.inTurn st ei).scriptOf st = s.scriptOf st := by
  cases st <;> rfl

theorem State.settlesTo.scriptOf {s : State} {y : PrintSide} (h : s.settlesTo y) (st : Stream) :
    s.settle.scriptOf st = y.scriptOf st := by
  have hside : s.settle.scriptOf st = s.settle.printSide.scriptOf st := by cases st <;> rfl
  obtain ⟨hp, -⟩ := h
  rw [hside]
  exact PrintSide.scriptOf_congr hp st

/-- The operation as it is issued at the page line where the printer stands (R149). -/
def State.opHere (s : State) (o : MechOp) : MechOp := if o = .feed then s.feedHere else o

theorem State.elemOp_eq (s : State) (e : Elem) : s.elemOp e = e.asks.map s.opHere := by
  cases e with
  | strike k => cases k <;> rfl
  | cr => rfl
  | feed => rfl
  | bell => rfl

/-! ### The turn of a stream -/

section turn

variable {s : State} {st : Stream} {c y : Option Nat → PrintSide} {item : Bool} {o : MechOp}

/-- Settling leaves what a stream in its turn comes to within three things. -/
theorem State.printTurn.settlesTo (h : s.printTurn st)
    (hf : ∀ ei k, (s.inTurn st ei).ready st → PrintSide.run s.printEnv (k + 3) (s.inTurn st ei) = y ei) :
    ∃ ei, s.settlesTo (y ei) := by
  obtain ⟨ei, k, x, rfl, hr, he⟩ := State.printTurn_ready h
  exact ⟨ei, State.settlesTo_run h.live (he.trans (hf ei k hr))⟩

/-- With the motor not running the stream's operation gives the motor start, and its item stays (R145; log 47). -/
theorem State.printTurn.startsMotor (h : s.printTurn st) (hm : s.print.motor ≠ .running)
    (ha : ∀ ei, (s.inTurn st ei).act s.printEnv st
      = some ((s.inTurn st ei).issue s.printEnv st item o (c ei))) :
    ∃ ei, s.settlesTo { s.inTurn st ei with
      print := { (s.inTurn st ei).print with motor := .starting, flight := .motorStart } } := by
  refine h.settlesTo fun ei k hr => ?_
  have hb := PrintUnit.before_off (p := (s.inTurn st ei).print) hm
  exact PrintSide.before_run hr hb ((ha ei).trans (by unfold PrintSide.issue; rw [hb])) (k + 2)

/-- Before the first operation after power-on the stream's operation gives a carriage return (R168). -/
theorem State.printTurn.returnsFirst (h : s.printTurn st) (hm : s.print.motor = .running)
    (hf : s.print.firstCR = true)
    (ha : ∀ ei, (s.inTurn st ei).act s.printEnv st
      = some ((s.inTurn st ei).issue s.printEnv st item o (c ei))) :
    ∃ ei, s.settlesTo { s.inTurn st ei with
      print := { (s.inTurn st ei).print with flight := .op .cr .initial, firstCR := false } } := by
  refine h.settlesTo fun ei k hr => ?_
  have hb := PrintUnit.before_first (p := (s.inTurn st ei).print) hm hf
  exact PrintSide.before_run hr hb ((ha ei).trans (by unfold PrintSide.issue; rw [hb])) (k + 2)

/-- A stream whose operation does not wrap issues it. -/
theorem State.printTurn.issues (h : s.printTurn st) (ht : s.print.turning)
    (hw : strikes o = true → s.print.column ≤ s.panel.settings.width)
    (ha : ∀ ei, (s.inTurn st ei).act s.printEnv st
      = some ((s.inTurn st ei).issue s.printEnv st item o (c ei)))
    (hc : ∀ ei, (c ei).stands (s.inTurn st ei)) :
    ∃ ei, s.settlesTo ((c ei).issuing (s.opHere o) st item) := by
  refine h.settlesTo fun ei k hr => ?_
  have hcr := hr.stands (hc ei)
  have hnw : ¬ (strikes o = true ∧ s.panel.settings.width + 1 ≤ s.print.column) := by
    rintro ⟨ho, hcol⟩
    have := hw ho
    omega
  exact PrintSide.issue_run hr ht hnw (ha ei) hcr.holder hcr.placed (k + 2)

/-- A stream that has something to do without an operation does it, and then issues its operation. -/
theorem State.printTurn.thenIssues (h : s.printTurn st) (ht : s.print.turning)
    (hw : strikes o = true → s.print.column ≤ s.panel.settings.width)
    (hay : ∀ ei, (s.inTurn st ei).act s.printEnv st = some (y ei))
    (ha : ∀ ei, (y ei).act s.printEnv st = some ((y ei).issue s.printEnv st item o (c ei)))
    (hy : ∀ ei, (y ei).stands (s.inTurn st ei)) (hc : ∀ ei, (c ei).stands (y ei)) :
    ∃ ei, s.settlesTo ((c ei).issuing (s.opHere o) st item) := by
  refine h.settlesTo fun ei k hr => ?_
  have hyr := hr.stands (hy ei)
  have hcr := hyr.stands (hc ei)
  have hcol : (y ei).print.column = (s.inTurn st ei).print.column := PrintUnit.column_of_stance (hy ei).2
  have hpage : (y ei).print.pageLine = (s.inTurn st ei).print.pageLine :=
    PrintUnit.pageLine_of_stance (hy ei).2
  have hty : (y ei).print.turning := PrintUnit.turning.of_stance (p := (s.inTurn st ei).print) ht (hy ei).2
  have hnw : ¬ (strikes o = true ∧ s.panel.settings.width + 1 ≤ (y ei).print.column) := by
    rw [hcol]
    rintro ⟨ho, hlt⟩
    exact absurd (hw ho) (Nat.not_le.mpr hlt)
  rw [PrintSide.ready_next hr (hay ei), PrintSide.issue_run hyr hty hnw (ha ei) hcr.holder hcr.placed (k + 1),
    hpage]
  rfl

/-- The print side with the feed of a wrap of a stream due and its carriage return in flight. -/
def PrintSide.wrapping (x : PrintSide) (st : Stream) : PrintSide :=
  { x with print := { x.print with
      pre := [.feed], preFor := .stream st false, flight := .op .cr (.stream st false) } }

theorem PrintSide.wrapping_scriptOf (x : PrintSide) (st st' : Stream) :
    (x.wrapping st).scriptOf st' = x.scriptOf st' := by cases st' <;> rfl

/-- A strike behind the last column is preceded by a wrap, which drops a space (R147; log 15). -/
theorem State.printTurn.wraps (h : s.printTurn st) (ht : s.print.turning) (hs : strikes o = true)
    (hw : s.panel.settings.width + 1 ≤ s.print.column)
    (ha : ∀ ei, (s.inTurn st ei).act s.printEnv st
      = some ((s.inTurn st ei).issue s.printEnv st item o (c ei)))
    (hc : ∀ ei, (c ei).stands (s.inTurn st ei)) :
    ∃ ei, s.settlesTo ((if o = .space then c ei else s.inTurn st ei).wrapping st) := by
  refine h.settlesTo fun ei k hr => ?_
  have hz : (if o = .space then c ei else s.inTurn st ei).stands (s.inTurn st ei) := by
    split
    · exact hc ei
    · exact ⟨id, rfl⟩
  exact PrintSide.wrap_run hr ht ⟨hs, hw⟩ (ha ei) rfl (hr.stands hz)
    (PrintUnit.turning.of_stance (p := (s.inTurn st ei).print) ht hz.2) (k + 1)

/-- A stream that begins a generated line on a closed line issues the line's first glyph (R5). -/
theorem State.printTurn.begins (h : s.printTurn st) (ht : s.print.turning)
    (hcol : s.print.column ≤ s.panel.settings.width) (ho : s.print.openLine = false) {g : Nat}
    {rest : List Elem}
    (ha : ∀ ei, (s.inTurn st ei).act s.printEnv st = some ((s.inTurn st ei).beginLine st (y ei)))
    (hy : ∀ ei, (y ei).stands (s.inTurn st ei))
    (hs : ∀ ei, (y ei).scriptOf st = .strike (.glyph g) :: rest) :
    ∃ ei, s.settlesTo (((y ei).withScript st rest).issuing (.glyph g) st false) :=
  h.settlesTo fun ei k hr =>
    PrintSide.begin_run (env := s.printEnv) hr ht ho hcol (ha ei) (hr.stands (hy ei)) (hy ei).2 (hs ei) (k + 1)

/-- A stream that has something to do without an operation does it, and then begins its generated line. -/
theorem State.printTurn.thenBegins (h : s.printTurn st) (ht : s.print.turning)
    (hcol : s.print.column ≤ s.panel.settings.width) (ho : s.print.openLine = false) {g : Nat}
    {rest : List Elem} (hac : ∀ ei, (s.inTurn st ei).act s.printEnv st = some (c ei))
    (ha : ∀ ei, (c ei).act s.printEnv st = some ((c ei).beginLine st (y ei)))
    (hc : ∀ ei, (c ei).stands (s.inTurn st ei)) (hy : ∀ ei, (y ei).stands (c ei))
    (hs : ∀ ei, (y ei).scriptOf st = .strike (.glyph g) :: rest) :
    ∃ ei, s.settlesTo (((y ei).withScript st rest).issuing (.glyph g) st false) := by
  refine h.settlesTo fun ei k hr => ?_
  have hcr := hr.stands (hc ei)
  have hcol' : (c ei).print.column = (s.inTurn st ei).print.column := PrintUnit.column_of_stance (hc ei).2
  have hopen : (c ei).print.openLine = (s.inTurn st ei).print.openLine :=
    PrintUnit.openLine_of_stance (hc ei).2
  have htc : (c ei).print.turning := PrintUnit.turning.of_stance (p := (s.inTurn st ei).print) ht (hc ei).2
  rw [PrintSide.ready_next hr (hac ei)]
  exact PrintSide.begin_run (env := s.printEnv) hcr htc (hopen.trans ho) (hcol' ▸ hcol) (ha ei)
    (hcr.stands (hy ei)) (hy ei).2 (hs ei) k

/-- A text that begins with a glyph. -/
def struckFirst (text : List Elem) : Prop := ∃ g rest, text = .strike (.glyph g) :: rest

/-- A line of a text that begins with a glyph is begun with that glyph, and the rest with the line's end is left. -/
theorem State.printTurn.beginsText (h : s.printTurn st) (ht : s.print.turning)
    (hcol : s.print.column ≤ s.panel.settings.width) (ho : s.print.openLine = false) {text : List Elem}
    (hf : struckFirst text)
    (ha : ∀ ei, (s.inTurn st ei).act s.printEnv st = some ((s.inTurn st ei).beginLine st (y ei)))
    (hy : ∀ ei, (y ei).stands (s.inTurn st ei)) (hs : ∀ ei, (y ei).scriptOf st = generated text) :
    ∃ g rest ei, text = .strike (.glyph g) :: rest ∧
      s.settlesTo (((y ei).withScript st (rest ++ [.cr, .feed])).issuing (.glyph g) st false) := by
  obtain ⟨g, rest, rfl⟩ := hf
  obtain ⟨ei, hto⟩ := h.begins ht hcol ho ha hy hs
  exact ⟨g, rest, ei, rfl, hto⟩

/-- A stream that begins a generated line while its own line is open closes that line first (R5, R148). -/
theorem State.printTurn.closes (h : s.printTurn st) (ht : s.print.turning) (ho : s.print.openLine = true)
    {rest : List MechOp} (hcl : closeOps s.print.column = o :: rest)
    (ha : ∀ ei, (s.inTurn st ei).act s.printEnv st = some ((s.inTurn st ei).beginLine st (y ei))) :
    ∃ ei, s.settlesTo { s.inTurn st ei with
      print := { (s.inTurn st ei).print with
        pre := rest, preFor := .stream st false, flight := .op (s.opHere o) (.stream st false) } } :=
  h.settlesTo fun ei k hr => PrintSide.close_run hr (ha ei) ho ht hcl (k + 1)

/-- A stream whose next thing is to have its own line's end due issues the first operation of that. -/
theorem State.printTurn.thenCloses (h : s.printTurn st) (ht : s.print.turning) {rest : List MechOp}
    (ha : ∀ ei, (s.inTurn st ei).act s.printEnv st = some { c ei with
      print := { (c ei).print with pre := o :: rest, preFor := .stream st false } })
    (hc : ∀ ei, (c ei).stands (s.inTurn st ei)) :
    ∃ ei, s.settlesTo { c ei with
      print := { (c ei).print with
        pre := rest, preFor := .stream st false, flight := .op (s.opHere o) (.stream st false) } } := by
  refine h.settlesTo fun ei k hr => ?_
  have hcr := hr.stands (hc ei)
  have htc : (c ei).print.turning := PrintUnit.turning.of_stance (p := (s.inTurn st ei).print) ht (hc ei).2
  have hpage : (c ei).print.pageLine = (s.inTurn st ei).print.pageLine :=
    PrintUnit.pageLine_of_stance (hc ei).2
  rw [PrintSide.ready_next hr (ha ei)]
  refine (PrintSide.run_last (PrintSide.pre_step (st := st)
    (y := { c ei with print := { (c ei).print with pre := o :: rest, preFor := .stream st false } })
    hcr.flight hcr.paper hcr.fed hcr.placed hcr.holder rfl rfl htc)
    (PrintSide.issued_still (st := st) rfl hcr.holder hcr.placed) (k + 1)).trans ?_
  dsimp only
  rw [hpage]
  rfl

end turn

end Sys2Proof.Machine
end

section
/-! SUPPORT. The next thing each stream does: the items of the echo FIFO, notices, the phases and codes of a store
copy, and the lines of a report (R4, R155 to R162, R187). -/
namespace Sys2Proof.Machine

/-! ### Codes (R4) -/

/-- A code that asks for no operation: a blank, a shift, or the bell in figures case. -/
theorem codeAct_quiet {c : Code} {cs : PrintCase}
    (h : c.val = 0 ∨ c.val = 30 ∨ c.val = 31 ∨ c.val = 25 ∧ cs = .figures) :
    codeAct c cs = if c.val = 25 then .ring else .nothing := by
  unfold codeAct
  rcases h with h | h | h | ⟨h, rfl⟩ <;> simp [h]

theorem codeAct_space {c : Code} (cs : PrintCase) (h : c.val = 1) : codeAct c cs = .op .space := by
  simp [codeAct, h]

theorem codeAct_cr {c : Code} (cs : PrintCase) (h : c.val = 2) : codeAct c cs = .op .cr := by
  simp [codeAct, h]

theorem codeAct_feed {c : Code} (cs : PrintCase) (h : c.val = 3) : codeAct c cs = .op .feed := by
  simp [codeAct, h]

/-- The operation of a space, carriage return or line feed code. -/
def formatOp (c : Code) : MechOp := if c.val = 1 then .space else if c.val = 2 then .cr else .feed

theorem codeAct_format {c : Code} (cs : PrintCase) (h1 : 1 ≤ c.val) (h3 : c.val ≤ 3) :
    codeAct c cs = .op (formatOp c) := by
  have hc : c.val = 1 ∨ c.val = 2 ∨ c.val = 3 := by omega
  rcases hc with h | h | h <;> simp [codeAct, formatOp, h]

/-- The case after a code that strikes is the case before. -/
theorem codeCase_glyph {u : Bool} {c : Code} {cs : PrintCase} (h : 4 ≤ c.val) (h9 : c.val ≤ 29) :
    codeCase u c cs = cs := by
  unfold codeCase
  rw [if_neg (by omega), if_neg (by omega), if_neg (by omega)]

theorem codeCase_space {u : Bool} {c : Code} {cs : PrintCase} (h : c.val = 1) :
    codeCase u c cs = if u = true then .letters else cs := by
  simp [codeCase, h]

/-- The case after a code that asks for no operation. -/
theorem codeCase_quiet {u : Bool} {c : Code} {cs cs' : PrintCase}
    (h : c.val = 0 ∨ c.val = 30 ∨ c.val = 31 ∨ c.val = 25 ∧ cs' = .figures) :
    codeCase u c cs = if c.val = 30 then .figures else if c.val = 31 then .letters else cs := by
  unfold codeCase
  rcases h with h | h | h | ⟨h, -⟩ <;> simp [h]

theorem codeCase_format {u : Bool} {c : Code} {cs : PrintCase} (h1 : 1 ≤ c.val) (h3 : c.val ≤ 3) :
    codeCase u c cs = if c.val = 1 ∧ u = true then .letters else cs := by
  unfold codeCase
  rw [if_neg (by omega), if_neg (by omega)]

/-! ### The echo (R155 to R158) -/

/-- The echo comes to its FIFO: no line begun, no reprint, no saved line and no lost mark come before the item. -/
structure PrintUnit.atItem (p : PrintUnit) (i : EchoItem) (rest : List EchoItem) : Prop where
  script : p.echoScript = []
  reprint : p.reprint = []
  saved : p.saved = none
  kept : p.echoLost = false
  fifo : p.echoFifo = i :: rest

/-- The printer with the head item taken from the echo FIFO, in the case it leaves (R4, R152). -/
def PrintUnit.tookItem (p : PrintUnit) (rest : List EchoItem) (cs : PrintCase) : PrintUnit :=
  { p with echoFifo := rest, echoIdle := if rest.isEmpty then some 0 else p.echoIdle, echoCase := cs }

theorem PrintUnit.popEcho_cons {p : PrintUnit} {i : EchoItem} {rest : List EchoItem}
    (h : p.echoFifo = i :: rest) : p.popEcho = p.tookItem rest p.echoCase := by
  unfold PrintUnit.popEcho
  rw [h]
  rfl

variable {env : PrintEnv} {x : PrintSide} {i : EchoItem} {items : List EchoItem}

theorem PrintSide.act_echoItem (h : x.print.atItem i items) :
    x.act env .echo = some (x.actEchoItem env i) := by
  simp [PrintSide.act, PrintSide.actEcho, h.script, h.reprint, h.saved, h.kept, h.fifo]

/-- An item whose action is an operation takes its place in the FIFO until that is issued. -/
theorem PrintSide.act_echoOp {c : Code} {o : MechOp} (h : x.print.atItem (.code c) items)
    (ha : codeAct c x.print.echoCase = .op o) :
    x.act env .echo = some (x.issue env .echo true o { x with
      print := x.print.tookItem items (codeCase env.settings.unshiftOnSpace c x.print.echoCase) }) := by
  rw [PrintSide.act_echoItem h, PrintSide.actEchoItem, PrintUnit.popEcho_cons h.fifo]
  simp only [ha]
  rfl

/-- A shift or blank is taken at once, and a bell code rings. -/
theorem PrintSide.act_echoQuiet {c : Code} (h : x.print.atItem (.code c) items)
    (hq : c.val = 0 ∨ c.val = 30 ∨ c.val = 31 ∨ c.val = 25 ∧ x.print.echoCase = .figures) :
    x.act env .echo = some { x with
      print := x.print.tookItem items (if c.val = 30 then .figures else if c.val = 31 then .letters
        else x.print.echoCase)
      bell := x.bell + if c.val = 25 then 1 else 0 } := by
  rw [PrintSide.act_echoItem h, PrintSide.actEchoItem, PrintUnit.popEcho_cons h.fifo, codeCase_quiet hq,
    codeAct_quiet hq]
  by_cases hb : c.val = 25
  · simp only [hb, if_true]; rfl
  · simp only [hb, if_false]; rfl

theorem PrintSide.act_echoErase {cs : PrintCase} (h : x.print.atItem (.eraseMarker cs) items) :
    x.act env .echo = some (x.issue env .echo true (.glyph eraseMark)
      { x with print := x.print.tookItem items cs }) := by
  rw [PrintSide.act_echoItem h, PrintSide.actEchoItem, PrintUnit.popEcho_cons h.fifo]
  rfl

/-- The line of a marker. -/
def markerText (i : EchoItem) (text : List Elem) : Prop :=
  (∃ d cls, i = .destMarker d cls ∧ text = destText d cls) ∨ i = .autoEnd ∧ text = words "AUTO END"

theorem PrintSide.act_echoMarker {text : List Elem} (h : x.print.atItem i items) (hi : markerText i text) :
    x.act env .echo = some (x.beginLine .echo { x with
      print := { x.print.tookItem items x.print.echoCase with echoScript := generated text } }) := by
  rw [PrintSide.act_echoItem h]
  rcases hi with ⟨d, cls, rfl, rfl⟩ | ⟨rfl, rfl⟩ <;>
    rw [PrintSide.actEchoItem, PrintUnit.popEcho_cons h.fifo]

theorem PrintSide.act_echoLost (hs : x.print.echoScript = []) (hr : x.print.reprint = [])
    (hv : x.print.saved = none) (hl : x.print.echoLost = true) (hf : x.print.echoFifo ≠ []) :
    x.act env .echo = some (x.beginLine .echo { x with
      print := { x.print with echoScript := generated (words "ECHO LOST"), echoLost := false } }) := by
  obtain ⟨i, items, hf⟩ := List.exists_cons_of_ne_nil hf
  simp [PrintSide.act, PrintSide.actEcho, hs, hr, hv, hl, hf]

/-- The saved line is to be reprinted, in its case, before the FIFO goes on (R158). -/
theorem PrintSide.act_echoSaved {sv : SavedLine} (hs : x.print.echoScript = []) (hr : x.print.reprint = [])
    (hv : x.print.saved = some sv) (hf : x.print.echoFifo ≠ []) :
    x.act env .echo = some { x with
      print := { x.print with saved := none, reprint := sv.image, echoCase := sv.case } } := by
  obtain ⟨i, items, hf⟩ := List.exists_cons_of_ne_nil hf
  simp [PrintSide.act, PrintSide.actEcho, hs, hr, hv, hf]

theorem PrintSide.act_echoReprint {k : Strike} {rest : List Strike} (hs : x.print.echoScript = [])
    (hr : x.print.reprint = k :: rest) :
    x.act env .echo = some (x.issue env .echo false (strikeOp k)
      { x with print := { x.print with reprint := rest } }) := by
  simp [PrintSide.act, PrintSide.actEcho, hs, hr]

/-! ### The notices (R162) -/

theorem PrintSide.act_notice {n : Notice} {rest : List Notice} (hs : x.print.noticeScript = [])
    (hd : x.print.lostDue = false) (hn : x.print.notices = n :: rest) :
    x.act env .notices = some (x.beginLine .notices { x with
      print := { x.print with
        notices := rest, noticeLine := true
        noticeScript := generated (noticeText env.settings.unshiftOnSpace n) } }) := by
  simp [PrintSide.act, PrintSide.actNotices, hs, hd, hn]

theorem PrintSide.act_lost (hs : x.print.noticeScript = []) (hd : x.print.lostDue = true) :
    x.act env .notices = some (x.beginLine .notices { x with
      print := { x.print with
        noticeScript := generated (lostText x.print.lost), lost := 0, lostDue := false
        noticeLine := false } }) := by
  simp [PrintSide.act, PrintSide.actNotices, hs, hd]

/-! ### The store copy (R159 to R161) -/

/-- A copy with no line of its own begun. -/
structure PrintSide.copyAt (x : PrintSide) (c : CopyPos) (ph : CopyPhase) : Prop where
  copy : x.print.copy = some c
  script : c.script = []
  phase : c.phase = ph

variable {c : CopyPos} {e : Entry} {n : Nat} {code : Code}

theorem PrintSide.withCopy_stands (x : PrintSide) (c : CopyPos) : (x.withCopy c).stands x :=
  ⟨fun _ => .inl rfl, rfl⟩

theorem PrintSide.act_copyBell (h : x.copyAt c .bell) :
    x.act env .copy = some { x.withCopy { c with phase := x.afterBell env } with
      bell := x.bell + if env.attended then 1 else 0 } := by
  simp only [PrintSide.act, PrintSide.actCopy, h.copy, h.script, h.phase]
  split <;> rfl

theorem PrintSide.act_copyPage (h : x.copyAt c .page) (ha : x.pageAsked env = true) :
    x.act env .copy
      = some (x.issue env .copy false .page (x.withCopy { c with phase := afterPage env })) := by
  simp only [PrintSide.act, PrintSide.actCopy, h.copy, h.script, h.phase, PrintSide.actCopyPage, ha, if_true]

/-- The page operation is passed over when the page line is 1 by then (R149). -/
theorem PrintSide.act_copyNoPage (h : x.copyAt c .page) (ha : x.pageAsked env = false) :
    x.act env .copy = some (x.withCopy { c with phase := afterPage env }) := by
  simp only [PrintSide.act, PrintSide.actCopy, h.copy, h.script, h.phase, PrintSide.actCopyPage, ha]
  rfl

theorem PrintSide.act_copyBanner (h : x.copyAt c .banner) (he : x.store.entry c.entry = some e) :
    x.act env .copy = some (x.beginLine .copy (x.withCopy
      { c with phase := .text, script := generated (bannerText e x.journal.time) })) := by
  simp only [PrintSide.act, PrintSide.actCopy, h.copy, h.script, h.phase, PrintSide.actCopyBanner, he,
    Option.map_some]

/-- A block with a gap line or a code left is where the text phase stands. -/
theorem CopyPos.onText_here {st : Store} {chain : List Nat} (hn : chain[c.block]? = some n)
    (h : (st.block n).gap > 0 ∧ c.gapDone = false ∨ c.code < (st.block n).codes.length) :
    c.onText st (chain.drop c.block) = c := by
  obtain ⟨rest, hd⟩ : ∃ rest, chain.drop c.block = n :: rest := by
    obtain ⟨hlt, rfl⟩ := List.getElem?_eq_some_iff.mp hn
    exact ⟨_, List.drop_eq_getElem_cons hlt⟩
  rw [hd, CopyPos.onText, if_pos h]

theorem PrintSide.act_copyCode (h : x.copyAt c .text) (he : x.store.entry c.entry = some e)
    (hn : e.chain[c.block]? = some n) (hg : (x.store.block n).gap = 0 ∨ c.gapDone = true)
    (hcode : (x.store.block n).codes[c.code]? = some code) :
    x.act env .copy = some (x.actCopyCode env c code) := by
  have hlt : c.code < (x.store.block n).codes.length := (List.getElem?_eq_some_iff.mp hcode).1
  have hng : ¬ ((x.store.block n).gap > 0 ∧ c.gapDone = false) := by
    rintro ⟨hpos, hd⟩
    rcases hg with hg | hg
    · omega
    · rw [hd] at hg; cases hg
  simp only [PrintSide.act, PrintSide.actCopy, h.copy, h.script, h.phase, PrintSide.actCopyText, he,
    CopyPos.onText_here hn (.inr hlt), hn, if_neg hng, hcode, Option.map_some]

/-- A code of the copy whose action is an operation. -/
theorem PrintSide.act_copyOp (h : x.copyAt c .text) (he : x.store.entry c.entry = some e)
    (hn : e.chain[c.block]? = some n) (hg : (x.store.block n).gap = 0 ∨ c.gapDone = true)
    (hcode : (x.store.block n).codes[c.code]? = some code) {o : MechOp} (ha : codeAct code c.case = .op o) :
    x.act env .copy = some (x.issue env .copy false o (x.withCopy
      { c with code := c.code + 1, case := codeCase env.settings.unshiftOnSpace code c.case })) := by
  rw [PrintSide.act_copyCode h he hn hg hcode, PrintSide.actCopyCode]
  simp only [ha]

theorem PrintSide.act_copyGlyph (h : x.copyAt c .text) (he : x.store.entry c.entry = some e)
    (hn : e.chain[c.block]? = some n) (hg : (x.store.block n).gap = 0 ∨ c.gapDone = true)
    (hcode : (x.store.block n).codes[c.code]? = some code) (h4 : 4 ≤ code.val) (h29 : code.val ≤ 29)
    (hb : ¬ (code.val = 25 ∧ c.case = .figures)) :
    x.act env .copy = some (x.issue env .copy false
      (.glyph (if c.case = .letters then code.val - 4 else code.val + 22))
      (x.withCopy { c with code := c.code + 1 })) := by
  rw [PrintSide.act_copyOp h he hn hg hcode (codeAct_glyph h4 h29 hb), codeCase_glyph h4 h29]

/-- A shift, blank or bell code of the copy. -/
theorem PrintSide.act_copyQuiet (h : x.copyAt c .text) (he : x.store.entry c.entry = some e)
    (hn : e.chain[c.block]? = some n) (hg : (x.store.block n).gap = 0 ∨ c.gapDone = true)
    (hcode : (x.store.block n).codes[c.code]? = some code)
    (hq : code.val = 0 ∨ code.val = 30 ∨ code.val = 31 ∨ code.val = 25 ∧ c.case = .figures) :
    x.act env .copy = some { x.withCopy { c with
        code := c.code + 1
        case := if code.val = 30 then .figures else if code.val = 31 then .letters else c.case } with
      bell := x.bell + if code.val = 25 then 1 else 0 } := by
  rw [PrintSide.act_copyCode h he hn hg hcode, PrintSide.actCopyCode, codeAct_quiet hq, codeCase_quiet hq]
  by_cases hb : code.val = 25
  · simp only [hb, if_true]; rfl
  · simp only [hb, if_false]; rfl

theorem PrintSide.act_copyGap (h : x.copyAt c .text) (he : x.store.entry c.entry = some e)
    (hn : e.chain[c.block]? = some n) (hg : (x.store.block n).gap > 0) (hd : c.gapDone = false) :
    x.act env .copy = some (x.beginLine .copy (x.withCopy
      { c with gapDone := true, case := .letters, script := generated (gapText (x.store.block n).gap) })) := by
  have hg' : (x.store.block n).gap > 0 ∧ c.gapDone = false := ⟨hg, hd⟩
  simp only [PrintSide.act, PrintSide.actCopy, h.copy, h.script, h.phase, PrintSide.actCopyText, he,
    CopyPos.onText_here hn (.inl hg'), hn, if_pos hg']

theorem CopyPos.onText_entry (st : Store) (l : List Nat) (c : CopyPos) :
    (c.onText st l).entry = c.entry := by
  induction l generalizing c with
  | nil => rfl
  | cons n l ih =>
    unfold CopyPos.onText
    split
    · rfl
    · exact ih _

/-- Behind its last stored code a copy comes to its end (R160, R161). -/
theorem PrintSide.act_copyEnd (h : x.copyAt c .text) (he : x.store.entry c.entry = some e)
    (hl : ¬ x.store.textLeft e c) :
    x.act env .copy = x.actCopyEnd (c.onText x.store (e.chain.drop c.block)) e := by
  have hend : e.chain[(c.onText x.store (e.chain.drop c.block)).block]? = none := by
    by_contra hne
    exact hl ((CopyPos.onText_left _ _ _).mp hne)
  simp only [PrintSide.act, PrintSide.actCopy, h.copy, h.script, h.phase, PrintSide.actCopyText, he, hend]

theorem PrintSide.actCopyEnd_incomplete (hcl : e.state = .closed) (hr : e.reason.isSome = true) :
    x.actCopyEnd c e = some (x.beginLine .copy (x.withCopy
      { c with phase := .finish, script := generated trailerText })) := by
  unfold PrintSide.actCopyEnd
  rw [if_pos hcl, if_pos hr]

theorem PrintSide.actCopyEnd_open (hcl : e.state = .closed) (hr : e.reason = none)
    (ho : x.print.openLine = true) : x.actCopyEnd c e = some { x with
      print := { x.print with
        pre := closeOps x.print.column, preFor := .stream .copy false
        copy := some { c with phase := .finish } } } := by
  unfold PrintSide.actCopyEnd
  rw [if_pos hcl, if_neg (by simp [hr]), if_pos ho]

theorem PrintSide.actCopyEnd_finish (hcl : e.state = .closed) (hr : e.reason = none)
    (ho : x.print.openLine = false) : x.actCopyEnd c e = some (x.finishCopy c) := by
  unfold PrintSide.actCopyEnd
  rw [if_pos hcl, if_neg (by simp [hr]), if_neg (by simp [ho])]

/-! ### The report (R187) -/

/-- The line a report prints behind its header, and what is then left of the report (R187; logs 12, 35). -/
def Report.prints (r q : Report) (ring : List JournalEntry) (env : PrintEnv) (text : List Elem) : Prop :=
  r.stage = .entries ∧ r.wasEmpty = true ∧ q = { r with stage := .footer } ∧ text = words "NO ENTRIES" ∨
  r.stage = .entries ∧ r.wasEmpty = false ∧ 0 < r.skip ∧ q = { r with skip := 0 } ∧ text = skipText r.skip ∨
  (∃ n rest e, r.stage = .entries ∧ r.wasEmpty = false ∧ r.skip = 0 ∧ r.toPrint = n :: rest ∧
    ring.find? (fun x => x.entryNo == n) = some e ∧ q = { r with toPrint := rest } ∧ text = entryText e) ∨
  (r.stage = .footer ∨ r.stage = .entries ∧ r.wasEmpty = false ∧ r.skip = 0 ∧ r.toPrint = []) ∧
    q = { r with stage := .ended } ∧ text = footerText env.discarded (loadPercent env.loadE)

theorem PrintSide.act_reportHeader {r : Report} (hs : x.print.reportScript = [])
    (hr : x.journal.report = some r) (hst : r.stage = .header) :
    x.act env .report = some (x.beginLine .report (x.reportLine { r with stage := .entries }
      (headerText x.journal.time x.journal.overwritten))) := by
  simp only [PrintSide.act, PrintSide.actReport, hs, hr, hst]

theorem PrintSide.act_reportLine {r q : Report} {text : List Elem} (hs : x.print.reportScript = [])
    (hr : x.journal.report = some r) (h : r.prints q x.journal.ring env text) :
    x.act env .report = some (x.beginLine .report (x.reportLine q text)) := by
  simp only [PrintSide.act, PrintSide.actReport, hs, hr]
  rcases h with ⟨hst, hw, rfl, rfl⟩ | ⟨hst, hw, hk, rfl, rfl⟩ | ⟨n, rest, e, hst, hw, hk, hp, hf, rfl, rfl⟩ |
    ⟨hst | ⟨hst, hw, hk, hp⟩, rfl, rfl⟩
  · simp only [hst, PrintSide.actEntries, hw, if_true]
  · simp [hst, PrintSide.actEntries, hw, hk]
  · simp [hst, PrintSide.actEntries, hw, hk, hp, hf]
  · simp only [hst]
  · simp [hst, PrintSide.actEntries, hw, hk, hp]

/-! ### The first glyph of a generated line -/

theorem struckFirst.append {a : List Elem} (h : struckFirst a) (b : List Elem) : struckFirst (a ++ b) := by
  obtain ⟨g, rest, rfl⟩ := h
  exact ⟨g, rest ++ b, rfl⟩

theorem struckFirst_digits (k n : Nat) : struckFirst (digits (k + 1) n) := by
  unfold digits
  rw [List.range_succ_eq_map]
  exact ⟨_, _, rfl⟩

theorem struckFirst_plain (n : Nat) : struckFirst (plain n) := by
  unfold plain
  split_ifs <;> exact struckFirst_digits _ _

theorem struckFirst_entry (e : JournalEntry) : struckFirst (entryText e) := by
  unfold entryText
  simp only [List.append_assoc]
  exact (struckFirst_digits 3 _).append _

theorem struckFirst_marker {text : List Elem} (h : markerText i text) : struckFirst text := by
  rcases h with ⟨d, cls, -, rfl⟩ | ⟨-, rfl⟩
  · exact ⟨_, _, rfl⟩
  · exact ⟨_, _, rfl⟩

/-- Each line of the report begins with a glyph. -/
theorem struckFirst_report {r q : Report} {ring : List JournalEntry} {text : List Elem}
    (h : r.prints q ring env text) : struckFirst text := by
  rcases h with ⟨-, -, -, rfl⟩ | ⟨-, -, -, -, rfl⟩ | ⟨n, rest, e, -, -, -, -, -, -, rfl⟩ | ⟨-, -, rfl⟩
  · exact ⟨_, _, rfl⟩
  · exact ⟨_, _, rfl⟩
  · exact struckFirst_entry e
  · exact ⟨_, _, rfl⟩

end Sys2Proof.Machine
end

section
/-! SUPPORT. What the print unit issues beside a stream's own turn: a grant point is judged or kept first, and then
comes a feed owed to PAPER FEED, the rest of a wrap or closing, or the closing of another stream's line (R144, R152,
R153, R165, R166). -/
namespace Sys2Proof.Machine

/-! ### A grant point and what leaves it as it is -/

/-- What a grant point reads of the printer besides what the streams want and what is under way. -/
def PrintUnit.judging (p : PrintUnit) : Option Stream × Bool × Option Nat × Bool × Option Stream :=
  (p.holder, p.grantDue, p.echoIdle, p.openLine, p.owner)

theorem PrintSide.grantPoint_congr {env : PrintEnv} {x y : PrintSide} (hw : y.wants = x.wants)
    (hj : y.print.judging = x.print.judging) (ha : y.print.holderActs = x.print.holderActs) :
    y.grantPoint env = x.grantPoint env := by
  have hwaits : ∀ st, y.waits env st = x.waits env st := fun st => PrintSide.waits_of_wants rfl hw
  have hfirst : y.firstWaiting env = x.firstWaiting env := by
    simp only [PrintSide.firstWaiting_eq, hwaits]
  have hothers : y.othersWait env = x.othersWait env := by
    simp only [PrintSide.othersWait, List.any_cons, List.any_nil, hwaits]
  simp only [PrintUnit.judging, Prod.mk.injEq] at hj
  obtain ⟨hh, hg, hi, hop, how⟩ := hj
  simp only [PrintSide.grantPoint, PrintSide.grantArises, PrintSide.interjectionDue, PrintUnit.echoStays,
    PrintUnit.echoKeeps, ha, hh, hg, hi, hop, how, hwaits, hfirst, hothers]
  rfl

/-- Something in flight that is no stream's own operation does not make the holder act. -/
theorem PrintUnit.holderActs_quiet {p q : PrintUnit} {m : Motor} {f : Flight} {b : Bool}
    (hp : p.flight = .none) (hq : q = { p with motor := m, flight := f, firstCR := b })
    (hf : ∀ st item o, f ≠ .op o (.stream st item)) : q.holderActs = p.holderActs := by
  subst hq
  unfold PrintUnit.holderActs
  rw [hp]
  cases f with
  | op o why => cases why <;> first | rfl | exact absurd rfl (hf _ _ _)
  | none => rfl
  | motorStart => rfl
  | motorStop => rfl

/-- With no holder and nothing that waits there is no grant point. -/
theorem PrintSide.grantPoint_free {env : PrintEnv} {x : PrintSide} (hh : x.print.holder = none)
    (hd : x.print.grantDue = false) (hf : x.firstWaiting env = none) : x.grantPoint env = false := by
  simp [PrintSide.grantPoint, PrintSide.grantArises, hh, hd, hf]

theorem PrintUnit.echoStays_holder {p : PrintUnit} (h : p.echoStays = true) : p.holder = some .echo := by
  simp only [PrintUnit.echoStays, Bool.and_eq_true, beq_iff_eq] at h
  exact h.1

/-- An echo that keeps the printer meets no grant point while no other stream waits. -/
theorem PrintSide.grantPoint_kept {env : PrintEnv} {x : PrintSide} (hs : x.print.echoStays = true)
    (hd : x.print.grantDue = false) (ho : x.othersWait env = false) : x.grantPoint env = false := by
  have hh := PrintUnit.echoStays_holder hs
  simp [PrintSide.grantPoint, PrintSide.grantArises, hh, hd, hs, PrintSide.interjectionDue, ho]

/-- The line end of an interjected echo is its own operation. -/
theorem PrintSide.grantPoint_interjected {env : PrintEnv} {x : PrintSide} {st : Stream} {b : Bool}
    (hh : x.print.holder = some st) (hp : x.print.pre ≠ []) (hf : x.print.preFor = .stream st b) :
    x.grantPoint env = false := by
  simp [PrintSide.grantPoint, PrintUnit.holderActs, PrintUnit.servesHolder, hh, hp, hf]

theorem closeOps_ne_nil (column : Nat) : closeOps column ≠ [] := by
  unfold closeOps
  split <;> simp

/-- A grant point that has been judged is one no more (R152, R153). -/
theorem PrintSide.judge_grantPoint (env : PrintEnv) (x : PrintSide) :
    (x.judge env).grantPoint env = false := by
  unfold PrintSide.judge
  split
  · rename_i h
    obtain ⟨hs, hf | hf⟩ := h
    · refine PrintSide.grantPoint_kept hs rfl ?_
      have hnone : ∀ st, PrintSide.waits env { x with print := { x.print with grantDue := false } } st = false :=
        fun st => PrintSide.waits_of_wants (PrintSide.firstWaiting_none hf st) rfl
      simp only [PrintSide.othersWait, List.any_cons, List.any_nil, hnone, Bool.or_self]
    · have hh := PrintUnit.echoStays_holder hs
      exact PrintSide.grantPoint_waits env _ .echo hh rfl
        (PrintSide.waits_of_wants (PrintSide.firstWaiting_waits hf) rfl)
  · split
    · rename_i hs
      have hh := PrintUnit.echoStays_holder hs
      exact PrintSide.grantPoint_interjected hh (closeOps_ne_nil _) rfl
    · cases hw : x.firstWaiting env with
      | none =>
        refine PrintSide.grantPoint_free hw rfl ?_
        have hnone : ∀ st, (x.grant env).waits env st = false :=
          fun st => PrintSide.waits_of_wants (PrintSide.firstWaiting_none hw st) rfl
        simp [PrintSide.firstWaiting_eq, hnone]
      | some st =>
        exact PrintSide.grantPoint_waits env _ st hw rfl
          (PrintSide.waits_of_wants (PrintSide.firstWaiting_waits hw) rfl)

/-- What judging touches. -/
theorem PrintSide.judge_rest (env : PrintEnv) (x : PrintSide) : ∃ hd g ei sv pr pf, x.judge env = { x with
    print := { x.print with
      holder := hd, grantDue := g, echoIdle := ei, saved := sv, pre := pr, preFor := pf } } := by
  unfold PrintSide.judge
  split
  · exact ⟨_, _, _, _, _, _, rfl⟩
  · split <;> exact ⟨_, _, _, _, _, _, rfl⟩

/-- No grant point is left to judge, or, in the stall, to keep. -/
def PrintSide.judged (env : PrintEnv) (x : PrintSide) : Prop :=
  x.grantPoint env = true → x.print.stalled = true ∧ x.print.grantDue = true

theorem PrintSide.judged_step {env : PrintEnv} {x : PrintSide} (hp : x.placed) (hj : x.judged env) :
    x.step env = if x.print.flight ≠ .none then none else x.issueNext env := by
  rw [PrintSide.step_placed env x hp, if_neg, if_neg]
  · rintro ⟨hg, hd⟩; rw [(hj hg).2] at hd; cases hd
  · rintro ⟨hg, hs⟩; rw [(hj hg).1] at hs; cases hs

/-- With something in flight the print unit does nothing more when the grant point stands as it stood. -/
theorem PrintSide.judged.still {env : PrintEnv} {x y : PrintSide} (h : x.judged env) (hp : y.placed)
    (hw : y.wants = x.wants) (hj : y.print.judging = x.print.judging) (hs : y.print.stalled = x.print.stalled)
    (ha : y.print.holderActs = x.print.holderActs) (hf : y.print.flight ≠ .none) : y.step env = none := by
  have hyj : y.judged env := by
    intro hg
    rw [PrintSide.grantPoint_congr hw hj ha] at hg
    simp only [PrintUnit.judging, Prod.mk.injEq] at hj
    obtain ⟨-, hd, -, -, -⟩ := hj
    rw [hs, hd]
    exact h hg
  rw [PrintSide.judged_step hp hyj, if_pos hf]

/-- A grant point is judged, or kept in the stall, at once. -/
theorem PrintSide.judged_run (env : PrintEnv) (x : PrintSide) (hp : x.placed) : ∃ z k, z.judged env ∧
    PrintSide.run env printFuel x = PrintSide.run env (k + 2) z ∧
    (z = x ∨ x.print.stalled = false ∧ x.grantPoint env = true ∧ z = x.judge env ∨
      x.print.stalled = true ∧ z = { x with print := { x.print with grantDue := true } }) := by
  have hs := PrintSide.step_placed env x hp
  by_cases hg : x.grantPoint env = true
  · by_cases hst : x.print.stalled = false
    · rw [if_pos ⟨hg, hst⟩] at hs
      refine ⟨x.judge env, printFuel - 3, fun h => ?_, PrintSide.run_succ hs _, .inr (.inl ⟨hst, hg, rfl⟩)⟩
      rw [PrintSide.judge_grantPoint] at h
      cases h
    · rw [if_neg fun h => hst h.2] at hs
      have hst : x.print.stalled = true := by simpa using hst
      by_cases hd : x.print.grantDue = false
      · rw [if_pos ⟨hg, hd⟩] at hs
        exact ⟨{ x with print := { x.print with grantDue := true } }, printFuel - 3, fun _ => ⟨hst, rfl⟩,
          PrintSide.run_succ hs _, .inr (.inr ⟨hst, rfl⟩)⟩
      · exact ⟨x, printFuel - 2, fun _ => ⟨hst, by simpa using hd⟩, rfl, .inl rfl⟩
  · exact ⟨x, printFuel - 2, fun h => absurd h hg, rfl, .inl rfl⟩

/-! ### A feed owed to PAPER FEED (R166) -/

/-- What a feed owed puts in flight: the motor start, the carriage return of R168, or the feed. -/
def PrintUnit.owedFlight (p : PrintUnit) (env : PrintEnv) : Flight :=
  if p.motor ≠ .running then .motorStart
  else if p.firstCR = true then .op .cr .initial
  else .op (feedOp env.settings.pageLength p.pageLine) .paperFeed

theorem PrintUnit.issueOwed_eq (p : PrintUnit) (env : PrintEnv) : ∃ b, p.issueOwed env = { p with
    motor := if p.motor ≠ .running then .starting else .running, flight := p.owedFlight env, firstCR := b } := by
  unfold PrintUnit.issueOwed PrintUnit.owedFlight
  by_cases hm : p.motor = .running
  · by_cases hf : p.firstCR = true
    · rw [PrintUnit.before_first hm hf]
      exact ⟨false, by simp [hm, hf]⟩
    · rw [PrintUnit.before_turning ⟨hm, by simpa using hf⟩]
      exact ⟨p.firstCR, by simp [← hm, hf]⟩
  · rw [PrintUnit.before_off hm]
    exact ⟨p.firstCR, by simp [hm]⟩

theorem PrintUnit.owedFlight_quiet (p : PrintUnit) (env : PrintEnv) :
    p.owedFlight env ≠ .none ∧ ∀ st item o, p.owedFlight env ≠ .op o (.stream st item) := by
  unfold PrintUnit.owedFlight
  split
  · simp
  · split <;> simp

/-- A feed owed is given first, in the stall that of the stall's own PAPER FEED alone, and no more is issued. -/
theorem PrintSide.owed_run {env : PrintEnv} {x : PrintSide} (hp : x.placed) (hj : x.judged env)
    (hf : x.print.flight = .none)
    (ho : x.print.stalled = false ∧ 0 < x.print.owedFeeds ∨
      x.print.stalled = true ∧ x.print.stallFeed = true ∧ x.print.paperPresent = true) (k : Nat) :
    PrintSide.run env (k + 1) x = { x with print := x.print.issueOwed env } := by
  obtain ⟨b, he⟩ := x.print.issueOwed_eq env
  obtain ⟨hne, hns⟩ := x.print.owedFlight_quiet env
  refine PrintSide.run_last ?_ ?_ k
  · rw [PrintSide.judged_step hp hj]
    unfold PrintSide.issueNext
    rcases ho with ⟨hs, ho⟩ | ⟨hs, hsf, hpp⟩
    · simp [hf, hs, ho]
    · simp [hf, hs, hsf, hpp]
  · rw [he]
    exact hj.still hp rfl rfl rfl (PrintUnit.holderActs_quiet hf rfl hns) hne

/-! ### The rest of a wrap or closing (R147, R148, R153) -/

theorem PrintUnit.issuePre_off {p : PrintUnit} (env : PrintEnv) (o : MechOp) (rest : List MechOp)
    (hm : p.motor ≠ .running) : p.issuePre env o rest = { p with motor := .starting, flight := .motorStart } := by
  unfold PrintUnit.issuePre
  rw [PrintUnit.before_off hm]

theorem PrintUnit.issuePre_turning {p : PrintUnit} (env : PrintEnv) (o : MechOp) (rest : List MechOp)
    (ht : p.turning) : p.issuePre env o rest = { p with
      pre := rest
      flight := .op (if o = .feed then feedOp env.settings.pageLength p.pageLine else o) p.preFor } := by
  unfold PrintUnit.issuePre
  rw [PrintUnit.before_turning ht]

theorem PrintSide.pre_run {env : PrintEnv} {x : PrintSide} {o : MechOp} {rest : List MechOp} (hp : x.placed)
    (hj : x.judged env) (hf : x.print.flight = .none) (hs : x.print.stalled = false)
    (ho : x.print.owedFeeds = 0) (hpre : x.print.pre = o :: rest) (k : Nat) :
    PrintSide.run env (k + 1) x = { x with print := x.print.issuePre env o rest } := by
  refine PrintSide.run_last ?_ ?_ k
  · rw [PrintSide.judged_step hp hj]
    simp [hf, PrintSide.issueNext, hs, ho, hpre]
  · have hactsx : x.print.holderActs = x.print.servesHolder x.print.preFor := by
      simp [PrintUnit.holderActs, hf, hpre]
    unfold PrintUnit.issuePre
    split
    · rename_i q hq
      obtain ⟨m, f, b, rfl, hne, hns⟩ := PrintUnit.before_rest hq
      exact hj.still hp rfl rfl rfl (PrintUnit.holderActs_quiet hf rfl hns) hne
    · refine hj.still hp rfl rfl rfl ?_ (by simp)
      rw [hactsx]
      show (x.print.servesHolder x.print.preFor || (!rest.isEmpty && x.print.servesHolder x.print.preFor)) = _
      cases x.print.servesHolder x.print.preFor <;> simp

/-- The line of another stream, or of none, is closed before the holder acts (R153). -/
theorem PrintSide.closeForeign_run {env : PrintEnv} {x : PrintSide} {st : Stream} {o : MechOp}
    {rest : List MechOp} (hp : x.placed) (hf : x.print.flight = .none) (hs : x.print.stalled = false)
    (ho : x.print.owedFeeds = 0) (hpre : x.print.pre = []) (hg : x.print.grantDue = false)
    (hh : x.print.holder = some st) (hw : x.waits env st = true) (hl : x.print.openLine = true)
    (how : x.print.owner ≠ some st) (hcl : closeOps x.print.column = o :: rest) (k : Nat) :
    PrintSide.run env (k + 2) x = { x with
      print := PrintUnit.issuePre { x.print with pre := o :: rest, preFor := .closing } env o rest } := by
  have hj : x.judged env := fun h => by rw [PrintSide.grantPoint_waits env x st hh hg hw] at h; cases h
  have hstep : x.step env = some { x with print := { x.print with pre := o :: rest, preFor := .closing } } := by
    obtain ⟨y, hy⟩ := Option.isSome_iff_exists.mp hw
    have hm : x.print.mustClose st = true := by simp [PrintUnit.mustClose, hl, how]
    rw [PrintSide.judged_step hp hj]
    simp [hf, PrintSide.issueNext, hs, ho, hpre, hh, PrintSide.holderTurn, hy, hm, PrintUnit.closeForeign, hcl]
  rw [PrintSide.run_succ hstep]
  refine PrintSide.pre_run (x := { x with print := { x.print with pre := o :: rest, preFor := .closing } })
    hp (fun h => ?_) hf hs ho rfl k
  have hgp := PrintSide.grantPoint_waits env
    { x with print := { x.print with pre := o :: rest, preFor := .closing } } st hh hg
    (PrintSide.waits_of_wants hw rfl)
  rw [hgp] at h
  cases h

/-! ### Who holds the printer meanwhile (R152) -/

/-- A holder other than the echo that has nothing left to act on gives the printer up, where nothing else waits
to no stream, and nothing is issued. -/
theorem PrintSide.free_run {env : PrintEnv} {x : PrintSide} {st : Stream} (hp : x.placed)
    (hf : x.print.flight = .none) (hs : x.print.stalled = false) (ho : x.print.owedFeeds = 0)
    (hpre : x.print.pre = []) (hh : x.print.holder = some st) (hst : st ≠ .echo)
    (hw : x.firstWaiting env = none) (k : Nat) : PrintSide.run env (k + 1) x
      = { x with print := { x.print with holder := none, grantDue := false, echoIdle := none } } := by
  have hstays : x.print.echoStays = false := by simp [PrintUnit.echoStays, hh, hst]
  have hgrant : x.judge env
      = { x with print := { x.print with holder := none, grantDue := false, echoIdle := none } } := by
    simp [PrintSide.judge, hstays, PrintSide.grant, hw]
  have hg : x.grantPoint env = true := by
    simp [PrintSide.grantPoint, PrintSide.grantArises, PrintUnit.holderActs, hf, hpre, hh, hstays,
      PrintSide.firstWaiting_none hw]
  refine PrintSide.run_last (y := { x with
    print := { x.print with holder := none, grantDue := false, echoIdle := none } }) ?_ ?_ k
  · rw [PrintSide.step_placed env x hp, if_pos ⟨hg, hs⟩, hgrant]
  · have hz := x.judge_grantPoint env
    rw [hgrant] at hz
    have hj : PrintSide.judged env { x with
        print := { x.print with holder := none, grantDue := false, echoIdle := none } } :=
      fun h => absurd (hz.symm.trans h) (by simp)
    refine (PrintSide.judged_step ?_ hj).trans ?_
    · exact hp
    · simp [hf, PrintSide.issueNext, hs, ho, hpre]

/-- With a holder that stays a grant point finds no holder, and no stream to grant the printer to. -/
theorem State.holderStays.granted {s : State} (h : s.holderStays)
    (hg : s.printSide.grantPoint s.printEnv = true) :
    s.print.holder = none ∧ s.printSide.firstWaiting s.printEnv = none := by
  rcases h with h | ⟨st, hh, ⟨hpre, b, hfor⟩ | ⟨hd, hw⟩⟩
  · exact h
  · have hacts : s.printSide.print.holderActs = true := by
      have hpre : s.printSide.print.pre ≠ [] := hpre
      have hfor : s.printSide.print.preFor = .stream st b := hfor
      have hh : s.printSide.print.holder = some st := hh
      simp [PrintUnit.holderActs, PrintUnit.servesHolder, hpre, hfor, hh]
    simp [PrintSide.grantPoint, hacts] at hg
  · rw [PrintSide.grantPoint_waits s.printEnv s.printSide st hh hd hw] at hg
    cases hg

/-- An echo that does not keep the printer is not interjected: judging grants. -/
theorem PrintSide.judge_grant {env : PrintEnv} {x : PrintSide} (h : x.print.echoStays = false) :
    x.judge env = x.grant env := by
  simp [PrintSide.judge, h]

end Sys2Proof.Machine
end

section
/-! SUPPORT. What settling leaves of each stream in its turn. -/
namespace Sys2Proof.Machine

/-! ### The echo's items -/

section echo

variable {s : State} {c d : Code} {rest : List EchoItem}

/-- The print side with the echo in its turn and the head item taken, in the case it leaves. -/
def State.echoTook (s : State) (rest : List EchoItem) (cs : PrintCase) (ei : Option Nat) : PrintSide :=
  { s.inTurn .echo ei with print := (s.inTurn .echo ei).print.tookItem rest cs }

theorem State.echoTook_stands (s : State) (rest : List EchoItem) (cs : PrintCase) (ei : Option Nat) :
    (s.echoTook rest cs ei).stands (s.inTurn .echo ei) := ⟨id, rfl⟩

theorem PrintUnit.atItem.inTurn {i : EchoItem} (h : s.print.atItem i rest) (ei : Option Nat) :
    (s.inTurn .echo ei).print.atItem i rest := ⟨h.script, h.reprint, h.saved, h.kept, h.fifo⟩

theorem State.act_echoOp {o : MechOp} (h : s.print.atItem (.code c) rest)
    (ha : codeAct c s.print.echoCase = .op o) (ei : Option Nat) :
    (s.inTurn .echo ei).act s.printEnv .echo = some ((s.inTurn .echo ei).issue s.printEnv .echo true o
      (s.echoTook rest (codeCase s.panel.settings.unshiftOnSpace c s.print.echoCase) ei)) :=
  PrintSide.act_echoOp (h.inTurn ei) ha

/-- The print side with the head item taken and this many rings given on the way. -/
def State.echoRang (s : State) (rest : List EchoItem) (cs : PrintCase) (n : Nat) (ei : Option Nat) : PrintSide :=
  { s.echoTook rest cs ei with bell := s.bell + n }

/-- Behind a shift, blank or bell the glyph of the next code is issued at once (R4). -/
theorem State.printTurn.echoQuiet (h : s.printTurn .echo) (ht : s.print.turning)
    (hcol : s.print.column ≤ s.panel.settings.width) (hi : s.print.atItem (.code c) (.code d :: rest))
    (hq : c.val = 0 ∨ c.val = 30 ∨ c.val = 31 ∨ c.val = 25 ∧ s.print.echoCase = .figures) {cs : PrintCase}
    (hcs : cs = if c.val = 30 then .figures else if c.val = 31 then .letters else s.print.echoCase)
    (h4 : 4 ≤ d.val) (h29 : d.val ≤ 29) (hd : ¬ (d.val = 25 ∧ cs = .figures)) :
    s.settle.print.echoFifo = rest ∧ s.settle.print.echoCase = cs ∧
    s.settle.print.flight = .op (.glyph (if cs = .letters then d.val - 4 else d.val + 22)) (.stream .echo true) ∧
    s.settle.bell = s.bell + if c.val = 25 then 1 else 0 := by
  have hquiet : ∀ ei, (s.inTurn .echo ei).act s.printEnv .echo
      = some (s.echoRang (.code d :: rest) cs (if c.val = 25 then 1 else 0) ei) :=
    fun ei => hcs ▸ PrintSide.act_echoQuiet (hi.inTurn ei) hq
  generalize (if c.val = 25 then 1 else 0) = n at hquiet ⊢
  have hop : ∀ ei, (s.echoRang (.code d :: rest) cs n ei).act s.printEnv .echo
      = some ((s.echoRang (.code d :: rest) cs n ei).issue s.printEnv .echo true
        (.glyph (if cs = .letters then d.val - 4 else d.val + 22))
        (s.echoRang rest (codeCase s.panel.settings.unshiftOnSpace d cs) n ei)) :=
    fun ei => PrintSide.act_echoOp ⟨hi.script, hi.reprint, hi.saved, hi.kept, rfl⟩ (codeAct_glyph h4 h29 hd)
  obtain ⟨ei, hp, hb, -⟩ := h.thenIssues ht (fun _ => hcol) hquiet hop (fun _ => ⟨id, rfl⟩)
    (fun _ => ⟨id, rfl⟩)
  rw [hp, hb]
  exact ⟨rfl, codeCase_glyph h4 h29, rfl, rfl⟩

/-- A code that strikes: behind the motor start and R168's carriage return, in the FIFO until its operation is
issued, and behind a wrap at the column behind the last (R4, R147; log 47). -/
theorem State.printTurn.echoStrike (h : s.printTurn .echo) (hi : s.print.atItem (.code c) rest)
    (h4 : 4 ≤ c.val) (h29 : c.val ≤ 29) (hb : ¬ (c.val = 25 ∧ s.print.echoCase = .figures)) :
    (s.print.motor = .off → s.settle.print.flight = .motorStart ∧ s.settle.print.motor = .starting ∧
      s.settle.print.echoFifo = .code c :: rest) ∧
    (s.print.motor = .running → s.print.firstCR = true → s.settle.print.flight = .op .cr .initial ∧
      s.settle.print.firstCR = false ∧ s.settle.print.echoFifo = .code c :: rest) ∧
    (s.print.turning → s.print.column ≤ s.panel.settings.width →
      s.settle.print.flight = .op (.glyph (if s.print.echoCase = .letters then c.val - 4 else c.val + 22))
        (.stream .echo true) ∧
      s.settle.print.echoFifo = rest ∧ s.settle.print.echoCase = s.print.echoCase) ∧
    (s.print.turning → s.print.column = s.panel.settings.width + 1 →
      s.settle.print.flight = .op .cr (.stream .echo false) ∧ s.settle.print.pre = [.feed] ∧
      s.settle.print.echoFifo = .code c :: rest) := by
  have ha := State.act_echoOp hi (codeAct_glyph h4 h29 hb)
  refine ⟨fun hm => ?_, fun hm hc => ?_, fun ht hcol => ?_, fun ht hcol => ?_⟩
  · obtain ⟨ei, hp, -⟩ := h.startsMotor (by simp [hm]) ha
    rw [hp]
    exact ⟨rfl, rfl, hi.fifo⟩
  · obtain ⟨ei, hp, -⟩ := h.returnsFirst hm hc ha
    rw [hp]
    exact ⟨rfl, rfl, hi.fifo⟩
  · obtain ⟨ei, hp, -⟩ := h.issues ht (fun _ => hcol) ha (s.echoTook_stands _ _)
    rw [hp]
    exact ⟨rfl, rfl, codeCase_glyph h4 h29⟩
  · obtain ⟨ei, hp, -⟩ := h.wraps ht rfl (Nat.le_of_eq hcol.symm) ha (s.echoTook_stands _ _)
    rw [hp]
    exact ⟨rfl, rfl, hi.fifo⟩

/-- A space is issued, or dropped by the wrap it causes, and changes the case under unshift-on-space (R4, R147). -/
theorem State.printTurn.echoSpace (h : s.printTurn .echo) (ht : s.print.turning)
    (hi : s.print.atItem (.code c) rest) (h1 : c.val = 1) :
    (s.print.column ≤ s.panel.settings.width →
      s.settle.print.flight = .op .space (.stream .echo true) ∧ s.settle.print.echoFifo = rest) ∧
    (s.print.column = s.panel.settings.width + 1 →
      s.settle.print.flight = .op .cr (.stream .echo false) ∧ s.settle.print.pre = [.feed] ∧
      s.settle.print.echoFifo = rest) ∧
    s.settle.print.echoCase = if s.panel.settings.unshiftOnSpace then .letters else s.print.echoCase := by
  have ha := State.act_echoOp hi (codeAct_space s.print.echoCase h1)
  have hcase := codeCase_space (u := s.panel.settings.unshiftOnSpace) (cs := s.print.echoCase) h1
  rcases Nat.lt_or_ge s.panel.settings.width s.print.column with hw | hw
  · obtain ⟨ei, hp, -⟩ := h.wraps ht rfl hw ha (s.echoTook_stands _ _)
    rw [hp]
    exact ⟨fun _ => by omega, fun _ => ⟨rfl, rfl, rfl⟩, hcase⟩
  · obtain ⟨ei, hp, -⟩ := h.issues ht (fun _ => hw) ha (s.echoTook_stands _ _)
    rw [hp]
    exact ⟨fun _ => ⟨rfl, rfl⟩, fun _ => by omega, hcase⟩

/-- A carriage return or line feed is issued at whatever column (log 52), a feed at the page's end as a page. -/
theorem State.printTurn.echoLineEnd {o : MechOp} (h : s.printTurn .echo) (ht : s.print.turning)
    (hi : s.print.atItem (.code c) rest) (ha : codeAct c s.print.echoCase = .op o) (ho : strikes o = false) :
    s.settle.print.flight = .op (s.opHere o) (.stream .echo true) ∧ s.settle.print.echoFifo = rest := by
  obtain ⟨ei, hp, -⟩ := h.issues ht (by simp [ho]) (State.act_echoOp hi ha) (s.echoTook_stands _ _)
  rw [hp]
  exact ⟨rfl, rfl⟩

/-- The erase mark is struck, and leaves the case it carries (R11, R155). -/
theorem State.printTurn.echoErase {cs : PrintCase} (h : s.printTurn .echo) (ht : s.print.turning)
    (hcol : s.print.column ≤ s.panel.settings.width) (hi : s.print.atItem (.eraseMarker cs) rest) :
    s.settle.print.echoFifo = rest ∧ s.settle.print.flight = .op (.glyph 52) (.stream .echo true) ∧
      s.settle.print.echoCase = cs := by
  obtain ⟨ei, hp, -⟩ := h.issues ht (fun _ => hcol) (fun ei => PrintSide.act_echoErase (hi.inTurn ei))
    (s.echoTook_stands rest cs)
  rw [hp]
  exact ⟨rfl, rfl, rfl⟩

end echo

/-! ### Line ends and markers of the operation under way -/

theorem closeOps_above {column : Nat} (h : 1 < column) : closeOps column = [.cr, .feed] := if_pos h

theorem closeOps_one {column : Nat} (h : column = 1) : closeOps column = [.feed] := by
  subst h
  rfl

/-- The line of an item that asks for one begins on a closed line; an open line is closed first, and the item
stays. -/
theorem State.printTurn.echoMarker {s : State} {i : EchoItem} {rest : List EchoItem} {text : List Elem}
    (h : s.printTurn .echo) (ht : s.print.turning) (hcol : s.print.column ≤ s.panel.settings.width)
    (hi : s.print.atItem i rest) (hm : markerText i text) :
    (s.print.openLine = false → s.settle.print.begun .echo s.settle.print.echoScript text ∧
      s.settle.print.echoFifo = rest) ∧
    (s.print.openLine = true → s.settle.print.echoFifo = i :: rest ∧
      (1 < s.print.column → s.settle.print.pre = [.feed] ∧
        s.settle.print.flight = .op .cr (.stream .echo false)) ∧
      (s.print.column = 1 → s.settle.print.pre = [] ∧
        s.settle.print.flight = .op s.feedHere (.stream .echo false))) := by
  have ha : ∀ ei, (s.inTurn .echo ei).act s.printEnv .echo = some ((s.inTurn .echo ei).beginLine .echo
      ((s.echoTook rest s.print.echoCase ei).withScript .echo (generated text))) :=
    fun ei => PrintSide.act_echoMarker (hi.inTurn ei) hm
  refine ⟨fun ho => ?_, fun ho => ⟨?_, fun hc => ?_, fun hc => ?_⟩⟩
  · obtain ⟨g, tail, ei, rfl, hp, -⟩ := h.beginsText ht hcol ho (struckFirst_marker hm) ha
      (fun _ => ⟨id, rfl⟩) fun _ => rfl
    rw [hp]
    exact ⟨⟨g, tail, rfl, rfl, rfl⟩, rfl⟩
  · obtain ⟨o, tail, hcl⟩ := List.exists_cons_of_ne_nil (closeOps_ne_nil s.print.column)
    obtain ⟨ei, hp, -⟩ := h.closes ht ho hcl ha
    rw [hp]
    exact hi.fifo
  · obtain ⟨ei, hp, -⟩ := h.closes ht ho (closeOps_above hc) ha
    rw [hp]
    exact ⟨rfl, rfl⟩
  · obtain ⟨ei, hp, -⟩ := h.closes ht ho (closeOps_one hc) ha
    rw [hp]
    exact ⟨rfl, rfl⟩

/-- ECHO LOST is printed before the FIFO goes on, which stays as it is; an open line is closed first (R139, R155). -/
theorem State.printTurn.echoLostLine {s : State} (h : s.printTurn .echo) (ht : s.print.turning)
    (hcol : s.print.column ≤ s.panel.settings.width) (hs : s.print.echoScript = []) (hr : s.print.reprint = [])
    (hv : s.print.saved = none) (hl : s.print.echoLost = true) (hf : s.print.echoFifo ≠ []) :
    s.settle.print.echoFifo = s.print.echoFifo ∧
    (s.print.openLine = false → s.settle.print.echoLost = false ∧
      s.settle.print.begun .echo s.settle.print.echoScript (words "ECHO LOST")) ∧
    (s.print.openLine = true → 1 < s.print.column → s.settle.print.echoLost = true ∧
      s.settle.print.pre = [.feed] ∧ s.settle.print.flight = .op .cr (.stream .echo false)) := by
  have ha := fun ei => PrintSide.act_echoLost (env := s.printEnv) (x := s.inTurn .echo ei) hs hr hv hl hf
  cases ho : s.print.openLine with
  | false =>
    obtain ⟨g, tail, ei, htext, hp, -⟩ := h.beginsText ht hcol ho ⟨_, _, rfl⟩ ha (fun _ => ⟨id, rfl⟩)
      fun _ => rfl
    rw [hp]
    exact ⟨rfl, fun _ => ⟨rfl, g, tail, htext, rfl, rfl⟩, nofun⟩
  | true =>
    obtain ⟨o, tail, hcl⟩ := List.exists_cons_of_ne_nil (closeOps_ne_nil s.print.column)
    obtain ⟨ei, hp, -⟩ := h.closes ht ho hcl ha
    refine ⟨by rw [hp]; rfl, nofun, fun _ hc => ?_⟩
    obtain ⟨ei, hp, -⟩ := h.closes ht ho (closeOps_above hc) ha
    rw [hp]
    exact ⟨hl, rfl, rfl⟩

/-! ### The generated lines under way -/

/-- The next element of a line begun, with its bell before it when there is one, is issued. -/
theorem State.printTurn.element {s : State} {st : Stream} {e : Elem} {o : MechOp} {rest : List Elem}
    (h : s.printTurn st) (ht : s.print.turning) (ho : e.asks = some o)
    (hw : strikes o = true → s.print.column ≤ s.panel.settings.width) :
    (s.scriptOf st = e :: rest → s.settle.print.flight = .op (s.opHere o) (.stream st false) ∧
      s.settle.scriptOf st = rest ∧ s.settle.bell = s.bell) ∧
    (s.scriptOf st = .bell :: e :: rest → s.settle.print.flight = .op (s.opHere o) (.stream st false) ∧
      s.settle.scriptOf st = rest ∧ s.settle.bell = s.bell + 1) := by
  refine ⟨fun hs => ?_, fun hs => ?_⟩
  · have hs' : ∀ ei, (s.inTurn st ei).scriptOf st = e :: rest := fun ei => (s.scriptOf_inTurn st ei).trans hs
    obtain ⟨ei, hto⟩ := h.issues ht hw (fun ei => PrintSide.act_asks (hs' ei) ho)
      fun ei => (s.inTurn st ei).withScript_stands st rest
    rw [hto.scriptOf, hto.1, hto.2.1, PrintSide.issuing_scriptOf,
      PrintSide.scriptOf_withScript (by rw [hs' ei]; simp)]
    exact ⟨rfl, rfl, PrintSide.withScript_bell _ _ _⟩
  · have hs' : ∀ ei, (s.inTurn st ei).scriptOf st = .bell :: e :: rest :=
      fun ei => (s.scriptOf_inTurn st ei).trans hs
    have hrang : ∀ ei, ((s.inTurn st ei).rang st (e :: rest)).scriptOf st = e :: rest := fun ei => by
      rw [PrintSide.rang_scriptOf, PrintSide.scriptOf_withScript (by rw [hs' ei]; simp)]
    obtain ⟨ei, hto⟩ := h.thenIssues ht hw (fun ei => PrintSide.act_bell (hs' ei))
      (fun ei => PrintSide.act_asks (hrang ei) ho) (fun ei => (s.inTurn st ei).rang_stands st (e :: rest))
      fun ei => PrintSide.withScript_stands _ st rest
    rw [hto.scriptOf, hto.1, hto.2.1, PrintSide.issuing_scriptOf,
      PrintSide.scriptOf_withScript (by rw [hrang ei]; simp)]
    exact ⟨rfl, rfl, PrintSide.withScript_bell _ _ _⟩

/-- A strike of a line begun behind the last column gives a wrap, which drops a space (R147; log 15). -/
theorem State.printTurn.elementWraps {s : State} {st : Stream} {k : Strike} {rest : List Elem}
    (h : s.printTurn st) (ht : s.print.turning) (hcol : s.print.column = s.panel.settings.width + 1)
    (hs : s.scriptOf st = .strike k :: rest) : s.settle.print.flight = .op .cr (.stream st false) ∧
      s.settle.print.pre = [.feed] ∧
      s.settle.scriptOf st = if k = .space then rest else .strike k :: rest := by
  have hs' : ∀ ei, (s.inTurn st ei).scriptOf st = .strike k :: rest :=
    fun ei => (s.scriptOf_inTurn st ei).trans hs
  obtain ⟨ei, hto⟩ := h.wraps ht (o := strikeOp k) (by cases k <;> rfl) (Nat.le_of_eq hcol.symm)
    (fun ei => PrintSide.act_asks (hs' ei) rfl) fun ei => (s.inTurn st ei).withScript_stands st rest
  rw [hto.scriptOf, hto.1]
  refine ⟨rfl, rfl, ?_⟩
  rw [PrintSide.wrapping_scriptOf]
  cases k with
  | glyph n => exact hs' ei
  | space => exact PrintSide.scriptOf_withScript (by rw [hs' ei]; simp) rest

/-- With the motor OFF an element other than a bell gives the motor start, and the line stays as it is (R145). -/
theorem State.printTurn.elementStarts {s : State} {st : Stream} {e : Elem} {rest : List Elem}
    (h : s.printTurn st) (hm : s.print.motor = .off) (he : e ≠ .bell) (hs : s.scriptOf st = e :: rest) :
    s.settle.print.flight = .motorStart ∧ s.settle.print.motor = .starting ∧
      s.settle.scriptOf st = e :: rest := by
  have hs' : ∀ ei, (s.inTurn st ei).scriptOf st = e :: rest := fun ei => (s.scriptOf_inTurn st ei).trans hs
  obtain ⟨o, ho⟩ : ∃ o, e.asks = some o := by
    cases e with
    | bell => exact absurd rfl he
    | strike k => exact ⟨_, rfl⟩
    | cr => exact ⟨_, rfl⟩
    | feed => exact ⟨_, rfl⟩
  obtain ⟨ei, hto⟩ := h.startsMotor (by simp [hm]) fun ei => PrintSide.act_asks (hs' ei) ho
  rw [hto.scriptOf, hto.1]
  refine ⟨rfl, rfl, ?_⟩
  rw [← hs' ei]
  cases st <;> rfl

/-! ### The rest of a wrap or closing, and feeds owed -/

section pending

variable {s : State}

/-- With a holder that stays, or no echo to interject, the rest of a wrap or closing comes next. -/
theorem State.settlesTo_pre {o : MechOp} {rest : List MechOp} (hl : s.panel.phase = .done)
    (hf : s.print.flight = .none) (hs : s.print.stalled = false) (ho : s.print.owedFeeds = 0)
    (hp : s.copyPlaced) (hpre : s.print.pre = o :: rest)
    (hst : s.holderStays ∨
      ¬ (s.print.holder = some .echo ∧ s.print.openLine = true ∧ s.print.owner = some .echo)) :
    ∃ hd g ei, s.settlesTo { s.printSide with
      print := PrintUnit.issuePre { s.print with holder := hd, grantDue := g, echoIdle := ei }
        s.printEnv o rest } := by
  obtain ⟨z, k, hj, hrun, hz⟩ := PrintSide.judged_run s.printEnv s.printSide hp
  have hz : ∃ hd g ei, z = { s.printSide with
      print := { s.print with holder := hd, grantDue := g, echoIdle := ei } } := by
    rcases hz with rfl | ⟨-, hg, rfl⟩ | ⟨hst', -⟩
    · exact ⟨_, _, _, rfl⟩
    · have hstays : s.print.echoStays = false := by
        rcases hst with hst | hst
        · obtain ⟨hh, -⟩ := hst.granted hg
          simp [PrintUnit.echoStays, hh]
        · simpa [PrintUnit.echoStays, PrintUnit.echoKeeps] using hst
      rw [PrintSide.judge_grant hstays]
      exact ⟨_, _, _, rfl⟩
    · rw [show s.printSide.print.stalled = false from hs] at hst'
      cases hst'
  obtain ⟨hd, g, ei, rfl⟩ := hz
  refine ⟨hd, g, ei, State.settlesTo_run hl (hrun.trans (PrintSide.pre_run ?_ hj hf hs ho hpre (k + 1)))⟩
  exact hp

/-- A feed owed to PAPER FEED comes first, in the stall that of the stall's own PAPER FEED alone (R165, R166). -/
theorem State.settlesTo_owed (hl : s.panel.phase = .done) (hf : s.print.flight = .none) (hp : s.copyPlaced)
    (ho : s.print.stalled = false ∧ 0 < s.print.owedFeeds ∨
      s.print.stalled = true ∧ s.print.stallFeed = true ∧ s.print.paperPresent = true) :
    ∃ hd g ei sv pr pf b, s.settlesTo { s.printSide with print := { s.print with
        motor := if s.print.motor ≠ .running then .starting else .running
        flight := s.print.owedFlight s.printEnv, firstCR := b
        holder := hd, grantDue := g, echoIdle := ei, saved := sv, pre := pr, preFor := pf } } ∧
      (s.print.stalled = true ∨ s.holderStays → hd = s.print.holder) := by
  obtain ⟨z, k, hj, hrun, hz⟩ := PrintSide.judged_run s.printEnv s.printSide hp
  have hz : ∃ hd g ei sv pr pf, z = { s.printSide with print := { s.print with
        holder := hd, grantDue := g, echoIdle := ei, saved := sv, pre := pr, preFor := pf } } ∧
      (s.print.stalled = true ∨ s.holderStays → hd = s.print.holder) := by
    rcases hz with rfl | ⟨hst, hg, rfl⟩ | ⟨-, rfl⟩
    · exact ⟨_, _, _, _, _, _, rfl, fun _ => rfl⟩
    · obtain ⟨hd, g, ei, sv, pr, pf, he⟩ := s.printSide.judge_rest s.printEnv
      refine ⟨hd, g, ei, sv, pr, pf, he, ?_⟩
      rintro (hs | hstays)
      · rw [show s.print.stalled = false from hst] at hs
        cases hs
      · obtain ⟨hh, hw⟩ := hstays.granted hg
        have hstays' : s.printSide.print.echoStays = false := by
          rw [PrintUnit.echoStays, show s.printSide.print.holder = none from hh]
          rfl
        rw [PrintSide.judge_grant hstays'] at he
        exact (congrArg (fun x => x.print.holder) he).symm.trans (hw.trans hh.symm)
    · exact ⟨_, _, _, _, _, _, rfl, fun _ => rfl⟩
  obtain ⟨hd, g, ei, sv, pr, pf, rfl, hh⟩ := hz
  obtain ⟨b, hb⟩ := PrintUnit.issueOwed_eq { s.print with
    holder := hd, grantDue := g, echoIdle := ei, saved := sv, pre := pr, preFor := pf } s.printEnv
  refine ⟨hd, g, ei, sv, pr, pf, b,
    State.settlesTo_run hl (hrun.trans ((PrintSide.owed_run ?_ hj hf ho (k + 1)).trans ?_)), hh⟩
  · exact hp
  · exact congrArg (fun p => ({ s.printSide with print := p } : PrintSide)) hb

end pending

end Sys2Proof.Machine
end

section
/-! SUPPORT. The store copy's beginning and end as settling leaves them (R159 to R161). -/
namespace Sys2Proof.Machine

/-! ### The copy queue of the printer -/

theorem Store.reclaim_printQ (k : Nat) (st : Store) : (Store.reclaim k st).printQ = st.printQ := by
  induction k generalizing st with
  | zero => rfl
  | succ k ih =>
    unfold Store.reclaim
    split
    · rw [ih]; rfl
    · rfl

/-- What a removed PRINT obligation leaves of the print queue (R62). -/
theorem Store.removeObligation_printQ (st : Store) (slot : Nat) :
    (st.removeObligation .print slot).printQ = st.printQ.filter fun x => x != slot := by
  unfold Store.removeObligation Store.freeIfDone
  split
  · rfl
  · split
    · rw [Store.reclaim_printQ, Store.spend_rest]; rfl
    · rfl

/-! ### The beginning of a copy -/

section copy

variable {s : State} {c : CopyPos} {e : Entry}

/-- The print side with the copy in its turn at this position, and this many rings given on the way. -/
def State.copyMoved (s : State) (c : CopyPos) (n : Nat) (ei : Option Nat) : PrintSide :=
  { (s.inTurn .copy ei).withCopy c with bell := s.bell + n }

theorem State.copyMoved_stands (s : State) (c : CopyPos) (n : Nat) (ei : Option Nat) :
    (s.copyMoved c n ei).stands (s.inTurn .copy ei) := ⟨fun _ => .inl rfl, rfl⟩

section text

variable {n : Nat} {code : Code}

/-- What stands in a copy's text phase at a block of its entry (R160). -/
structure State.copyInText (s : State) (c : CopyPos) (e : Entry) (n : Nat) : Prop where
  copy : s.print.copy = some c
  script : c.script = []
  phase : c.phase = .text
  entry : s.store.entry c.entry = some e
  block : e.chain[c.block]? = some n

theorem State.copyInText.at (h : s.copyInText c e n) (ei : Option Nat) : (s.inTurn .copy ei).copyAt c .text :=
  ⟨h.copy, h.script, h.phase⟩

/-- A code that strikes is issued, and behind the last column its wrap, with the copy's place as it was. -/
theorem State.printTurn.copyStrike (h : s.printTurn .copy) (ht : s.print.turning) (hc : s.copyInText c e n)
    (hg : (s.store.block n).gap = 0 ∨ c.gapDone = true) (hcode : (s.store.block n).codes[c.code]? = some code)
    (h4 : 4 ≤ code.val) (h29 : code.val ≤ 29) (hb : ¬ (code.val = 25 ∧ c.case = .figures)) :
    (s.print.column ≤ s.panel.settings.width →
      s.settle.print.flight = .op (.glyph (if c.case = .letters then code.val - 4 else code.val + 22))
        (.stream .copy false) ∧
      s.settle.print.copy = some { c with code := c.code + 1 }) ∧
    (s.print.column = s.panel.settings.width + 1 → s.settle.print.flight = .op .cr (.stream .copy false) ∧
      s.settle.print.pre = [.feed] ∧ s.settle.print.copy = some c) := by
  have ha := fun ei => PrintSide.act_copyGlyph (env := s.printEnv) (hc.at ei) hc.entry hc.block hg hcode h4 h29 hb
  refine ⟨fun hcol => ?_, fun hcol => ?_⟩
  · obtain ⟨ei, hp, -⟩ := h.issues ht (fun _ => hcol) ha fun _ => PrintSide.withCopy_stands _ _
    rw [hp]
    exact ⟨rfl, rfl⟩
  · obtain ⟨ei, hp, -⟩ := h.wraps ht rfl (Nat.le_of_eq hcol.symm) ha fun _ => PrintSide.withCopy_stands _ _
    rw [hp]
    exact ⟨rfl, rfl, hc.copy⟩

/-- A space, carriage return or line feed is issued; only a space needs a column (R4; log 52). -/
theorem State.printTurn.copyFormat (h : s.printTurn .copy) (ht : s.print.turning) (hc : s.copyInText c e n)
    (hg : (s.store.block n).gap = 0 ∨ c.gapDone = true) (hcode : (s.store.block n).codes[c.code]? = some code)
    (h1 : 1 ≤ code.val) (h3 : code.val ≤ 3)
    (hcol : code.val = 1 → s.print.column ≤ s.panel.settings.width) :
    s.settle.print.flight = .op (s.opHere (formatOp code)) (.stream .copy false) ∧
    s.settle.print.copy = some { c with code := c.code + 1, case :=
      if code.val = 1 ∧ s.panel.settings.unshiftOnSpace = true then .letters else c.case } := by
  have hw : strikes (formatOp code) = true → s.print.column ≤ s.panel.settings.width := by
    intro ho
    by_cases hs : code.val = 1
    · exact hcol hs
    · rw [formatOp, if_neg hs] at ho
      split at ho <;> cases ho
  obtain ⟨ei, hp, -⟩ := h.issues ht hw (fun ei => PrintSide.act_copyOp (env := s.printEnv) (hc.at ei) hc.entry
    hc.block hg hcode (codeAct_format _ h1 h3)) fun _ => PrintSide.withCopy_stands _ _
  rw [hp, ← codeCase_format h1 h3]
  exact ⟨rfl, rfl⟩

/-- A space behind the last column is dropped by the wrap it causes (R147). -/
theorem State.printTurn.copySpaceWraps (h : s.printTurn .copy) (ht : s.print.turning) (hc : s.copyInText c e n)
    (hg : (s.store.block n).gap = 0 ∨ c.gapDone = true) (hcode : (s.store.block n).codes[c.code]? = some code)
    (h1 : code.val = 1) (hcol : s.print.column = s.panel.settings.width + 1) :
    s.settle.print.flight = .op .cr (.stream .copy false) ∧ s.settle.print.pre = [.feed] ∧
    s.settle.print.copy = some { c with code := c.code + 1, case :=
      if s.panel.settings.unshiftOnSpace = true then .letters else c.case } := by
  obtain ⟨ei, hp, -⟩ := h.wraps ht rfl (Nat.le_of_eq hcol.symm) (fun ei => PrintSide.act_copyOp
    (env := s.printEnv) (hc.at ei) hc.entry hc.block hg hcode (codeAct_space _ h1))
    fun _ => PrintSide.withCopy_stands _ _
  rw [hp, ← codeCase_space h1]
  exact ⟨rfl, rfl, rfl⟩

/-- A block's gap line begins with the gap bar, in letters case (R6, R160). -/
theorem State.printTurn.copyGap (h : s.printTurn .copy) (ht : s.print.turning)
    (hcol : s.print.column ≤ s.panel.settings.width) (ho : s.print.openLine = false) (hc : s.copyInText c e n)
    (hg : 0 < (s.store.block n).gap) (hd : c.gapDone = false) :
    s.settle.print.flight = .op (.glyph gapBar) (.stream .copy false) ∧
    s.settle.print.copy = some { c with gapDone := true, case := .letters
                                        script := (generated (gapText (s.store.block n).gap)).tail } := by
  obtain ⟨ei, hp, -⟩ := h.begins ht hcol ho (g := gapBar)
    (rest := (generated (gapText (s.store.block n).gap)).tail)
    (fun ei => PrintSide.act_copyGap (env := s.printEnv) (hc.at ei) hc.entry hc.block hg hd)
    (fun _ => PrintSide.withCopy_stands _ _) fun _ => rfl
  rw [hp]
  exact ⟨rfl, rfl⟩

/-- Behind a shift, blank or bell the glyph of the copy's next code is issued at once (R4). -/
theorem State.printTurn.copyQuiet {d : Code} {cs : PrintCase} (h : s.printTurn .copy) (ht : s.print.turning)
    (hcol : s.print.column ≤ s.panel.settings.width) (hc : s.copyInText c e n)
    (hg : (s.store.block n).gap = 0 ∨ c.gapDone = true)
    (hcode : (s.store.block n).codes[c.code]? = some code) (hd : (s.store.block n).codes[c.code + 1]? = some d)
    (h4 : 4 ≤ d.val) (h29 : d.val ≤ 29) (hb : ¬ (d.val = 25 ∧ cs = .figures))
    (hq : code.val = 0 ∨ code.val = 30 ∨ code.val = 31 ∨ code.val = 25 ∧ c.case = .figures)
    (hcs : cs = if code.val = 30 then .figures else if code.val = 31 then .letters else c.case) :
    s.settle.print.flight = .op (.glyph (if cs = .letters then d.val - 4 else d.val + 22)) (.stream .copy false) ∧
    s.settle.print.copy = some { c with code := c.code + 2, case := cs } ∧
    s.settle.bell = s.bell + if code.val = 25 then 1 else 0 := by
  have hquiet : ∀ ei, (s.inTurn .copy ei).act s.printEnv .copy
      = some (s.copyMoved { c with code := c.code + 1, case := cs } (if code.val = 25 then 1 else 0) ei) :=
    fun ei => hcs ▸ PrintSide.act_copyQuiet (x := s.inTurn .copy ei) (hc.at ei) hc.entry hc.block hg hcode hq
  generalize (if code.val = 25 then 1 else 0) = k at hquiet ⊢
  have hop : ∀ ei, (s.copyMoved { c with code := c.code + 1, case := cs } k ei).act s.printEnv .copy
      = some ((s.copyMoved { c with code := c.code + 1, case := cs } k ei).issue s.printEnv .copy false
        (.glyph (if cs = .letters then d.val - 4 else d.val + 22))
        (s.copyMoved { c with code := c.code + 2, case := cs } k ei)) :=
    fun ei => PrintSide.act_copyGlyph (c := { c with code := c.code + 1, case := cs }) ⟨rfl, hc.script, hc.phase⟩
      hc.entry hc.block hg hd h4 h29 hb
  obtain ⟨ei, hp, hbell, -⟩ := h.thenIssues ht (fun _ => hcol) hquiet hop (s.copyMoved_stands _ _)
    fun _ => ⟨fun _ => .inl rfl, rfl⟩
  rw [hp, hbell]
  exact ⟨rfl, rfl, rfl⟩

end text

/-- The reception bell, and the phase that follows it (R159). -/
theorem State.act_copyBell (hc : s.print.copy = some c) (hs : c.script = []) (hp : c.phase = .bell)
    (ei : Option Nat) : (s.inTurn .copy ei).act s.printEnv .copy = some (s.copyMoved
      { c with phase := (s.inTurn .copy ei).afterBell s.printEnv } (if s.panel.attended then 1 else 0) ei) :=
  PrintSide.act_copyBell ⟨hc, hs, hp⟩

/-- Whether page-per-message asks for a page at a copy's beginning (R149, R159). -/
theorem State.pageAsked_iff (s : State) (ei : Option Nat) :
    (s.inTurn .copy ei).pageAsked s.printEnv = true ↔ s.panel.settings.pagePerMessage = true ∧
      s.panel.settings.pageLength ≠ 0 ∧ s.print.pageLine ≠ 1 := by
  simp [PrintSide.pageAsked, State.inTurn, State.printEnv, and_assoc]

theorem State.pageAsked_not (s : State) (h : s.panel.settings.pagePerMessage = false ∨
    s.panel.settings.pageLength = 0 ∨ s.print.pageLine = 1) (ei : Option Nat) :
    (s.inTurn .copy ei).pageAsked s.printEnv = false := by
  rw [← Bool.not_eq_true, State.pageAsked_iff]
  rintro ⟨hpm, hpl, hline⟩
  rcases h with h | h | h
  · rw [h] at hpm; cases hpm
  · exact hpl h
  · exact hline h

/-- Behind the reception bell comes the page that page-per-message asks for (R159). -/
theorem State.printTurn.bellPage (h : s.printTurn .copy) (ht : s.print.turning) (hc : s.print.copy = some c)
    (hs : c.script = []) (hp : c.phase = .bell) (ha : s.panel.settings.pagePerMessage = true ∧
      s.panel.settings.pageLength ≠ 0 ∧ s.print.pageLine ≠ 1) :
    ∃ ei, s.settlesTo ((s.copyMoved { c with
      phase := if s.panel.settings.banner then .banner else .text } (if s.panel.attended then 1 else 0)
      ei).issuing .page .copy false) := by
  have hask := fun ei => (s.pageAsked_iff ei).mpr ha
  have hbell : ∀ ei, (s.inTurn .copy ei).act s.printEnv .copy = some (s.copyMoved { c with phase := .page }
      (if s.panel.attended then 1 else 0) ei) := by
    intro ei
    rw [State.act_copyBell hc hs hp, PrintSide.afterBell, hask ei, if_pos rfl]
  generalize (if s.panel.attended then 1 else 0) = k at hbell ⊢
  have hpage : ∀ ei, (s.copyMoved { c with phase := .page } k ei).act s.printEnv .copy
      = some ((s.copyMoved { c with phase := .page } k ei).issue s.printEnv .copy false .page
        (s.copyMoved { c with phase := afterPage s.printEnv } k ei)) :=
    fun ei => PrintSide.act_copyPage (c := { c with phase := .page }) ⟨rfl, hs, rfl⟩ (hask ei)
  exact h.thenIssues ht (by simp [strikes]) hbell hpage (s.copyMoved_stands _ _)
    fun _ => ⟨fun _ => .inl rfl, rfl⟩

/-- A copy that comes to its banner without an operation begins it: its first glyph is M (R159). -/
theorem State.printTurn.bannerBegins {k : Nat} (h : s.printTurn .copy) (ht : s.print.turning)
    (hcol : s.print.column ≤ s.panel.settings.width) (ho : s.print.openLine = false) (hs : c.script = [])
    (he : s.store.entry c.entry = some e)
    (ha : ∀ ei, (s.inTurn .copy ei).act s.printEnv .copy
      = some (s.copyMoved { c with phase := .banner } k ei)) :
    ∃ ei, s.settlesTo ((s.copyMoved { c with
      phase := .text, script := (generated (bannerText e s.journal.time)).tail } k ei).issuing
        (.glyph 12) .copy false) := by
  have hbanner : ∀ ei, (s.copyMoved { c with phase := .banner } k ei).act s.printEnv .copy
      = some ((s.copyMoved { c with phase := .banner } k ei).beginLine .copy (s.copyMoved { c with
        phase := .text, script := generated (bannerText e s.journal.time) } k ei)) :=
    fun ei => PrintSide.act_copyBanner (c := { c with phase := .banner }) ⟨rfl, hs, rfl⟩ he
  exact h.thenBegins ht hcol ho (g := 12) (rest := (generated (bannerText e s.journal.time)).tail) ha hbanner
    (s.copyMoved_stands _ _) (fun _ => ⟨fun _ => .inl rfl, rfl⟩) fun _ => rfl

/-- Behind the reception bell, where no page is asked for, comes the banner (R159). -/
theorem State.printTurn.bellBanner (h : s.printTurn .copy) (ht : s.print.turning)
    (hcol : s.print.column ≤ s.panel.settings.width) (ho : s.print.openLine = false) (hc : s.print.copy = some c)
    (hs : c.script = []) (hph : c.phase = .bell) (he : s.store.entry c.entry = some e)
    (hb : s.panel.settings.banner = true) (hnp : s.panel.settings.pagePerMessage = false ∨
      s.panel.settings.pageLength = 0 ∨ s.print.pageLine = 1) :
    ∃ ei, s.settlesTo ((s.copyMoved { c with
      phase := .text, script := (generated (bannerText e s.journal.time)).tail }
      (if s.panel.attended then 1 else 0) ei).issuing (.glyph 12) .copy false) := by
  refine h.bannerBegins ht hcol ho hs he fun ei => ?_
  have hb : s.printEnv.settings.banner = true := hb
  rw [State.act_copyBell hc hs hph, PrintSide.afterBell, s.pageAsked_not hnp ei, afterPage, if_neg (by simp),
    if_pos hb]

/-- The page phase, where the page line is 1 by then, goes on to the banner (R149, R159). -/
theorem State.printTurn.pageBanner (h : s.printTurn .copy) (ht : s.print.turning)
    (hcol : s.print.column ≤ s.panel.settings.width) (ho : s.print.openLine = false) (hc : s.print.copy = some c)
    (hs : c.script = []) (hph : c.phase = .page) (he : s.store.entry c.entry = some e)
    (hb : s.panel.settings.banner = true) (hline : s.print.pageLine = 1) :
    ∃ ei, s.settlesTo ((s.copyMoved { c with
      phase := .text, script := (generated (bannerText e s.journal.time)).tail } 0 ei).issuing
        (.glyph 12) .copy false) := by
  refine h.bannerBegins ht hcol ho hs he fun ei => ?_
  have hb : s.printEnv.settings.banner = true := hb
  rw [PrintSide.act_copyNoPage ⟨hc, hs, hph⟩ (s.pageAsked_not (.inr (.inr hline)) ei), afterPage, if_pos hb]
  rfl

/-! ### The end of a copy -/

/-- The trailer of an incomplete message begins with the gap bar, and the finish follows it (R161). -/
theorem State.printTurn.copyTrailer (h : s.printTurn .copy) (ht : s.print.turning)
    (hcol : s.print.column ≤ s.panel.settings.width) (ho : s.print.openLine = false) (hc : s.print.copy = some c)
    (hs : c.script = []) (hph : c.phase = .text) (he : s.store.entry c.entry = some e)
    (hcl : e.state = .closed) (hl : ¬ s.store.textLeft e c) (hr : e.reason.isSome = true) :
    s.settle.print.flight = .op (.glyph gapBar) (.stream .copy false) ∧ ∃ c' : CopyPos,
      s.settle.print.copy = some c' ∧ c'.entry = c.entry ∧ c'.phase = .finish ∧
      c'.script = (generated trailerText).tail := by
  obtain ⟨ei, hp, -⟩ := h.begins ht hcol ho (g := gapBar) (rest := (generated trailerText).tail)
    (fun ei => (PrintSide.act_copyEnd (x := s.inTurn .copy ei) ⟨hc, hs, hph⟩ he hl).trans
      (PrintSide.actCopyEnd_incomplete hcl hr)) (fun _ => PrintSide.withCopy_stands _ _) fun _ => rfl
  rw [hp]
  exact ⟨rfl, _, rfl, CopyPos.onText_entry _ _ _, rfl, rfl⟩

/-- A copy whose text is done closes its own open line (R161). -/
theorem State.printTurn.copyCloses (h : s.printTurn .copy) (ht : s.print.turning) (hc : s.print.copy = some c)
    (hs : c.script = []) (hph : c.phase = .text) (he : s.store.entry c.entry = some e)
    (hcl : e.state = .closed) (hl : ¬ s.store.textLeft e c) (hr : e.reason = none)
    (ho : s.print.openLine = true) (hcol : 1 < s.print.column) :
    s.settle.print.flight = .op .cr (.stream .copy false) ∧ s.settle.print.pre = [.feed] := by
  have ha : ∀ ei, (s.inTurn .copy ei).act s.printEnv .copy = some { (s.inTurn .copy ei).withCopy
        { c.onText s.store (e.chain.drop c.block) with phase := .finish } with
      print := { ((s.inTurn .copy ei).withCopy
          { c.onText s.store (e.chain.drop c.block) with phase := .finish }).print with
        pre := [.cr, .feed], preFor := .stream .copy false } } := by
    intro ei
    refine (PrintSide.act_copyEnd (x := s.inTurn .copy ei) ⟨hc, hs, hph⟩ he hl).trans ?_
    rw [PrintSide.actCopyEnd_open hcl hr ho, ← closeOps_above hcol]
    rfl
  obtain ⟨ei, hp, -⟩ := h.thenCloses ht ha fun ei => PrintSide.withCopy_stands _ _
  rw [hp]
  exact ⟨rfl, rfl⟩

/-- The print side with the copy in its turn finished: PRINT removed and the position discarded (R161). -/
def State.copyGone (s : State) (c : CopyPos) (ei : Option Nat) : PrintSide :=
  { s.inTurn .copy ei with
    store := s.store.removeObligation .print c.entry
    print := { (s.inTurn .copy ei).print with copy := none } }

/-- A copy of a complete message whose last line is closed finishes without an operation; where nothing else waits
the printer goes to no stream (R152, R161). -/
theorem State.printTurn.copyFinishes (h : s.printTurn .copy) (hc : s.print.copy = some c)
    (hs : c.script = []) (hph : c.phase = .text) (he : s.store.entry c.entry = some e)
    (hcl : e.state = .closed) (hl : ¬ s.store.textLeft e c) (hr : e.reason = none)
    (ho : s.print.openLine = false) (hq : s.store.printQ = [c.entry]) (hn : ¬ s.print.noticesWait)
    (hw : ¬ s.print.echoWaits) (hj : ¬ s.reportWaits) :
    ∃ ei, s.settlesTo { s.copyGone c ei with
      print := { (s.copyGone c ei).print with holder := none, grantDue := false, echoIdle := none } } := by
  have ha : ∀ ei, (s.inTurn .copy ei).act s.printEnv .copy = some (s.copyGone c ei) := by
    intro ei
    refine (PrintSide.act_copyEnd (x := s.inTurn .copy ei) ⟨hc, hs, hph⟩ he hl).trans ?_
    rw [PrintSide.actCopyEnd_finish hcl hr ho, PrintSide.finishCopy, CopyPos.onText_entry]
    rfl
  refine h.settlesTo fun ei k hrd => ?_
  have hplaced : (s.copyGone c ei).placed := by
    refine .inr ((Store.removeObligation_printQ _ _).trans ?_)
    simp [hq]
  have hnone : (s.copyGone c ei).firstWaiting s.printEnv = none := by
    have hnotices : (s.copyGone c ei).waits s.printEnv .notices ≠ true :=
      fun h => hn ((PrintSide.waits_notices _ _).mp h)
    have hecho : (s.copyGone c ei).waits s.printEnv .echo ≠ true :=
      fun h => hw ((PrintSide.waits_echo _ _).mp h)
    have hcopy : (s.copyGone c ei).waits s.printEnv .copy ≠ true := by
      simp [PrintSide.waits_noCopy s.printEnv (s.copyGone c ei) rfl]
    have hreport : (s.copyGone c ei).waits s.printEnv .report ≠ true :=
      fun h => hj ((PrintSide.waits_report _ _).mp h)
    rw [PrintSide.firstWaiting_eq, if_neg hnotices, if_neg hecho, if_neg hcopy, if_neg hreport]
  rw [PrintSide.ready_next hrd (ha ei)]
  exact PrintSide.free_run (st := .copy) hplaced hrd.flight hrd.paper hrd.fed hrd.lines hrd.holder (by simp)
    hnone (k + 1)

/-- With an operation in flight at the punch, and a copy in progress there or none waiting, settling leaves the
store as the print unit does. -/
theorem State.settlesTo.store {y : PrintSide} (h : s.settlesTo y) (hl : s.panel.phase = .done)
    (hf : s.punch.flight.isSome = true) (hq : s.punch.copy.isSome = true ∨ y.store.punchQ = []) :
    s.settle.store = y.store := by
  obtain ⟨-, -, -, hst⟩ := h
  rw [State.settle_store hl, hst, PunchSide.run_still]
  refine PunchSide.step_in_flight _ _ _ hf (PunchSide.no_beginning _ (hq.imp (fun hc => ?_) id))
  obtain ⟨pc, hpc⟩ := Option.isSome_iff_exists.mp hc
  exact Punch.noBegin hpc

end copy

end Sys2Proof.Machine
end

section
/-! SUPPORT. The completion input of the printer, its timers and its next operation. -/
namespace Sys2Proof.Machine

/-- Settles O54: the inputs by what a completion leaves, and each next operation by what the print unit comes to in a
stream's turn, or beside it. -/
theorem printCompletion : Obligations.PrintCompletion := by
  unfold Obligations.PrintCompletion
  refine ⟨?inputs, ?echoCodes, ?echoLost, ?echoSaved, ?notice, ?lostLine, ?copyText, ?copyWrap, ?scripts, ?reprint,
    ?pre, ?owed, ?copyPhases, ?reportHeader, ?reportLines, ?foreign⟩
  case inputs =>
    intro c s hl
    refine ⟨fun hc => ⟨fun hf => ?idle, fun hf => ?started, fun hf => ?stopped, fun o why hf => ?operation⟩,
      fun limit hm hf hlim => ?motorIdle, fun n hn => ?echoIdle⟩
    case idle => rw [exec_printCompletion hc hl, State.printCompletes_none hf]
    case started => rw [exec_printCompletion hc hl, State.printCompletes_motorStart hf]
    case stopped => rw [exec_printCompletion hc hl, State.printCompletes_motorStop hf]
    case operation =>
      have hframe := s.printSide.opDone_frame s.printEnv o why
      simp only [PrintUnit.frame, Prod.mk.injEq] at hframe
      obtain ⟨hfl, hmi, hmo, hco, hpl, hno, hec, hlo⟩ := hframe
      have hbell := s.printSide.opDone_bell s.printEnv o why
      refine ⟨s.withPrintSide (s.printSide.opDone s.printEnv o why), ?_, hfl, hmi, hmo, ?column, ?pageLine,
        hno, hec, hlo, ?echo, ?strike, ?lineEnd, s.printSide.opDone_store o, s.printSide.opDone_journal o,
        ?paperFeed, ?marginBell, ?quiet, ?others, rfl, rfl, rfl, rfl, rfl, rfl⟩
      · rw [exec_printCompletion hc hl, State.printCompletes_op hf]
      case column => rw [State.withPrintSide_print, hco]; cases o <;> rfl
      case pageLine => rw [State.withPrintSide_print, hpl]; cases o <;> rfl
      case echo =>
        rintro b rfl
        obtain ⟨hidle, himage⟩ := s.printSide.opDone_echo s.printEnv o b
        refine ⟨hidle, himage.trans ?_⟩
        cases o <;> simp [imageAfter, endsLine, columnAfter, struckBy, State.printSide]
      case strike =>
        rintro st b rfl ho
        exact s.printSide.opDone_strike st b ((strikes_iff o).mpr ho)
      case lineEnd =>
        rintro st b rfl ho hcol
        have he := endsLine_feed ho hcol
        obtain ⟨hopen, howner, hgrant⟩ := s.printSide.opDone_end (env := s.printEnv) st b he
        refine ⟨hopen, howner, hgrant, ?_, ?_, ?_⟩
        · rintro rfl hs hn
          exact s.printSide.opDone_noticeEnd b he hs hn
        · rintro x rfl hx hp hs
          exact s.printSide.opDone_copyEnd b he hx hp hs
        · rintro x rfl hx hst hs
          exact (s.printSide.opDone_reportEnd b he hx hst hs).trans (Journal.endReport_eq hx)
      case paperFeed =>
        rintro rfl
        rw [State.withPrintSide_print, hco, hpl]
        exact PrintSide.opDone_paperFeed s.printEnv s.printSide o
      case marginBell =>
        intro b hw ho
        have hs : strikes o = true := (strikes_iff o).mpr ho
        have hecho : why.echoes = b := by rcases hw with rfl | rfl <;> rfl
        rw [hs, hecho, columnAfter_strike hs] at hbell
        simp only [true_and] at hbell
        exact hbell
      case quiet =>
        intro hg hs
        have ho : strikes o ≠ true := fun h => ((strikes_iff o).mp h).elim (fun ⟨n, hn⟩ => hg n hn) hs
        rw [if_neg fun ⟨_, h, _⟩ => ho h] at hbell
        exact hbell
      case others =>
        intro hw
        have hecho : why.echoes = false := OpFor.echoes_other hw
        rw [if_neg fun h => by simp [hecho] at h] at hbell
        exact hbell
    case motorIdle =>
      have hlimit : motorIdleTime s.panel.settings s.panel.attended = limit := hlim.symm
      rw [exec_motorIdleExpiry hl hm hf, hlimit]
      exact ⟨fun hge => by rw [if_pos hge], fun hlt => by rw [if_neg (Nat.not_le.mpr hlt)]⟩
    case echoIdle => exact exec_echoIdleExpiry hl hn
  case echoCodes =>
    intro s c d rest h hs hr hv hl
    have item : ∀ i items, s.print.echoFifo = i :: items → s.print.atItem i items :=
      fun i items hf => ⟨hs, hr, hv, hl, hf⟩
    refine ⟨fun hf => ⟨fun h4 h29 hb => ?strikeCode, fun h1 ht => ?spaceCode, fun h2 ht => ?returnCode,
        fun h3 ht => ?feedCode⟩,
      fun hf h4 h29 ht hd hcol hq => ?codeBehind, fun cs hf ht hcol => ?eraseMark,
      fun i text hf ht hcol hm => ?lineMarker⟩
    case strikeCode => exact h.echoStrike (item _ _ hf) h4 h29 hb
    case spaceCode => exact h.echoSpace ht (item _ _ hf) h1
    case returnCode => exact h.echoLineEnd ht (item _ _ hf) (codeAct_cr _ h2) rfl
    case feedCode => exact (h.echoLineEnd ht (item _ _ hf) (codeAct_feed _ h3) rfl).symm
    case codeBehind =>
      obtain ⟨hfifo, hcase, hflight, hbell⟩ := h.echoQuiet ht hcol (item _ _ hf) hq rfl h4 h29 (by
        rintro ⟨h25, hfig⟩
        split_ifs at hfig <;> simp_all)
      exact ⟨hfifo, hcase, hcase ▸ hflight, hbell⟩
    case eraseMark => exact h.echoErase ht hcol (item _ _ hf)
    case lineMarker => exact h.echoMarker ht hcol (item _ _ hf) hm
  case echoLost => exact fun s h ht hcol hs hr hv hl hf => h.echoLostLine ht hcol hs hr hv hl hf
  case echoSaved =>
    intro s sv n image h ht hcol hs hr hf hv himage
    obtain ⟨ei, hp, -⟩ := h.thenIssues ht (fun _ => hcol)
      (fun ei => PrintSide.act_echoSaved (x := s.inTurn .echo ei) hs hr hv hf)
      (fun ei => PrintSide.act_echoReprint hs himage) (fun _ => ⟨id, rfl⟩) fun _ => ⟨id, rfl⟩
    rw [hp]
    exact ⟨rfl, rfl, rfl, rfl, rfl⟩
  case notice =>
    intro s n rest g text h ht hcol ho hs hd hn htext
    obtain ⟨ei, hp, -⟩ := h.begins ht hcol ho
      (fun ei => PrintSide.act_notice (env := s.printEnv) (x := s.inTurn .notices ei) hs hd hn)
      (fun _ => ⟨id, rfl⟩) fun _ => congrArg generated htext
    rw [hp]
    exact ⟨rfl, rfl, rfl, rfl⟩
  case lostLine =>
    intro s h ht hcol ho hs hd
    obtain ⟨g, tail, ei, htext, hp, -⟩ := h.beginsText ht hcol ho ((struckFirst_plain _).append _)
      (fun ei => PrintSide.act_lost (env := s.printEnv) (x := s.inTurn .notices ei) hs hd)
      (fun _ => ⟨id, rfl⟩) fun _ => rfl
    rw [hp]
    exact ⟨⟨g, tail, htext, rfl, rfl⟩, rfl, rfl, rfl, rfl⟩
  case copyText =>
    intro s c e n code h ht hcol hc hs hph he hn
    have text : s.copyInText c e n := ⟨hc, hs, hph, he, hn⟩
    refine ⟨fun hg hcode h4 h29 hb => (h.copyStrike ht text hg hcode h4 h29 hb).1 hcol,
      fun hg hcode h1 h3 => ?copyFormat,
      fun d cs hg hcode hd h4 h29 hb hq hcs => h.copyQuiet ht hcol text hg hcode hd h4 h29 hb hq hcs,
      fun hg hd ho => h.copyGap ht hcol ho text hg hd⟩
    obtain ⟨hflight, hcopy⟩ := h.copyFormat ht text hg hcode h1 h3 fun _ => hcol
    refine ⟨_, hflight, ?_, ?_, ?_, hcopy⟩
    · intro h; simp [formatOp, h, State.opHere]
    · intro h; simp [formatOp, h, State.opHere]
    · intro h; simp [formatOp, h, State.opHere, State.feedHere]
  case copyWrap =>
    intro s c e n code h ht hcol hc hs hph he hn hg hcode
    have text : s.copyInText c e n := ⟨hc, hs, hph, he, hn⟩
    refine ⟨fun h4 h29 hb => (h.copyStrike ht text hg hcode h4 h29 hb).2 hcol,
      fun h1 => h.copySpaceWraps ht text hg hcode h1 hcol, fun h23 => ?_⟩
    obtain ⟨hflight, hcopy⟩ := h.copyFormat ht text hg hcode (by omega) (by omega) fun h1 => by omega
    have hop : formatOp code = if code.val = 2 then .cr else .feed := by rw [formatOp, if_neg (by omega)]
    rw [hop] at hflight
    rw [if_neg (show ¬(code.val = 1 ∧ _) by rintro ⟨h1, -⟩; omega)] at hcopy
    refine ⟨hflight.trans ?_, hcopy⟩
    split <;> rfl
  case scripts =>
    intro s st rest h
    refine ⟨fun e o ht he hw => ?_, fun k ht hcol hs => h.elementWraps ht hcol hs,
      fun e hm he hs => h.elementStarts hm he hs⟩
    rw [State.elemOp_eq] at he
    obtain ⟨o', ho', rfl⟩ := Option.map_eq_some_iff.mp he
    refine h.element ht ho' fun hst => ?_
    rcases hw with hw | rfl | rfl
    · exact hw
    · cases ho'; cases hst
    · cases ho'; cases hst
  case reprint =>
    intro s k rest h ht hcol hs hr
    obtain ⟨ei, hp, -⟩ := h.issues ht (fun _ => hcol)
      (fun ei => PrintSide.act_echoReprint (x := s.inTurn .echo ei) hs hr) fun _ => ⟨id, rfl⟩
    rw [hp]
    refine ⟨?_, rfl, rfl, rfl, rfl⟩
    cases k <;> rfl
  case pre =>
    intro s o rest hl hf hs ho hp hpre hst
    obtain ⟨hd, g, ei, hp, -⟩ := State.settlesTo_pre hl hf hs ho hp hpre hst
    refine ⟨fun hm => ?_, fun ht => ?_⟩
    · rw [hp.trans (PrintUnit.issuePre_off s.printEnv o rest (by simp [hm]))]
      exact ⟨rfl, rfl, hpre⟩
    · rw [hp.trans (PrintUnit.issuePre_turning s.printEnv o rest ht)]
      exact ⟨rfl, rfl⟩
  case owed =>
    intro s hl hf hp ho
    obtain ⟨hd, g, ei, sv, pr, pf, b, ⟨hp, -⟩, hh⟩ := State.settlesTo_owed hl hf hp ho
    rw [hp]
    exact ⟨rfl, rfl, rfl, rfl, rfl, rfl, rfl, rfl, rfl, rfl, hh⟩
  case copyPhases =>
    intro s c e h ht hcol hc hs he
    refine ⟨fun hph hpm hpl hline => ?bellPage, fun hph ho hb hnp => ?bellBanner,
      fun hph => ⟨fun hpm hpl hline => ?pageFirst, fun hline ho hb => ?noPage⟩,
      fun hph hcl hl => ⟨fun hr ho => h.copyTrailer ht hcol ho hc hs hph he hcl hl hr,
        fun hr ho hc1 => h.copyCloses ht hc hs hph he hcl hl hr ho hc1,
        fun hr ho hq hn hw hj hf hpunch => ?finish⟩⟩
    case bellPage =>
      obtain ⟨ei, hp, hbell, -⟩ := h.bellPage ht hc hs hph ⟨hpm, hpl, hline⟩
      rw [hp, hbell]
      exact ⟨rfl, rfl, rfl⟩
    case bellBanner =>
      obtain ⟨ei, hp, hbell, -⟩ := h.bellBanner ht hcol ho hc hs hph he hb hnp
      rw [hp, hbell]
      exact ⟨rfl, rfl, rfl⟩
    case pageFirst =>
      have hask := fun ei => (s.pageAsked_iff ei).mpr ⟨hpm, hpl, hline⟩
      obtain ⟨ei, hp, hbell, -⟩ := h.issues ht (by simp [strikes])
        (fun ei => PrintSide.act_copyPage (x := s.inTurn .copy ei) ⟨hc, hs, hph⟩ (hask ei))
        fun _ => PrintSide.withCopy_stands _ _
      rw [hp, hbell]
      exact ⟨rfl, rfl, rfl⟩
    case noPage =>
      obtain ⟨ei, hp, hbell, -⟩ := h.pageBanner ht hcol ho hc hs hph he hb hline
      rw [hp, hbell]
      exact ⟨rfl, rfl, rfl⟩
    case finish =>
      obtain ⟨ei, hto⟩ := h.copyFinishes hc hs hph he hcl hl hr ho hq hn hw hj
      refine ⟨?_, ?_, ?_, hto.store h.live hf (hpunch.imp id fun hq => ?_)⟩
      · rw [hto.1]; rfl
      · rw [hto.1]; exact h.flight
      · rw [hto.1]
      · exact (Store.removeObligation_punchQ _ _ _).trans hq
  case reportHeader =>
    intro s r h ht hcol ho hs hr hst
    obtain ⟨ei, hp, -, hj, -⟩ := h.begins ht hcol ho (g := 9)
      (rest := (generated (headerText s.journal.time s.journal.overwritten)).tail)
      (fun ei => PrintSide.act_reportHeader (env := s.printEnv) (x := s.inTurn .report ei) hs hr hst)
      (fun _ => ⟨id, rfl⟩) fun _ => rfl
    rw [hp, hj]
    exact ⟨rfl, rfl, rfl⟩
  case reportLines =>
    intro s r q text h ht hcol ho hs hr hline
    obtain ⟨g, tail, ei, htext, hp, -, hj, -⟩ := h.beginsText ht hcol ho
      (struckFirst_report (env := s.printEnv) hline)
      (fun ei => PrintSide.act_reportLine (env := s.printEnv) (x := s.inTurn .report ei) hs hr hline)
      (fun _ => ⟨id, rfl⟩) fun _ => rfl
    rw [hp, hj]
    exact ⟨⟨g, tail, htext, rfl, rfl⟩, rfl⟩
  case foreign =>
    intro s st hl hf hs ho hpre hg hp hh hw hopen how ht
    have close : ∀ o rest, closeOps s.print.column = o :: rest → s.settle.print.pre = rest ∧
        s.settle.print.flight = .op (s.opHere o) .closing := by
      intro o rest hcl
      obtain ⟨hto, -⟩ := State.settlesTo_run hl
        (PrintSide.closeForeign_run (x := s.printSide) hp hf hs ho hpre hg hh hw hopen how hcl (printFuel - 2))
      rw [hto.trans (PrintUnit.issuePre_turning s.printEnv o rest ht)]
      exact ⟨rfl, rfl⟩
    exact ⟨fun hc => (close _ _ (closeOps_above hc)).symm, fun hc => close _ _ (closeOps_one hc)⟩

end Sys2Proof.Machine
end

section
/-! SUPPORT. What every command and the block's own step keep, said once for each operation of the state: the
ranges of the line unit, the canonical ring, the sound store and the queue of waiting commands. -/
namespace Sys2Proof.Machine

/-! ### The relation -/

/-- An operation keeps the line unit's ranges, the ring's form and the store sound, and the queue as it is. -/
structure State.keeps (s t : State) : Prop where
  line : s.line.bounded → t.line.bounded
  form : s.store.wf = true → t.store.wf = true
  sound : s.store.sound → t.store.sound
  pending : t.pending = s.pending

theorem State.keeps.refl (s : State) : s.keeps s := ⟨id, id, id, rfl⟩

theorem State.keeps.trans {s t u : State} (h : s.keeps t) (h' : t.keeps u) : s.keeps u :=
  ⟨h'.line ∘ h.line, h'.form ∘ h.form, h'.sound ∘ h.sound, h'.pending.trans h.pending⟩

/-- The same, the later operation named first. -/
theorem State.keeps.after {s t u : State} (h' : t.keeps u) (h : s.keeps t) : s.keeps u := h.trans h'

/-- An operation of the store alone. -/
theorem State.keeps.of_store {s t : State} (hl : t.line = s.line) (hp : t.pending = s.pending)
    (hw : s.store.wf = true → t.store.wf = true) (hs : s.store.sound → t.store.sound) : s.keeps t :=
  ⟨fun h => hl ▸ h, hw, hs, hp⟩

/-- An operation of the line unit alone. -/
theorem State.keeps.of_line {s t : State} (hl : s.line.bounded → t.line.bounded) (hp : t.pending = s.pending)
    (hs : t.store = s.store) : s.keeps t :=
  ⟨hl, fun h => hs ▸ h, fun h => hs ▸ h, hp⟩

/-- An operation of the other blocks. -/
theorem State.keeps.of_same {s t : State} (hl : t.line = s.line) (hs : t.store = s.store)
    (hp : t.pending = s.pending) : s.keeps t :=
  .of_line (fun h => hl ▸ h) hp hs

/-- An operation that leaves the store or removes one obligation. -/
theorem State.keeps.of_removal {s t : State} (hl : t.line = s.line) (hp : t.pending = s.pending) (o : Obligation)
    (h : t.store = s.store ∨ ∃ slot, t.store = s.store.removeObligation o slot) : s.keeps t := by
  rcases h with h | ⟨slot, h⟩
  · exact .of_same hl h hp
  · exact .of_store hl hp (fun hw => h ▸ Store.removeObligation_wf hw o slot)
      fun hs => h ▸ Store.sound.removeObligation hs o slot

/-! ### The mechanism units -/

/-- Only the end of a copy reaches the store, whose PRINT obligation it removes. -/
theorem PrintSide.endsAfter_store (x : PrintSide) (o : MechOp) (st : Stream) :
    (x.endsAfter o st).store = x.store ∨
      ∃ slot, (x.endsAfter o st).store = x.store.removeObligation .print slot := by
  unfold PrintSide.endsAfter
  split
  · split
    · exact .inl rfl
    · split
      · exact .inr ⟨_, rfl⟩
      · exact .inl rfl
  · split
    · exact .inl rfl
    · split <;> exact .inl rfl
  · exact .inl rfl

theorem PrintSide.complete_store (env : PrintEnv) (x : PrintSide) :
    (x.complete env).store = x.store ∨
      ∃ slot, (x.complete env).store = x.store.removeObligation .print slot := by
  unfold PrintSide.complete
  split
  · exact .inl rfl
  · exact .inl rfl
  · exact .inl rfl
  · rename_i o why _
    by_cases hw : ∃ item, why = .stream .copy item
    · obtain ⟨item, rfl⟩ := hw
      rw [PrintSide.opDone_stream, PrintSide.marginBell_eq]
      exact PrintSide.endsAfter_store _ o .copy
    · exact .inl (x.opDone_store o fun item h => hw ⟨item, h⟩)

/-- What the punch unit does reaches the store only at a copy's finish, whose PUNCH obligation it removes. -/
theorem PunchSide.step_store {leader : Nat} {relocal : Bool} {x y : PunchSide}
    (h : x.step leader relocal = some y) :
    y.store = x.store ∨ ∃ slot, y.store = x.store.removeObligation .punch slot := by
  rcases PunchSide.step_cases h with ⟨_, _, rfl⟩ | ⟨_, ⟨_, rfl⟩ | ⟨_, ⟨_, rfl⟩ | ⟨_, _, h⟩⟩⟩
  · exact .inl rfl
  · exact .inl rfl
  · exact .inl rfl
  · unfold PunchSide.issueNext at h
    split at h
    · cases h; exact .inl rfl
    · split at h
      · cases h; exact .inl rfl
      · split at h
        · obtain ⟨p, -, rfl⟩ := Option.map_eq_some_iff.mp h
          exact .inl rfl
        · unfold PunchSide.copyStep at h
          split at h
          · cases h
          · split at h
            · cases h; exact .inl rfl
            · cases h; exact .inl rfl
            · cases h; exact .inr ⟨_, rfl⟩
            · cases h

theorem State.settlePrint_keeps (s : State) : s.keeps s.settlePrint := by
  refine PrintSide.run_keeps s.printEnv (fun x => s.keeps (s.withPrintSide x)) ?_ printFuel s.printSide (.refl s)
  intro x y hx hs
  refine hx.trans (.of_removal rfl rfl .print ?_)
  rcases PrintSide.step_store hs with h | ⟨c, -, h⟩
  · exact .inl h
  · exact .inr ⟨_, h⟩

theorem State.settlePunch_keeps (s : State) : s.keeps s.settlePunch := by
  refine PunchSide.run_keeps s.panel.settings.leader s.relocal (fun x => s.keeps (s.withPunchSide x)) ?_ punchFuel
    s.punchSide (.refl s)
  intro x y hx hs
  exact hx.trans (.of_removal rfl rfl .punch (PunchSide.step_store hs))

theorem State.settle_keeps (s : State) : s.keeps s.settle := by
  unfold State.settle
  split
  · exact s.settlePrint_keeps.trans (State.settlePunch_keeps _)
  · exact .refl s

theorem State.printCompletes_keeps (s : State) : s.keeps s.printCompletes :=
  .of_removal rfl rfl .print (s.printSide.complete_store s.printEnv)

/-! ### The guards of commands -/

theorem State.keeps.whenLive {s : State} {f : State → State} (h : s.keeps (f s)) : s.keeps (s.whenLive f) := by
  unfold State.whenLive
  split
  · exact h
  · exact .refl s

theorem State.keeps.acting {s : State} {f : State → State} (h : s.keeps (f s)) : s.keeps (s.acting f) :=
  .whenLive (h.trans (State.settle_keeps _))

theorem State.keeps.given {s : State} {f : State → State} (h : s.keeps (f s)) (c : Bool) :
    s.keeps (s.given c f) := by
  cases c
  · exact .refl s
  · exact h

theorem State.keeps.takeHead {s : State} {f : Keystroke → State → State} (h : ∀ k, s.keeps (f k s))
    (mine : Keystroke → Bool) : s.keeps (s.takeHead mine f) := by
  unfold State.takeHead
  split
  · exact .refl s
  · split
    · exact h _
    · exact .refl s

end Sys2Proof.Machine
end

section
/-! SUPPORT. What the operations of the transmission controller, the composer and the reception controller keep:
each is followed once, through its parts (chapters 5 to 7). -/
namespace Sys2Proof.Machine

/-! ### Sending -/

theorem State.withSend_keeps (s : State) (t : Transmission) : s.keeps (s.withSend t) := .of_same rfl rfl rfl

theorem State.withKb_keeps (s : State) (kb : Keyboard) : s.keeps (s.withKb kb) := .of_same rfl rfl rfl

theorem State.notice_keeps (s : State) (n : Notice) : s.keeps (s.notice n) := .of_same rfl rfl rfl

theorem State.log_keeps (s : State) (k : JournalKind) (f : JournalFields) : s.keeps (s.log k f) :=
  .of_same rfl rfl rfl

theorem State.placeEcho_keeps (s : State) (i : EchoItem) : s.keeps (s.placeEcho i) := .of_same rfl rfl rfl

theorem State.leaveSendList_keeps (s : State) (entry : Nat) : s.keeps (s.leaveSendList entry) :=
  .of_same rfl rfl rfl

theorem State.composerLoses_keeps (s : State) (entry : Nat) (bell : Bool) :
    s.keeps (s.composerLoses entry bell) := by
  unfold State.composerLoses
  dsimp only
  split <;> exact .of_same rfl rfl rfl

theorem State.abandonEntry_keeps (s : State) (slot : Nat) :
    s.keeps { s with store := s.store.abandonEntry slot } :=
  .of_store rfl rfl (Store.abandonEntry_wf · slot) (Store.sound.abandonEntry · slot)

theorem State.abandonMessage_keeps (s : State) (r : SendRec) (why : JournalReason) (n : Option NoticeReason) :
    s.keeps (s.abandonMessage r why n) := by
  have h := ((s.abandonEntry_keeps r.entry).trans
    (State.composerLoses_keeps _ r.entry n.isSome)).trans (State.leaveSendList_keeps _ r.entry)
  cases n with
  | none => exact h.trans (State.log_keeps _ _ _)
  | some _ => exact (h.trans (State.notice_keeps _ _)).trans (State.log_keeps _ _ _)

theorem State.abandonControl_keeps (s : State) (place : Nat) (r : ControlRec) (why : JournalReason)
    (n : NoticeReason) : s.keeps (s.abandonControl place r why n) := by
  unfold State.abandonControl
  dsimp only
  split <;> exact .of_same rfl rfl rfl

theorem State.messageSent_keeps (s : State) (r : SendRec) : s.keeps (s.messageSent r) :=
  .of_removal rfl rfl .send (.inr ⟨r.entry, rfl⟩)

theorem State.reportLoss_keeps (s : State) : s.keeps s.reportLoss := by
  unfold State.reportLoss
  split
  · exact .refl s
  · exact s.withSend_keeps _
  · exact s.withSend_keeps _

theorem State.reportDone_keeps (s : State) : s.keeps s.reportDone := by
  unfold State.reportDone
  split
  · exact .refl s
  · unfold State.sectionDone
    split
    · exact s.messageSent_keeps _
    · exact .of_same rfl rfl rfl
  · exact s.withSend_keeps _

theorem State.reportWait_keeps (s : State) : s.keeps s.reportWait := by
  unfold State.reportWait
  split
  · exact .refl s
  · split
    · exact s.abandonMessage_keeps _ _ _
    · exact s.withSend_keeps _
  · split
    · exact s.abandonControl_keeps _ _ _ _
    · exact s.withSend_keeps _

theorem State.reportEngaged_keeps (s : State) : s.keeps s.reportEngaged := by
  unfold State.reportEngaged
  split
  · exact .refl s
  · split
    · exact s.abandonMessage_keeps _ _ _
    · exact s.withSend_keeps _
  · split
    · exact s.abandonControl_keeps _ _ _ _
    · exact s.withSend_keeps _

theorem State.reportRefuse_keeps (s : State) : s.keeps s.reportRefuse := by
  unfold State.reportRefuse
  split
  · exact .refl s
  · exact s.abandonMessage_keeps _ _ _
  · exact s.abandonControl_keeps _ _ _ _

theorem State.reportNoAnswer_keeps (s : State) : s.keeps s.reportNoAnswer := by
  unfold State.reportNoAnswer
  split
  · exact .refl s
  · split
    · exact s.abandonMessage_keeps _ _ _
    · exact s.withSend_keeps _
  · split
    · exact s.abandonControl_keeps _ _ _ _
    · exact s.withSend_keeps _

theorem abandonAll_keeps (l : List SendRec) : ∀ s : State, s.keeps (abandonAll l s) := by
  induction l with
  | nil => exact .refl
  | cons r l ih => exact fun s => (s.abandonMessage_keeps r .restart none).trans (ih _)

theorem State.restartSending_keeps (s : State) : s.keeps s.restartSending :=
  (abandonAll_keeps s.send.sendList s).trans (.of_same rfl rfl rfl)

/-! ### The line unit's states -/

theorem LineUnit.bounded.hunt {l : LineUnit} (h : l.bounded) : l.hunt.bounded := h

theorem LineUnit.bounded.txIdle {l : LineUnit} (h : l.bounded) : l.txIdle.bounded := h

theorem LineUnit.bounded.readyRx {l : LineUnit} (h : l.bounded) : l.readyRx.bounded := h

theorem LineUnit.bounded.cut {l : LineUnit} (h : l.bounded) : l.cut.bounded := by
  unfold LineUnit.cut
  split <;> exact h

/-- The quiet run set to a value in its range. -/
theorem LineUnit.bounded.quiet {l : LineUnit} (h : l.bounded) {n : Nat} (hn : n ≤ 14) :
    { l with quietRun := n }.bounded := ⟨hn, h.2⟩

theorem LineUnit.bounded.discard {l : LineUnit} (h : l.bounded) : l.discard.bounded :=
  ⟨h.1, Nat.min_le_left _ _, h.2.2⟩

theorem State.withLine_keeps {s : State} {l : LineUnit} (h : s.line.bounded → l.bounded) :
    s.keeps (s.withLine l) := .of_line h rfl rfl

theorem State.answerLost_keeps (s : State) : s.keeps s.answerLost := by
  unfold State.answerLost
  split
  · exact (State.withLine_keeps .txIdle).trans (State.reportNoAnswer_keeps _)
  · exact .refl s

theorem State.answered_keeps {report : State → State} (h : ∀ s : State, s.keeps (report s)) (s : State) :
    s.keeps (s.answered report) :=
  have hr : s.keeps (report (s.withLine s.line.txIdle.readyRx)) := (h _).after (State.withLine_keeps .txIdle)
  .acting (.given (f := fun s => report (s.withLine s.line.txIdle.readyRx)) hr _)

/-! ### Reserves -/

/-- A request is not short while the blocks it needs are free, and an entry where it needs one (R64). -/
theorem Store.shortage_iff (st : Store) (need : Nat) (entry : Bool) :
    (st.shortage need entry).isShort = false ↔ need ≤ st.free ∧ (entry = true → st.dir.length < 32) := by
  cases entry <;> simp [Store.shortage, Shortage.isShort, Store.dirFull, Config.entries]

theorem Store.hasBlock_iff (st : Store) : st.hasBlock = true ↔ 0 < st.free := by
  rw [Store.hasBlock, Bool.not_eq_true', Store.shortage_iff]
  simp [Config.reserveFurther, Nat.one_le_iff_ne_zero, Nat.pos_iff_ne_zero]

theorem State.canOpen_iff (s : State) : s.canOpen = true ↔ s.mayOpen := by
  rw [State.canOpen, Bool.and_eq_true, Bool.not_eq_true', Store.shortage_iff, decide_eq_true_eq]
  simp [State.mayOpen, Config.reserveFurther, Config.sendPlaces]

/-! ### The composer -/

theorem State.release_keeps (s : State) (slot : Nat) (final : Bool) : s.keeps (s.release slot final) :=
  .of_store rfl rfl (Store.releaseOpen_wf · slot final) (Store.sound.releaseOpen · slot final)

theorem State.writeCode_keeps (s : State) (slot : Nat) (codes : List Code) (c : Code) :
    s.keeps (s.writeCode slot codes c) := by
  have h : s.keeps { s with store := s.store.setOpenCodes slot (codes ++ [c]) } :=
    .of_store rfl rfl (Store.setOpenCodes_wf · slot _) (Store.sound.setOpenCodes · slot _)
  unfold State.writeCode
  dsimp only
  split
  · exact (State.release_keeps _ slot false).after (h.trans (.of_same rfl rfl rfl))
  · exact h.trans (.of_same rfl rfl rfl)

theorem State.returnRelease_keeps (s : State) (slot : Nat) : s.keeps (s.returnRelease slot) := by
  unfold State.returnRelease
  split
  · exact s.release_keeps slot false
  · exact .refl s

/-- An allocation is made only while a block is free (R64). -/
theorem State.allocate_keeps {s : State} (h : s.store.hasBlock = true) (slot gap : Nat) (codes : List Code)
    (rel : Bool) : s.keeps { s with store := s.store.allocate slot gap codes rel } := by
  refine .of_store rfl rfl (Store.allocate_wf · slot gap codes rel) fun hs => ?_
  cases he : s.store.entry slot with
  | none => simpa [Store.allocate, he] using hs
  | some e => exact (hs.allocate he (s.store.hasBlock_iff.mp h) gap codes rel).1

theorem State.emitLine_keeps (slot k : Nat) : ∀ (es : List Emit) (s : State), s.keeps (s.emitLine slot k es) := by
  induction k with
  | zero => exact fun _ => .refl
  | succ k ih =>
    intro es s
    cases es with
    | nil => exact s.withKb_keeps _
    | cons e rest =>
      unfold State.emitLine
      split
      · exact (s.returnRelease_keeps slot).trans (ih _ _)
      · split
        · exact ih _ _
        · split
          · exact (s.writeCode_keeps slot _ _).trans (ih _ _)
          · split
            · rename_i hb
              exact (State.allocate_keeps hb slot 0 [] false).trans (ih _ _)
            · exact s.withKb_keeps _

theorem State.writeEmits_keeps (s : State) (es : List Emit) : s.keeps (s.writeEmits es) := by
  unfold State.writeEmits
  split
  · exact s.withKb_keeps _
  · exact State.emitLine_keeps _ _ _ _

theorem State.openMessage_keeps {s : State} (h : s.canOpen = true) (dest cls : Nat) :
    s.keeps (s.openMessage dest cls) := by
  obtain ⟨-, hf, hd⟩ := s.canOpen_iff.mp h
  exact .of_store rfl rfl (Store.openMessage_wf · _ _ _) fun hs => hs.openMessage hd hf _ _ _

theorem State.openAndWrite_keeps (s : State) (k : Keystroke) : s.keeps (s.openAndWrite k) := by
  unfold State.openAndWrite
  split
  · exact .of_same rfl rfl rfl
  · split
    · rename_i h
      exact (State.openMessage_keeps h _ _).trans (State.writeEmits_keeps _ _)
    · exact s.withKb_keeps _

theorem State.emitLocal_keeps (k : Nat) : ∀ (es : List Emit) (s : State), s.keeps (s.emitLocal k es) := by
  induction k with
  | zero => exact fun _ => .refl
  | succ k ih =>
    intro es s
    cases es with
    | nil => exact s.withKb_keeps _
    | cons e rest =>
      unfold State.emitLocal
      split
      · exact ih _ _
      · dsimp only
        split
        · split
          · exact .of_same rfl rfl rfl
          · exact (ih _ _).after (.of_same rfl rfl rfl)
        · exact (ih _ _).after (.of_same rfl rfl rfl)

theorem State.resumeLocal_keeps (s : State) : s.keeps s.resumeLocal := by
  unfold State.resumeLocal
  split
  · split
    · split
      · exact .refl s
      · exact (State.emitLocal_keeps _ _ _).after (.of_same rfl rfl rfl)
    · exact State.emitLocal_keeps _ _ _
  · exact .refl s

theorem State.takeText_keeps (s : State) (k : Keystroke) : s.keeps (s.takeText k) := by
  unfold State.takeText
  split
  · exact .of_same rfl rfl rfl
  · exact s.openAndWrite_keeps k
  · exact s.writeEmits_keeps _
  · exact State.emitLocal_keeps _ _ _
  · exact .of_same rfl rfl rfl
  · exact .of_same rfl rfl rfl

theorem State.ended_keeps (s : State) (fromKey : Bool) : s.keeps (s.ended fromKey) := by
  unfold State.ended
  dsimp only
  split <;> exact .of_same rfl rfl rfl

theorem State.endMessage_keeps (s : State) (slot : Nat) (fromKey : Bool) :
    s.keeps (s.endMessage slot fromKey) := by
  unfold State.endMessage
  split
  · split
    · exact (State.ended_keeps _ fromKey).after ((s.abandonEntry_keeps slot).trans (.of_same rfl rfl rfl))
    · exact (s.release_keeps slot true).trans (State.ended_keeps _ fromKey)
  · split
    · rename_i hb
      exact ((State.allocate_keeps hb slot 0 [] false).trans (State.release_keeps _ slot true)).trans
        (State.ended_keeps _ fromKey)
    · exact s.withKb_keeps _

theorem State.endCurrent_keeps (s : State) (fromKey : Bool) : s.keeps (s.endCurrent fromKey) := by
  unfold State.endCurrent
  split
  · exact s.ended_keeps fromKey
  · exact s.endMessage_keeps _ fromKey

theorem State.takeEnd_keeps (s : State) : s.keeps s.takeEnd := by
  unfold State.takeEnd
  split
  · exact s.endCurrent_keeps true
  all_goals exact .of_same rfl rfl rfl

theorem State.autoEndExpires_keeps (s : State) : s.keeps s.autoEndExpires := by
  unfold State.autoEndExpires
  split
  · exact (s.placeEcho_keeps _).trans (State.endCurrent_keeps _ false)
  · exact .refl s

theorem State.eraseLast_keeps (s : State) (slot : Nat) (codes : List Code) :
    s.keeps (s.eraseLast slot codes) :=
  .of_store rfl rfl (Store.setOpenCodes_wf · slot _) (Store.sound.setOpenCodes · slot _)

theorem State.takeErase_keeps (s : State) : s.keeps s.takeErase := by
  unfold State.takeErase
  split
  · unfold State.eraseComposing
    split
    · exact .of_same rfl rfl rfl
    · split
      · exact .of_same rfl rfl rfl
      · exact .of_same rfl rfl rfl
      · exact s.eraseLast_keeps _ _
  · unfold State.eraseLocal
    dsimp only
    split
    · split <;> exact .of_same rfl rfl rfl
    · exact .of_same rfl rfl rfl
  all_goals exact .of_same rfl rfl rfl

theorem State.takeDest_keeps (s : State) (k : Keystroke) : s.keeps (s.takeDest k) := by
  unfold State.takeDest
  split <;> exact .of_same rfl rfl rfl

theorem State.takeDestDigit_keeps (s : State) (d : Nat) : s.keeps (s.takeDestDigit d) := by
  unfold State.takeDestDigit
  split
  · exact .of_same rfl rfl rfl
  · unfold State.judgeDest
    split <;> exact .of_same rfl rfl rfl
  · exact .refl s

theorem State.takeTime_keeps (s : State) : s.keeps s.takeTime := by
  unfold State.takeTime
  split <;> exact .of_same rfl rfl rfl

theorem State.takeTimeDigit_keeps (s : State) (d : Nat) : s.keeps (s.takeTimeDigit d) := by
  unfold State.takeTimeDigit
  split
  · unfold State.judgeTime
    dsimp only
    split <;> exact .of_same rfl rfl rfl
  · exact .of_same rfl rfl rfl
  · exact .refl s

theorem State.punchLocalBegins_keeps (s : State) : s.keeps s.punchLocalBegins := by
  unfold State.punchLocalBegins
  split <;> exact .of_same rfl rfl rfl

theorem State.beginLocal_keeps (s : State) : s.keeps s.beginLocal := by
  unfold State.beginLocal
  dsimp only
  split
  · exact (State.punchLocalBegins_keeps _).after (.of_same rfl rfl rfl)
  · exact .of_same rfl rfl rfl

theorem State.takeMode_keeps (s : State) : s.keeps s.takeMode := by
  have modeLocal : s.keeps s.keyDone.beginLocal :=
    (State.beginLocal_keeps _).after (.of_same rfl rfl rfl)
  unfold State.takeMode
  split
  · split
    · exact .of_same rfl rfl rfl
    · exact modeLocal
  · split
    · exact .of_same rfl rfl rfl
    · exact modeLocal
  · split <;> exact .of_same rfl rfl rfl
  all_goals exact .of_same rfl rfl rfl

theorem State.request_keeps (s : State) (kind : FrameKind) : s.keeps (s.request kind) := by
  unfold State.request
  split
  · exact .of_same rfl rfl rfl
  · split
    · exact .of_same rfl rfl rfl
    · split <;> exact .of_same rfl rfl rfl

theorem State.takeRequest_keeps (s : State) (kind : FrameKind) : s.keeps (s.takeRequest kind) := by
  unfold State.takeRequest
  split
  · exact s.request_keeps kind
  · exact s.request_keeps kind
  all_goals exact .of_same rfl rfl rfl

theorem State.takeBreak_keeps (s : State) : s.keeps s.takeBreak := by
  unfold State.takeBreak
  split
  · exact .of_same rfl rfl rfl
  · rename_i r _
    have hcut : s.keeps { s with line := if r.phase = Phase.onLine then s.line.cut else s.line } := by
      refine .of_line (fun h => ?_) rfl rfl
      split
      · exact h.cut
      · exact h
    exact ((hcut.trans (State.withSend_keeps _ _)).trans (State.abandonMessage_keeps _ _ _ _)).trans
      (State.withKb_keeps _ _)

theorem State.closeKey_keeps (s : State) (k : Key) : s.keeps (s.closeKey k) := by
  unfold State.closeKey
  split
  · exact .refl s
  · dsimp only
    split
    · exact .of_same rfl rfl rfl
    · unfold State.routeKey
      split
      · exact .of_same rfl rfl rfl
      · split <;> exact .of_same rfl rfl rfl

theorem State.openKey_keeps (s : State) (k : Key) : s.keeps (s.openKey k) := by
  unfold State.openKey
  split <;> exact .of_same rfl rfl rfl

theorem State.repeatOpening_keeps (s : State) : s.keeps s.repeatOpening := by
  unfold State.repeatOpening
  split
  · exact s.openAndWrite_keeps _
  · exact .refl s

theorem State.repeatBlock_keeps (s : State) : s.keeps s.repeatBlock := by
  unfold State.repeatBlock
  split
  · exact s.writeEmits_keeps _
  · exact s.endCurrent_keeps true
  · exact s.endCurrent_keeps false
  · exact .refl s

theorem State.idleRelease_keeps (s : State) : s.keeps s.idleRelease := by
  unfold State.idleRelease
  split
  · split
    · exact s.release_keeps _ false
    · exact .refl s
  · exact .refl s

theorem State.latchCleared_keeps (s : State) : s.keeps s.latchCleared := by
  unfold State.latchCleared
  split
  · split
    · exact s.release_keeps _ false
    · exact .refl s
  · exact .refl s

/-! ### Reception -/

theorem State.closeRecord_keeps (s : State) (r : Record) (why : Option Reason) :
    s.keeps (s.closeRecord r why) :=
  .of_store rfl rfl (Store.closeEntry_wf · _ _) (Store.sound.closeEntry · _ _)

theorem State.closeHold_keeps (s : State) (why : Option Reason) : s.keeps (s.closeHold why) := by
  unfold State.closeHold
  split
  · exact .refl s
  · exact (s.closeRecord_keeps _ why).trans (.of_same rfl rfl rfl)

theorem State.closeCircular_keeps (s : State) (r : Record) (why : Option Reason) :
    s.keeps (s.closeCircular r why) :=
  (s.closeRecord_keeps r why).trans (.of_same rfl rfl rfl)

theorem State.completeHold_keeps (s : State) (origin number seq : Nat) :
    s.keeps (s.completeHold origin number seq) := by
  have h : s.keeps { s.closeHold none with
      recv := { (s.closeHold none).recv with completion := some (origin, number, seq) } } :=
    (s.closeHold_keeps none).trans (.of_same rfl rfl rfl)
  unfold State.completeHold
  dsimp only
  split
  · exact h
  · refine h.trans ?_
    unfold State.queueReceipt
    split
    · exact .refl _
    · exact State.withSend_keeps _ _

/-- A section is stored only while the reserve test finds a block, and a first section an entry (R64). -/
theorem State.storeSection_keeps {s t : State} (h : 0 < s.store.free) {slot gap : Nat} {codes : List Code}
    (hl : t.line = s.line) (hp : t.pending = s.pending) (ht : t.store = s.store.storeSection slot gap codes) :
    s.keeps t :=
  .of_store hl hp (fun hw => ht ▸ Store.storeSection_wf hw _ _ _) fun hs => ht ▸ hs.storeSection h _ _ _

theorem State.storeFirst_keeps {s t : State} (h : 0 < s.store.free) (hd : s.store.dir.length < 32)
    {o n c : Nat} {p u : Bool} {codes : List Code} (hl : t.line = s.line) (hp : t.pending = s.pending)
    (ht : t.store = s.store.storeFirst o n c p u codes) : s.keeps t :=
  .of_store hl hp (fun hw => ht ▸ Store.storeFirst_wf hw _ _ _ _ _ _) fun hs => ht ▸ hs.storeFirst hd h _ _ _ _ _ _

theorem State.judgeFirst_keeps (s : State) (f : Frame) : s.keeps (s.judgeFirst f).1 := by
  unfold State.judgeFirst
  split
  · exact .refl s
  · dsimp only
    split
    · exact .refl s
    · rename_i hsh
      obtain ⟨hf, hd⟩ := (Store.shortage_iff _ _ _).mp (Bool.eq_false_iff.mpr hsh)
      have hpos : 0 < s.store.free := Nat.lt_of_lt_of_le (by decide) hf
      split
      · exact (State.completeHold_keeps _ _ _ _).after (State.storeFirst_keeps hpos (hd rfl) rfl rfl rfl)
      · exact State.storeFirst_keeps hpos (hd rfl) rfl rfl rfl

theorem State.judgeNext_keeps (s : State) (r : Record) (f : Frame) : s.keeps (s.judgeNext r f).1 := by
  unfold State.judgeNext
  dsimp only
  split
  · exact .refl s
  · rename_i hsh
    have hf := ((Store.shortage_iff _ _ _).mp (Bool.eq_false_iff.mpr hsh)).1
    have hpos : 0 < s.store.free := hf
    split
    · exact (State.completeHold_keeps _ _ _ _).after (State.storeSection_keeps hpos rfl rfl rfl)
    · exact State.storeSection_keeps hpos rfl rfl rfl

theorem State.judgeHeld_keeps (s : State) (r : Record) (f : Frame) : s.keeps (s.judgeHeld r f).1 := by
  unfold State.judgeHeld
  split
  · exact s.judgeNext_keeps r f
  · split
    · exact .refl s
    · exact s.closeHold_keeps _

theorem State.judgeText_keeps (s : State) (f : Frame) : s.keeps (s.judgeText f).1 := by
  have ht : s.keeps { s with recv := s.recv.restartTimers f.origin } := .of_same rfl rfl rfl
  refine ht.trans ?_
  unfold State.judgeText
  dsimp only
  split
  · exact .refl _
  · split
    · split
      · exact State.judgeFirst_keeps _ f
      · exact .refl _
    · split
      · exact .refl _
      · split
        · exact State.judgeHeld_keeps _ _ f
        · split
          · exact (State.closeHold_keeps _ _).trans (State.judgeFirst_keeps _ f)
          · exact .refl _

theorem supersede_keeps (l : List Record) : ∀ s : State, s.keeps (supersede l s) := by
  induction l with
  | nil => exact .refl
  | cons r l ih => exact fun s => (s.closeCircular_keeps r _).trans (ih _)

theorem State.judgeCircularFirst_keeps (s : State) (f : Frame) : s.keeps (s.judgeCircularFirst f) := by
  unfold State.judgeCircularFirst
  split
  · exact s.log_keeps _ _
  · split
    · exact s.log_keeps _ _
    · rename_i hsh
      obtain ⟨hf, hd⟩ := (Store.shortage_iff _ _ _).mp (Bool.eq_false_iff.mpr fun h => hsh (.inr h))
      have hpos : 0 < s.store.free := Nat.lt_of_lt_of_le (by decide) hf
      dsimp only
      split
      · exact (State.closeCircular_keeps _ _ _).after (State.storeFirst_keeps hpos (hd rfl) rfl rfl rfl)
      · exact State.storeFirst_keeps hpos (hd rfl) rfl rfl rfl

theorem State.discard_keeps (s : State) : s.keeps s.discard := .of_line .discard rfl rfl

theorem State.circularFirst_keeps (s : State) (f : Frame) : s.keeps (s.circularFirst f) := by
  have ht : s.keeps { s with recv := s.recv.restartTimers f.origin } := .of_same rfl rfl rfl
  refine ht.trans ?_
  unfold State.circularFirst
  dsimp only
  split
  · exact State.discard_keeps _
  · exact (supersede_keeps _ _).trans (State.judgeCircularFirst_keeps _ f)

theorem State.circularNext_keeps (s : State) (f : Frame) : s.keeps (s.circularNext f) := by
  have ht : s.keeps { s with recv := s.recv.restartTimers f.origin } := .of_same rfl rfl rfl
  refine ht.trans ?_
  unfold State.circularNext
  dsimp only
  split
  · exact State.discard_keeps _
  · split
    · split
      · exact State.closeCircular_keeps _ _ _
      · exact .refl _
    · rename_i hsh
      have hf := ((Store.shortage_iff _ _ _).mp (Bool.eq_false_iff.mpr hsh)).1
      have hpos : 0 < s.store.free := hf
      split
      · exact (State.closeCircular_keeps _ _ _).after (State.storeSection_keeps hpos rfl rfl rfl)
      · exact State.storeSection_keeps hpos rfl rfl rfl

theorem State.judgeRequest_keeps (s : State) (f : Frame) (reply : FrameKind) (text : List Code) :
    s.keeps (s.judgeRequest f reply text).1 := by
  unfold State.judgeRequest
  split
  · exact .refl s
  · split
    · exact .refl s
    · dsimp only
      split <;> exact .of_same rfl rfl rfl

theorem State.judgeReply_keeps (s : State) (f : Frame) (n : Notice) : s.keeps (s.judgeReply f n).1 := by
  unfold State.judgeReply
  split
  · exact .refl s
  · exact .of_same rfl rfl rfl

theorem State.actRelease_keeps (s : State) (f : Frame) : s.keeps (s.actRelease f) := by
  have circularPart : ∀ t : State, t.keeps (match t.recv.findCircular f.origin f.number with
      | none => t
      | some r => t.closeCircular r (some .cancelled)) := by
    intro t
    split
    · exact .refl t
    · exact t.closeCircular_keeps _ _
  unfold State.actRelease
  dsimp only
  refine .trans ?_ (circularPart _)
  split
  · exact .refl s
  · split
    · exact s.closeHold_keeps _
    · exact .refl s

theorem State.recordExpired_keeps (s : State) (r : RecordRef) : s.keeps (s.recordExpired r) := by
  unfold State.recordExpired
  split
  · split
    · exact .refl s
    · split
      · exact .refl s
      · exact s.closeHold_keeps _
  · split
    · exact .refl s
    · split
      · exact .refl s
      · exact s.closeCircular_keeps _ _

theorem closeAllCircular_keeps (l : List Record) : ∀ s : State, s.keeps (closeAllCircular l s) := by
  induction l with
  | nil => exact .refl
  | cons r l ih => exact fun s => (s.closeCircular_keeps r _).trans (ih _)

theorem State.restartReception_keeps (s : State) : s.keeps s.restartReception :=
  ((s.closeHold_keeps _).trans (closeAllCircular_keeps _ _)).trans (.of_same rfl rfl rfl)

theorem State.clashTest_keeps (s : State) (f : Frame) : s.keeps (s.clashTest f) := by
  unfold State.clashTest
  split
  · exact .refl s
  · split
    · exact .of_line id rfl rfl
    · exact .refl s

theorem State.frameEnds_keeps (s : State) (f : Frame) : s.keeps (s.frameEnds f) :=
  (s.clashTest_keeps f).trans (.of_line id rfl rfl)

theorem State.handIndividual_keeps (s : State) (f : Frame) {judge : State → State × AnswerCode}
    (h : ∀ t : State, t.keeps (judge t).1) : s.keeps (s.handIndividual f judge) := by
  unfold State.handIndividual
  split
  · dsimp only
    split
    · exact s.frameEnds_keeps f
    · exact ((s.frameEnds_keeps f).trans (h _)).trans (.of_line id rfl rfl)
  · exact .refl s

theorem State.handCircular_keeps (s : State) (f : Frame) {act : State → State}
    (h : ∀ t : State, t.keeps (act t)) : s.keeps (s.handCircular f act) := by
  unfold State.handCircular
  split
  · exact (s.frameEnds_keeps f).trans (h _)
  · exact .refl s

end Sys2Proof.Machine
end

section
/-! SUPPORT. Every command, and the block's own step, keeps the ranges of the line unit, the ring's form and the
sound store; a command moreover leaves the queue of waiting commands. -/
namespace Sys2Proof.Machine

/-! ### The mechanisms, the panel and the configuration -/

theorem State.motorJudged_keeps (s : State) : s.keeps s.motorJudged := by
  unfold State.motorJudged
  split
  · exact .of_same rfl rfl rfl
  · exact .refl s

theorem State.tapeRunsOut_keeps (s : State) : s.keeps s.tapeRunsOut := by
  unfold State.tapeRunsOut
  dsimp only
  split
  · exact .of_same rfl rfl rfl
  · split <;> exact .of_same rfl rfl rfl

theorem State.punchCompletes_keeps (s : State) (sense : Code) (feedHole : Bool) :
    s.keeps (s.punchCompletes sense feedHole) := by
  unfold State.punchCompletes
  split
  · exact .refl s
  · split
    · exact .of_same rfl rfl rfl
    · split <;> exact .of_same rfl rfl rfl

theorem State.punchOff_keeps (s : State) : s.keeps s.punchOff :=
  (State.resumeLocal_keeps _).after (.of_store rfl rfl Store.removePunchAll_wf Store.sound.removePunchAll)

theorem State.punchOn_keeps (s : State) : s.keeps s.punchOn := by
  unfold State.punchOn
  split
  · exact s.punchLocalBegins_keeps
  · exact .refl s

theorem State.withPhase_keeps (s : State) (p : ReadPhase) : s.keeps (s.withPhase p) := .of_same rfl rfl rfl

theorem State.reportStart_keeps (s : State) (fault : Bool) : s.keeps (s.reportStart fault) := by
  unfold State.reportStart
  split
  · exact .of_same rfl rfl rfl
  · dsimp only
    split <;> exact .of_same rfl rfl rfl

theorem State.readEnds_keeps (s : State) (image : Option (List Byte)) : s.keeps (s.readEnds image) := by
  have localPart : ∀ (t : State) (fault : Bool), t.keeps (if fault = true then t.beginLocal else t) := by
    intro t fault
    split
    · exact t.beginLocal_keeps
    · exact .refl t
  have tapePart : ∀ t : State, t.keeps (if t.punch.tapeOut = true then t.tapeRunsOut else t) := by
    intro t
    split
    · exact t.tapeRunsOut_keeps
    · exact .refl t
  unfold State.readEnds
  dsimp only
  refine (State.settle_keeps _).after ((tapePart _).after ((localPart _ _).after ?_))
  exact (State.reportStart_keeps _ _).after (.of_same rfl rfl rfl)

theorem State.restartAll_keeps (s : State) : s.keeps s.restartAll := by
  have hcut : s.keeps ((s.log .restart {}).withLine { s.line.cut with clash := false }) :=
    .of_line (fun h => h.cut) rfl rfl
  exact .trans ((hcut.trans (State.restartReception_keeps _)).trans (State.restartSending_keeps _))
    (.of_same rfl rfl rfl)

theorem State.takeHanded_keeps (s : State) (key : Key) : s.keeps (s.takeHanded key) := .of_same rfl rfl rfl

/-! ### The load window and the runs -/

/-- E stays within 4096 when the window's figure does (R41). -/
theorem loadUpdate_le {e x : Nat} (he : e ≤ 4096) (hx : x ≤ 4096) : loadUpdate e x ≤ 4096 := by
  unfold loadUpdate
  omega

theorem LineUnit.bounded.windowEnds {l : LineUnit} (h : l.bounded) : l.windowEnds.bounded := by
  obtain ⟨hq, hd, hb, hw, he⟩ := h
  refine ⟨hq, hd, Nat.le_refl 0, Nat.zero_le _, loadUpdate_le he ?_⟩
  unfold loadFigure
  omega

theorem LineUnit.bounded.faultBegins {l : LineUnit} (h : l.bounded) : l.faultBegins.bounded := by
  unfold LineUnit.faultBegins
  dsimp only
  split <;> exact h.quiet (Nat.zero_le _)

theorem State.lineFaultBegins_keeps (s : State) : s.keeps s.lineFaultBegins := by
  have h : s.keeps (((s.withLine s.line.faultBegins).log .lineFault {}).notice .lineFault) :=
    .of_line (fun h => h.faultBegins) rfl rfl
  unfold State.lineFaultBegins
  dsimp only
  split
  · exact h.trans (State.reportNoAnswer_keeps _)
  · exact h

/-- What ends the reading of a frame or an answer: the receiver's part after the frame, or the answer lost. -/
def State.readingEnds (s : State) (frame answer : LineUnit) : State :=
  if s.line.readsFrame then s.withLine frame
  else if s.line.rx = .answer then (s.withLine answer).answerLost else s

theorem State.readingEnds_keeps (s : State) {frame answer : LineUnit} (hf : s.line.bounded → frame.bounded)
    (ha : s.line.bounded → answer.bounded) : s.keeps (s.readingEnds frame answer) := by
  unfold State.readingEnds
  split
  · exact State.withLine_keeps hf
  · split
    · exact (State.answerLost_keeps _).after (State.withLine_keeps ha)
    · exact .refl s

theorem State.answerBegins_keeps (s : State) : s.keeps s.answerBegins := by
  unfold State.answerBegins
  split
  · exact .refl s
  · split <;> exact .of_line id rfl rfl

/-! ### Every command -/

theorem State.poweredOn_keeps (s : State) (a b c : Bool) (n : Nat) :
    s.keeps (State.poweredOn a b c n s.pending) :=
  ⟨fun _ => ⟨Nat.zero_le _, Nat.zero_le _, Nat.le_refl _, Nat.zero_le _, Nat.zero_le _⟩, fun _ => rfl,
    fun _ => Store.reset_sound, rfl⟩

/-- Every command answers a next state, in which all of it is kept. -/
theorem exec_keeps (c : Instr) (s : State) : ∃ t : State, exec c s = .next t ∧ s.keeps t := by
  cases c with
  | powerOn => exact ⟨_, rfl, s.poweredOn_keeps _ _ _ _⟩
  | configReadAttemptFailed =>
    refine ⟨_, rfl, ?_⟩
    split
    · split <;> exact s.withPhase_keeps _
    · exact .refl s
  | configReadRetry =>
    refine ⟨_, rfl, ?_⟩
    split
    · exact s.withPhase_keeps _
    · exact .refl s
  | configReadEnd image =>
    refine ⟨_, rfl, ?_⟩
    split
    · exact s.readEnds_keeps _
    · exact s.readEnds_keeps _
    · exact .refl s
  | restart => exact ⟨_, rfl, .acting (.given s.restartAll_keeps _)⟩
  | lineFree => exact ⟨_, rfl, .whenLive (State.withLine_keeps fun h => h.quiet (Nat.le_refl 14))⟩
  | lineFault => exact ⟨_, rfl, .acting (.given s.lineFaultBegins_keeps _)⟩
  | loadWindowEnd =>
    refine ⟨_, rfl, .whenLive ?_⟩
    have h : s.keeps (s.withLine s.line.windowEnds) := State.withLine_keeps fun h => h.windowEnds
    dsimp only
    split
    · exact h.trans (State.latchCleared_keeps _)
    · exact h
  | framingError =>
    exact ⟨_, rfl, .acting (s.readingEnds_keeps (fun h => h.discard.hunt.quiet (by decide))
      fun h => h.hunt.quiet (by decide))⟩
  | truncation =>
    exact ⟨_, rfl, .acting (s.readingEnds_keeps
      (fun h => h.discard.hunt.quiet (Nat.max_le.mpr ⟨by decide, h.1⟩))
      fun h => h.hunt.quiet (Nat.max_le.mpr ⟨by decide, h.1⟩))⟩
  | malformedFrame =>
    exact ⟨_, rfl, .whenLive (.given (f := fun s => s.withLine s.line.discardFrame)
      (State.withLine_keeps fun h => h.discard.hunt) _)⟩
  | checkFailure =>
    exact ⟨_, rfl, .whenLive (.given (f := fun s => s.withLine s.line.discardFrame)
      (State.withLine_keeps fun h => h.discard.hunt) _)⟩
  | breakRead =>
    exact ⟨_, rfl, .acting (s.readingEnds_keeps (fun h => h.hunt.quiet (Nat.zero_le _))
      fun h => h.hunt.quiet (Nat.zero_le _))⟩
  | textSection f =>
    exact ⟨_, rfl, .acting (.given (f := fun s => s.handIndividual f fun s => s.judgeText f)
      (s.handIndividual_keeps f fun t => t.judgeText_keeps f) _)⟩
  | circularFirstSection f =>
    exact ⟨_, rfl, .acting (.given (f := fun s => s.handCircular f fun s => s.circularFirst f)
      (s.handCircular_keeps f fun t => t.circularFirst_keeps f) _)⟩
  | circularContinuation f =>
    exact ⟨_, rfl, .acting (.given (f := fun s => s.handCircular f fun s => s.circularNext f)
      (s.handCircular_keeps f fun t => t.circularNext_keeps f) _)⟩
  | who f =>
    exact ⟨_, rfl, .acting (.given (f := fun s => s.handIndividual f fun s => s.judgeWho f)
      (s.handIndividual_keeps f fun t => t.judgeRequest_keeps f _ _) _)⟩
  | enquire f =>
    exact ⟨_, rfl, .acting (.given (f := fun s => s.handIndividual f fun s => s.judgeEnquire f)
      (s.handIndividual_keeps f fun t => t.judgeRequest_keeps f _ _) _)⟩
  | ident f =>
    exact ⟨_, rfl, .acting (.given
      (f := fun s => s.handIndividual f fun s => s.judgeReply f (.ident f.origin f.text))
      (s.handIndividual_keeps f fun t => t.judgeReply_keeps f _) _)⟩
  | status f =>
    exact ⟨_, rfl, .acting (.given
      (f := fun s => s.handIndividual f fun s => s.judgeReply f (.status f.origin f.text))
      (s.handIndividual_keeps f fun t => t.judgeReply_keeps f _) _)⟩
  | release f =>
    refine ⟨_, rfl, .acting (.given (f := fun s => if isCircular f then s.handCircular f fun s => s.actRelease f
      else s.handIndividual f fun s => (s.actRelease f, .accept)) ?_ _)⟩
    split
    · exact s.handCircular_keeps f fun t => t.actRelease_keeps f
    · exact s.handIndividual_keeps f fun t => t.actRelease_keeps f
  | recordTimerExpiry r => exact ⟨_, rfl, .acting (s.recordExpired_keeps r)⟩
  | answerStart => exact ⟨_, rfl, .whenLive (.given s.answerBegins_keeps _)⟩
  | answerEchoMismatch =>
    exact ⟨_, rfl, .whenLive (.given (f := fun s => s.withLine s.line.hunt) (State.withLine_keeps .hunt) _)⟩
  | startCellDriven =>
    refine ⟨_, rfl, .whenLive (.given (f := fun s => match s.offer with
      | none => s
      | some (c, f) => { s with line := s.line.contend f, send := s.send.putOnLine c }) ?_ _)⟩
    split
    · exact .refl s
    · exact .of_line (fun h => h.quiet (Nat.zero_le _)) rfl rfl
  | loss =>
    exact ⟨_, rfl, .whenLive (.given (f := fun s => (s.withLine s.line.txIdle).reportLoss)
      ((State.reportLoss_keeps _).after (State.withLine_keeps .txIdle)) _)⟩
  | arbitrationWon =>
    exact ⟨_, rfl, .whenLive (.given (f := fun s => s.withLine { s.line with tx := .send })
      (State.withLine_keeps id) _)⟩
  | collision =>
    exact ⟨_, rfl, .acting (.given (f := fun s => (s.withLine s.line.txIdle.hunt).reportNoAnswer)
      ((State.reportNoAnswer_keeps _).after (State.withLine_keeps fun h => h.txIdle.hunt)) _)⟩
  | individualFrameSent =>
    exact ⟨_, rfl, .whenLive (.given (f := fun s => s.withLine s.line.awaits) (State.withLine_keeps id) _)⟩
  | circularFrameCompleted =>
    exact ⟨_, rfl, .acting (.given (f := fun s => (s.withLine s.line.txIdle.readyRx).reportDone)
      ((State.reportDone_keeps _).after (State.withLine_keeps fun h => h.txIdle.readyRx)) _)⟩
  | accept => exact ⟨_, rfl, State.answered_keeps State.reportDone_keeps s⟩
  | duplicate => exact ⟨_, rfl, State.answered_keeps State.reportDone_keeps s⟩
  | wait => exact ⟨_, rfl, State.answered_keeps State.reportWait_keeps s⟩
  | engaged => exact ⟨_, rfl, State.answered_keeps State.reportEngaged_keeps s⟩
  | refuse => exact ⟨_, rfl, State.answered_keeps State.reportRefuse_keeps s⟩
  | answerGarbled => exact ⟨_, rfl, State.answered_keeps State.reportNoAnswer_keeps s⟩
  | answerWindowEnd =>
    exact ⟨_, rfl, .acting (.given (f := fun s => (s.withLine s.line.readyRx).answerLost)
      ((State.answerLost_keeps _).after (State.withLine_keeps .readyRx)) _)⟩
  | breakSignalEnd =>
    exact ⟨_, rfl, .whenLive (.given (f := fun s => s.withLine s.line.txIdle) (State.withLine_keeps .txIdle) _)⟩
  | delayTimerExpiry r => exact ⟨_, rfl, .whenLive (s.withSend_keeps _)⟩
  | replyWatchExpiry slot =>
    refine ⟨_, rfl, .acting ?_⟩
    split
    · exact .refl s
    · exact .of_same rfl rfl rfl
  | keyClosure k => exact ⟨_, rfl, .whenLive (s.closeKey_keeps k)⟩
  | keyRelease k => exact ⟨_, rfl, .whenLive (s.openKey_keeps k)⟩
  | textKey => exact ⟨_, rfl, .acting (.takeHead (f := fun k s => s.takeText k) s.takeText_keeps _)⟩
  | hereIs => exact ⟨_, rfl, .acting (.takeHead (f := fun k s => s.takeText k) s.takeText_keeps _)⟩
  | erase => exact ⟨_, rfl, .acting (.takeHead (f := fun _ s => s.takeErase) (fun _ => s.takeErase_keeps) _)⟩
  | endKey => exact ⟨_, rfl, .acting (.takeHead (f := fun _ s => s.takeEnd) (fun _ => s.takeEnd_keeps) _)⟩
  | dest => exact ⟨_, rfl, .acting (.takeHead (f := fun k s => s.takeDest k) s.takeDest_keeps _)⟩
  | destinationDigit =>
    exact ⟨_, rfl, .acting (.takeHead (f := fun k s => s.takeDestDigit ((digitOf k).getD 0))
      (fun _ => s.takeDestDigit_keeps _) _)⟩
  | whoKey =>
    exact ⟨_, rfl, .acting (.takeHead (f := fun _ s => s.takeRequest .who) (fun _ => s.takeRequest_keeps _) _)⟩
  | enq =>
    exact ⟨_, rfl, .acting (.takeHead (f := fun _ s => s.takeRequest .enquire) (fun _ => s.takeRequest_keeps _) _)⟩
  | mode => exact ⟨_, rfl, .acting (.takeHead (f := fun _ s => s.takeMode) (fun _ => s.takeMode_keeps) _)⟩
  | time => exact ⟨_, rfl, .acting (.takeHead (f := fun _ s => s.takeTime) (fun _ => s.takeTime_keeps) _)⟩
  | timeDigit =>
    exact ⟨_, rfl, .acting (.takeHead (f := fun k s => s.takeTimeDigit ((digitOf k).getD 0))
      (fun _ => s.takeTimeDigit_keeps _) _)⟩
  | breakKey => exact ⟨_, rfl, .acting ((State.takeBreak_keeps _).after (s.takeHanded_keeps _))⟩
  | openingRepeated => exact ⟨_, rfl, .acting s.repeatOpening_keeps⟩
  | blockRequestRepeated => exact ⟨_, rfl, .acting s.repeatBlock_keeps⟩
  | localCodeResumed => exact ⟨_, rfl, .acting s.resumeLocal_keeps⟩
  | idleReleaseExpiry => exact ⟨_, rfl, .whenLive s.idleRelease_keeps⟩
  | autoEndExpiry => exact ⟨_, rfl, .acting s.autoEndExpires_keeps⟩
  | attend =>
    exact ⟨_, rfl, .acting ((State.notice_keeps _ _).after ((State.motorJudged_keeps _).after
      (.of_same rfl rfl rfl)))⟩
  | print => exact ⟨_, rfl, .acting (.of_same rfl rfl rfl)⟩
  | punch =>
    refine ⟨_, rfl, .acting ?_⟩
    dsimp only
    split
    · exact (State.punchOn_keeps _).after (.of_same rfl rfl rfl)
    · exact (State.punchOff_keeps _).after (.of_same rfl rfl rfl)
  | level => exact ⟨_, rfl, .acting (.of_same rfl rfl rfl)⟩
  | paperFeed =>
    refine ⟨_, rfl, .acting ?_⟩
    dsimp only
    split <;> exact .of_same rfl rfl rfl
  | tapeFeed =>
    refine ⟨_, rfl, .acting ?_⟩
    dsimp only
    split <;> exact .of_same rfl rfl rfl
  | tapeFeedRelease => exact ⟨_, rfl, .acting (.of_same rfl rfl rfl)⟩
  | punchResume =>
    refine ⟨_, rfl, .acting ?_⟩
    dsimp only
    split <;> exact .of_same rfl rfl rfl
  | journal shift =>
    refine ⟨_, rfl, .acting ?_⟩
    dsimp only
    split <;> exact .of_same rfl rfl rfl
  | printOperationComplete => exact ⟨_, rfl, .acting s.printCompletes_keeps⟩
  | motorStartComplete => exact ⟨_, rfl, .acting s.printCompletes_keeps⟩
  | motorStopComplete => exact ⟨_, rfl, .acting s.printCompletes_keeps⟩
  | motorIdleExpiry => exact ⟨_, rfl, .acting s.motorJudged_keeps⟩
  | echoIdleExpiry => exact ⟨_, rfl, .acting (.of_same rfl rfl rfl)⟩
  | paperOut => exact ⟨_, rfl, .of_same rfl rfl rfl⟩
  | paperPresent => exact ⟨_, rfl, .of_same rfl rfl rfl⟩
  | punchOperationComplete sense feedHole => exact ⟨_, rfl, .acting (s.punchCompletes_keeps sense feedHole)⟩
  | tapeOut =>
    refine ⟨_, rfl, ?_⟩
    split
    · exact s.tapeRunsOut_keeps.trans (State.settle_keeps _)
    · exact .of_same rfl rfl rfl
  | tapePresent => exact ⟨_, rfl, .of_same rfl rfl rfl⟩
  | tapeLow => exact ⟨_, rfl, .of_same rfl rfl rfl⟩
  | tapeLowCleared => exact ⟨_, rfl, (State.settle_keeps _).after (.of_same rfl rfl rfl)⟩
  | dayClockDividerExpiry => exact ⟨_, rfl, .of_same rfl rfl rfl⟩
  | lampFlash => exact ⟨_, rfl, .whenLive (.of_same rfl rfl rfl)⟩
  | frameStartCell =>
    exact ⟨_, rfl, .whenLive (.given (f := fun s => s.withLine s.line.startRead)
      (State.withLine_keeps fun h => h.quiet (Nat.zero_le _)) _)⟩
  | frameNotHandedOn f =>
    exact ⟨_, rfl, .acting (.given (f := fun s => s.frameEnds f) (s.frameEnds_keeps f) _)⟩
  | answerComplete =>
    exact ⟨_, rfl, .whenLive (.given (f := fun s => s.withLine s.line.readyRx) (State.withLine_keeps .readyRx) _)⟩
  | restartContactOpened => exact ⟨_, rfl, .of_same rfl rfl rfl⟩

/-! ### The block's own step -/

/-- One cell reaches the line unit and the timers alone: the receiver and transmitter leave the counts. -/
theorem State.lineCell_counts (s : State) (drove read : Level) :
    (s.line.bounded → (s.lineCell drove read).1.line.bounded) ∧ (s.lineCell drove read).1.store = s.store := by
  unfold State.lineCell
  dsimp only
  split
  · exact ⟨id, rfl⟩
  · split
    · exact ⟨id, rfl⟩
    · exact ⟨id, rfl⟩
    · exact ⟨id, rfl⟩
    · split
      · unfold LineUnit.answerEcho
        split <;> exact ⟨id, rfl⟩
      · exact ⟨id, rfl⟩

/-- A cell counted in a window that is not yet whole keeps the ranges (R16, R40). -/
theorem LineUnit.bounded.countCell {l : LineUnit} (h : l.bounded) (hw : l.windowCells < 256) (read : Level) :
    (l.countCell read).bounded := by
  obtain ⟨hq, hd, hb, -, he⟩ := h
  unfold LineUnit.countCell
  refine ⟨?_, hd, ?_, hw, he⟩
  · dsimp only
    split
    · exact Nat.zero_le _
    · exact Nat.min_le_left _ _
  · dsimp only
    split <;> omega

theorem State.waitCells_store (s : State) : s.waitCells.store = s.store := by
  unfold State.waitCells
  split <;> rfl

theorem State.passCell_counts {s : State} (hw : s.line.windowCells < 256) :
    (s.line.bounded → s.passCell.1.line.bounded) ∧ s.passCell.1.store = s.store := by
  unfold State.passCell
  dsimp only
  refine ⟨fun h => (State.lineCell_counts _ _ _).1 ?_, (State.lineCell_counts _ _ _).2.trans s.waitCells_store⟩
  dsimp only
  split <;> exact h.countCell hw _

theorem orElse_eq_none {α : Type} (a b : Option α) : orElse a b = none ↔ a = none ∧ b = none := by
  cases a <;> simp [orElse]

/-- After the read the block's own command is a key handed on, else the composer's, else the line unit's. -/
theorem State.ownCommand_live {s : State} (h : s.panel.phase = .done) : s.ownCommand =
    orElse (s.kb.handed.head?.bind commandOfHanded) (orElse s.composerCommand s.lineCommand) := by
  unfold State.ownCommand
  rw [h]

/-- A cell passes only with a load window that is not yet whole, whose end comes first (R40). -/
theorem State.window_open {s : State} (ho : s.ownCommand = none) (hl : s.live = true) :
    s.line.windowCells < 256 := by
  rw [State.ownCommand_live (s.live_iff.mp hl), orElse_eq_none, orElse_eq_none] at ho
  by_contra hw
  have hc : s.lineCommand = some .loadWindowEnd := if_pos (Nat.le_of_not_lt hw)
  rw [hc] at ho
  cases ho.2.2

/-- The block's own step leaves the store, and keeps the ranges of the line unit. -/
theorem State.tick_counts (s : State) : (s.line.bounded → s.tick.line.bounded) ∧ s.tick.store = s.store := by
  unfold State.tick
  split
  · exact ⟨id, rfl⟩
  · rename_i ho
    split
    · rename_i hl
      exact State.passCell_counts (State.window_open ho hl)
    · unfold State.tickRead
      split <;> exact ⟨id, rfl⟩

/-- Every step keeps the ranges of the line unit, the ring's form and the sound store. -/
theorem step_keeps_forms {s t : State} (h : step s = .next t) :
    (s.line.bounded → t.line.bounded) ∧ (s.store.wf = true → t.store.wf = true) ∧
    (s.store.sound → t.store.sound) := by
  unfold step at h
  split at h
  · cases h
    obtain ⟨hl, hs⟩ := s.tick_counts
    exact ⟨hl, fun hw => hs ▸ hw, fun hw => hs ▸ hw⟩
  · rename_i c rest hp
    obtain ⟨u, hu, hk⟩ := exec_keeps c { s with pending := rest }
    rw [hu] at h
    cases h
    exact ⟨hk.line, hk.form, hk.sound⟩

end Sys2Proof.Machine
end

section
/-! SUPPORT. What the operations of a sound store leave, and that every step keeps the forms (R53 to R62, R16, R26,
R40, R42). -/
namespace Sys2Proof.Machine

/-! ### Allocation -/

/-- The number of an entry's next block: 0 for the first, else the last one plus 1 plus the gap-before (R60). -/
theorem Store.nextSection_of {st : Store} {e : Entry} {gap n : Nat}
    (h : e.chain = [] ∧ n = 0 ∨ ∃ l, e.chain.getLast? = some l ∧ n = (st.block l).secNo + 1 + gap) :
    st.nextSection e gap = n := by
  unfold Store.nextSection
  rcases h with ⟨hc, rfl⟩ | ⟨l, hl, rfl⟩
  · rw [hc]; rfl
  · rw [hl]

/-- Two rewritings of a slot's entry are one. -/
theorem atSlot_atSlot (slot : Nat) {f g : Entry → Entry} (hf : ∀ e, (f e).slot = e.slot) (l : List Entry) :
    (l.map (atSlot slot f)).map (atSlot slot g) = l.map (atSlot slot fun e => g (f e)) := by
  rw [List.map_map]
  refine List.map_congr_left fun e _ => ?_
  by_cases he : e.slot = slot
  · simp [atSlot, he, hf]
  · simp [atSlot, he]

theorem Store.sound.allocate_leaves {st : Store} (h : st.sound) {slot : Nat} {e : Entry}
    (he : st.entry slot = some e) (hf : 0 < st.free) {gap n : Nat} (hn : st.nextSection e gap = n)
    (codes : List Code) (rel : Bool) :
    st.allocated (st.allocate slot gap codes rel)
      { state := .live, owner := slot, secNo := n, gap := gap, codes := codes, released := rel } ∧
    st.sameQueues (st.allocate slot gap codes rel) ∧
    (st.allocate slot gap codes rel).dir = st.dirWith { e with chain := e.chain ++ [st.head] } := by
  obtain ⟨-, ha, hd, hq⟩ := h.allocate he hf gap codes rel
  refine ⟨hn ▸ ha, hq, ?_⟩
  rw [hd]
  exact h.dirWith he _ (Store.entry_mem he).2

theorem Store.sound.storeSection_leaves {st : Store} (h : st.sound) {slot : Nat} {e : Entry}
    (he : st.entry slot = some e) (hf : 0 < st.free) {gap n : Nat} (hn : st.nextSection e gap = n)
    (codes : List Code) :
    st.allocated (st.storeSection slot gap codes)
      { state := .live, owner := slot, secNo := n, gap := gap, codes := codes, released := true } ∧
    st.sameQueues (st.storeSection slot gap codes) ∧
    (st.storeSection slot gap codes).dir = st.dirWith { e with
      chain := e.chain ++ [st.head], sections := e.sections + 1
      reason := if 0 < gap then some .gap else e.reason } := by
  obtain ⟨-, ha, hd, hq⟩ := h.allocate he hf gap codes true
  refine ⟨hn ▸ ⟨ha.block, ha.others, ha.head, ha.tail, ha.free⟩, hq, ?_⟩
  show (st.allocate slot gap codes true).dir.map (atSlot slot _) = _
  rw [hd, atSlot_atSlot slot (f := fun x => { x with chain := x.chain ++ [st.head] }) fun _ => rfl]
  exact h.dirWith he _ (Store.entry_mem he).2

/-! ### The open block -/

theorem Store.setOpenCodes_of {st : Store} {slot b : Nat} (hb : st.openBlock slot = some b) (codes : List Code) :
    st.setOpenCodes slot codes = st.setBlock b { st.block b with codes := codes } := by
  simp [Store.setOpenCodes, hb]

theorem Store.releaseOpen_of {st : Store} {slot b : Nat} (hb : st.openBlock slot = some b) (final : Bool) :
    st.releaseOpen slot final = (st.setBlock b { st.block b with released := true }).updateEntry slot fun e =>
      { e with sections := e.sections + 1, state := if final then .closed else e.state } := by
  simp [Store.releaseOpen, hb]

/-! ### Closing, removing, abandoning -/

/-- An entry closed, the reason of the closing before its own (R57, R74). -/
def Entry.closedFor (why : Option Reason) (e : Entry) : Entry :=
  { e with state := .closed, reason := why.or e.reason }

theorem Store.closeEntry_eq (st : Store) (slot : Nat) (why : Option Reason) :
    st.closeEntry slot why = (st.updateEntry slot (Entry.closedFor why)).freeIfDone slot := by
  cases why <;> rfl

/-- An entry closed without SEND, as an abandonment leaves it (R59, R61). -/
def Entry.abandoned (e : Entry) : Entry := { e with state := .closed, oblSend := false }

theorem Store.sound.closeEntry_leaves {st : Store} (h : st.sound) {slot : Nat} {e : Entry}
    (he : st.entry slot = some e) (why : Option Reason) :
    (hasObligation e = true → st.closeEntry slot why = { st with
      dir := st.dirWith { e with state := .closed, reason := why.or e.reason } }) ∧
    (hasObligation e = false → st.freed (st.closeEntry slot why) e ∧ st.sameQueues (st.closeEntry slot why)) := by
  obtain ⟨hp, hq, hfreed, hstays⟩ := h.finish he (Entry.closedFor why) (Store.entry_mem he).2 rfl st.printQ
    st.punchQ (h.updateEntry slot (Entry.closedFor why) (fun _ => rfl) (fun _ => rfl) (fun _ => rfl) fun _ => rfl)
  rw [Store.closeEntry_eq]
  refine ⟨fun ho => hstays fun hd => ?_, fun ho => ⟨hfreed rfl ho, hp, hq⟩⟩
  cases ho.symm.trans hd.2

theorem Store.sound.abandonEntry_leaves {st : Store} (h : st.sound) {slot : Nat} {e : Entry}
    (he : st.entry slot = some e) :
    (e.oblPrint = true ∨ e.oblPunch = true → st.abandonEntry slot = { st with
      dir := st.dirWith { e with state := .closed, oblSend := false } }) ∧
    (e.oblPrint = false → e.oblPunch = false → st.freed (st.abandonEntry slot) e ∧
      st.sameQueues (st.abandonEntry slot)) := by
  have ho : hasObligation e.abandoned = (e.oblPrint || e.oblPunch) := by simp [hasObligation, Entry.abandoned]
  obtain ⟨hp, hq, hfreed, hstays⟩ := h.finish he Entry.abandoned (Store.entry_mem he).2 rfl st.printQ st.punchQ
    (h.updateEntry slot Entry.abandoned (fun _ => rfl) (fun _ => rfl) (fun _ => rfl) fun _ => rfl)
  refine ⟨fun hc => hstays fun hd => ?_, fun h1 h2 => ⟨hfreed rfl (by rw [ho, h1, h2]; rfl), hp, hq⟩⟩
  rw [ho, Bool.or_eq_false_iff] at hd
  rcases hc with hc | hc
  · rw [hc] at hd; cases hd.2.1
  · rw [hc] at hd; cases hd.2.2

theorem Store.sound.removeObligation_leaves {st : Store} (h : st.sound) {slot : Nat} {e : Entry}
    (he : st.entry slot = some e) (o : Obligation) :
    (e.state = .closed → hasObligation (clearObligation o e) = false →
      st.freed (st.removeObligation o slot) e) ∧
    (¬ (e.state = .closed ∧ hasObligation (clearObligation o e) = false) →
      (st.removeObligation o slot).dir = st.dirWith (clearObligation o e) ∧
      st.removeObligation o slot = { st with
        dir := (st.removeObligation o slot).dir
        printQ := (st.removeObligation o slot).printQ, punchQ := (st.removeObligation o slot).punchQ }) ∧
    (st.removeObligation o slot).printQ
      = (if o = .print then st.printQ.filter (fun x => x != slot) else st.printQ) ∧
    (st.removeObligation o slot).punchQ
      = (if o = .punch then st.punchQ.filter (fun x => x != slot) else st.punchQ) := by
  obtain ⟨p, q, hleft, rfl, rfl⟩ : ∃ p q, (st.updateEntry slot (clearObligation o)).leaveQueue o slot
      = { st with dir := st.dir.map (atSlot slot (clearObligation o)), printQ := p, punchQ := q } ∧
      p = (if o = .print then st.printQ.filter (fun x => x != slot) else st.printQ) ∧
      q = (if o = .punch then st.punchQ.filter (fun x => x != slot) else st.punchQ) :=
    ⟨_, _, by cases o <;> rfl, rfl, rfl⟩
  have hu := h.toordered.clear o slot
  rw [hleft] at hu
  have hstate : (clearObligation o e).state = e.state := by cases o <;> rfl
  have hr : st.removeObligation o slot
      = ((st.updateEntry slot (clearObligation o)).leaveQueue o slot).freeIfDone slot := rfl
  rw [hleft] at hr
  obtain ⟨hp, hq, hfreed, hstays⟩ := h.finish he (clearObligation o)
    ((clearObligation_slot o e).trans (Store.entry_mem he).2) (clearObligation_chain o e) _ _ ⟨hu, h.tailLive⟩
  rw [hstate] at hfreed hstays
  rw [← hr] at hp hq hfreed hstays
  refine ⟨hfreed, fun hn => ?_, hp, hq⟩
  rw [hstays hn]
  exact ⟨rfl, rfl⟩

/-! ### New entries -/

theorem Store.freeSlot_lt (st : Store) : st.freeSlot < 32 := by
  unfold Store.freeSlot
  cases hf : (List.range Config.entries).find? fun n => !(st.dir.any fun e => e.slot == n) with
  | none => exact Nat.zero_lt_succ _
  | some n => exact List.mem_range.mp (List.mem_of_find?_eq_some hf)

theorem Store.entry_freeSlot {st : Store} (h : st.dir.length < 32) : st.entry st.freeSlot = none :=
  List.find?_eq_none.mpr fun e he => by simpa using Store.freeSlot_fresh h e he

/-- A new entry at the end of the directory, rewritten there. -/
theorem dirWith_append {st u : Store} {e e' : Entry} (hu : u.dir = st.dir ++ [e])
    (hs : ∀ x ∈ st.dir, x.slot ≠ e.slot) (he : e'.slot = e.slot) : u.dirWith e' = st.dir ++ [e'] := by
  have hold : (st.dir.map fun x => if x.slot = e'.slot then e' else x) = st.dir := by
    conv_rhs => rw [← List.map_id st.dir]
    exact List.map_congr_left fun x hx => if_neg fun hx' => hs x hx (hx'.trans he)
  rw [Store.dirWith, hu, List.map_append, hold]
  simp [he]

/-- An allocation to an entry just created, seen from the store before. -/
theorem Store.allocated.before {st u v : Store} {b : Block} (h : u.allocated v b) (hr : u.ring = st.ring)
    (hh : u.head = st.head) (ht : u.tail = st.tail) (hf : u.free = st.free) : st.allocated v b := by
  have hblk : ∀ n, u.block n = st.block n := fun n => by rw [Store.block, hr]; rfl
  exact ⟨hh ▸ h.block, fun n hn => (h.others n (hh.symm ▸ hn)).trans (hblk n), hh ▸ h.head, h.tail.trans ht,
    h.free.trans hf⟩

/-- The entry of a received message, before its first section (R57, R58). -/
def Entry.arrived (slot origin number cls : Nat) (pr pu : Bool) : Entry :=
  { slot := slot, outgoing := false, peer := origin, number := number, cls := cls, state := .receiving
    chain := [], sections := 0, reason := none, oblPrint := receivedPrint pr pu, oblPunch := pu, oblSend := false }

theorem Store.sound.storeFirst_leaves {st : Store} (h : st.sound) (hd : st.dir.length < 32) (hf : 0 < st.free)
    (origin number cls : Nat) (pr pu : Bool) (codes : List Code) :
    st.allocated (st.storeFirst origin number cls pr pu codes)
      { state := .live, owner := st.freeSlot, secNo := 0, gap := 0, codes := codes, released := true } ∧
    (st.storeFirst origin number cls pr pu codes).dir = st.dir ++ [{
      slot := st.freeSlot, outgoing := false, peer := origin, number := number, cls := cls, state := .receiving
      chain := [st.head], sections := 1, reason := none, oblPrint := pr || !pu, oblPunch := pu
      oblSend := false }] ∧
    (st.storeFirst origin number cls pr pu codes).printQ
      = (if pr = true ∨ pu = false then st.printQ ++ [st.freeSlot] else st.printQ) ∧
    (st.storeFirst origin number cls pr pu codes).punchQ
      = (if pu = true then st.punchQ ++ [st.freeSlot] else st.punchQ) := by
  have hs := Store.freeSlot_fresh hd
  obtain ⟨ha, hq, hdir⟩ := (h.createReceived hd origin number cls pr pu).storeSection_leaves
    (Store.entry_append (e := Entry.arrived st.freeSlot origin number cls pr pu) hs _ _) hf
    (Store.nextSection_of (.inl ⟨rfl, rfl⟩)) codes
  refine ⟨ha.before rfl rfl rfl rfl, ?_, hq.1.trans ?_, hq.2⟩
  · refine hdir.trans ?_
    exact dirWith_append rfl hs rfl
  · cases pr <;> cases pu <;> rfl

/-- The entry of a message just opened, before its first block (R61). -/
def Entry.opened (slot dest number cls : Nat) : Entry :=
  { slot := slot, outgoing := true, peer := dest, number := number, cls := cls, state := .composing
    chain := [], sections := 0, reason := none, oblPrint := false, oblPunch := false, oblSend := true }

theorem Store.sound.openMessage_leaves {st : Store} (h : st.sound) (hd : st.dir.length < 32) (hf : 0 < st.free)
    (dest number cls : Nat) :
    st.allocated (st.openMessage dest number cls)
      { state := .live, owner := st.freeSlot, secNo := 0, gap := 0, codes := [], released := false } ∧
    st.sameQueues (st.openMessage dest number cls) ∧
    (st.openMessage dest number cls).dir = st.dir ++ [{
      slot := st.freeSlot, outgoing := true, peer := dest, number := number, cls := cls, state := .composing
      chain := [st.head], sections := 0, reason := none, oblPrint := false, oblPunch := false
      oblSend := true }] := by
  have hs := Store.freeSlot_fresh hd
  have happ := h.append (Entry.opened st.freeSlot dest number cls) hs rfl
  obtain ⟨ha, hq, hdir⟩ := happ.allocate_leaves
    (Store.entry_append (e := Entry.opened st.freeSlot dest number cls) hs st.printQ st.punchQ) hf
    (Store.nextSection_of (gap := 0) (.inl ⟨rfl, rfl⟩)) [] false
  refine ⟨ha.before rfl rfl rfl rfl, hq, ?_⟩
  refine hdir.trans ?_
  exact dirWith_append rfl hs rfl

/-! ### The obligation -/

/-- Settles O57: each command's parts keep the forms, and the store's operations leave what the laws of the store
say. -/
theorem formsKept : Obligations.FormsKept := by
  refine ⟨fun s t h => step_keeps_forms h, fun st slot e h he => ⟨?_, ?_, ?_, h.closeEntry_leaves he,
    h.removeObligation_leaves he, h.abandonEntry_leaves he⟩, fun st h hd hf => ⟨Store.entry_freeSlot hd,
    st.freeSlot_lt, h.storeFirst_leaves hd hf, h.openMessage_leaves hd hf⟩⟩
  · intro gap codes n hf hn
    have hn := Store.nextSection_of hn
    exact ⟨h.allocate_leaves he hf hn codes, h.storeSection_leaves he hf hn codes⟩
  · intro b
    rw [Store.openBlock_some, he]
    simp
  · intro b hb
    refine ⟨fun codes => ?_, fun final => ?_⟩
    · rw [Store.setOpenCodes_of hb]
      exact ⟨Store.block_setBlock_same h.form _ _, fun m hm => Store.block_setBlock_other h.form _ _ _ hm, rfl⟩
    · rw [Store.releaseOpen_of hb]
      refine ⟨Store.block_setBlock_same h.form _ _, fun m hm => Store.block_setBlock_other h.form _ _ _ hm, ?_⟩
      have hdir := h.dirWith he (fun e =>
        { e with sections := e.sections + 1, state := if final then .closed else e.state }) (Store.entry_mem he).2
      rw [← hdir]
      rfl

end Sys2Proof.Machine
end

section
/-! SUPPORT. The command the block gives itself when none waits: which key, held request or cell event it comes from
(logs 1, 9, 10). -/
namespace Sys2Proof.Machine

/-! ### Keys and held requests -/

theorem commandOfHanded_of {h : Handed} {c : Instr} (hc : handedCommand h c) : commandOfHanded h = some c := by
  rcases hc with ⟨rfl, rfl⟩ | ⟨k, rfl, hk⟩
  · rfl
  · rcases hk with ⟨hk, rfl⟩ | ⟨hk, rfl⟩ | ⟨hk, rfl⟩ | ⟨hk, rfl⟩ | ⟨hk, rfl⟩ | ⟨hk, rfl⟩ | ⟨hk, rfl⟩ |
      ⟨hk, rfl⟩ | ⟨hk, rfl⟩ <;> simp [commandOfHanded, hk]

/-- A key that is a digit is a code key. -/
theorem digitOf_code {k : Keystroke} (h : (digitOf k).isSome = true) : ∃ i, k.key = .code i := by
  unfold digitOf at h
  split at h
  · rename_i i hk _
    exact ⟨i, hk⟩
  · cases h

theorem Keyboard.commandOfKey_text {kb : Keyboard} {k : Keystroke} (h : kb.takesAsText k = true) :
    kb.commandOfKey k = some .textKey := if_pos h

/-- Outside the entries a key of the queue goes to the row of its name, a text key to that of the text keys. -/
theorem Keyboard.commandOfKey_queue {kb : Keyboard} {k : Keystroke} {c : Instr} (hd : kb.inDestEntry = false)
    (ht : kb.inTimeEntry = false) (h : textCommand k c ∨ queueCommand k c) : kb.commandOfKey k = some c := by
  rcases h with (⟨hk, rfl⟩ | ⟨hk, rfl⟩) | hq
  · exact Keyboard.commandOfKey_text (by simp [Keyboard.takesAsText, hk, hd, ht])
  · simp [Keyboard.commandOfKey, Keyboard.takesAsText, isTextKey, hk]
  · rcases hq with ⟨hk, rfl⟩ | ⟨hk, rfl⟩ | ⟨hk, rfl⟩ | ⟨hk, rfl⟩ | ⟨hk, rfl⟩ | ⟨hk, rfl⟩ | ⟨hk, rfl⟩ <;>
      simp [Keyboard.commandOfKey, Keyboard.takesAsText, isTextKey, hk]

/-- In an entry a key that is no digit goes to its row. -/
theorem Keyboard.commandOfKey_entry {kb : Keyboard} {k : Keystroke} {c : Instr}
    (h : entryCommand k c ∨ k.key = .dest ∧ c = .dest) : kb.commandOfKey k = some c := by
  rcases h with (⟨hk, hd, rfl⟩ | hq) | ⟨hk, rfl⟩
  · exact Keyboard.commandOfKey_text (by simp [Keyboard.takesAsText, hk, hd])
  · rcases hq with ⟨hk, rfl⟩ | ⟨hk, rfl⟩ | ⟨hk, rfl⟩ | ⟨hk, rfl⟩ | ⟨hk, rfl⟩ | ⟨hk, rfl⟩ | ⟨hk, rfl⟩ <;>
      simp [Keyboard.commandOfKey, Keyboard.takesAsText, isTextKey, hk]
  · simp [Keyboard.commandOfKey, Keyboard.takesAsText, isTextKey, hk]

/-- In an entry a digit goes to the entry's row (R125, R126). -/
theorem Keyboard.commandOfKey_digit {kb : Keyboard} {k : Keystroke}
    (he : kb.inDestEntry = true ∨ kb.inTimeEntry = true) (hd : (digitOf k).isSome = true) :
    kb.commandOfKey k = some (if kb.inDestEntry then .destinationDigit else .timeDigit) := by
  obtain ⟨i, hk⟩ := digitOf_code hd
  have hn : kb.takesAsText k = false := by
    rcases he with he | he <;> simp [Keyboard.takesAsText, he, hd]
  cases hdest : kb.inDestEntry with
  | true => simp [Keyboard.commandOfKey, hn, hk, hdest]
  | false =>
    have htime : kb.inTimeEntry = true := he.resolve_left (by simp [hdest])
    simp [Keyboard.commandOfKey, hn, hk, hdest, htime]

theorem Punch.fifoFull_iff (p : Punch) : p.fifoFull = true ↔ 64 ≤ p.fifo.length := decide_eq_true_iff

theorem State.composerCommand_block {s : State} (h : s.kb.hold.wantsBlock) : s.composerCommand =
    if s.store.hasBlock then some .blockRequestRepeated else none := by
  rcases h with ⟨es, h⟩ | h | h <;> simp [State.composerCommand, h]

theorem State.composerTakes.command {s : State} {c : Instr} (h : s.composerTakes c) :
    s.composerCommand = some c := by
  rcases h with ⟨k, rest, hh, hq, hk⟩ | ⟨hh, ho, rfl⟩ | ⟨hh, hf, rfl⟩ | ⟨⟨x, es, hh⟩, hf, rfl⟩
  · have hc : s.composerCommand = s.kb.commandOfKey k := by simp [State.composerCommand, hh, hq]
    rw [hc]
    rcases hk with ⟨hd, ht, hk⟩ | ⟨he, hk | hk | ⟨hd, rfl⟩⟩
    · exact Keyboard.commandOfKey_queue hd ht hk
    · exact Keyboard.commandOfKey_entry (.inl hk)
    · exact Keyboard.commandOfKey_entry (.inr hk)
    · exact Keyboard.commandOfKey_digit he hd
  · simp [State.composerCommand, hh, s.canOpen_iff.mpr ho]
  · rw [State.composerCommand_block hh, s.store.hasBlock_iff.mpr hf]
    rfl
  · have hn : ¬ (s.panel.punchSel = true ∧ s.punch.fifoFull = true) := by
      rintro ⟨hp, hl⟩
      rcases hf with hf | hf
      · rw [hf] at hp; cases hp
      · exact absurd (s.punch.fifoFull_iff.mp hl) (Nat.not_le_of_lt hf)
    simp only [State.composerCommand, hh, if_neg hn]

theorem State.composerStill.command {s : State} (h : s.composerStill) : s.composerCommand = none := by
  rcases h with ⟨hh, hq⟩ | ⟨hh, ho⟩ | ⟨hh, hf⟩ | ⟨⟨x, es, hh⟩, hp, hl⟩
  · simp [State.composerCommand, hh, hq]
  · simp [State.composerCommand, hh, Bool.eq_false_iff.mpr (mt s.canOpen_iff.mp ho)]
  · have hb : ¬ s.store.hasBlock = true := by rw [s.store.hasBlock_iff, hf]; exact Nat.lt_irrefl 0
    rw [State.composerCommand_block hh, if_neg hb]
  · simp [State.composerCommand, hh, hp, s.punch.fifoFull_iff.mpr hl]

/-! ### Cell boundaries -/

theorem State.mayStart_iff (s : State) : s.mayStart = true ↔ s.line.tx = .idle ∧ s.line.rx = .ready ∧
    14 ≤ s.line.quietRun ∧ s.line.lineFault = false ∧ s.line.clash = false ∧ s.panel.configFault = false := by
  simp [State.mayStart, Config.quietCells, and_assoc]

/-- What the station offers: the first of the ready frames, built with its own number (R50, R99, R109). -/
theorem State.offer_iff (s : State) (c : Candidate) (f : Frame) : s.offer = some (c, f) ↔
    ∃ own, s.own = some own ∧ s.send.select s.line.loadE = some c ∧ s.frameOf own c = some f := by
  unfold State.offer
  cases s.own with
  | none => simp
  | some own =>
    cases hs : s.send.select s.line.loadE with
    | none => simp
    | some d =>
      simp only [Option.map_eq_some_iff, Prod.mk.injEq, Option.some.injEq, exists_eq_left']
      constructor
      · rintro ⟨g, hg, rfl, rfl⟩; exact ⟨rfl, hg⟩
      · rintro ⟨rfl, hg⟩; exact ⟨f, hg, rfl, rfl⟩

theorem State.mayDrive_iff (s : State) : s.mayDrive ↔ s.mayStart = true ∧ s.offer.isSome = true := by
  rw [State.mayStart_iff, Option.isSome_iff_exists]
  constructor
  · rintro ⟨h1, h2, h3, h4, h5, h6, own, c, f, ho⟩
    exact ⟨⟨h1, h2, h3, h4, h5, h6⟩, (c, f), (s.offer_iff c f).mpr ⟨own, ho⟩⟩
  · rintro ⟨⟨h1, h2, h3, h4, h5, h6⟩, ⟨c, f⟩, ho⟩
    obtain ⟨own, ho⟩ := (s.offer_iff c f).mp ho
    exact ⟨h1, h2, h3, h4, h5, h6, own, c, f, ho⟩

theorem State.lineCommand_eq (s : State) : s.lineCommand = if 256 ≤ s.line.windowCells then some .loadWindowEnd
    else if s.line.rx = .answer ∧ s.line.winCells = 2 ∧ s.line.answerDue.isSome = true then some .answerStart
    else if s.mayStart = true ∧ s.offer.isSome = true then some .startCellDriven else none := rfl

theorem State.lineCommand_window {s : State} (h : 256 ≤ s.line.windowCells) :
    s.lineCommand = some .loadWindowEnd := if_pos h

theorem State.lineCommand_answer {s : State} (h : s.line.windowCells < 256)
    (ha : s.line.rx = .answer ∧ s.line.winCells = 2 ∧ s.line.answerDue.isSome = true) :
    s.lineCommand = some .answerStart := by
  rw [State.lineCommand_eq, if_neg (Nat.not_le_of_lt h), if_pos ha]

theorem State.lineCommand_start {s : State} (h : s.line.windowCells < 256) (hd : s.mayDrive) :
    s.lineCommand = some .startCellDriven := by
  have ha : ¬ (s.line.rx = .answer ∧ s.line.winCells = 2 ∧ s.line.answerDue.isSome = true) := by
    rintro ⟨hr, -⟩
    cases hd.2.1.symm.trans hr
  rw [State.lineCommand_eq, if_neg (Nat.not_le_of_lt h), if_neg ha, if_pos (s.mayDrive_iff.mp hd)]

theorem State.lineCommand_none {s : State} (h : s.line.windowCells < 256)
    (ha : ¬ (s.line.rx = .answer ∧ s.line.winCells = 2 ∧ s.line.answerDue.isSome = true)) (hd : ¬ s.mayDrive) :
    s.lineCommand = none := by
  rw [State.lineCommand_eq, if_neg (Nat.not_le_of_lt h), if_neg ha, if_neg (mt s.mayDrive_iff.mpr hd)]

/-- With no key handed on and the composer still, the line unit's command is the block's own. -/
theorem State.ownCommand_line {s : State} (hl : s.panel.phase = .done) (hk : s.kb.handed = [])
    (hc : s.composerStill) : s.ownCommand = s.lineCommand := by
  rw [State.ownCommand_live hl, hk, hc.command]
  rfl

theorem step_own {s : State} {c : Instr} (hp : s.pending = []) (h : s.ownCommand = some c) :
    step s = .next { s with pending := [c] } := by
  simp [step, hp, State.tick, h]

/-- Settles O2: what each command keeps, and the branches of the block's own command. -/
theorem commandKeepsQueue : Obligations.CommandKeepsQueue := by
  refine ⟨fun c s => ?_, fun c s hp hl h => step_own hp ?_⟩
  · obtain ⟨t, ht, hk⟩ := exec_keeps c s
    exact ⟨t, ht, hk.pending⟩
  · rcases h with ⟨h, rest, hh, hc⟩ | ⟨hh, hc | ⟨hst, hc⟩⟩
    · rw [State.ownCommand_live hl, hh]
      show orElse (commandOfHanded h) _ = _
      rw [commandOfHanded_of hc]
      rfl
    · rw [State.ownCommand_live hl, hh, hc.command]
      rfl
    · rw [State.ownCommand_line hl hh hst]
      rcases hc with ⟨hw, rfl⟩ | ⟨hw, ⟨hr, hn, hd, rfl⟩ | ⟨hd, rfl⟩⟩
      · exact State.lineCommand_window hw
      · exact State.lineCommand_answer hw ⟨hr, hn, hd⟩
      · exact State.lineCommand_start hw hd

end Sys2Proof.Machine
end

section
/-! SUPPORT. What the line unit reads and the answers it sends: the command of each event of chapter 2 in the state
in which it arises (R13 to R38). -/
namespace Sys2Proof.Machine

/-! ### Power-on -/

/-- Settles O6: each block's initial state, field by field. -/
theorem powerOnInitial : Obligations.PowerOnInitial := by
  intro s
  exact ⟨_, rfl, rfl, rfl, rfl, rfl, rfl, rfl, rfl, rfl, rfl, rfl, rfl, rfl⟩

/-! ### A frame or an answer broken off -/

theorem LineUnit.driving_iff (l : LineUnit) : l.driving = true ↔ l.tx = .contend ∨ l.tx = .send := by
  simp [LineUnit.driving]

theorem LineUnit.readsFrame_iff (l : LineUnit) :
    l.readsFrame = true ↔ l.rx = .frame ∧ l.tx ≠ .contend ∧ l.tx ≠ .send := by
  simp [LineUnit.readsFrame, LineUnit.driving]

theorem State.readingEnds_frame {s : State} (hf : s.line.rx = .frame) (hc : s.line.tx ≠ .contend)
    (hs : s.line.tx ≠ .send) (frame answer : LineUnit) :
    s.readingEnds frame answer = { s with line := frame } := if_pos (s.line.readsFrame_iff.mpr ⟨hf, hc, hs⟩)

theorem State.readingEnds_answer {s : State} (h : s.line.rx = .answer) (frame answer : LineUnit) :
    s.readingEnds frame answer = (s.withLine answer).answerLost := by
  have hn : ¬ s.line.readsFrame = true := fun hr => by cases h.symm.trans (s.line.readsFrame_iff.mp hr).1
  rw [State.readingEnds, if_neg hn, if_pos h]

theorem State.answerLost_awaits {s : State} (h : s.line.tx = .awaitAnswer) :
    s.answerLost = (s.withLine s.line.txIdle).reportNoAnswer := if_pos h

theorem State.answerLost_other {s : State} (h : s.line.tx ≠ .awaitAnswer) : s.answerLost = s := if_neg h

theorem exec_framingError {s : State} (h : s.panel.phase = .done) : exec .framingError s =
    .next (s.readingEnds { s.line.discardFrame with domRun := 0, quietRun := 1 }
      { s.line.hunt with domRun := 0, quietRun := 1 }).settle :=
  congrArg _ (State.acting_live (s.live_iff.mpr h) _)

theorem exec_truncation {s : State} (h : s.panel.phase = .done) : exec .truncation s =
    .next (s.readingEnds { s.line.discardFrame with domRun := 0, quietRun := max 4 s.line.quietRun }
      { s.line.hunt with domRun := 0, quietRun := max 4 s.line.quietRun }).settle :=
  congrArg _ (State.acting_live (s.live_iff.mpr h) _)

theorem exec_breakRead {s : State} (h : s.panel.phase = .done) : exec .breakRead s =
    .next (s.readingEnds { s.line.hunt with quietRun := 0, domRun := max s.line.domRun 12 }
      { s.line.hunt with quietRun := 0, domRun := max s.line.domRun 12 }).settle :=
  congrArg _ (State.acting_live (s.live_iff.mpr h) _)

/-- A unit's malformed condition, or the check: the frame is discarded, with nothing for the mechanisms to do. -/
theorem exec_discard {c : Instr} {s : State} (hc : c = .malformedFrame ∨ c = .checkFailure)
    (h : s.panel.phase = .done) (hf : s.line.rx = .frame) (hn : s.line.tx ≠ .contend) (hs : s.line.tx ≠ .send) :
    exec c s = .next { s with line := s.line.discardFrame } := by
  have hr := s.line.readsFrame_iff.mpr ⟨hf, hn, hs⟩
  have hx : s.whenLive (fun s => s.given s.line.readsFrame fun s => s.withLine s.line.discardFrame)
      = { s with line := s.line.discardFrame } := by
    rw [State.whenLive_live (s.live_iff.mpr h), hr]
    rfl
  rcases hc with rfl | rfl
  · exact congrArg _ hx
  · exact congrArg _ hx

/-- Settles O16: a frame is discarded by any of the four, an answer is lost by a framing error or a truncation. -/
theorem frameDiscarded : Obligations.FrameDiscarded := by
  intro s h
  refine ⟨fun hf hc hs => ⟨exec_discard (.inl rfl) h hf hc hs, exec_discard (.inr rfl) h hf hc hs, ?_, ?_, rfl, rfl,
    rfl⟩, fun c l hr hc => ?_⟩
  · rw [exec_framingError h, State.readingEnds_frame hf hc hs]
    rfl
  · rw [exec_truncation h, State.readingEnds_frame hf hc hs]
    rfl
  · have hx : exec c s = .next (State.answerLost (s.withLine l)).settle := by
      rcases hc with ⟨rfl, rfl⟩ | ⟨rfl, rfl⟩
      · rw [exec_framingError h, State.readingEnds_answer hr]
        rfl
      · rw [exec_truncation h, State.readingEnds_answer hr]
        rfl
    have htx : l.tx = s.line.tx := by rcases hc with ⟨-, rfl⟩ | ⟨-, rfl⟩ <;> rfl
    rw [hx]
    refine ⟨fun ha => ?_, fun ha => ?_⟩
    · rw [State.answerLost_awaits (s := s.withLine l) (htx.trans ha)]
      rfl
    · rw [State.answerLost_other (s := s.withLine l) (htx.trans_ne ha)]
      rfl

/-- Settles O17: the break read in FRAME, and in ANSWER with and without a sender that awaits it. -/
theorem breakRead : Obligations.BreakRead := by
  intro s h hr
  rw [exec_breakRead h]
  rcases hr with hr | ⟨hr, hc, hs⟩
  · rw [State.readingEnds_answer hr]
    refine ⟨_, _, rfl, rfl, fun _ ha => ?_, fun ha => ?_⟩
    · exact State.answerLost_awaits (s := s.withLine _) ha
    · exact State.answerLost_other (s := s.withLine _) (ha.resolve_left (by rw [hr]; simp))
  · rw [State.readingEnds_frame hr hc hs]
    refine ⟨_, _, rfl, rfl, fun ha => ?_, fun _ => rfl⟩
    rw [hr] at ha
    cases ha

/-! ### LINE FAULT -/

/-- The transmitter's part leaves all but the states, the runs and what it drives (R31, R33). -/
theorem LineUnit.faultBegins_leaves (l : LineUnit) : l.faultBegins.lineFault = true ∧ l.faultBegins.rx = .hunt ∧
    l.faultBegins.quietRun = 0 ∧ 201 ≤ l.faultBegins.domRun ∧ l.faultBegins.discarded = l.discarded ∧
    l.faultBegins.loadE = l.loadE ∧ l.faultBegins.clash = l.clash ∧ l.faultBegins.latch = l.latch ∧
    l.faultBegins.busy = l.busy ∧ l.faultBegins.windowCells = l.windowCells := by
  unfold LineUnit.faultBegins
  dsimp only
  split <;> exact ⟨rfl, rfl, rfl, Nat.le_max_right _ _, rfl, rfl, rfl, rfl, rfl, rfl⟩

/-- The last column of R31. -/
theorem LineUnit.faultBegins_tx (l : LineUnit) : l.faultBegins.tx = (match l.tx with
    | .send => .breaking
    | .breaking => .breaking
    | .idle => .idle
    | .contend => .idle
    | .awaitAnswer => .idle) := by
  unfold LineUnit.faultBegins
  cases l.tx <;> rfl

/-- An attempt cut at the boundary of its start cell still drives that cell, and no other (R51; log 45). -/
theorem LineUnit.faultBegins_contend {l : LineUnit} (h : l.tx = .contend) :
    l.faultBegins.drives = .dominant ↔ l.txSent = 0 := by
  have hc : l.faultBegins = LineUnit.leaveContention
      { l with lineFault := true, quietRun := 0, domRun := max l.domRun Config.faultRun } := by
    unfold LineUnit.faultBegins
    rw [h]
  rw [hc]
  show (if (l.txSent == 0) = true then Level.dominant
    else if false = true then ([] : List Level).headD .recessive else .recessive) = .dominant ↔ _
  by_cases hs : l.txSent = 0 <;> simp [hs]

theorem LineUnit.carriesFrame_iff (l : LineUnit) :
    l.carriesFrame = true ↔ l.tx = .contend ∨ l.tx = .send ∨ l.tx = .awaitAnswer := by
  simp [LineUnit.carriesFrame, or_assoc]

theorem exec_lineFault {s : State} (h : s.panel.phase = .done) :
    exec .lineFault s = .next (s.given (!s.line.lineFault) State.lineFaultBegins).settle :=
  congrArg _ (State.acting_live (s.live_iff.mpr h) _)

/-- Settles O13: the line unit's part first, with the entry and the notice, then the report of a frame on line. -/
theorem lineFaultEntry : Obligations.LineFaultEntry := by
  intro s h
  refine ⟨fun hl => ?_, fun hl => ?_⟩
  · rw [exec_lineFault h, hl]
    rfl
  · obtain ⟨h1, h2, h3, h4, h5, h6, h7, h8, h9, h10⟩ := s.line.faultBegins_leaves
    refine ⟨((s.withLine s.line.faultBegins).log .lineFault {}).notice .lineFault, s.lineFaultBegins, ?_, h1, h2, h3,
      h4, h5, h6, h7, h8, h9, h10, s.line.faultBegins_tx, LineUnit.faultBegins_contend, rfl, rfl, rfl, rfl, rfl, rfl,
      rfl, rfl, rfl, ?_⟩
    · rw [exec_lineFault h, hl]
      rfl
    · unfold State.lineFaultBegins
      simp only [LineUnit.carriesFrame_iff]

/-! ### Frames not handed on -/

/-- The clash test's part of the line unit, journal and print unit (R35). -/
theorem State.clashTest_eq (s : State) (f : Frame) : s.clashTest f = { s with
    line := { s.line with clash := s.line.clash || decide (s.own = some f.origin) }
    journal := s.clashJournal f
    print := s.clashPrint f } := by
  unfold State.clashTest State.clashJournal State.clashPrint
  cases ho : s.own with
  | none => simp
  | some n =>
    by_cases hn : n = f.origin
    · subst hn
      cases hc : s.line.clash with
      | false => simp [State.notice, State.log]
      | true =>
        have hs : { s.line with clash := true } = s.line := by rw [← hc]
        simp [hs]
    · simp [hn, Ne.symm hn]

theorem State.receiving_iff (s : State) : s.receiving = true ↔
    s.panel.phase = .done ∧ s.line.rx = .frame ∧ s.line.tx ≠ .contend ∧ s.line.tx ≠ .send := by
  simp [State.receiving, State.live, and_assoc]

theorem State.notHandedOn_iff (s : State) (f : Frame) : s.notHandedOn f = true ↔
    f.dest ≠ 0 ∧ (s.own ≠ some f.dest ∨ s.line.clash = true ∨ s.own = some f.origin) := by
  simp [State.notHandedOn, isCircular, State.clashTest_eq]

/-- Settles O18: the clash test, then the answer window. -/
theorem frameNotHandedOn : Obligations.FrameNotHandedOn := by
  intro f s h hw hd hf hc hs hn
  have hg : (frameWellFormed f && s.receiving && s.notHandedOn f) = true := by
    rw [hw, s.receiving_iff.mpr ⟨h, hf, hc, hs⟩, (s.notHandedOn_iff f).mpr ⟨hd, hn⟩]
    rfl
  have hx : exec (.frameNotHandedOn f) s = .next (s.frameEnds f).settle := by
    refine (congrArg _ (State.acting_live (s.live_iff.mpr h) _)).trans ?_
    rw [hg]
    rfl
  have hcirc : isCircular f = false := by simpa [isCircular] using hd
  refine ⟨_, hx, ?_⟩
  rw [State.frameEnds, State.clashTest_eq, hcirc]
  refine ⟨rfl, rfl, rfl, rfl, rfl, rfl, rfl, rfl, fun ho => ?_, fun ho => ?_, fun ho => ?_, fun ho => ?_⟩
  · simp [LineUnit.frameEnds, ho]
  · simp [LineUnit.frameEnds, ho]
  · exact ⟨if_pos ho, if_pos ho⟩
  · have hno : ¬ (s.own = some f.origin ∧ s.line.clash = false) := by
      rintro ⟨h1, h2⟩
      rcases ho with ho | ho
      · exact ho h1
      · rw [h2] at ho; cases ho
    exact ⟨if_neg hno, if_neg hno⟩

/-! ### Answers sent -/

theorem exec_answerStart {s : State} (h : s.panel.phase = .done) (hr : s.line.rx = .answer) :
    exec .answerStart s = .next s.answerBegins := by
  refine (congrArg _ (State.whenLive_live (s.live_iff.mpr h) _)).trans ?_
  rw [hr]
  rfl

theorem unitCells_length (u : Byte) : (unitCells u).length = 10 := rfl

/-- Settles O19: the answer driven or forbidden, its mismatch and its end. -/
theorem answerDriven : Obligations.AnswerDriven := by
  intro code seq s h hr
  have hl := s.live_iff.mpr h
  refine ⟨fun ha hc hf hg => ?_, fun ha hc => ?_, fun ha => ?_, fun ht => ?_, rfl⟩
  · rw [exec_answerStart h hr, State.answerBegins, ha]
    simp only [hc, hf, hg, Bool.false_eq_true, or_self, if_false]
    rfl
  · rw [exec_answerStart h hr, State.answerBegins, ha]
    simp only [if_pos hc]
    rfl
  · refine (congrArg _ (State.whenLive_live hl _)).trans ?_
    rw [hr, ha]
    rfl
  · refine (congrArg _ (State.whenLive_live hl _)).trans ?_
    have hg : (s.line.rx == .answer && s.line.tx != .awaitAnswer) = true := by simp [hr, ht]
    rw [hg]
    rfl

end Sys2Proof.Machine
end

section
/-! SUPPORT. Units and fields: the two sums, the answer's two units, and the frame's units read back (R22 to R25, R28,
R192). -/
namespace Sys2Proof.Machine

/-! ### Units -/

theorem byteOf_toNat {n : Nat} (h : n < 256) : (byteOf n).toNat = n := by
  rw [byteOf, BitVec.toNat_ofNat]
  exact Nat.mod_eq_of_lt h

/-! ### The two sums (R25, R192) -/

theorem doubleSum_append (units : List Byte) (v : Byte) :
    doubleSum (units ++ [v]) = sumStep (doubleSum units) v.toNat := by
  simp [doubleSum]

/-- Both sums lie within 0 to 250. -/
theorem doubleSum_le (units : List Byte) : (doubleSum units).1 ≤ 250 ∧ (doubleSum units).2 ≤ 250 := by
  induction units using List.reverseRecOn with
  | nil => exact ⟨by decide, by decide⟩
  | append_singleton units v _ =>
    rw [doubleSum_append]
    exact ⟨Nat.le_of_lt_succ (Nat.mod_lt _ (by decide)), Nat.le_of_lt_succ (Nat.mod_lt _ (by decide))⟩

/-- The last two units are checked against the sums of those before them. -/
theorem checkPassed_append (units : List Byte) (a b : Byte) : checkPassed (units ++ [a, b]) = true ↔
    a.toNat = (doubleSum units).1 ∧ b.toNat = (doubleSum units).2 := by
  simp [checkPassed, unitAt]

theorem imageValid_iff (image : List Byte) : imageValid image = true ↔ image.length = 32 ∧
    unitAt image 30 = (doubleSum (image.take 30)).1 ∧ unitAt image 31 = (doubleSum (image.take 30)).2 ∧
    1 ≤ unitAt image 0 ∧ unitAt image 0 ≤ 62 := by
  simp [imageValid, and_assoc]

/-- Settles O21: the sums by their recurrence, the two checks by their definitions. -/
theorem sumsInRange : Obligations.SumsInRange :=
  ⟨rfl, doubleSum_append, doubleSum_le, checkPassed_append, imageValid_iff⟩

/-! ### Answers (R28) -/

theorem answerNumber_bounds (c : AnswerCode) : 1 ≤ answerNumber c ∧ answerNumber c ≤ 5 := by
  cases c <;> decide

/-- The codes by their numbers; 0, 6 and those above are none. -/
theorem answerOfNumber_iff (n : Nat) (c : AnswerCode) : answerOfNumber n = some c ↔ n = answerNumber c := by
  constructor
  · intro h
    unfold answerOfNumber at h
    split at h <;> cases h <;> rfl
  · rintro rfl
    cases c <;> rfl

theorem answerOfNumber_none (n : Nat) : answerOfNumber n = none ↔ n = 0 ∨ 6 ≤ n := by
  constructor
  · intro h
    by_contra hn
    obtain ⟨c, hc⟩ : ∃ c, n = answerNumber c := by
      have : n = 1 ∨ n = 2 ∨ n = 3 ∨ n = 4 ∨ n = 5 := by omega
      rcases this with rfl | rfl | rfl | rfl | rfl
      exacts [⟨.accept, rfl⟩, ⟨.duplicate, rfl⟩, ⟨.wait, rfl⟩, ⟨.engaged, rfl⟩, ⟨.refuse, rfl⟩]
    cases h.symm.trans ((answerOfNumber_iff n c).mpr hc)
  · intro h
    cases hc : answerOfNumber n with
    | none => rfl
    | some c =>
      have hn := (answerOfNumber_iff n c).mp hc
      have := answerNumber_bounds c
      omega

theorem answerAU1_toNat (c : AnswerCode) {seq : Nat} (h : seq < 8) :
    (answerAU1 c seq).toNat = answerNumber c * 32 + seq * 4 :=
  byteOf_toNat (by have := answerNumber_bounds c; omega)

theorem answerAU2_toNat (c : AnswerCode) {seq : Nat} (h : seq < 8) :
    (answerAU2 c seq).toNat = 255 - (answerAU1 c seq).toNat := by
  rw [answerAU1_toNat c h]
  exact byteOf_toNat (by omega)

/-- Two units read are an answer exactly when they are the units laid out. -/
theorem judgeAnswer_iff (code : AnswerCode) {seq : Nat} (h : seq < 8) (a b : Byte) :
    judgeAnswer a b seq = some code ↔ a = answerAU1 code seq ∧ b = answerAU2 code seq := by
  have hn := answerNumber_bounds code
  have h1 := answerAU1_toNat code h
  have h2 := answerAU2_toNat code h
  unfold judgeAnswer
  constructor
  · intro hj
    split at hj
    · rename_i hu
      obtain ⟨hb, hs, hz⟩ := hu
      have hc := (answerOfNumber_iff _ _).mp hj
      have ha : a.toNat = (answerAU1 code seq).toNat := by omega
      exact ⟨BitVec.eq_of_toNat_eq ha, BitVec.eq_of_toNat_eq (by rw [hb, h2, ha])⟩
    · cases hj
  · rintro ⟨rfl, rfl⟩
    rw [if_pos ⟨h2, by omega, by omega⟩, answerOfNumber_iff]
    omega

/-- Settles O22: the layout as numbers, and the reading inverts it. -/
theorem answerUnits : Obligations.AnswerUnits := by
  refine ⟨fun code seq h => ⟨answerAU1_toNat code h, ?_, answerAU2_toNat code h, rfl, judgeAnswer_iff code h⟩, rfl, rfl,
    rfl, rfl, rfl, answerOfNumber_none⟩
  refine BitVec.eq_of_toNat_eq ?_
  rw [answerAU2_toNat code h, BitVec.toNat_not]

/-! ### The frame's header (R22) -/

theorem kindNumber_le (k : FrameKind) : kindNumber k ≤ 5 := by cases k <;> decide

theorem kindOfNumber_kindNumber (k : FrameKind) : kindOfNumber (kindNumber k) = some k := by cases k <;> rfl

theorem flagBit_le (b : Bool) : flagBit b ≤ 1 := by cases b <;> decide

/-- The fields of a well-formed frame lie in their ranges (R22). -/
theorem frameWellFormed_ranges {f : Frame} (h : frameWellFormed f = true) : f.rank ≤ 15 ∧ 1 ≤ f.origin ∧
    f.origin ≤ 62 ∧ f.seq ≤ 7 ∧ f.dest ≤ 62 ∧ f.cls ≤ 2 ∧ f.number ≤ 255 ∧ f.text.length ≤ 32 := by
  simp only [frameWellFormed, Bool.and_eq_true, decide_eq_true_eq, and_assoc] at h
  obtain ⟨h1, h2, h3, h4, h5, h6, h7, h8, -⟩ := h
  exact ⟨h1, h2, h3, h4, h5, h6, h7, h8⟩

/-- The conditions of R24 by the frame's kind. -/
theorem frameWellFormed_kind {f : Frame} (h : frameWellFormed f = true) :
    (∀ n, fixedLength f.kind = some n → f.text.length = n ∧ f.first = true ∧ f.final = true ∧ f.cls = 0 ∧
      (f.dest ≠ 0 ∨ f.kind = .release)) ∧
    (fixedLength f.kind = none → f.number ≠ 0 ∧ (f.text.length ≠ 0 ∨ f.final = true)) := by
  simp only [frameWellFormed, Bool.and_eq_true] at h
  obtain ⟨-, hk⟩ := h
  refine ⟨fun n hn => ?_, fun hn => ?_⟩
  · rw [hn] at hk
    simpa [and_assoc] using hk
  · rw [hn] at hk
    simpa using hk

/-- Header, text and check units one behind the other. -/
theorem frameUnits_eq (f : Frame) : frameUnits f = headerUnits f ++ textUnits f.text ++
    [byteOf (doubleSum (headerUnits f ++ textUnits f.text)).1,
      byteOf (doubleSum (headerUnits f ++ textUnits f.text)).2] := rfl

theorem frameUnits_length (f : Frame) : (frameUnits f).length = 7 + f.text.length := by
  simp [frameUnits_eq, headerUnits, textUnits]
  omega

theorem unitAt_take {us : List Byte} {i n : Nat} (h : i < n) : unitAt (us.take n) i = unitAt us i := by
  simp [unitAt, List.getD_eq_getElem?_getD, h]

/-- The values of the five header units. -/
theorem unitAt_header {f : Frame} (h : frameWellFormed f = true) :
    unitAt (frameUnits f) 0 = f.rank * 16 + f.origin / 4 ∧
    unitAt (frameUnits f) 1 = f.origin % 4 * 64 + kindNumber f.kind * 8 + f.seq ∧
    unitAt (frameUnits f) 2 = f.dest * 4 + f.cls ∧ unitAt (frameUnits f) 3 = f.number ∧
    unitAt (frameUnits f) 4 = flagBit f.first * 128 + flagBit f.final * 64 + f.text.length := by
  obtain ⟨h1, h2, h3, h4, h5, h6, h7, h8⟩ := frameWellFormed_ranges h
  have hk := kindNumber_le f.kind
  have hf := flagBit_le f.first
  have hl := flagBit_le f.final
  exact ⟨byteOf_toNat (by omega), byteOf_toNat (by omega), byteOf_toNat (by omega), byteOf_toNat (by omega),
    byteOf_toNat (by omega)⟩

/-- The fields that the first two, three, four and five units carry. -/
theorem fields_take {f : Frame} (h : frameWellFormed f = true) {n : Nat} (hn : 2 ≤ n) :
    originField ((frameUnits f).take n) = f.origin ∧ kindField ((frameUnits f).take n) = kindNumber f.kind ∧
    seqField ((frameUnits f).take n) = f.seq ∧
    (3 ≤ n → destField ((frameUnits f).take n) = f.dest ∧ classField ((frameUnits f).take n) = f.cls) ∧
    (4 ≤ n → numberField ((frameUnits f).take n) = f.number) ∧
    (5 ≤ n → lengthField ((frameUnits f).take n) = f.text.length ∧
      firstField ((frameUnits f).take n) = f.first ∧ finalField ((frameUnits f).take n) = f.final) := by
  obtain ⟨h1, h2, h3, h4, h5, h6, h7, h8⟩ := frameWellFormed_ranges h
  obtain ⟨u0, u1, u2, u3, u4⟩ := unitAt_header h
  have hk := kindNumber_le f.kind
  have hf := flagBit_le f.first
  have hl := flagBit_le f.final
  have t0 : unitAt ((frameUnits f).take n) 0 = _ := (unitAt_take (by omega)).trans u0
  have t1 : unitAt ((frameUnits f).take n) 1 = _ := (unitAt_take (by omega)).trans u1
  refine ⟨?_, ?_, ?_, fun hn => ?_, fun hn => (unitAt_take (by omega)).trans u3, fun hn => ?_⟩
  · rw [originField, t0, t1]; omega
  · rw [kindField, t1]; omega
  · rw [seqField, t1]; omega
  · have t2 : unitAt ((frameUnits f).take n) 2 = _ := (unitAt_take (by omega)).trans u2
    rw [destField, classField, t2]
    omega
  · have t4 : unitAt ((frameUnits f).take n) 4 = _ := (unitAt_take (by omega)).trans u4
    rw [lengthField, firstField, finalField, t4]
    refine ⟨by omega, ?_, ?_⟩
    · cases f.first <;> cases f.final <;> simp [flagBit] <;> omega
    · cases f.first <;> cases f.final <;> simp [flagBit] <;> omega

/-! ### No prefix is malformed (R24) -/

theorem badAtU2_take {f : Frame} (h : frameWellFormed f = true) : badAtU2 ((frameUnits f).take 2) = false := by
  obtain ⟨ho, hk, -⟩ := fields_take h (Nat.le_refl 2)
  have hr := frameWellFormed_ranges h
  simp only [badAtU2, ho, hk, kindOfNumber_kindNumber, Option.isNone_some, Bool.or_false, Bool.or_eq_false_iff,
    beq_eq_false_iff_ne]
  omega

theorem badAtU3_take {f : Frame} (h : frameWellFormed f = true) : badAtU3 ((frameUnits f).take 3) = false := by
  obtain ⟨-, hk, -, h3, -⟩ := fields_take h (n := 3) (by omega)
  obtain ⟨hd, hc⟩ := h3 (Nat.le_refl 3)
  obtain ⟨-, -, -, -, h5, h6, -⟩ := frameWellFormed_ranges h
  have hd63 : (f.dest == 63) = false := by rw [beq_eq_false_iff_ne]; omega
  have hc3 : (f.cls == 3) = false := by rw [beq_eq_false_iff_ne]; omega
  obtain ⟨hfix, -⟩ := frameWellFormed_kind h
  simp only [badAtU3, hd, hc, hk, hd63, hc3, Bool.false_or]
  cases hkind : f.kind with
  | text => simp [kindNumber]
  | who | ident | enquire | status =>
    obtain ⟨-, -, -, hcls, hdest⟩ := hfix _ (by rw [hkind]; rfl)
    simp [hcls, hdest.resolve_right (by simp [hkind])]
  | release =>
    obtain ⟨-, -, -, hcls, -⟩ := hfix _ (by rw [hkind]; rfl)
    simp [hcls, kindNumber]

theorem badAtU4_take {f : Frame} (h : frameWellFormed f = true) : badAtU4 ((frameUnits f).take 4) = false := by
  obtain ⟨-, hk, -, -, h4, -⟩ := fields_take h (n := 4) (by omega)
  rw [badAtU4, hk, h4 (Nat.le_refl 4)]
  cases hkind : f.kind with
  | text => simp [((frameWellFormed_kind h).2 (by rw [hkind]; rfl)).1]
  | who | ident | enquire | status | release => rfl

theorem badAtU5_take {f : Frame} (h : frameWellFormed f = true) : badAtU5 ((frameUnits f).take 5) = false := by
  obtain ⟨-, hk, -, -, -, h5⟩ := fields_take h (n := 5) (by omega)
  obtain ⟨hl, h1, h2⟩ := h5 (Nat.le_refl 5)
  have hlen : ¬ f.text.length > 32 := Nat.not_lt.mpr (frameWellFormed_ranges h).2.2.2.2.2.2.2
  obtain ⟨hfix, htext⟩ := frameWellFormed_kind h
  rw [badAtU5, hk, kindOfNumber_kindNumber, hl, h1, h2, decide_eq_false hlen, Bool.false_or]
  dsimp only
  split
  · rename_i n hn
    obtain ⟨ht, hf, hg, -⟩ := hfix n hn
    simp [ht, hf, hg]
  · rename_i hn
    rcases (htext hn).2 with ht | ht <;> simp [ht]

/-- A text unit has bits 7 to 5 zero. -/
theorem unitAt_text (f : Frame) {i : Nat} (h : i < f.text.length) : unitAt (frameUnits f) (5 + i) = f.text[i].val := by
  have hx : (frameUnits f)[5 + i]? = some (byteOf f.text[i].val) := by
    have hlen : (headerUnits f).length = 5 := rfl
    rw [frameUnits_eq, List.append_assoc, List.getElem?_append_right (by omega), hlen, Nat.add_sub_cancel_left,
      List.getElem?_append_left (by simpa [textUnits] using h)]
    simp [textUnits, h]
  rw [unitAt, List.getD_eq_getElem?_getD, hx]
  exact byteOf_toNat (Nat.lt_trans f.text[i].isLt (by decide))

/-- No prefix of a well-formed frame's units carries a condition of R24. -/
theorem malformedNow_take {f : Frame} (h : frameWellFormed f = true) {n : Nat} (hn : n ≤ (frameUnits f).length) :
    malformedNow ((frameUnits f).take n) = false := by
  have hl : ((frameUnits f).take n).length = n := List.length_take_of_le hn
  unfold malformedNow
  rw [hl]
  split
  · rfl
  · rfl
  · exact badAtU2_take h
  · exact badAtU3_take h
  · exact badAtU4_take h
  · exact badAtU5_take h
  · rename_i h0 h1 h2 h3 h4 h5
    have h6 : 6 ≤ n := by
      by_contra hlt
      have : n = 0 ∨ n = 1 ∨ n = 2 ∨ n = 3 ∨ n = 4 ∨ n = 5 := by omega
      rcases this with e | e | e | e | e | e
      exacts [h0 e, h1 e, h2 e, h3 e, h4 e, h5 e]
    obtain ⟨-, -, -, -, -, hlen⟩ := fields_take h (n := n) (by omega)
    rw [(hlen (by omega)).1]
    by_cases ht : n ≤ 5 + f.text.length
    · have hi : n - 6 < f.text.length := by omega
      have hu := unitAt_text f hi
      rw [show 5 + (n - 6) = n - 1 by omega] at hu
      rw [unitAt_take (by omega), hu, decide_eq_true ht, decide_eq_false (Nat.not_le_of_lt f.text[n - 6].isLt)]
      rfl
    · rw [decide_eq_false ht]
      rfl

/-! ### Reading a frame back -/

theorem wellFormedUnits_frame {f : Frame} (h : frameWellFormed f = true) :
    wellFormedUnits (frameUnits f) = true := by
  rw [wellFormedUnits, List.all_eq_true]
  intro n hn
  rw [malformedNow_take h (Nat.le_of_lt_succ (List.mem_range.mp hn))]
  rfl

theorem malformedNow_frame {f : Frame} (h : frameWellFormed f = true) : malformedNow (frameUnits f) = false := by
  have := malformedNow_take h (Nat.le_refl (frameUnits f).length)
  rwa [List.take_length] at this

/-- The fields of the whole. -/
theorem fields_frame {f : Frame} (h : frameWellFormed f = true) :
    originField (frameUnits f) = f.origin ∧ kindField (frameUnits f) = kindNumber f.kind ∧
    seqField (frameUnits f) = f.seq ∧ destField (frameUnits f) = f.dest ∧ classField (frameUnits f) = f.cls ∧
    numberField (frameUnits f) = f.number ∧ lengthField (frameUnits f) = f.text.length ∧
    firstField (frameUnits f) = f.first ∧ finalField (frameUnits f) = f.final := by
  have hn : 5 ≤ (frameUnits f).length := by rw [frameUnits_length]; omega
  obtain ⟨h1, h2, h3, h4, h5, h6⟩ := fields_take h (n := (frameUnits f).length) (by omega)
  rw [List.take_length] at h1 h2 h3 h4 h5 h6
  exact ⟨h1, h2, h3, (h4 (by omega)).1, (h4 (by omega)).2, h5 (by omega), h6 hn⟩

theorem frameComplete_frame {f : Frame} (h : frameWellFormed f = true) : frameComplete (frameUnits f) = true := by
  obtain ⟨-, -, -, -, -, -, hl, -⟩ := fields_frame h
  simp [frameComplete, hl, frameUnits_length]
  omega

theorem checkPassed_frame (f : Frame) : checkPassed (frameUnits f) = true := by
  have hs := doubleSum_le (headerUnits f ++ textUnits f.text)
  rw [frameUnits_eq, checkPassed_append]
  exact ⟨byteOf_toNat (by omega), byteOf_toNat (by omega)⟩

theorem codeOfUnit_byteOf (c : Code) : codeOfUnit (byteOf c.val) = c := by
  have hc := c.isLt
  rw [codeOfUnit, byteOf_toNat (by omega)]
  exact Fin.ext (Nat.mod_eq_of_lt hc)

theorem frameOfUnits_frame {f : Frame} (h : frameWellFormed f = true) : frameOfUnits (frameUnits f) = some f := by
  obtain ⟨ho, hk, hs, hd, hc, hn, hl, h1, h2⟩ := fields_frame h
  have hrank : unitAt (frameUnits f) 0 / 16 = f.rank := by
    obtain ⟨u0, -⟩ := unitAt_header h
    have := frameWellFormed_ranges h
    omega
  have htext : (((frameUnits f).drop 5).take f.text.length).map codeOfUnit = f.text := by
    have hlen : f.text.length = (textUnits f.text).length := by simp [textUnits]
    rw [frameUnits_eq, List.append_assoc, List.drop_left' (by rfl), hlen, List.take_left, textUnits, List.map_map]
    exact (List.map_congr_left fun c _ => codeOfUnit_byteOf c).trans (List.map_id _)
  rw [frameOfUnits, hk, kindOfNumber_kindNumber]
  dsimp only
  rw [hrank, ho, hs, hd, hc, hn, hl, h1, h2, htext]

/-- Settles O20: no prefix malformed, the length and the check right, and every field read back. -/
theorem frameRoundTrip : Obligations.FrameRoundTrip := by
  intro f h
  rw [readFrame, wellFormedUnits_frame h, frameComplete_frame h, checkPassed_frame]
  exact frameOfUnits_frame h

end Sys2Proof.Machine
end

section
/-! SUPPORT. The station's own frames on the line: the start cell with the frame it takes, and how the attempt goes on
(R18, R19, R21, R22, R46, R97 to R100). -/
namespace Sys2Proof.Machine

/-! ### The frame taken -/

theorem frameCells_length (f : Frame) : (frameCells f).length = 70 + 10 * f.text.length := by
  have h : ∀ us : List Byte, (us.flatMap unitCells).length = 10 * us.length := by
    intro us
    induction us with
    | nil => rfl
    | cons u us ih => rw [List.flatMap_cons, List.length_append, ih, unitCells_length, List.length_cons]; omega
  rw [frameCells, h, frameUnits_length]
  omega

/-- A control candidate's frame is that of its record (R109). -/
theorem State.frameOf_control {s : State} {own : Nat} {c : Candidate} {f : Frame} (hc : c.control = true)
    (h : s.frameOf own c = some f) :
    ∃ r, s.send.control[c.place]? = some r ∧ controlFrame own c.rank r = f := by
  rw [State.frameOf, if_pos hc] at h
  exact Option.map_eq_some_iff.mp h

/-- A section candidate's frame is that of its block (R99). -/
theorem State.frameOf_section {s : State} {own : Nat} {c : Candidate} {f : Frame} (hc : c.control = false)
    (h : s.frameOf own c = some f) :
    ∃ r b, s.send.sendList[c.place]? = some r ∧ currentBlock s.store r = some b ∧
      f = { rank := c.rank, origin := own, kind := .text, seq := b.secNo % 8, dest := r.dest, cls := r.cls
            number := r.number, first := b.secNo == 0, final := isFinalSection s.store r, text := b.codes } := by
  rw [State.frameOf, hc, if_neg (by simp)] at h
  split at h
  · cases h
  · rename_i r hr
    obtain ⟨b, hb, hf⟩ := Option.map_eq_some_iff.mp h
    exact ⟨r, b, hr, hb, hf.symm⟩

theorem State.frameOf_head {s : State} {own : Nat} {c : Candidate} {f : Frame} (h : s.frameOf own c = some f) :
    f.rank = c.rank ∧ f.origin = own := by
  cases hc : c.control with
  | true =>
    obtain ⟨r, -, rfl⟩ := State.frameOf_control hc h
    exact ⟨rfl, rfl⟩
  | false =>
    obtain ⟨r, b, -, -, rfl⟩ := State.frameOf_section hc h
    exact ⟨rfl, rfl⟩

/-! ### The start cell -/

theorem exec_startCellDriven {s : State} (h : s.panel.phase = .done) : exec .startCellDriven s =
    .next (s.given s.mayStart fun s => match s.offer with
      | none => s
      | some (c, f) => { s with line := s.line.contend f, send := s.send.putOnLine c }) :=
  congrArg _ (State.whenLive_live (s.live_iff.mpr h) _)

/-- The frame offered is taken at the free line. -/
theorem exec_startCellDriven_takes {s : State} {c : Candidate} {f : Frame} (h : s.panel.phase = .done)
    (hm : s.mayStart = true) (ho : s.offer = some (c, f)) : exec .startCellDriven s =
    .next { s with line := s.line.contend f, send := s.send.putOnLine c } := by
  rw [exec_startCellDriven h, hm, State.given_true, ho]

/-- Without the free line, or with nothing to offer, no start cell is driven. -/
theorem exec_startCellDriven_still {s : State} (h : s.panel.phase = .done)
    (hn : s.mayStart = false ∨ s.offer = none) : exec .startCellDriven s = .next s := by
  rw [exec_startCellDriven h]
  rcases hn with hn | hn
  · rw [hn]
    rfl
  · cases s.mayStart
    · rfl
    · rw [State.given_true, hn]

theorem State.mayStart_false {s : State} (h : s.line.tx ≠ .idle ∨ s.line.rx ≠ .ready ∨ s.line.quietRun < 14 ∨
    s.line.lineFault = true ∨ s.line.clash = true ∨ s.panel.configFault = true) : s.mayStart = false := by
  refine Bool.eq_false_iff.mpr fun hm => ?_
  obtain ⟨hidle, hready, hquiet, hfault, hclash, hconfig⟩ := s.mayStart_iff.mp hm
  rcases h with h | h | h | h | h | h
  · exact h hidle
  · exact h hready
  · omega
  · exact Bool.eq_false_iff.mp hfault h
  · exact Bool.eq_false_iff.mp hclash h
  · exact Bool.eq_false_iff.mp hconfig h

theorem State.offer_none {s : State} (h : s.send.candidates s.line.loadE = []) : s.offer = none := by
  have hs : s.send.select s.line.loadE = none := by rw [Transmission.select, h]; rfl
  unfold State.offer
  rw [hs]
  cases s.own <;> rfl

/-- Settles O33: the frame offered is taken with its record, and the frame is that of the record or of the block. -/
theorem startCell : Obligations.StartCell := by
  intro own c f s h
  refine ⟨fun h1 h2 h3 h4 h5 h6 ho hs hf => ⟨?_, (State.frameOf_head hf).1, (State.frameOf_head hf).2,
    frameCells_length f, fun r hc hr => ?_, fun r e b hc hr he hb => ?_⟩, fun hn => ?_⟩
  · exact exec_startCellDriven_takes h (s.mayStart_iff.mpr ⟨h1, h2, h3, h4, h5, h6⟩)
      ((s.offer_iff c f).mpr ⟨own, ho, hs, hf⟩)
  · obtain ⟨r', hr', rfl⟩ := State.frameOf_control hc hf
    cases hr.symm.trans hr'
    rfl
  · obtain ⟨r', b', hr', hb', rfl⟩ := State.frameOf_section hc hf
    cases hr.symm.trans hr'
    have hblock : currentBlock s.store r = some (s.store.block b) := by simp [currentBlock, he, hb]
    have hfinal : isFinalSection s.store r = decide (e.state = .closed ∧ r.done + 1 = e.sections) := by
      simp only [isFinalSection, he, Bool.decide_and]
      rfl
    cases hblock.symm.trans hb'
    rw [hfinal]
    rfl
  · refine exec_startCellDriven_still h ?_
    rcases hn with hn | hn | hn | hn | hn | hn | hn
    case inr.inr.inr.inr.inr.inr => exact .inr (State.offer_none hn)
    all_goals exact .inl (State.mayStart_false (by simp [hn]))

/-! ### The attempt -/

theorem LineUnit.sends_individual {l : LineUnit} {f : Frame} (h : l.tx = .send) (hf : l.outFrame = some f)
    (hd : f.dest ≠ 0) : l.sends false = true := by
  simp [LineUnit.sends, h, hf, isCircular, hd]

/-- Settles O36: each event of the attempt in its own state of the transmitter. -/
theorem attemptMoves : Obligations.AttemptMoves := by
  intro s h
  have hl := s.live_iff.mpr h
  refine ⟨fun ht => ?won, fun r ht hr => ?lossMessage, fun i r ht hr => ?lossControl, fun f ht hf hd => ?sent,
    fun ht => ?broken⟩
  case won =>
    refine (congrArg _ (State.whenLive_live hl _)).trans ?_
    rw [ht]
    rfl
  case lossMessage =>
    refine (congrArg _ (State.whenLive_live hl _)).trans ?_
    rw [ht]
    show Host.Outcome.next (s.withLine s.line.txIdle).reportLoss = _
    rw [State.reportLoss, State.withLine_send, hr]
    rfl
  case lossControl =>
    refine (congrArg _ (State.whenLive_live hl _)).trans ?_
    rw [ht]
    show Host.Outcome.next (s.withLine s.line.txIdle).reportLoss = _
    rw [State.reportLoss, State.withLine_send, hr]
    rfl
  case sent =>
    refine (congrArg _ (State.whenLive_live hl _)).trans ?_
    rw [LineUnit.sends_individual ht hf hd]
    rfl
  case broken =>
    refine (congrArg _ (State.whenLive_live hl _)).trans ?_
    rw [ht]
    rfl

end Sys2Proof.Machine
end

section
/-! SUPPORT. One cell of the line: what it counts, what the receiver and the transmitter make of it, and the commands
it brings into the queue (R13 to R20, R27, R30, R32, R33). -/
namespace Sys2Proof.Machine

theorem Level.ne_dominant_iff (l : Level) : l ≠ .dominant ↔ l = .recessive := by cases l <;> decide

/-! ### The cell that passes -/

/-- With nothing to take up, the step is one cell of time. -/
theorem step_cellPasses {s : State} (h : s.cellPasses) : step s = .next s.tickLive := by
  have hown : s.ownCommand = none := by
    rw [State.ownCommand_line h.live h.keys h.composer, State.lineCommand_none h.load h.answer h.start]
  simp [step, h.queue, State.tick, hown, s.live_iff.mpr h.live]

/-- The line unit with a cell counted, of a break driven too. -/
def LineUnit.counted (l : LineUnit) (read : Level) : LineUnit :=
  { l.countCell read with breakCells := if l.tx = .breaking then l.breakCells + 1 else l.breakCells }

/-- The state that the receiver and the transmitter meet when they read the cell. -/
def State.counted (s : State) : State :=
  { s.waitCells with line := s.line.counted s.nextLevel, cell := s.cell + 1 }

theorem State.passCell_eq (s : State) : s.passCell =
    ((s.counted.lineCell s.line.drives s.nextLevel).1, (s.counted.lineCell s.line.drives s.nextLevel).2 ++
      (s.counted.lineCell s.line.drives s.nextLevel).1.countEvents s.line) := by
  have hcount : s.counted = { s.waitCells with
      line := if (s.line.countCell s.nextLevel).tx = .breaking then { s.line.countCell s.nextLevel with
        breakCells := (s.line.countCell s.nextLevel).breakCells + 1 } else s.line.countCell s.nextLevel
      cell := s.cell + 1 } := by
    unfold State.counted LineUnit.counted
    by_cases hb : s.line.tx = .breaking <;> simp [hb, LineUnit.countCell]
  rw [hcount]
  rfl

/-- The receiver and the transmitter touch the assembly, the cells of the frame and of the answer, and the place in
the window; nothing else. -/
theorem State.lineCell_moves (s : State) (drove read : Level) : ∃ a cells sent win answer,
    (s.lineCell drove read).1 = s.withLine { s.line with
      asm := a, txCells := cells, txSent := sent, winCells := win, ansCells := answer } := by
  unfold State.lineCell
  dsimp only
  split
  · exact ⟨_, _, _, _, _, rfl⟩
  · split
    · exact ⟨_, _, _, _, _, rfl⟩
    · exact ⟨_, _, _, _, _, rfl⟩
    · exact ⟨_, _, _, _, _, rfl⟩
    · split
      · unfold LineUnit.answerEcho
        split <;> exact ⟨_, _, _, _, _, rfl⟩
      · exact ⟨_, _, _, _, _, rfl⟩

/-- What the counts bring does not depend on what the receiver and the transmitter make of the cell. -/
theorem State.countEvents_lineCell (s : State) (drove read : Level) (before : LineUnit) :
    (s.lineCell drove read).1.countEvents before = s.countEvents before := by
  obtain ⟨a, cells, sent, win, answer, h⟩ := s.lineCell_moves drove read
  rw [h]
  rfl

theorem State.tickLive_pending (s : State) : s.tickLive.pending =
    ((s.counted.lineCell s.line.drives s.nextLevel).1.ageTimers s.cellTime).timerEvents s ++
      ((s.counted.lineCell s.line.drives s.nextLevel).2 ++ s.counted.countEvents s.line) := by
  unfold State.tickLive
  rw [State.passCell_eq, State.countEvents_lineCell]

theorem State.tickLive_line (s : State) :
    s.tickLive.line = (s.counted.lineCell s.line.drives s.nextLevel).1.line := by
  unfold State.tickLive
  rw [State.passCell_eq]
  rfl

/-- What the cell itself brings is in the queue after it. -/
theorem State.mem_tickLive_of_cell {s : State} {c : Instr}
    (h : c ∈ (s.counted.lineCell s.line.drives s.nextLevel).2) : c ∈ s.tickLive.pending := by
  rw [State.tickLive_pending]
  exact List.mem_append_right _ (List.mem_append_left _ h)

/-! ### The cell by the state of the line unit -/

theorem State.lineCell_own {s : State} (h : s.line.driving = true) (drove read : Level) : s.lineCell drove read =
    (s.withLine { s.line.cellSent with asm := (s.line.asm.read read).1 }, s.line.echoEvents drove read) := by
  simp [State.lineCell, h]

theorem State.lineCell_hunt {s : State} (h : s.line.driving = false) (hr : s.line.rx = .hunt) (drove read : Level) :
    s.lineCell drove read = (s, []) := by
  simp [State.lineCell, h, hr]

theorem State.lineCell_ready {s : State} (h : s.line.driving = false) (hr : s.line.rx = .ready) (drove read : Level) :
    s.lineCell drove read = (s, if read = .dominant then [.frameStartCell] else []) := by
  simp [State.lineCell, h, hr]

theorem State.lineCell_frame {s : State} (h : s.line.driving = false) (hr : s.line.rx = .frame) (drove read : Level) :
    s.lineCell drove read = (s.withLine { s.line with asm := (s.line.asm.read read).1 },
      s.frameEvents (s.line.asm.read read).2 (s.line.asm.read read).1.units) := by
  simp [State.lineCell, h, hr]

/-- The answer window with the station's own answer on the line. -/
theorem State.lineCell_answering {s : State} (h : s.line.driving = false) (hr : s.line.rx = .answer)
    (ha : s.line.answering = true) (drove read : Level) : s.lineCell drove read =
    (s.withLine ({ s.line with winCells := s.line.winCells + 1 }.answerEcho drove read).1,
      ({ s.line with winCells := s.line.winCells + 1 }.answerEcho drove read).2) := by
  simp [State.lineCell, h, hr, ha]

/-- The state that judges a cell of another station's answer. -/
def State.answerRead (s : State) (read : Level) : State :=
  s.withLine { s.line with winCells := s.line.winCells + 1, asm := (s.line.asm.read read).1 }

theorem State.lineCell_answer {s : State} (h : s.line.driving = false) (hr : s.line.rx = .answer)
    (ha : s.line.answering = false) (drove read : Level) : s.lineCell drove read =
    (s.answerRead read, (s.answerRead read).answerEvents (s.line.asm.read read).2 (s.line.asm.read read).1) := by
  simp [State.lineCell, h, hr, ha, State.answerRead]

/-- The receiver assembles units: a frame, or an answer not the station's own. -/
def LineUnit.reads (l : LineUnit) : Prop := l.rx = .frame ∨ l.rx = .answer ∧ l.answering = false

/-- The receiver assembles what the station reads, also of its own frame. -/
theorem State.lineCell_asm {s : State} (h : s.line.driving = true ∨ s.line.reads) (drove read : Level) :
    (s.lineCell drove read).1.line.asm = (s.line.asm.read read).1 := by
  cases hd : s.line.driving with
  | true => rw [State.lineCell_own hd]; rfl
  | false =>
    rw [hd] at h
    rcases h with h | hr | ⟨hr, ha⟩
    · cases h
    · rw [State.lineCell_frame hd hr]; rfl
    · rw [State.lineCell_answer hd hr ha]; rfl

theorem LineUnit.answerEcho_asm (l : LineUnit) (drove read : Level) : (l.answerEcho drove read).1.asm = l.asm := by
  unfold LineUnit.answerEcho
  split <;> rfl

theorem State.lineCell_asm_same {s : State} (h : s.line.driving = false) (hr : ¬ s.line.reads) (drove read : Level) :
    (s.lineCell drove read).1.line.asm = s.line.asm := by
  obtain ⟨hf, ha⟩ := not_or.mp hr
  cases hx : s.line.rx with
  | hunt => rw [State.lineCell_hunt h hx]
  | ready => rw [State.lineCell_ready h hx]
  | frame => exact absurd hx hf
  | answer =>
    have ha : s.line.answering = true := Bool.not_eq_false _ ▸ fun hn => ha ⟨hx, hn⟩
    rw [State.lineCell_answering h hx ha]
    exact LineUnit.answerEcho_asm _ _ _

/-! ### The assembly of a unit -/

theorem Assembly.read_start {a : Assembly} (h : a.bits = none) :
    a.read .dominant = ({ a with bits := some [], gap := 0 }, .nothing) := by
  simp [Assembly.read, h]

theorem Assembly.read_idle {a : Assembly} (h : a.bits = none) (hu : a.units = []) :
    a.read .recessive = (a, .nothing) := by
  simp [Assembly.read, h, hu]

theorem Assembly.read_gap {a : Assembly} (h : a.bits = none) (hu : a.units ≠ []) : a.read .recessive =
    ({ a with gap := a.gap + 1 }, if a.gap + 1 = 3 then .truncation else .nothing) := by
  simp [Assembly.read, h, hu]

theorem Assembly.read_stopLow {a : Assembly} {bs : List Bool} (h : a.bits = some bs) (hs : a.stopLow = true)
    (c : Level) : a.read c = (a, if c = .recessive then .framingError else .nothing) := by
  simp [Assembly.read, h, hs]

theorem Assembly.read_data {a : Assembly} {bs : List Bool} (h : a.bits = some bs) (hs : a.stopLow = false)
    (hl : bs.length < 8) (c : Level) :
    a.read c = ({ a with bits := some (bs ++ [c == .recessive]) }, .nothing) := by
  simp [Assembly.read, h, hs, hl]

theorem Assembly.read_unit {a : Assembly} {bs : List Bool} (h : a.bits = some bs) (hs : a.stopLow = false)
    (hl : 8 ≤ bs.length) : a.read .recessive =
    ({ a with bits := none, gap := 0, units := a.units ++ [byteOfBits bs] }, .unit) := by
  simp [Assembly.read, h, hs, Nat.not_lt.mpr hl]

theorem Assembly.read_badStop {a : Assembly} {bs : List Bool} (h : a.bits = some bs) (hs : a.stopLow = false)
    (hl : 8 ≤ bs.length) : a.read .dominant = ({ a with stopLow := true }, .nothing) := by
  simp [Assembly.read, h, hs, Nat.not_lt.mpr hl]

/-- A dominant cell ends nothing, and leaves a unit under way. -/
theorem Assembly.read_dominant (a : Assembly) :
    (a.read .dominant).2 = .nothing ∧ (a.read .dominant).1.bits ≠ none := by
  cases hb : a.bits with
  | none => simp [Assembly.read_start hb]
  | some bs =>
    cases hs : a.stopLow with
    | true => simp [Assembly.read_stopLow hb hs, hb]
    | false =>
      by_cases hl : bs.length < 8
      · simp [Assembly.read_data hb hs hl]
      · simp [Assembly.read_badStop hb hs (Nat.le_of_not_lt hl), hb]

/-- What a recessive cell ends: a unit whose stop cell was dominant, a unit, or a frame whose next unit does not
come. -/
theorem Assembly.read_recessive_event (a : Assembly) :
    ((a.read .recessive).2 = .framingError ↔ a.bits ≠ none ∧ a.stopLow = true) ∧
    ((a.read .recessive).2 = .truncation ↔ a.bits = none ∧ a.units ≠ [] ∧ a.gap = 2) ∧
    ((a.read .recessive).2 = .nothing ∧ (a.read .recessive).1.bits = none ∧ (a.read .recessive).1.units = [] ↔
      a.bits = none ∧ a.units = []) := by
  cases hb : a.bits with
  | none =>
    by_cases hu : a.units = []
    · simp [Assembly.read_idle hb hu, hb, hu]
    · rw [Assembly.read_gap hb hu]
      by_cases hg : a.gap = 2 <;> simp [hg, hu]
  | some bs =>
    cases hs : a.stopLow with
    | true => simp [Assembly.read_stopLow hb hs]
    | false =>
      by_cases hl : bs.length < 8
      · simp [Assembly.read_data hb hs hl]
      · simp [Assembly.read_unit hb hs (Nat.le_of_not_lt hl)]

/-! ### The signals of the line -/

/-- What the line itself brings, with no judgement of a frame or an answer: its runs, a start cell, and the end of
what the receiver assembles. -/
def isLineSignal : Instr → Bool
  | .lineFree => true
  | .lineFault => true
  | .breakSignalEnd => true
  | .frameStartCell => true
  | .breakRead => true
  | .framingError => true
  | .truncation => true
  | .answerWindowEnd => true
  | _ => false

def noSignals (cs : List Instr) : Prop := ∀ c ∈ cs, isLineSignal c = false

theorem noSignals_nil : noSignals [] := fun _ h => absurd h List.not_mem_nil

theorem noSignals_one {c : Instr} (h : isLineSignal c = false) : noSignals [c] := fun _ hm =>
  List.mem_singleton.mp hm ▸ h

theorem noSignals.append {cs ds : List Instr} (hc : noSignals cs) (hd : noSignals ds) : noSignals (cs ++ ds) :=
  fun x hx => (List.mem_append.mp hx).elim (hc x) (hd x)

theorem noSignals.ite {cs : List Instr} (h : noSignals cs) (p : Prop) [Decidable p] :
    noSignals (if p then cs else []) := by
  split
  · exact h
  · exact noSignals_nil

theorem noSignals_map {α : Type} {f : α → Instr} (h : ∀ x, isLineSignal (f x) = false) (xs : List α) :
    noSignals (xs.map f) := fun c hc => by
  obtain ⟨x, -, rfl⟩ := List.mem_map.mp hc
  exact h x

theorem delayedControls_noSignals (i : Nat) (rs : List ControlRec) : noSignals (delayedControls i rs) := by
  induction rs generalizing i with
  | nil => exact noSignals_nil
  | cons r rs ih => exact ((noSignals_one rfl).ite _).append (ih (i + 1))

/-- The expiries of timers are no signals of the line. -/
theorem State.timerEvents_noSignals (s before : State) : noSignals (s.timerEvents before) := by
  have one {c : Instr} (h : isLineSignal c = false) (p : Prop) [Decidable p] : noSignals (if p then [c] else []) :=
    (noSignals_one h).ite p
  exact ((((((((((noSignals_map (fun _ => rfl) _).append (delayedControls_noSignals _ _)).append (one rfl _)).append
    (noSignals_map (fun _ => rfl) _)).append (noSignals_map (fun _ => rfl) _)).append (one rfl _)).append
    (one rfl _)).append (one rfl _)).append (one rfl _)).append (one rfl _)).append (one rfl _)

theorem State.commandOfFrame_noSignal (s : State) (f : Frame) : isLineSignal (s.commandOfFrame f) = false := by
  unfold State.commandOfFrame
  split
  · rfl
  · split
    · split
      · split <;> rfl
      · rfl
    all_goals rfl

theorem State.judgeUnit_noSignals (s : State) (us : List Byte) : noSignals (s.judgeUnit us) := by
  unfold State.judgeUnit
  split
  · exact noSignals_one rfl
  · refine noSignals.ite ?_ _
    split
    · split
      · exact noSignals_one (s.commandOfFrame_noSignal _)
      · exact noSignals_one rfl
    · exact noSignals_one rfl

theorem commandOfAnswer_noSignal (c : Option AnswerCode) : isLineSignal (commandOfAnswer c) = false := by
  cases c with
  | none => rfl
  | some c => cases c <;> rfl

theorem LineUnit.judgeAnswerUnits_noSignals (l : LineUnit) (us : List Byte) : noSignals (l.judgeAnswerUnits us) := by
  unfold LineUnit.judgeAnswerUnits
  split
  · split
    · split
      · exact noSignals_one (commandOfAnswer_noSignal _)
      · exact noSignals_one rfl
    · exact noSignals_one rfl
  · exact noSignals_nil

theorem LineUnit.echoEvents_noSignals (l : LineUnit) (drove read : Level) : noSignals (l.echoEvents drove read) := by
  unfold LineUnit.echoEvents
  split
  · split <;> exact noSignals_one rfl
  · refine ((noSignals_one rfl).ite _).append (noSignals.ite ?_ _)
    split
    · split <;> exact noSignals_one rfl
    · exact noSignals_one rfl

theorem LineUnit.answerEcho_noSignals (l : LineUnit) (drove read : Level) :
    noSignals (l.answerEcho drove read).2 := by
  unfold LineUnit.answerEcho
  split
  · exact noSignals_one rfl
  · exact (noSignals_one rfl).ite _

/-- A signal in the queue after the cell comes of the cell or of its counts. -/
theorem State.mem_tickLive_signal {s : State} {c : Instr} (hc : isLineSignal c = true) : c ∈ s.tickLive.pending ↔
    c ∈ (s.counted.lineCell s.line.drives s.nextLevel).2 ∨ c ∈ s.counted.countEvents s.line := by
  rw [State.tickLive_pending, List.mem_append, List.mem_append]
  refine or_iff_right fun hm => ?_
  rw [State.timerEvents_noSignals _ _ c hm] at hc
  cases hc

/-- The signals of the receiver in a frame. -/
theorem State.mem_frameEvents {s : State} {c : Instr} (hc : isLineSignal c = true) (e : UnitEvent) (us : List Byte) :
    c ∈ s.frameEvents e us ↔ c = .breakRead ∧ e = .nothing ∧ s.line.domRun = 12 ∨
      c = .framingError ∧ e = .framingError ∨ c = .truncation ∧ e = .truncation := by
  cases e with
  | nothing => by_cases hb : s.line.domRun = 12 <;> simp [State.frameEvents, Config.breakRun, hb]
  | unit =>
    have hn : c ∉ s.judgeUnit us := fun hm => by rw [s.judgeUnit_noSignals us c hm] at hc; cases hc
    simp [State.frameEvents, hn]
  | framingError => simp [State.frameEvents]
  | truncation => simp [State.frameEvents]

/-- The signals of the receiver in the answer window: those of a frame, and the window's end. -/
theorem State.mem_answerEvents {s : State} {c : Instr} (hc : isLineSignal c = true) (e : UnitEvent) (a : Assembly) :
    c ∈ s.answerEvents e a ↔ (c = .breakRead ∧ e = .nothing ∧ s.line.domRun = 12 ∨
      c = .framingError ∧ e = .framingError ∨ c = .truncation ∧ e = .truncation) ∨
      c = .answerWindowEnd ∧ s.line.domRun ≠ 12 ∧ 6 ≤ s.line.winCells ∧
        e = .nothing ∧ a.bits = none ∧ a.units = [] := by
  cases e with
  | nothing =>
    by_cases hb : s.line.domRun = 12
    · simp [State.answerEvents, Config.breakRun, hb]
    · simp [State.answerEvents, Config.breakRun, Config.answerWindow, hb, and_comm, and_assoc]
  | unit =>
    have hn : c ∉ s.line.judgeAnswerUnits a.units := fun hm => by
      rw [s.line.judgeAnswerUnits_noSignals _ c hm] at hc; cases hc
    simp [State.answerEvents, hn]
  | framingError => simp [State.answerEvents]
  | truncation => simp [State.answerEvents]

end Sys2Proof.Machine
end

section
/-! SUPPORT. What the passing of one cell leaves in the line unit and in the queue, field by field and signal by
signal. -/
namespace Sys2Proof.Machine

/-! ### The line unit after the cell -/

theorem State.tickLive_line_moves (s : State) : ∃ a cells sent win answer,
    s.tickLive.line = { s.line.counted s.nextLevel with
      asm := a, txCells := cells, txSent := sent, winCells := win, ansCells := answer } := by
  obtain ⟨a, cells, sent, win, answer, h⟩ := s.counted.lineCell_moves s.line.drives s.nextLevel
  refine ⟨a, cells, sent, win, answer, ?_⟩
  rw [State.tickLive_line, h]
  rfl

theorem State.tickLive_cell (s : State) : s.tickLive.cell = s.cell + 1 := by
  obtain ⟨a, cells, sent, win, answer, h⟩ := s.counted.lineCell_moves s.line.drives s.nextLevel
  unfold State.tickLive
  rw [State.passCell_eq, h]
  rfl

/-- The counts of a cell (R16, R33, R37). -/
theorem State.tickLive_runs (s : State) :
    s.tickLive.line.quietRun = (if s.nextLevel = .dominant then 0 else min 14 (s.line.quietRun + 1)) ∧
    s.tickLive.line.domRun = (if s.nextLevel = .dominant then s.line.domRun + 1 else 0) ∧
    s.tickLive.line.busy = if cellBusy s.line s.nextLevel then s.line.busy + 1 else s.line.busy := by
  obtain ⟨a, cells, sent, win, answer, h⟩ := s.tickLive_line_moves
  rw [h]
  exact ⟨rfl, rfl, rfl⟩

theorem cellBusy_iff (l : LineUnit) (read : Level) : cellBusy l read = true ↔
    l.rx = .frame ∨ l.rx = .answer ∨ l.tx ≠ .idle ∨ read = .dominant := by
  simp [cellBusy, or_assoc]

/-- The assembly after the cell is what the receiver reads, when it reads. -/
theorem State.tickLive_asm {s : State} (h : s.line.driving = true ∨ s.line.reads) :
    s.tickLive.line.asm = (s.line.asm.read s.nextLevel).1 := by
  rw [State.tickLive_line]
  exact s.counted.lineCell_asm h _ _

theorem State.tickLive_asm_same {s : State} (h : s.line.driving = false) (hr : ¬ s.line.reads) :
    s.tickLive.line.asm = s.line.asm := by
  rw [State.tickLive_line]
  exact s.counted.lineCell_asm_same h hr _ _

theorem State.tickLive_own {s : State} (h : s.line.driving = true) :
    s.tickLive.line.txCells = s.line.txCells.tail ∧ s.tickLive.line.txSent = s.line.txSent + 1 := by
  rw [State.tickLive_line, s.counted.lineCell_own h]
  exact ⟨rfl, rfl⟩

/-! ### The signals in the queue after the cell -/

/-- The signals that end what the receiver assembles, read at a level after a dominant run (R14, R15, R32). -/
def Assembly.ends (a : Assembly) (read : Level) (run : Nat) (c : Instr) : Prop :=
  c = .breakRead ∧ read = .dominant ∧ run + 1 = 12 ∨
  c = .framingError ∧ read ≠ .dominant ∧ a.bits ≠ none ∧ a.stopLow = true ∨
  c = .truncation ∧ read ≠ .dominant ∧ a.bits = none ∧ a.units ≠ [] ∧ a.gap = 2

/-- The cells of the window have passed and no answer has begun (R30). -/
def LineUnit.windowOver (l : LineUnit) (read : Level) : Prop :=
  l.rx = .answer ∧ read ≠ .dominant ∧ l.asm.bits = none ∧ l.asm.units = [] ∧ 6 ≤ l.winCells + 1

theorem Assembly.ends_iff (a : Assembly) (read : Level) (run : Nat) (c : Instr) : a.ends read run c ↔
    c = .breakRead ∧ (a.read read).2 = .nothing ∧ (if read = .dominant then run + 1 else 0) = 12 ∨
    c = .framingError ∧ (a.read read).2 = .framingError ∨ c = .truncation ∧ (a.read read).2 = .truncation := by
  cases read with
  | dominant => simp [Assembly.ends, a.read_dominant.1]
  | recessive =>
    obtain ⟨hf, ht, -⟩ := a.read_recessive_event
    simp [Assembly.ends, hf, ht]

theorem LineUnit.windowOver_iff {l : LineUnit} (h : l.rx = .answer) (read : Level) : l.windowOver read ↔
    (if read = .dominant then l.domRun + 1 else 0) ≠ 12 ∧ 6 ≤ l.winCells + 1 ∧ (l.asm.read read).2 = .nothing ∧
      (l.asm.read read).1.bits = none ∧ (l.asm.read read).1.units = [] := by
  cases read with
  | dominant => simp [LineUnit.windowOver, l.asm.read_dominant.2]
  | recessive =>
    obtain ⟨-, -, hi⟩ := l.asm.read_recessive_event
    rw [hi]
    simp [LineUnit.windowOver, h, and_comm, and_assoc]

/-- The signals of the cell itself, by the state of the line unit. -/
theorem State.mem_cell_signal {s : State} {c : Instr} (hc : isLineSignal c = true) :
    c ∈ (s.counted.lineCell s.line.drives s.nextLevel).2 ↔ s.line.driving = false ∧
      (s.line.rx = .ready ∧ c = .frameStartCell ∧ s.nextLevel = .dominant ∨
        s.line.reads ∧ (s.line.asm.ends s.nextLevel s.line.domRun c ∨
          c = .answerWindowEnd ∧ s.line.windowOver s.nextLevel)) := by
  have hnone {cs : List Instr} (h : noSignals cs) : c ∉ cs := fun hm => by rw [h c hm] at hc; cases hc
  cases hd : s.line.driving with
  | true => simpa [s.counted.lineCell_own hd] using hnone (LineUnit.echoEvents_noSignals _ _ _)
  | false =>
    cases hx : s.line.rx with
    | hunt => simp [s.counted.lineCell_hunt hd hx, LineUnit.reads, hx]
    | ready => simp [s.counted.lineCell_ready hd hx, LineUnit.reads, hx, and_comm]
    | frame =>
      rw [s.counted.lineCell_frame hd hx, State.mem_frameEvents hc]
      refine (s.line.asm.ends_iff s.nextLevel s.line.domRun c).symm.trans ?_
      simp [LineUnit.reads, LineUnit.windowOver, hx]
    | answer =>
      cases ha : s.line.answering with
      | true =>
        rw [s.counted.lineCell_answering hd hx ha]
        simpa [LineUnit.reads, hx, ha] using hnone (LineUnit.answerEcho_noSignals _ _ _)
      | false =>
        rw [s.counted.lineCell_answer hd hx ha, State.mem_answerEvents hc]
        refine (or_congr (s.line.asm.ends_iff s.nextLevel s.line.domRun c).symm
          (and_congr_right fun _ => (LineUnit.windowOver_iff hx s.nextLevel).symm)).trans ?_
        simp [LineUnit.reads, hx, ha]

/-- What the counts bring. -/
theorem State.mem_counts (s : State) (c : Instr) : c ∈ s.counted.countEvents s.line ↔
    c = .breakSignalEnd ∧ s.line.tx = .breaking ∧ 20 ≤ s.line.breakCells + 1 ∨
    c = .lineFree ∧ s.nextLevel ≠ .dominant ∧ s.line.quietRun = 13 ∨
    c = .lineFault ∧ s.nextLevel = .dominant ∧ 201 ≤ s.line.domRun + 1 ∧ s.line.lineFault = false := by
  have hbreak : s.counted.line.tx = .breaking ∧ s.counted.line.breakCells ≥ Config.breakLength ↔
      s.line.tx = .breaking ∧ 20 ≤ s.line.breakCells + 1 := by
    refine and_congr_right fun (h : s.line.tx = .breaking) => ?_
    show 20 ≤ (if s.line.tx = .breaking then s.line.breakCells + 1 else s.line.breakCells) ↔ _
    rw [if_pos h]
  have hfree : s.counted.line.quietRun = Config.quietCells ∧ s.line.quietRun < Config.quietCells ↔
      s.nextLevel ≠ .dominant ∧ s.line.quietRun = 13 := by
    show (if s.nextLevel = .dominant then 0 else min 14 (s.line.quietRun + 1)) = 14 ∧ s.line.quietRun < 14 ↔ _
    by_cases h : s.nextLevel = .dominant
    · simp [h]
    · rw [if_neg h, and_iff_right h]
      omega
  have hfault : s.counted.line.domRun ≥ Config.faultRun ∧ s.counted.line.lineFault = false ↔
      s.nextLevel = .dominant ∧ 201 ≤ s.line.domRun + 1 ∧ s.line.lineFault = false := by
    show 201 ≤ (if s.nextLevel = .dominant then s.line.domRun + 1 else 0) ∧ s.line.lineFault = false ↔ _
    split <;> simp [*]
  unfold State.countEvents
  simp only [List.mem_append, List.mem_ite_nil_right, List.mem_singleton]
  rw [hbreak, hfree, hfault]
  simp only [and_comm, or_assoc]

/-! ### What the judgements of a cell bring -/

theorem State.commandOfFrame_eq (s : State) (f : Frame) : s.commandOfFrame f = s.frameRow f := by
  unfold State.commandOfFrame State.frameRow
  by_cases hn : s.notHandedOn f = true
  · rw [if_pos hn, if_pos ((s.notHandedOn_iff f).mp hn)]
  · rw [if_neg hn, if_neg (mt (s.notHandedOn_iff f).mpr hn)]
    cases f.kind with
    | text => by_cases hd : f.dest = 0 <;> simp [isCircular, hd]
    | who => rfl
    | ident => rfl
    | enquire => rfl
    | status => rfl
    | release => rfl

theorem commandOfAnswer_some (c : AnswerCode) : commandOfAnswer (some c) = answerRow c := by cases c <;> rfl

/-- The judgement of the units of a frame, the unit just received last (R24 to R27). -/
theorem State.judgeUnit_brings (s : State) (us : List Byte) :
    (malformedNow us = true → s.judgeUnit us = [.malformedFrame]) ∧
    (malformedNow us = false → frameComplete us = true → checkPassed us = false → s.judgeUnit us = [.checkFailure]) ∧
    (∀ f, frameWellFormed f = true → us = frameUnits f → s.judgeUnit us = [s.frameRow f]) := by
  refine ⟨fun hm => if_pos hm, fun hm hc hp => ?_, fun f hf hu => ?_⟩
  · simp [State.judgeUnit, hm, hc, hp]
  · subst hu
    simp [State.judgeUnit, malformedNow_frame hf, frameComplete_frame hf, checkPassed_frame, frameOfUnits_frame hf,
      s.commandOfFrame_eq]

/-- The row of a frame is the same after the cell is counted. -/
theorem State.counted_frameRow (s : State) (f : Frame) : s.counted.frameRow f = s.frameRow f := by
  have hown : s.counted.own = s.own := by
    show s.waitCells.own = s.own
    unfold State.waitCells
    split <;> rfl
  unfold State.frameRow
  rw [hown]
  rfl

/-- A unit completed in a frame is judged with those before it. -/
theorem State.tickLive_frameUnit {s : State} {bs : List Bool} (hd : s.line.driving = false) (hx : s.line.rx = .frame)
    (hb : s.line.asm.bits = some bs) (hs : s.line.asm.stopLow = false) (hl : 8 ≤ bs.length)
    (hlow : s.nextLevel ≠ .dominant) {c : Instr}
    (h : s.counted.judgeUnit (s.line.asm.units ++ [byteOfBits bs]) = [c]) : c ∈ s.tickLive.pending := by
  refine State.mem_tickLive_of_cell ?_
  rw [s.counted.lineCell_frame hd hx, (Level.ne_dominant_iff _).mp hlow]
  have hread : s.counted.line.asm.read .recessive = _ := Assembly.read_unit hb hs hl
  rw [hread]
  show c ∈ s.counted.judgeUnit (s.line.asm.units ++ [byteOfBits bs])
  exact h ▸ List.mem_singleton_self c

/-- A sender judges the answer to its frame (R30). -/
theorem LineUnit.judgeAnswerUnits_awaiting {l : LineUnit} {f : Frame} (ht : l.tx = .awaitAnswer)
    (hf : l.outFrame = some f) (u v : Byte) :
    l.judgeAnswerUnits [u, v] = [commandOfAnswer (judgeAnswer u v f.seq)] := by
  simp [LineUnit.judgeAnswerUnits, ht, hf]

/-- The second unit of an answer is judged with the first. -/
theorem State.tickLive_answerUnit {s : State} {bs : List Bool} {u : Byte} (hd : s.line.driving = false)
    (hx : s.line.rx = .answer) (ha : s.line.answering = false) (hb : s.line.asm.bits = some bs)
    (hs : s.line.asm.stopLow = false) (hl : 8 ≤ bs.length) (hlow : s.nextLevel ≠ .dominant)
    (hu : s.line.asm.units = [u]) {c : Instr} (h : s.line.judgeAnswerUnits [u, byteOfBits bs] = [c]) :
    c ∈ s.tickLive.pending := by
  refine State.mem_tickLive_of_cell ?_
  rw [s.counted.lineCell_answer hd hx ha, (Level.ne_dominant_iff _).mp hlow]
  have hread : s.counted.line.asm.read .recessive = _ := Assembly.read_unit hb hs hl
  rw [hread]
  show c ∈ s.line.judgeAnswerUnits (s.line.asm.units ++ [byteOfBits bs])
  rw [hu]
  exact h ▸ List.mem_singleton_self c

theorem isArbitration_iff (i : Nat) : isArbitration i = true ↔ i ∈ [1, 2, 3, 4, 5, 6, 7, 8, 11, 12] := by
  simp only [isArbitration, Bool.or_eq_true, Bool.and_eq_true, decide_eq_true_eq, beq_iff_eq, List.mem_cons,
    List.not_mem_nil, or_false]
  omega

/-- The echo of a cell of the own frame that another station changed (R19, R20). -/
theorem LineUnit.echoEvents_changed (l : LineUnit) {drove read : Level} (h : drove ≠ read) :
    l.echoEvents drove read = if drove = .recessive ∧ l.txSent ∈ [1, 2, 3, 4, 5, 6, 7, 8, 11, 12] then [.loss]
      else [.collision] := by
  rw [LineUnit.echoEvents, if_pos h]
  simp only [isArbitration_iff]

/-- The echo of a cell of the own frame as driven: arbitration won, and the frame's end (R19, R21). -/
theorem LineUnit.mem_echoEvents_same (l : LineUnit) (v : Level) :
    (l.txSent = 12 → .arbitrationWon ∈ l.echoEvents v v) ∧
    (∀ f, l.txCells.length ≤ 1 → l.outFrame = some f →
      (f.dest = 0 → .circularFrameCompleted ∈ l.echoEvents v v) ∧
      (f.dest ≠ 0 → .individualFrameSent ∈ l.echoEvents v v)) := by
  refine ⟨fun h => ?_, fun f hl hf => ⟨fun hd => ?_, fun hd => ?_⟩⟩
  · simp [LineUnit.echoEvents, h]
  · simp [LineUnit.echoEvents, hl, hf, isCircular, hd]
  · simp [LineUnit.echoEvents, hl, hf, isCircular, hd]

/-- A cell of the own frame brings what its echo brings. -/
theorem State.mem_tickLive_echo {s : State} (h : s.line.driving = true) {c : Instr}
    (hc : c ∈ s.line.echoEvents s.line.drives s.nextLevel) : c ∈ s.tickLive.pending := by
  refine State.mem_tickLive_of_cell ?_
  rw [s.counted.lineCell_own h]
  exact hc

theorem LineUnit.answerEcho_changed (l : LineUnit) {drove read : Level} (h : drove ≠ read) :
    l.answerEcho drove read = (l, [.answerEchoMismatch]) := if_pos h

theorem LineUnit.answerEcho_same (l : LineUnit) (v : Level) : l.answerEcho v v =
    ({ l with ansCells := l.ansCells.tail }, if l.ansCells.length ≤ 1 then [.answerComplete] else []) :=
  if_neg (not_not_intro rfl)

/-- A cell of the own answer: the mismatch, or the answer moves on to its end (R29). -/
theorem State.tickLive_answering {s : State} (hd : s.line.driving = false) (hx : s.line.rx = .answer)
    (ha : s.line.answering = true) :
    (s.line.drives ≠ s.nextLevel → .answerEchoMismatch ∈ s.tickLive.pending) ∧
    (s.line.drives = s.nextLevel → s.tickLive.line.ansCells = s.line.ansCells.tail ∧
      (s.line.ansCells.length ≤ 1 → .answerComplete ∈ s.tickLive.pending)) := by
  have hcell := s.counted.lineCell_answering hd hx ha s.line.drives s.nextLevel
  refine ⟨fun hn => State.mem_tickLive_of_cell ?_, fun he => ?_⟩
  · rw [hcell, LineUnit.answerEcho_changed _ hn]
    exact List.mem_singleton_self _
  · rw [he, LineUnit.answerEcho_same] at hcell
    refine ⟨?_, fun hl => State.mem_tickLive_of_cell ?_⟩
    · rw [State.tickLive_line, he, hcell]
      rfl
    · rw [he, hcell]
      show Instr.answerComplete ∈ if s.line.ansCells.length ≤ 1 then [Instr.answerComplete] else []
      rw [if_pos hl]
      exact List.mem_singleton_self _

/-! ### The assembly after a cell -/

/-- What one cell makes of the units, at either level (R14, R15). -/
theorem Assembly.read_brings (a : Assembly) (v : Level) :
    (a.bits = none → v = .dominant → (a.read v).1 = { a with bits := some [], gap := 0 }) ∧
    (a.bits = none → v ≠ .dominant → (a.read v).1 = if a.units = [] then a else { a with gap := a.gap + 1 }) ∧
    (∀ bs, a.bits = some bs → a.stopLow = true → (a.read v).1 = a) ∧
    (∀ bs, a.bits = some bs → a.stopLow = false →
      (bs.length < 8 → (v = .dominant → (a.read v).1 = { a with bits := some (bs ++ [false]) }) ∧
        (v ≠ .dominant → (a.read v).1 = { a with bits := some (bs ++ [true]) })) ∧
      (8 ≤ bs.length → (v = .dominant → (a.read v).1 = { a with stopLow := true }) ∧
        (v ≠ .dominant → (a.read v).1 = { a with
          bits := none, gap := 0, units := a.units ++ [byteOfBits bs] }))) := by
  simp only [Level.ne_dominant_iff]
  refine ⟨?_, ?_, ?_, ?_⟩
  · rintro hb rfl
    rw [Assembly.read_start hb]
  · rintro hb rfl
    by_cases hu : a.units = []
    · rw [Assembly.read_idle hb hu, if_pos hu]
    · rw [Assembly.read_gap hb hu, if_neg hu]
  · intro bs hb hs
    rw [Assembly.read_stopLow hb hs]
  · refine fun bs hb hs => ⟨fun hl => ⟨?_, ?_⟩, fun hl => ⟨?_, ?_⟩⟩
    · rintro rfl
      rw [Assembly.read_data hb hs hl]
      rfl
    · rintro rfl
      rw [Assembly.read_data hb hs hl]
      rfl
    · rintro rfl
      rw [Assembly.read_badStop hb hs hl]
    · rintro rfl
      rw [Assembly.read_unit hb hs hl]

/-! ### The line free, the start cell, and the cell -/

theorem exec_lineFree {s : State} (h : s.panel.phase = .done) : exec .lineFree s =
    .next { s with line := { s.line with
      quietRun := 14, domRun := 0, lineFault := false
      rx := if s.line.rx = .hunt then .ready else s.line.rx } } :=
  congrArg _ (State.whenLive_live (s.live_iff.mpr h) _)

theorem exec_frameStartCell {s : State} (h : s.panel.phase = .done) (hx : s.line.rx = .ready) :
    exec .frameStartCell s = .next { s with line := { s.line with
      rx := .frame, quietRun := 0, domRun := 1
      asm := { bits := some [], stopLow := false, gap := 0, units := [] } } } := by
  refine (congrArg _ (State.whenLive_live (s.live_iff.mpr h) _)).trans ?_
  rw [hx]
  rfl

/-- Settles O12: the two rows, and the cell part by part. -/
theorem lineFreeAndStart : Obligations.LineFreeAndStart := by
  refine ⟨fun s h => ⟨exec_lineFree h, exec_frameStartCell h⟩, fun s h => ⟨s.tickLive, step_cellPasses h, ?_⟩⟩
  intro own reads low a ho hr hl ha
  obtain rfl : own = (s.line.driving = true) := propext (ho.trans s.line.driving_iff.symm)
  obtain rfl : reads = s.line.reads := propext hr
  obtain rfl : low = (s.nextLevel = .dominant) := propext hl
  subst ha
  obtain ⟨hquiet, hdom, hbusy⟩ := s.tickLive_runs
  obtain ⟨a, cells, sent, win, answer, hline⟩ := s.tickLive_line_moves
  have hsignal {c : Instr} (hc : isLineSignal c = true) := (State.mem_tickLive_signal (s := s) hc).trans
    (or_congr (State.mem_cell_signal hc) (s.mem_counts c))
  refine ⟨s.tickLive_cell, congrArg (·.windowCells) hline, congrArg (·.startOwed) hline,
    fun hv => ⟨hquiet.trans (if_pos hv), hdom.trans (if_pos hv)⟩,
    fun hv => ⟨hquiet.trans (if_neg hv), hdom.trans (if_neg hv)⟩, ?busy, ?idle,
    congrArg (·.rx) hline, congrArg (·.tx) hline, congrArg (·.lineFault) hline, congrArg (·.clash) hline,
    congrArg (·.discarded) hline, congrArg (·.loadE) hline, congrArg (·.latch) hline, congrArg (·.outFrame) hline,
    State.tickLive_own, ?asmSame, ?asm,
    ?lineFree, ?lineFault, ?breakSignalEnd, ?frameStartCell, ?breakRead, ?framingError, ?truncation, ?windowEnd,
    fun bs hn hr hb hs hl hv => ⟨fun hx us hu => ?frameUnit, fun u hx hu => ?answerUnit⟩,
    fun hd hv => ?changed, fun hd hv => ?same, ?answering⟩
  case busy => exact fun hb => hbusy.trans (if_pos ((cellBusy_iff _ _).mpr hb))
  case idle =>
    refine fun hf ha ht hv => hbusy.trans (if_neg fun hb => ?_)
    rcases (cellBusy_iff _ _).mp hb with h | h | h | h
    · exact hf h
    · exact ha h
    · exact h ht
    · exact hv h
  case asmSame => exact fun ⟨hd, hr⟩ => State.tickLive_asm_same (Bool.eq_false_iff.mpr hd) hr
  case asm =>
    intro h
    rw [State.tickLive_asm h]
    exact s.line.asm.read_brings s.nextLevel
  case lineFree => exact (hsignal rfl).trans (by simp [Assembly.ends])
  case lineFault => exact (hsignal rfl).trans (by simp [Assembly.ends])
  case breakSignalEnd => exact (hsignal rfl).trans (by simp [Assembly.ends])
  case frameStartCell => exact (hsignal rfl).trans (by simp [Assembly.ends])
  case breakRead => exact (hsignal rfl).trans (by simp [Assembly.ends])
  case framingError => exact (hsignal rfl).trans (by simp [Assembly.ends])
  case truncation => exact (hsignal rfl).trans (by simp [Assembly.ends])
  case windowEnd => exact (hsignal rfl).trans (by simp [Assembly.ends, LineUnit.windowOver])
  case frameUnit =>
    subst hu
    have hunit {c : Instr} := State.tickLive_frameUnit (c := c) (Bool.eq_false_iff.mpr hn) hx hb hs hl hv
    obtain ⟨hmal, hcheck, hframe⟩ := s.counted.judgeUnit_brings (s.line.asm.units ++ [byteOfBits bs])
    exact ⟨fun hm => hunit (hmal hm), fun hm hc hp => hunit (hcheck hm hc hp),
      fun f hf hu => hunit (s.counted_frameRow f ▸ hframe f hf hu)⟩
  case answerUnit =>
    have ha : s.line.answering = false := by
      rcases hr with h | ⟨-, ha⟩
      · cases hx.symm.trans h
      · exact ha
    have hunit {c : Instr} :=
      State.tickLive_answerUnit (c := c) (Bool.eq_false_iff.mpr hn) hx ha hb hs hl hv hu
    refine ⟨fun ht => hunit (if_neg ht), fun f ht hf => ⟨fun code hj => hunit ?_, fun hj => hunit ?_⟩⟩
    · rw [LineUnit.judgeAnswerUnits_awaiting ht hf, hj, commandOfAnswer_some]
    · rw [LineUnit.judgeAnswerUnits_awaiting ht hf, hj]
      rfl
  case changed =>
    split
    · next h => exact State.mem_tickLive_echo hd (by rw [LineUnit.echoEvents_changed _ hv, if_pos h]; simp)
    · next h => exact State.mem_tickLive_echo hd (by rw [LineUnit.echoEvents_changed _ hv, if_neg h]; simp)
  case same =>
    have hecho {c : Instr} (hc : c ∈ s.line.echoEvents s.line.drives s.line.drives) : c ∈ s.tickLive.pending :=
      State.mem_tickLive_echo hd (hv ▸ hc)
    obtain ⟨hwon, hend⟩ := s.line.mem_echoEvents_same s.line.drives
    exact ⟨fun h => hecho (hwon h), fun f hl hf =>
      ⟨fun h => hecho ((hend f hl hf).1 h), fun h => hecho ((hend f hl hf).2 h)⟩⟩
  case answering => exact fun hn hx ha => State.tickLive_answering (Bool.eq_false_iff.mpr hn) hx ha

end Sys2Proof.Machine
end

section
/-! SUPPORT. The load estimate and its window: how one update moves E, where a steady load figure takes it, and what
the end of a window does to the line unit and to the block being composed (R40 to R44, R131). -/
namespace Sys2Proof.Machine

/-! ### One update of E (R41, R42) -/

/-- E in the manual's own form, the floor going towards minus infinity. -/
theorem loadUpdate_cast (e x : Nat) :
    (loadUpdate e x : Int) = max 0 ((e : Int) + Int.fdiv ((x : Int) - (e : Int)) 8) := by
  rw [loadUpdate, Int.fdiv_eq_ediv_of_nonneg _ (by decide)]
  omega

/-- From below E rises by an eighth of the difference, rounded down. -/
theorem loadUpdate_of_le {e x : Nat} (h : e ≤ x) : loadUpdate e x = e + (x - e) / 8 := by
  unfold loadUpdate
  omega

/-- From above E falls by an eighth of the difference, rounded up. -/
theorem loadUpdate_of_ge {e x : Nat} (h : x ≤ e) : loadUpdate e x = e - (e - x + 7) / 8 := by
  unfold loadUpdate
  omega

/-- An update keeps E between its old value and the load figure. -/
theorem loadUpdate_between (e x : Nat) : min e x ≤ loadUpdate e x ∧ loadUpdate e x ≤ max e x := by
  rcases Nat.le_total e x with h | h
  · rw [loadUpdate_of_le h]
    omega
  · rw [loadUpdate_of_ge h]
    omega

/-- Below the load figure by less than 8, E stays. -/
theorem loadUpdate_rest {e x : Nat} (h : e ≤ x) (hx : x ≤ e + 7) : loadUpdate e x = e := by
  rw [loadUpdate_of_le h]
  omega

/-- 4089 is the most that E comes to from below: the full load figure is only 7 above it. -/
theorem loadUpdate_le_4089 {e x : Nat} (h : e ≤ 4089) (hx : x ≤ 4096) : loadUpdate e x ≤ 4089 := by
  rcases Nat.le_total e x with hle | hge
  · rw [loadUpdate_of_le hle]
    omega
  · rw [loadUpdate_of_ge hge]
    omega

/-- One update moves E by at most an eighth of the whole range. -/
theorem loadUpdate_moves {e x : Nat} (h : e ≤ 4096) (hx : x ≤ 4096) :
    loadUpdate e x ≤ e + 512 ∧ e ≤ loadUpdate e x + 512 := by
  rcases Nat.le_total e x with hle | hge
  · rw [loadUpdate_of_le hle]
    omega
  · rw [loadUpdate_of_ge hge]
    omega

/-! ### A steady load figure (R42) -/

/-- Each window takes E down by 1 or more until it is the load figure. -/
theorem afterWindows_falls {x k : Nat} : ∀ {e : Nat}, x ≤ e → e ≤ x + k → afterWindows x k e = x := by
  induction k with
  | zero => exact fun h hk => Nat.le_antisymm hk h
  | succ k ih =>
    intro e h hk
    have hstep := loadUpdate_of_ge h
    exact ih (by omega) (by omega)

/-- Each window takes E up by 1 or more until it is 7 below the load figure. -/
theorem afterWindows_rises {x k : Nat} :
    ∀ {e : Nat}, e + 7 ≤ x → x ≤ e + 7 + k → afterWindows x k e + 7 = x := by
  induction k with
  | zero => exact fun h hk => Nat.le_antisymm h hk
  | succ k ih =>
    intro e h hk
    have hstep := loadUpdate_of_le (show e ≤ x by omega)
    exact ih (by omega) (by omega)

/-- Settles O15: the bounds of one update, the two ways E settles, and the range that every step keeps. -/
theorem loadEstimateBounds : Obligations.LoadEstimateBounds := by
  intro e x he hx
  obtain ⟨hlow, hhigh⟩ := loadUpdate_between e x
  obtain ⟨hup, hdown⟩ := loadUpdate_moves he hx
  refine ⟨loadUpdate_le he hx, fun h => ?above, fun h => ?below, fun h => ?falls, fun h => ?rises, loadUpdate_rest,
    fun h => loadUpdate_le_4089 h hx, by decide, by decide, hup, hdown, rfl, fun s t hs ht => ?kept⟩
  case above => exact ⟨(le_min h le_rfl).trans hlow, hhigh.trans (max_le le_rfl h)⟩
  case below => exact ⟨(le_min le_rfl h).trans hlow, hhigh.trans (max_le h le_rfl)⟩
  case falls => exact ⟨e - x, fun m hm => afterWindows_falls h (by omega)⟩
  case rises =>
    have hstep := loadUpdate_of_le (show e ≤ x by omega)
    exact ⟨by omega, x - e, fun m hm => afterWindows_rises (by omega) (by omega)⟩
  case kept =>
    obtain ⟨-, -, -, -, hE⟩ := (step_keeps_forms ht).1 hs
    exact hE

/-! ### The latch (R44) -/

theorem latchUpdate_high {e : Nat} (old : Bool) (h : 3584 ≤ e) : latchUpdate old e = true := if_pos h

theorem latchUpdate_low {e : Nat} (old : Bool) (h : e < 2048) : latchUpdate old e = false := by
  simp [latchUpdate, Config.latchSet, Config.latchClear, show ¬ 3584 ≤ e by omega, h]

theorem latchUpdate_band {e : Nat} (old : Bool) (h : 2048 ≤ e) (hs : e < 3584) : latchUpdate old e = old := by
  simp [latchUpdate, Config.latchSet, Config.latchClear, Nat.not_le.mpr hs, h]

/-! ### The block released as the latch clears (R131) -/

/-- A block can be released: it is open for the message being composed, and holds codes. -/
theorem State.releasable_iff (s : State) (slot : Nat) : s.releasable = some slot ↔
    s.kb.comp = .composing ∧ s.kb.current = some slot ∧ ∃ x xs, s.store.openCodes slot = some (x :: xs) := by
  unfold State.releasable
  split
  · rename_i cur hcomp hcur
    split
    · rename_i x xs hcodes
      simp only [hcomp, hcur, Option.some.injEq, true_and]
      exact ⟨fun h => ⟨h, x, xs, h ▸ hcodes⟩, fun h => h.1⟩
    · rename_i hcodes
      simp only [hcomp, hcur, Option.some.injEq, true_and, reduceCtorEq, false_iff]
      rintro ⟨rfl, x, xs, hx⟩
      exact hcodes x xs hx
  · rename_i hno
    simp only [reduceCtorEq, false_iff]
    exact fun ⟨hcomp, hcur, _⟩ => hno slot hcomp hcur

@[simp] theorem State.releasable_withLine (s : State) (l : LineUnit) : (s.withLine l).releasable = s.releasable := rfl

/-- The state as a load window ends. -/
def State.windowEnded (s : State) : State :=
  if s.line.latch = true ∧ s.line.windowEnds.latch = false then (s.withLine s.line.windowEnds).latchCleared
  else s.withLine s.line.windowEnds

theorem exec_loadWindowEnd {s : State} (h : s.panel.phase = .done) :
    exec .loadWindowEnd s = .next s.windowEnded :=
  congrArg _ (State.whenLive_live (s.live_iff.mpr h) _)

/-- The end of a window releases the block of this entry: the latch clears with the time at T or beyond. -/
def State.clearsBlock (s : State) (slot : Nat) : Prop :=
  s.line.latch = true ∧ s.line.windowEnds.latch = false ∧
    (∃ n, s.kb.idleTimer = some n ∧ s.releaseTime ≤ n) ∧ s.releasable = some slot

theorem State.windowEnded_releases {s : State} {slot : Nat} (h : s.clearsBlock slot) :
    s.windowEnded = (s.withLine s.line.windowEnds).release slot false := by
  obtain ⟨hset, hclear, ⟨n, hn, hT⟩, hslot⟩ := h
  unfold State.windowEnded State.latchCleared
  rw [if_pos ⟨hset, hclear⟩, State.withLine_kb, hn, State.releasable_withLine, hslot]
  exact if_pos hT

theorem State.windowEnded_still {s : State} (h : ∀ slot, ¬ s.clearsBlock slot) :
    s.windowEnded = s.withLine s.line.windowEnds := by
  unfold State.windowEnded
  split
  · next hlatch =>
    unfold State.latchCleared
    split
    · next n slot hn hslot =>
      exact if_neg fun hT => h slot ⟨hlatch.1, hlatch.2, ⟨n, hn, hT⟩, hslot⟩
    · rfl
  · rfl

/-- A window's end keeps to the line unit, but for the block it may release. -/
theorem State.windowEnded_cases (s : State) :
    (∃ slot, s.clearsBlock slot ∧ s.windowEnded = (s.withLine s.line.windowEnds).release slot false) ∨
    (∀ slot, ¬ s.clearsBlock slot) ∧ s.windowEnded = s.withLine s.line.windowEnds := by
  by_cases h : ∃ slot, s.clearsBlock slot
  · obtain ⟨slot, hslot⟩ := h
    exact .inl ⟨slot, hslot, State.windowEnded_releases hslot⟩
  · exact .inr ⟨not_exists.mp h, State.windowEnded_still (not_exists.mp h)⟩

@[simp] theorem State.windowEnded_line (s : State) : s.windowEnded.line = s.line.windowEnds := by
  rcases s.windowEnded_cases with ⟨slot, -, h⟩ | ⟨-, h⟩ <;> rw [h] <;> rfl

/-- Reception, the two mechanisms, the journal, the panel and the keys waiting are as they were. -/
theorem State.windowEnded_frame (s : State) : s.windowEnded.recv = s.recv ∧ s.windowEnded.print = s.print ∧
    s.windowEnded.punch = s.punch ∧ s.windowEnded.journal = s.journal ∧ s.windowEnded.panel = s.panel ∧
    s.windowEnded.bell = s.bell ∧ s.windowEnded.kb.queue = s.kb.queue ∧ s.windowEnded.kb.comp = s.kb.comp := by
  rcases s.windowEnded_cases with ⟨slot, -, h⟩ | ⟨-, h⟩ <;> rw [h] <;>
    exact ⟨rfl, rfl, rfl, rfl, rfl, rfl, rfl, rfl⟩

theorem State.windowEnded_unreleased {s : State} (h : ∀ slot, ¬ s.clearsBlock slot) :
    s.windowEnded = { s with line := s.windowEnded.line } := by
  rw [State.windowEnded_still h]
  rfl

/-- Settles O14: the line unit's part, then which windows release a block and which leave everything else. -/
theorem loadWindow : Obligations.LoadWindow := by
  intro s h
  obtain ⟨hrecv, hprint, hpunch, hjournal, hpanel, hbell, hqueue, hcomp⟩ := s.windowEnded_frame
  refine ⟨s.windowEnded, exec_loadWindowEnd h, ?_⟩
  simp only [State.windowEnded_line]
  refine ⟨loadUpdate_cast _ _, latchUpdate_high _, latchUpdate_low _, latchUpdate_band _, rfl, rfl, ?lamp, rfl,
    hrecv, hprint, hpunch, hjournal, hpanel, hbell, hqueue, hcomp, fun hn => ?noClearing, fun n hn hT => ?early,
    fun hn => ?noBlock, fun n slot x xs hset hclear hn hT hc hcur hx => ?released⟩
  case lamp =>
    rw [State.lampCondition, State.windowEnded_line]
    rfl
  case noClearing =>
    refine s.windowEnded_line ▸ State.windowEnded_unreleased fun slot ⟨hset, hclear, ⟨n, htimer, _⟩, _⟩ => ?_
    rcases hn with hn | hn | hn
    · cases hset.symm.trans hn
    · cases hclear.symm.trans hn
    · cases htimer.symm.trans hn
  case early =>
    refine s.windowEnded_line ▸ State.windowEnded_unreleased fun slot ⟨_, _, ⟨m, hm, hle⟩, _⟩ => ?_
    obtain rfl : n = m := Option.some.inj (hn.symm.trans hm)
    exact Nat.not_lt.mpr hle hT
  case noBlock =>
    refine s.windowEnded_line ▸ State.windowEnded_unreleased fun slot ⟨_, _, _, hslot⟩ => ?_
    obtain ⟨hc, hcur, x, xs, hx⟩ := (s.releasable_iff slot).mp hslot
    exact hn slot x xs hc hcur hx
  case released =>
    have hslot := (s.releasable_iff slot).mpr ⟨hc, hcur, x, xs, hx⟩
    rw [State.windowEnded_releases ⟨hset, hclear, ⟨n, hn, hT⟩, hslot⟩]
    exact ⟨rfl, rfl⟩

end Sys2Proof.Machine
end

section
/-! SUPPORT. Rank and selection: how a rank comes from urgency and class, which frames are candidates, and that R50's
tests put any two candidates in order (R47, R48, R50). -/
namespace Sys2Proof.Machine

/-! ### Rank (R48) -/

theorem rankFloor_le_rankBase (cls : Nat) : rankFloor cls ≤ rankBase cls := by
  unfold rankFloor rankBase
  split <;> decide

/-- No class has a base above 13, nor more than 6 between its base and its floor. -/
theorem rankBase_le (cls : Nat) : rankBase cls ≤ 13 ∧ rankBase cls ≤ rankFloor cls + 6 := by
  unfold rankFloor rankBase
  split <;> decide

theorem rankOf_eq (cls w n a : Nat) : rankOf cls w n a = max (rankFloor cls) (rankBase cls - (w / a + n)) := rfl

/-- A rank lies between the floor and the base of its class. -/
theorem rankOf_range (cls w n a : Nat) :
    rankFloor cls ≤ rankOf cls w n a ∧ rankOf cls w n a ≤ rankBase cls ∧ rankOf cls w n a ≤ 13 := by
  obtain ⟨htop, -⟩ := rankBase_le cls
  have hle : rankOf cls w n a ≤ rankBase cls := Nat.max_le.mpr ⟨rankFloor_le_rankBase cls, Nat.sub_le _ _⟩
  exact ⟨Nat.le_max_left _ _, hle, hle.trans htop⟩

/-- The floor is reached at the urgency that spans the class's band. -/
theorem rankOf_eq_floor_iff (cls w n a : Nat) :
    rankOf cls w n a = rankFloor cls ↔ rankBase cls ≤ rankFloor cls + (w / a + n) := by
  rw [rankOf_eq, max_eq_left_iff, Nat.sub_le_iff_le_add]

/-- R48's formula, its difference taken among the integers. -/
theorem rankOf_cast (cls w n a : Nat) :
    (rankOf cls w n a : Int) = max (rankFloor cls : Int) (rankBase cls - (((w / a : Nat) : Int) + n)) := by
  rw [rankOf_eq]
  omega

/-- An urgency of 6 brings every class to its floor. -/
theorem rankOf_floor {cls w n a : Nat} (h : 6 ≤ w / a + n) : rankOf cls w n a = rankFloor cls := by
  obtain ⟨-, hspan⟩ := rankBase_le cls
  exact (rankOf_eq_floor_iff cls w n a).mpr (by omega)

/-- The longest wait holds 42 of the longest ageing steps, 1536 cells. -/
theorem longest_wait_steps {a : Nat} (h : 0 < a) (ha : a ≤ 1536) : 42 ≤ 65535 / a :=
  (Nat.le_div_iff_mul_le h).mpr (by omega)

/-! ### The candidates (R47, R98) -/

/-- The candidate of a section with the place it has in the send list. -/
def sectionCandidate (e : Nat) (p : SendRec × Nat) : Candidate :=
  { rank := rankOf p.1.cls p.1.counts.w p.1.counts.n (ageingStep e), w := p.1.counts.w, control := false
    place := p.2 }

/-- The candidate of a control frame with the place it has in the control queue. -/
def controlCandidate (e : Nat) (p : ControlRec × Nat) : Candidate :=
  { rank := rankOf 0 p.1.counts.w p.1.counts.n (ageingStep e), w := p.1.counts.w, control := true, place := p.2 }

theorem sectionCandidates_eq (e : Nat) (rs : List SendRec) : ∀ i, sectionCandidates e i rs =
    ((rs.zipIdx i).filter fun p => p.1.phase = .ready).map (sectionCandidate e) := by
  induction rs with
  | nil => exact fun _ => rfl
  | cons r rs ih =>
    intro i
    by_cases hr : r.phase = .ready <;> simp [sectionCandidates, sectionCandidate, ih, hr]

theorem controlCandidates_eq (e : Nat) (rs : List ControlRec) : ∀ i, controlCandidates e i rs =
    ((rs.zipIdx i).filter fun p => p.1.phase = .ready).map (controlCandidate e) := by
  induction rs with
  | nil => exact fun _ => rfl
  | cons r rs ih =>
    intro i
    by_cases hr : r.phase = .ready <;> simp [controlCandidates, controlCandidate, ih, hr]

/-- A candidate's place leads back to the one record it was made from. -/
theorem mem_map_zipIdx_filter {α : Type} {ready : α → Bool} {make : α × Nat → Candidate}
    (hplace : ∀ p, (make p).place = p.2) {rs : List α} {c : Candidate} :
    c ∈ (rs.zipIdx.filter fun p => ready p.1).map make ↔
      ∃ r, rs[c.place]? = some r ∧ ready r = true ∧ make (r, c.place) = c := by
  simp only [List.mem_map, List.mem_filter, List.mem_zipIdx_iff_getElem?]
  constructor
  · rintro ⟨⟨r, k⟩, ⟨hr, hready⟩, rfl⟩
    have hk := hplace (r, k)
    exact ⟨r, hk ▸ hr, hready, congrArg (fun i => make (r, i)) hk⟩
  · rintro ⟨r, hr, hready, hc⟩
    exact ⟨(r, c.place), ⟨hr, hready⟩, hc⟩

theorem sectionCandidate_eq_iff {e : Nat} {r : SendRec} {c : Candidate} : sectionCandidate e (r, c.place) = c ↔
    c.control = false ∧ c.w = r.counts.w ∧ c.rank = rankOf r.cls r.counts.w r.counts.n (512 + e / 4) := by
  constructor
  · exact fun h => h ▸ ⟨rfl, rfl, rfl⟩
  · obtain ⟨rank, w, control, place⟩ := c
    rintro ⟨rfl, rfl, rfl⟩
    rfl

theorem controlCandidate_eq_iff {e : Nat} {r : ControlRec} {c : Candidate} : controlCandidate e (r, c.place) = c ↔
    c.control = true ∧ c.w = r.counts.w ∧ c.rank = rankOf 0 r.counts.w r.counts.n (512 + e / 4) := by
  constructor
  · exact fun h => h ▸ ⟨rfl, rfl, rfl⟩
  · obtain ⟨rank, w, control, place⟩ := c
    rintro ⟨rfl, rfl, rfl⟩
    rfl

/-- A section is a candidate just when its record is READY, and the rank is its own. -/
theorem mem_sectionCandidates {e : Nat} {rs : List SendRec} {c : Candidate} : c ∈ sectionCandidates e 0 rs ↔
    ∃ r, c.control = false ∧ rs[c.place]? = some r ∧ r.phase = .ready ∧ c.w = r.counts.w ∧
      c.rank = rankOf r.cls r.counts.w r.counts.n (512 + e / 4) := by
  rw [sectionCandidates_eq, mem_map_zipIdx_filter (ready := fun r : SendRec => r.phase = .ready) fun _ => rfl]
  simp only [sectionCandidate_eq_iff, decide_eq_true_eq, and_left_comm (b := c.control = false)]

/-- A control frame is a candidate just when its record is READY, and the rank is its own, of class 0. -/
theorem mem_controlCandidates {e : Nat} {rs : List ControlRec} {c : Candidate} : c ∈ controlCandidates e 0 rs ↔
    ∃ r, c.control = true ∧ rs[c.place]? = some r ∧ r.phase = .ready ∧ c.w = r.counts.w ∧
      c.rank = rankOf 0 r.counts.w r.counts.n (512 + e / 4) := by
  rw [controlCandidates_eq, mem_map_zipIdx_filter (ready := fun r : ControlRec => r.phase = .ready) fun _ => rfl]
  simp only [controlCandidate_eq_iff, decide_eq_true_eq, and_left_comm (b := c.control = true)]

theorem Transmission.mem_candidates {t : Transmission} {e : Nat} {c : Candidate} : c ∈ t.candidates e ↔
    (∃ r, c.control = true ∧ t.control[c.place]? = some r ∧ r.phase = .ready ∧ c.w = r.counts.w ∧
      c.rank = rankOf 0 r.counts.w r.counts.n (512 + e / 4)) ∨
    (∃ r, c.control = false ∧ t.sendList[c.place]? = some r ∧ r.phase = .ready ∧ c.w = r.counts.w ∧
      c.rank = rankOf r.cls r.counts.w r.counts.n (512 + e / 4)) := by
  rw [Transmission.candidates, List.mem_append, mem_controlCandidates, mem_sectionCandidates]

/-! ### The order of selection (R50) -/

/-- R50's tests in their order, as the figures they compare. -/
def Candidate.before (a b : Candidate) : Prop :=
  a.rank < b.rank ∨ a.rank = b.rank ∧ (b.w < a.w ∨ a.w = b.w ∧
    (a.control = true ∧ b.control = false ∨ a.control = b.control ∧ a.place < b.place))

theorem goesFirst_iff (a b : Candidate) : goesFirst a b = true ↔ a.before b := by
  unfold goesFirst Candidate.before
  split
  · next hr => simp [hr]
  · next hr =>
    have hr : a.rank = b.rank := not_not.mp hr
    split
    · next hw => simp [hr, hw]
    · next hw =>
      have hw : a.w = b.w := not_not.mp hw
      split
      · next hc => cases ha : a.control <;> cases hb : b.control <;> simp_all
      · next hc => simp [hr, hw, not_not.mp hc]

theorem Candidate.before.trans {a b c : Candidate} (hab : a.before b) (hbc : b.before c) : a.before c := by
  unfold Candidate.before at *
  grind

/-- The tests leave no two candidates level. -/
theorem Candidate.before_or_before {a b : Candidate} (h : a ≠ b) : a.before b ∨ b.before a := by
  obtain ⟨rank, w, control, place⟩ := a
  obtain ⟨rank', w', control', place'⟩ := b
  unfold Candidate.before
  grind

theorem firstOf_none {cs : List Candidate} : firstOf cs = none ↔ cs = [] := by
  cases cs with
  | nil => simp [firstOf]
  | cons c cs =>
    rw [firstOf]
    split
    · simp
    · split <;> simp

/-- The choice between the head of a list and the first of its rest. -/
theorem firstOf_cons {c d : Candidate} {cs : List Candidate} (h : firstOf (c :: cs) = some d) :
    (d = c ∧ cs = []) ∨ (∃ f, firstOf cs = some f ∧ (d = f ∧ f.before c ∨ d = c ∧ ¬ f.before c)) := by
  rw [firstOf] at h
  split at h
  · next hn => exact .inl ⟨(Option.some.inj h).symm, firstOf_none.mp hn⟩
  · next f hf =>
    refine .inr ⟨f, hf, ?_⟩
    split at h
    · next hg => exact .inl ⟨(Option.some.inj h).symm, (goesFirst_iff f c).mp hg⟩
    · next hg => exact .inr ⟨(Option.some.inj h).symm, mt (goesFirst_iff f c).mpr hg⟩

/-- The one chosen is of the list and goes before every other. -/
theorem firstOf_some {cs : List Candidate} : ∀ {c : Candidate}, firstOf cs = some c →
    c ∈ cs ∧ ∀ d ∈ cs, d ≠ c → c.before d := by
  induction cs with
  | nil => exact fun h => nomatch h
  | cons x cs ih =>
    intro c h
    rcases firstOf_cons h with ⟨rfl, rfl⟩ | ⟨f, hf, ⟨rfl, hbefore⟩ | ⟨rfl, hnot⟩⟩
    case inl => exact ⟨List.mem_cons_self, fun d hd hne => absurd (List.mem_singleton.mp hd) hne⟩
    case inr.inl =>
      obtain ⟨hmem, hfirst⟩ := ih hf
      refine ⟨List.mem_cons_of_mem _ hmem, fun d hd hne => ?_⟩
      rcases List.mem_cons.mp hd with rfl | hd
      · exact hbefore
      · exact hfirst d hd hne
    case inr.inr =>
      obtain ⟨-, hfirst⟩ := ih hf
      refine ⟨List.mem_cons_self, fun d hd hne => ?_⟩
      have hd : d ∈ cs := (List.mem_cons.mp hd).resolve_left hne
      by_cases hdf : d = f
      · exact hdf ▸ (Candidate.before_or_before (hdf ▸ hne)).resolve_left hnot
      · have hfd := hfirst d hd hdf
        exact (Candidate.before_or_before hne).resolve_left fun hdc => hnot (hfd.trans hdc)

/-- Settles O35: membership list by list, and the first of a list under a total order. -/
theorem selectionOrder : Obligations.SelectionOrder :=
  fun _ _ => ⟨fun _ => Transmission.mem_candidates, firstOf_none, fun _ h => (firstOf_some h).1,
    fun _ d h hd hne => (firstOf_some h).2 d hd hne⟩

/-! ### The rank of the frame offered (R48) -/

/-- The frame offered carries a rank formed for its own class, and a control frame is of class 0. -/
theorem State.offer_rank {s : State} {c : Candidate} {f : Frame} (h : s.offer = some (c, f)) :
    (c.control = true → f.cls = 0) ∧ ∃ w n a, f.rank = rankOf f.cls w n a := by
  obtain ⟨own, -, hsel, hf⟩ := (s.offer_iff c f).mp h
  obtain ⟨hmem, -⟩ := firstOf_some hsel
  rcases Transmission.mem_candidates.mp hmem with ⟨r, hc, -, -, -, hR⟩ | ⟨r, hc, hr, -, -, hR⟩
  · obtain ⟨r', -, rfl⟩ := State.frameOf_control hc hf
    exact ⟨fun _ => rfl, _, _, _, hR⟩
  · obtain ⟨r', b, hr', -, rfl⟩ := State.frameOf_section hc hf
    cases hr.symm.trans hr'
    exact ⟨fun hc' => (Bool.eq_false_iff.mp hc hc').elim, _, _, _, hR⟩

/-- Settles O34: the formula class by class, the range it keeps to, and the frames offered. -/
theorem rankFormed : Obligations.RankFormed := by
  refine ⟨fun w n a => ⟨rankOf_cast 0 w n a, rankOf_cast 1 w n a, rankOf_cast 2 w n a, ?floor0, ?floor1, ?floor2,
    fun hw hn => ?fresh⟩, fun cls w n a _ => ?range, by decide, by decide, fun s c f h => ?offered⟩
  case floor0 => exact (rankOf_eq_floor_iff 0 w n a).trans (by simp [rankBase, rankFloor])
  case floor1 => exact (rankOf_eq_floor_iff 1 w n a).trans (by simp only [rankBase, rankFloor]; omega)
  case floor2 => exact (rankOf_eq_floor_iff 2 w n a).trans (by simp only [rankBase, rankFloor]; omega)
  case fresh => rw [Nat.div_eq_of_lt hw, hn]
  case range =>
    obtain ⟨hlow, hhigh, htop⟩ := rankOf_range cls w n a
    refine ⟨hlow, hhigh, htop, rankOf_floor (Nat.le_add_left_of_le (by decide)), fun ha hle => ?_⟩
    have hsteps := longest_wait_steps ha hle
    exact ⟨hsteps, rankOf_floor (Nat.le_add_right_of_le ((by decide : 6 ≤ 42).trans hsteps))⟩
  case offered =>
    obtain ⟨hcontrol, w, n, a, hR⟩ := State.offer_rank h
    exact ⟨hcontrol, fun _ => hR ▸ rankOf_range f.cls w n a⟩

end Sys2Proof.Machine
end

section
/-! SUPPORT. What every command and the block's own step keep of the capacities and ranges, block by block: the
relation, the mechanism units and the guards of commands (R72, R97, R108, R111, R116, R121, R123, R138, R139, R162,
R185, R189, R193, R195). -/
namespace Sys2Proof.Machine

/-! ### The ranges of each block -/

/-- The lists and counters of the transmission controller (R97, R108, R111, R116). -/
def Transmission.bounded (t : Transmission) : Prop :=
  t.sendList.length ≤ 4 ∧ t.control.length ≤ 6 ∧ t.watch.length ≤ 4 ∧
  (1 ≤ t.msgCounter ∧ t.msgCounter ≤ 255) ∧ t.seqCounter ≤ 7

/-- The keys held and the keystroke queue (R121, R123). -/
def Keyboard.bounded (kb : Keyboard) : Prop := kb.held.length ≤ 3 ∧ kb.queue.length ≤ 16

/-- The echo FIFO, the notice queue and the lost count (R139, R162). -/
def PrintUnit.bounded (p : PrintUnit) : Prop :=
  p.echoFifo.length ≤ 256 ∧ p.notices.length ≤ 16 ∧ p.lost ≤ 255

/-- The settings and the accept level (R193, R195). -/
def Panel.bounded (p : Panel) : Prop := p.settings.inRange ∧ p.acceptLevel ≤ 2

/-- An operation keeps the capacities and ranges of every block. A block whose bounded parts it leaves alone needs
no word. -/
structure State.keepsRanges (s t : State) : Prop where
  circ : s.recv.circ.length ≤ 3 → t.recv.circ.length ≤ 3
  send : s.send.bounded → t.send.bounded
  kb : s.kb.bounded → t.kb.bounded
  print : s.print.bounded → t.print.bounded
  fifo : s.punch.fifo.length ≤ 64 → t.punch.fifo.length ≤ 64
  directory : s.store.dir.length ≤ 32 → t.store.dir.length ≤ 32
  journal : s.journal.bounded → t.journal.bounded
  panel : s.panel.bounded → t.panel.bounded

/-- Nothing done keeps every range: the start of each account that names what an operation changes. -/
theorem State.ranges (s : State) : s.keepsRanges s := ⟨id, id, id, id, id, id, id, id⟩

theorem State.keepsRanges.trans {s t u : State} (h : s.keepsRanges t) (h' : t.keepsRanges u) : s.keepsRanges u :=
  ⟨h'.circ ∘ h.circ, h'.send ∘ h.send, h'.kb ∘ h.kb, h'.print ∘ h.print, h'.fifo ∘ h.fifo,
    h'.directory ∘ h.directory, h'.journal ∘ h.journal, h'.panel ∘ h.panel⟩

/-- The same, the later operation named first. -/
theorem State.keepsRanges.after {s t u : State} (h' : t.keepsRanges u) (h : s.keepsRanges t) : s.keepsRanges u :=
  h.trans h'

/-- The capacities, the journal's and the panel's ranges are the ranges of the blocks. -/
theorem State.keepsRanges.invariants {s t : State} (h : s.keepsRanges t) (hc : s.withinCapacity)
    (hj : s.journal.bounded) (hp : s.panelBounded) : t.withinCapacity ∧ t.journal.bounded ∧ t.panelBounded := by
  obtain ⟨hl, hcq, hw, hn, hq⟩ := h.send ⟨hc.sendList, hc.control, hc.watch, hc.number, hc.sequence⟩
  obtain ⟨hheld, hkeys⟩ := h.kb ⟨hc.held, hc.queue⟩
  obtain ⟨he, hno, hlo⟩ := h.print ⟨hc.echo, hc.notices, hc.lost⟩
  exact ⟨⟨h.circ hc.circular, hl, hcq, hw, hn, hq, hheld, hkeys, he, hno, hlo, h.fifo hc.fifo,
    h.directory hc.directory⟩, h.journal hj, h.panel hp⟩

/-! ### The journal, notices and the echo FIFO -/

theorem Journal.bounded.add {j : Journal} (h : j.bounded) (k : JournalKind) (f : JournalFields) :
    (j.add k f).bounded := by
  obtain ⟨hr, hlow, hhigh, ho, hm⟩ := h
  obtain ⟨hn, hn'⟩ := nextEntryNumber_bounds j.nextNumber hlow
  exact ⟨j.add_length k f hr, hn, hn' hhigh, j.add_overwritten k f ho, (j.add_minute k f).symm ▸ hm⟩

theorem Journal.bounded.endReport {j : Journal} (h : j.bounded) : j.endReport.bounded := by
  unfold Journal.endReport
  split
  · exact h
  · split
    · obtain ⟨hr, hlow, hhigh, -, hm⟩ := h
      exact ⟨(List.length_filter_le _ _).trans hr, hlow, hhigh, Nat.zero_le _, hm⟩
    · exact h

theorem Journal.bounded.divide {j : Journal} (h : j.bounded) : j.divide.bounded := by
  unfold Journal.divide
  split
  · exact h
  · split
    · exact h
    · obtain ⟨hr, hlow, hhigh, ho, hm⟩ := h
      refine ⟨hr, hlow, hhigh, ho, ?_⟩
      dsimp only
      split <;> omega

theorem PrintUnit.bounded.place {p : PrintUnit} (h : p.bounded) (n : Notice) : (p.place n).bounded := by
  obtain ⟨he, hn, hl⟩ := h
  rw [p.place_still n]
  exact ⟨he, p.place_bounds n hn hl⟩

theorem PrintUnit.bounded.echo {p : PrintUnit} (h : p.bounded) (i : EchoItem) : (p.echo i).bounded := by
  refine ⟨p.echo_bound i h.1, ?_⟩
  rcases p.echo_cases i with ⟨-, he⟩ | ⟨-, he⟩ <;> rw [he] <;> exact h.2

theorem PrintUnit.bounded.popEcho {p : PrintUnit} (h : p.bounded) : p.popEcho.bounded := by
  unfold PrintUnit.popEcho
  split
  · exact h
  · rename_i rest hf
    refine ⟨?_, h.2⟩
    have he := h.1
    rw [hf] at he
    exact (Nat.le_succ _).trans he

theorem PrintUnit.bounded.before {p q : PrintUnit} (h : p.bounded) (hq : p.before = some q) : q.bounded := by
  rcases p.before_some q hq with ⟨-, -, rfl⟩ | ⟨-, rfl⟩ <;> exact h

/-! ### The print unit -/

/-- What the print unit does keeps its own ranges, the directory's and the journal's. -/
structure PrintSide.keepsRanges (x y : PrintSide) : Prop where
  print : x.print.bounded → y.print.bounded
  directory : x.store.dir.length ≤ 32 → y.store.dir.length ≤ 32
  journal : x.journal.bounded → y.journal.bounded

theorem PrintSide.ranges (x : PrintSide) : x.keepsRanges x := ⟨id, id, id⟩

theorem PrintSide.keepsRanges.trans {x y z : PrintSide} (h : x.keepsRanges y) (h' : y.keepsRanges z) :
    x.keepsRanges z := ⟨h'.print ∘ h.print, h'.directory ∘ h.directory, h'.journal ∘ h.journal⟩

theorem PrintSide.before_ranges {x : PrintSide} {p : PrintUnit} (hp : x.print.before = some p) :
    x.keepsRanges { x with print := p } := { x.ranges with print := fun h => h.before hp }

/-- Issuing keeps the ranges when what is consumed does. -/
theorem PrintSide.keepsRanges.issue {x c : PrintSide} (hc : x.keepsRanges c) (env : PrintEnv) (st : Stream)
    (item : Bool) (o : MechOp) : x.keepsRanges (x.issue env st item o c) := by
  rcases PrintSide.issue_cases env st item o x c with ⟨p, hp, e⟩ | ⟨-, -, y, hy, e⟩ | ⟨-, q, -, e⟩ <;> rw [e]
  · exact PrintSide.before_ranges hp
  · rcases hy with rfl | rfl
    · exact { y.ranges with }
    · exact { hc with }
  · exact { hc with }

theorem PrintSide.keepsRanges.beginLine {x b : PrintSide} (hb : x.keepsRanges b) (st : Stream) :
    x.keepsRanges (x.beginLine st b) := by
  rcases PrintSide.beginLine_cases st x b with ⟨-, e⟩ | ⟨-, p, hp, e⟩ | ⟨-, e⟩ <;> rw [e]
  · exact { x.ranges with }
  · exact PrintSide.before_ranges hp
  · exact hb

theorem PrintSide.keepsRanges.issueElem {x c : PrintSide} (hc : x.keepsRanges c) (env : PrintEnv) (st : Stream)
    (e : Elem) : x.keepsRanges (x.issueElem env st e c) := by
  rcases PrintSide.issueElem_cases env st e x c with ⟨o, he⟩ | he <;> rw [he]
  · exact hc.issue env st false o
  · exact { hc with }

theorem PrintSide.actNotices_ranges {env : PrintEnv} {x y : PrintSide} (h : x.actNotices env = some y) :
    x.keepsRanges y := by
  unfold PrintSide.actNotices at h
  split at h
  · cases h; exact .issueElem (by exact { x.ranges with }) _ _ _
  · split at h
    · cases h
      refine .beginLine ?_ _
      exact { x.ranges with print := fun hp => ⟨hp.1, hp.2.1, Nat.zero_le _⟩ }
    · split at h
      · cases h
      · rename_i n rest hq
        cases h
        refine .beginLine ?_ _
        refine { x.ranges with print := fun ⟨he, hn, hl⟩ => ⟨he, ?_, hl⟩ }
        rw [hq] at hn
        exact (Nat.le_succ _).trans hn

theorem PrintSide.actEchoItem_ranges (env : PrintEnv) (x : PrintSide) (i : EchoItem) :
    x.keepsRanges (x.actEchoItem env i) := by
  unfold PrintSide.actEchoItem
  split
  · dsimp only
    split
    · exact { x.ranges with print := .popEcho }
    · exact { x.ranges with print := .popEcho }
    · exact .issue (by exact { x.ranges with print := .popEcho }) _ _ _ _
  · exact .issue (by exact { x.ranges with print := .popEcho }) _ _ _ _
  · exact .beginLine (by exact { x.ranges with print := .popEcho }) _
  · exact .beginLine (by exact { x.ranges with print := .popEcho }) _

theorem PrintSide.actEcho_ranges {env : PrintEnv} {x y : PrintSide} (h : x.actEcho env = some y) :
    x.keepsRanges y := by
  unfold PrintSide.actEcho at h
  split at h
  · cases h; exact .issueElem (by exact { x.ranges with }) _ _ _
  · split at h
    · cases h; exact .issue (by exact { x.ranges with }) _ _ _ _
    · split at h
      · cases h
      · split at h
        · cases h; exact { x.ranges with }
        · split at h
          · cases h; exact .beginLine (by exact { x.ranges with }) _
          · cases h; exact x.actEchoItem_ranges env _

theorem PrintSide.actReport_ranges {env : PrintEnv} {x y : PrintSide} (h : x.actReport env = some y) :
    x.keepsRanges y := by
  unfold PrintSide.actReport at h
  split at h
  · cases h; exact .issueElem (by exact { x.ranges with }) _ _ _
  · split at h
    · cases h
    · split at h
      · cases h; exact .beginLine (by exact { x.ranges with }) _
      · cases h
        unfold PrintSide.actEntries
        dsimp only
        split
        · exact .beginLine (by exact { x.ranges with }) _
        · split
          · exact .beginLine (by exact { x.ranges with }) _
          · split
            · exact .beginLine (by exact { x.ranges with }) _
            · split
              · exact { x.ranges with }
              · exact .beginLine (by exact { x.ranges with }) _
      · cases h; exact .beginLine (by exact { x.ranges with }) _
      · cases h

theorem PrintSide.finishCopy_ranges (x : PrintSide) (c : CopyPos) : x.keepsRanges (x.finishCopy c) :=
  { x.ranges with directory := fun h => (x.store.removeObligation_length _ _).trans h }

theorem PrintSide.actCopyText_ranges {env : PrintEnv} {x y : PrintSide} {c : CopyPos}
    (h : x.actCopyText env c = some y) : x.keepsRanges y := by
  unfold PrintSide.actCopyText at h
  split at h
  · cases h
  · dsimp only at h
    split at h
    · unfold PrintSide.actCopyEnd at h
      split at h
      · split at h
        · cases h; exact .beginLine (by exact { x.ranges with }) _
        · split at h
          · cases h; exact { x.ranges with }
          · cases h; exact x.finishCopy_ranges _
      · cases h
    · split at h
      · cases h; exact .beginLine (by exact { x.ranges with }) _
      · obtain ⟨code, -, rfl⟩ := Option.map_eq_some_iff.mp h
        unfold PrintSide.actCopyCode
        dsimp only
        split
        · exact { x.ranges with }
        · exact { x.ranges with }
        · exact .issue (by exact { x.ranges with }) _ _ _ _

theorem PrintSide.actCopy_ranges {env : PrintEnv} {x y : PrintSide} (h : x.actCopy env = some y) :
    x.keepsRanges y := by
  unfold PrintSide.actCopy at h
  split at h
  · cases h
  · split at h
    · cases h; exact .issueElem (by exact { x.ranges with }) _ _ _
    · split at h
      · cases h; split <;> exact { x.ranges with }
      · cases h
        unfold PrintSide.actCopyPage
        dsimp only
        split
        · exact .issue (by exact { x.ranges with }) _ _ _ _
        · exact { x.ranges with }
      · obtain ⟨e, -, rfl⟩ := Option.map_eq_some_iff.mp h
        exact .beginLine (by exact { x.ranges with }) _
      · exact PrintSide.actCopyText_ranges h
      · cases h; exact x.finishCopy_ranges _

theorem PrintSide.issueNext_ranges {env : PrintEnv} {x y : PrintSide} (h : x.issueNext env = some y) :
    x.keepsRanges y := by
  have owed : x.keepsRanges { x with print := x.print.issueOwed env } := by
    unfold PrintUnit.issueOwed
    split
    · rename_i q hq; exact PrintSide.before_ranges hq
    · exact { x.ranges with }
  unfold PrintSide.issueNext at h
  split at h
  · split at h <;> cases h
    exact owed
  · split at h
    · cases h; exact owed
    · split at h
      · cases h
        unfold PrintUnit.issuePre
        split
        · rename_i q hq; exact PrintSide.before_ranges hq
        · exact { x.ranges with }
      · obtain ⟨st, -, hturn⟩ := Option.bind_eq_some_iff.mp h
        obtain ⟨z, hz, rfl⟩ := Option.map_eq_some_iff.mp hturn
        split
        · exact { x.ranges with }
        · cases st with
          | notices => exact PrintSide.actNotices_ranges hz
          | echo => exact PrintSide.actEcho_ranges hz
          | copy => exact PrintSide.actCopy_ranges hz
          | report => exact PrintSide.actReport_ranges hz

theorem PrintSide.step_ranges {env : PrintEnv} {x y : PrintSide} (h : x.step env = some y) : x.keepsRanges y := by
  rcases PrintSide.step_cases h with ⟨-, slot, -, rfl⟩ | ⟨-, -, rfl⟩ | ⟨-, -, -, rfl⟩ | ⟨-, hi⟩
  · exact { x.ranges with }
  · unfold PrintSide.judge
    split
    · exact { x.ranges with }
    · split <;> exact { x.ranges with }
  · exact { x.ranges with }
  · exact PrintSide.issueNext_ranges hi

theorem PrintUnit.bounded.lineAfter {p : PrintUnit} (h : p.bounded) (o : MechOp) (w : Option Stream) :
    (p.lineAfter o w).bounded := by
  unfold PrintUnit.lineAfter
  split
  · exact h
  · split <;> exact h

theorem PrintUnit.bounded.streamAfter {p : PrintUnit} (h : p.bounded) (o : MechOp) (st : Stream) :
    (p.streamAfter o st).bounded := by
  unfold PrintUnit.streamAfter
  split
  · exact h
  · split <;> exact h
  · exact h

theorem PrintUnit.bounded.owedDone {p : PrintUnit} (h : p.bounded) : p.owedDone.bounded := by
  unfold PrintUnit.owedDone
  split <;> exact h

theorem PrintSide.endsAfter_ranges (x : PrintSide) (o : MechOp) (st : Stream) :
    x.keepsRanges (x.endsAfter o st) := by
  unfold PrintSide.endsAfter
  split
  · split
    · exact { x.ranges with }
    · split
      · exact x.finishCopy_ranges _
      · exact { x.ranges with }
  · split
    · exact { x.ranges with }
    · split
      · exact { x.ranges with journal := .endReport }
      · exact { x.ranges with }
  · exact { x.ranges with }

theorem PrintSide.marginBell_ranges (env : PrintEnv) (x : PrintSide) (o : MechOp) (item : Bool) :
    x.keepsRanges (x.marginBell env o item) := by
  unfold PrintSide.marginBell
  split <;> exact { x.ranges with }

theorem PrintSide.opDone_ranges (env : PrintEnv) (x : PrintSide) (o : MechOp) (why : OpFor) :
    x.keepsRanges (x.opDone env o why) := by
  have moved : x.print.bounded → (x.moved env o).bounded := id
  cases why with
  | stream st item =>
    have served : x.keepsRanges (x.served env o st) :=
      { x.ranges with print := fun h => PrintUnit.bounded.streamAfter (.lineAfter (moved h) o (some st)) o st }
    rw [PrintSide.opDone_stream]
    exact (served.trans (PrintSide.marginBell_ranges env _ o _)).trans (PrintSide.endsAfter_ranges _ o st)
  | closing => exact { x.ranges with print := fun h => .lineAfter (moved h) o none }
  | paperFeed => exact { x.ranges with print := fun h => .owedDone (moved h) }
  | initial => exact { x.ranges with }
  | orphan item =>
    have closed : x.keepsRanges { x with print := (x.moved env o).lineAfter o none } :=
      { x.ranges with print := fun h => .lineAfter (moved h) o none }
    exact closed.trans (PrintSide.marginBell_ranges env _ o item)

theorem PrintSide.complete_ranges (env : PrintEnv) (x : PrintSide) : x.keepsRanges (x.complete env) := by
  unfold PrintSide.complete
  split
  · exact { x.ranges with }
  · exact { x.ranges with }
  · exact { x.ranges with }
  · exact x.opDone_ranges env _ _

/-! ### The punch unit -/

theorem Punch.localBegins_fifo (p : Punch) (leader : Nat) : (p.localBegins leader).fifo = p.fifo := by
  unfold Punch.localBegins
  split
  · split <;> rfl
  · rfl
  · rfl
  · split <;> rfl

theorem Punch.localEnds_fifo (p : Punch) : p.localEnds.fifo = p.fifo := by
  unfold Punch.localEnds
  split
  · rfl
  · split <;> rfl
  · rfl
  · rfl

theorem Punch.sourceAdvances_fifo (p : Punch) (src : PunchSource) : (p.sourceAdvances src).fifo = p.fifo := by
  cases src <;> rfl

/-- The local FIFO gives its head to an operation, or stays, or is emptied; nothing joins it. -/
theorem PunchSide.step_fifo {leader : Nat} {relocal : Bool} {x y : PunchSide} (h : x.step leader relocal = some y) :
    y.punch.fifo.length ≤ x.punch.fifo.length := by
  rcases PunchSide.step_cases h with ⟨_, _, rfl⟩ | ⟨_, ⟨_, rfl⟩ | ⟨_, ⟨_, rfl⟩ | ⟨_, _, h⟩⟩⟩
  · exact Nat.le_refl _
  · have hempty : (x.punch.turnedOff leader relocal).fifo = [] := by
      unfold Punch.turnedOff
      dsimp only
      split
      · exact Punch.localBegins_fifo _ _
      · rfl
    simp [hempty]
  · refine Nat.le_of_eq (congrArg List.length ?_)
    dsimp only
    unfold Punch.closed
    split <;> rfl
  · unfold PunchSide.issueNext at h
    split at h
    · cases h; exact Nat.le_refl _
    · split at h
      · cases h; exact Nat.le_refl _
      · split at h
        · obtain ⟨p, hp, rfl⟩ := Option.map_eq_some_iff.mp h
          unfold Punch.localStep at hp
          split at hp
          · cases hp; exact Nat.le_refl _
          · split at hp
            · cases hp; exact Nat.le_refl _
            · split at hp
              · cases hp; exact Nat.le_refl _
              · split at hp
                · rename_i hf
                  cases hp
                  simp [Punch.issue, hf]
                · cases hp; exact Nat.le_refl _
                · cases hp
        · unfold PunchSide.copyStep at h
          split at h
          · cases h
          · split at h
            · cases h; exact Nat.le_refl _
            · cases h; exact Nat.le_refl _
            · cases h
              refine Nat.le_of_eq (congrArg List.length ?_)
              dsimp only
              unfold Punch.copyFinished
              split <;> rfl
            · cases h

/-! ### Settling and the guards of commands -/

theorem State.settlePrint_ranges (s : State) : s.keepsRanges s.settlePrint := by
  obtain ⟨hp, hd, hj⟩ := PrintSide.run_keeps s.printEnv s.printSide.keepsRanges
    (fun _ _ hx hs => hx.trans (PrintSide.step_ranges hs)) printFuel s.printSide s.printSide.ranges
  exact { s.ranges with print := hp, directory := hd, journal := hj }

theorem State.settlePunch_ranges (s : State) : s.keepsRanges s.settlePunch := by
  refine PunchSide.run_keeps s.panel.settings.leader s.relocal (fun x => s.keepsRanges (s.withPunchSide x)) ?_
    punchFuel s.punchSide (s.ranges)
  intro x y hx hs
  refine hx.trans { s.ranges with fifo := (PunchSide.step_fifo hs).trans, directory := ?_ }
  rcases PunchSide.step_store hs with h | ⟨slot, h⟩
  · exact fun hd => (congrArg (fun st : Store => st.dir.length) h).trans_le hd
  · exact fun hd => (congrArg (fun st : Store => st.dir.length) h).trans_le
      ((x.store.removeObligation_length _ _).trans hd)

theorem State.settle_ranges (s : State) : s.keepsRanges s.settle := by
  unfold State.settle
  split
  · exact s.settlePrint_ranges.trans (State.settlePunch_ranges _)
  · exact s.ranges

theorem State.printCompletes_ranges (s : State) : s.keepsRanges s.printCompletes := by
  obtain ⟨hp, hd, hj⟩ := s.printSide.complete_ranges s.printEnv
  exact { s.ranges with print := hp, directory := hd, journal := hj }

theorem State.keepsRanges.whenLive {s : State} {f : State → State} (h : s.keepsRanges (f s)) :
    s.keepsRanges (s.whenLive f) := by
  unfold State.whenLive
  split
  · exact h
  · exact s.ranges

theorem State.keepsRanges.acting {s : State} {f : State → State} (h : s.keepsRanges (f s)) :
    s.keepsRanges (s.acting f) := .whenLive (h.trans (State.settle_ranges _))

theorem State.keepsRanges.given {s : State} {f : State → State} (h : s.keepsRanges (f s)) (c : Bool) :
    s.keepsRanges (s.given c f) := by
  cases c
  · exact s.ranges
  · exact h

theorem State.keepsRanges.takeHead {s : State} {f : Keystroke → State → State} (h : ∀ k, s.keepsRanges (f k s))
    (mine : Keystroke → Bool) : s.keepsRanges (s.takeHead mine f) := by
  unfold State.takeHead
  split
  · exact s.ranges
  · split
    · exact h _
    · exact s.ranges

end Sys2Proof.Machine
end

section
/-! SUPPORT. What the operations of the transmission controller, the composer and the reception controller keep of the
capacities and ranges (chapters 5 to 7). -/
namespace Sys2Proof.Machine

/-! ### Sending -/

theorem State.notice_ranges (s : State) (n : Notice) : s.keepsRanges (s.notice n) :=
  { s.ranges with print := fun h => h.place n }

theorem State.log_ranges (s : State) (k : JournalKind) (f : JournalFields) : s.keepsRanges (s.log k f) :=
  { s.ranges with journal := fun h => h.add k f }

theorem State.placeEcho_ranges (s : State) (i : EchoItem) : s.keepsRanges (s.placeEcho i) :=
  { s.ranges with print := fun h => h.echo i }

/-- Lists no longer than before, and the counters as they were, stay within their places. -/
theorem Transmission.bounded.shrinks {t u : Transmission} (h : t.bounded)
    (hl : u.sendList.length ≤ t.sendList.length) (hc : u.control.length ≤ t.control.length)
    (hw : u.watch.length ≤ t.watch.length) (hn : u.msgCounter = t.msgCounter) (hq : u.seqCounter = t.seqCounter) :
    u.bounded := by
  obtain ⟨bl, bc, bw, bn, bq⟩ := h
  exact ⟨hl.trans bl, hc.trans bc, hw.trans bw, hn ▸ bn, hq ▸ bq⟩

theorem Transmission.bounded.updateMessage {t : Transmission} (h : t.bounded) (entry : Nat)
    (f : SendRec → SendRec) : (t.updateMessage entry f).bounded :=
  h.shrinks (List.length_map _).le le_rfl le_rfl rfl rfl

theorem Transmission.bounded.updateControl {t : Transmission} (h : t.bounded) (place : Nat)
    (f : ControlRec → ControlRec) : (t.updateControl place f).bounded :=
  h.shrinks le_rfl (List.length_modify _ _ _).le le_rfl rfl rfl

theorem Transmission.bounded.eraseControl {t : Transmission} (h : t.bounded) (place : Nat) :
    { t with control := t.control.eraseIdx place }.bounded :=
  h.shrinks le_rfl (List.length_eraseIdx_le _ _) le_rfl rfl rfl

theorem Transmission.bounded.dropWatch {t : Transmission} (h : t.bounded) (slot : Nat) :
    (t.dropWatch slot).bounded :=
  h.shrinks le_rfl (List.length_map _).le (List.length_filter_le _ _) rfl rfl

theorem Transmission.bounded.satisfyWatch {t : Transmission} (h : t.bounded) (peer : Nat) (kind : FrameKind) :
    (t.satisfyWatch peer kind).bounded := by
  unfold Transmission.satisfyWatch
  split
  · exact h
  · exact h.dropWatch _

theorem Transmission.bounded.startWatch {t : Transmission} (h : t.bounded) (slot : Option Nat) :
    (t.startWatch slot).bounded := by
  cases slot with
  | none => exact h
  | some n => exact h.shrinks le_rfl le_rfl (List.length_map _).le rfl rfl

theorem Transmission.bounded.putOnLine {t : Transmission} (h : t.bounded) (c : Candidate) :
    (t.putOnLine c).bounded := by
  unfold Transmission.putOnLine
  split
  · exact h.shrinks le_rfl (List.length_modify _ _ _).le le_rfl rfl rfl
  · exact h.shrinks (List.length_modify _ _ _).le le_rfl le_rfl rfl rfl

theorem Transmission.bounded.delayExpired {t : Transmission} (h : t.bounded) (r : DelayRef) :
    (t.delayExpired r).bounded := by
  cases r with
  | message entry => exact h.updateMessage entry _
  | control place => exact h.updateControl place _

/-- A record queued has a place among the six, and the control sequence stays within 0 to 7 (R108, R116). -/
theorem Transmission.bounded.queueControl {t u : Transmission} (h : t.bounded) {kind : FrameKind} {dest n : Nat}
    {text : List Code} {w : Option Nat} (hu : t.queueControl kind dest n text w = some u) : u.bounded := by
  obtain ⟨hl, rfl⟩ := t.queueControl_some u kind dest n text w hu
  obtain ⟨bl, -, bw, bn, -⟩ := h
  exact ⟨bl, by simpa using hl, bw, bn, Nat.le_of_lt_succ (Nat.mod_lt _ (by decide))⟩

/-- A request queued has a place in the reply watch too (R111). -/
theorem Transmission.bounded.queueRequest {t u : Transmission} (h : t.bounded) {kind : FrameKind} {dest : Nat}
    (hu : t.queueRequest kind dest = some u) : u.bounded := by
  unfold Transmission.queueRequest at hu
  split at hu
  · rename_i hw
    obtain ⟨v, hv, rfl⟩ := Option.map_eq_some_iff.mp hu
    obtain ⟨bl, bc, -, bn, bq⟩ := h.queueControl hv
    obtain ⟨-, rfl⟩ := t.queueControl_some v _ _ _ _ _ hv
    exact ⟨bl, bc, by simpa [Config.watchPlaces] using hw, bn, bq⟩
  · cases hu

theorem Transmission.bounded.refresh {t : Transmission} (h : t.bounded) (st : Store) :
    { t with sendList := refreshList st [] t.sendList }.bounded :=
  h.shrinks (refreshList_length st [] t.sendList).le le_rfl le_rfl rfl rfl

theorem State.refreshSections_ranges (s : State) : s.keepsRanges s.refreshSections :=
  { s.ranges with send := fun h => h.refresh s.store }

theorem State.leaveSendList_ranges (s : State) (entry : Nat) : s.keepsRanges (s.leaveSendList entry) :=
  (State.refreshSections_ranges _).after
    { s.ranges with send := fun h => h.shrinks (List.length_filter_le _ _) le_rfl le_rfl rfl rfl }

theorem Keyboard.bounded.loseMessage {kb : Keyboard} (h : kb.bounded) (slot : Nat) :
    (kb.loseMessage slot).bounded := by
  unfold Keyboard.loseMessage
  split
  · split
    · exact ⟨h.1, Nat.zero_le _⟩
    · exact h
  · exact h

theorem State.composerLoses_ranges (s : State) (entry : Nat) (bell : Bool) :
    s.keepsRanges (s.composerLoses entry bell) := by
  unfold State.composerLoses
  dsimp only
  split <;> exact { s.ranges with kb := fun h => h.loseMessage entry }

theorem State.abandonEntry_ranges (s : State) (slot : Nat) :
    s.keepsRanges { s with store := s.store.abandonEntry slot } :=
  { s.ranges with directory := (s.store.abandonEntry_length slot).trans }

theorem State.abandonMessage_ranges (s : State) (r : SendRec) (why : JournalReason) (n : Option NoticeReason) :
    s.keepsRanges (s.abandonMessage r why n) := by
  have h := ((s.abandonEntry_ranges r.entry).trans
    (State.composerLoses_ranges _ r.entry n.isSome)).trans (State.leaveSendList_ranges _ r.entry)
  cases n with
  | none => exact h.trans (State.log_ranges _ _ _)
  | some _ => exact (h.trans (State.notice_ranges _ _)).trans (State.log_ranges _ _ _)

theorem State.abandonControl_ranges (s : State) (place : Nat) (r : ControlRec) (why : JournalReason)
    (n : NoticeReason) : s.keepsRanges (s.abandonControl place r why n) := by
  unfold State.abandonControl
  dsimp only
  refine (State.log_ranges _ _ _).after ?_
  have gone : s.keepsRanges (s.withSend (match r.watch with
      | none => { s.send with control := s.send.control.eraseIdx place }
      | some slot => Transmission.dropWatch { s.send with control := s.send.control.eraseIdx place } slot)) := by
    split
    · exact { s.ranges with send := fun h => h.eraseControl place }
    · exact { s.ranges with send := fun h => (h.eraseControl place).dropWatch _ }
  split
  · exact gone.trans (State.notice_ranges _ _)
  · exact gone

theorem State.messageSent_ranges (s : State) (r : SendRec) : s.keepsRanges (s.messageSent r) := by
  have told := (s.notice_ranges (.sent r.number r.dest)).trans (State.log_ranges _ .sent
    { peer := some r.dest, number := some r.number, cls := some r.cls, sections := some (r.done + 1) })
  refine (told.trans ?_).trans (State.leaveSendList_ranges _ r.entry)
  exact { State.ranges _ with
    directory := (Store.removeObligation_length _ _ _).trans, kb := fun h => h.loseMessage r.entry }

theorem State.reportLoss_ranges (s : State) : s.keepsRanges s.reportLoss := by
  unfold State.reportLoss
  split
  · exact s.ranges
  · exact { s.ranges with send := fun h => h.updateMessage _ _ }
  · exact { s.ranges with send := fun h => h.updateControl _ _ }

theorem State.reportDone_ranges (s : State) : s.keepsRanges s.reportDone := by
  unfold State.reportDone
  split
  · exact s.ranges
  · unfold State.sectionDone
    split
    · exact s.messageSent_ranges _
    · exact (State.refreshSections_ranges _).after { s.ranges with send := fun h => h.updateMessage _ _ }
  · rename_i i r _
    refine { s.ranges with send := fun h => (h.startWatch r.watch).shrinks le_rfl ?_ le_rfl rfl rfl }
    have hc : (s.send.startWatch r.watch).control = s.send.control := by cases r.watch <;> rfl
    rw [hc]
    exact List.length_eraseIdx_le _ _

theorem State.reportWait_ranges (s : State) : s.keepsRanges s.reportWait := by
  unfold State.reportWait
  split
  · exact s.ranges
  · split
    · exact s.abandonMessage_ranges _ _ _
    · exact { s.ranges with send := fun h => h.updateMessage _ _ }
  · split
    · exact s.abandonControl_ranges _ _ _ _
    · exact { s.ranges with send := fun h => h.updateControl _ _ }

theorem State.reportEngaged_ranges (s : State) : s.keepsRanges s.reportEngaged := by
  unfold State.reportEngaged
  split
  · exact s.ranges
  · split
    · exact s.abandonMessage_ranges _ _ _
    · exact { s.ranges with send := fun h => h.updateMessage _ _ }
  · split
    · exact s.abandonControl_ranges _ _ _ _
    · exact { s.ranges with send := fun h => h.updateControl _ _ }

theorem State.reportRefuse_ranges (s : State) : s.keepsRanges s.reportRefuse := by
  unfold State.reportRefuse
  split
  · exact s.ranges
  · exact s.abandonMessage_ranges _ _ _
  · exact s.abandonControl_ranges _ _ _ _

theorem State.reportNoAnswer_ranges (s : State) : s.keepsRanges s.reportNoAnswer := by
  unfold State.reportNoAnswer
  split
  · exact s.ranges
  · split
    · exact s.abandonMessage_ranges _ _ _
    · exact { s.ranges with send := fun h => h.updateMessage _ _ }
  · split
    · exact s.abandonControl_ranges _ _ _ _
    · exact { s.ranges with send := fun h => h.updateControl _ _ }

theorem abandonAll_ranges (l : List SendRec) : ∀ s : State, s.keepsRanges (abandonAll l s) := by
  induction l with
  | nil => exact State.ranges
  | cons r l ih => exact fun s => (s.abandonMessage_ranges r .restart none).trans (ih _)

theorem State.restartSending_ranges (s : State) : s.keepsRanges s.restartSending :=
  (abandonAll_ranges s.send.sendList s).trans
    { State.ranges _ with send := fun h => h.shrinks (Nat.zero_le _) (Nat.zero_le _) (Nat.zero_le _) rfl rfl }

theorem State.withLine_ranges (s : State) (l : LineUnit) : s.keepsRanges (s.withLine l) := { s.ranges with }

theorem State.answerLost_ranges (s : State) : s.keepsRanges s.answerLost := by
  unfold State.answerLost
  split
  · exact (s.withLine_ranges _).trans (State.reportNoAnswer_ranges _)
  · exact s.ranges

theorem State.answered_ranges {report : State → State} (h : ∀ s : State, s.keepsRanges (report s)) (s : State) :
    s.keepsRanges (s.answered report) :=
  .acting (.given (f := fun s => report (s.withLine s.line.txIdle.readyRx)) ((s.withLine_ranges _).trans (h _)) _)

/-! ### The composer -/

theorem State.keyDone_ranges (s : State) : s.keepsRanges s.keyDone :=
  { s.ranges with kb := fun h => ⟨h.1, (List.tail_sublist s.kb.queue).length_le.trans h.2⟩ }

theorem State.keyBell_ranges (s : State) : s.keepsRanges s.keyBell := { s.keyDone_ranges with }

theorem State.entryEnds_ranges (s : State) : s.keepsRanges s.entryEnds := { s.keyBell_ranges with }

/-- The open block rewritten is no entry more. -/
theorem Store.setOpenCodes_dir (st : Store) (slot : Nat) (codes : List Code) :
    (st.setOpenCodes slot codes).dir = st.dir := by
  unfold Store.setOpenCodes
  split <;> rfl

theorem Store.releaseOpen_length (st : Store) (slot : Nat) (final : Bool) :
    (st.releaseOpen slot final).dir.length = st.dir.length := by
  unfold Store.releaseOpen
  split
  · rfl
  · exact Store.updateEntry_length _ _ _

theorem State.release_ranges (s : State) (slot : Nat) (final : Bool) : s.keepsRanges (s.release slot final) :=
  (State.refreshSections_ranges _).after { s.ranges with directory := (s.store.releaseOpen_length slot final).trans_le }

theorem State.writeCode_ranges (s : State) (slot : Nat) (codes : List Code) (c : Code) :
    s.keepsRanges (s.writeCode slot codes c) := by
  have stored : s.keepsRanges { s with store := s.store.setOpenCodes slot (codes ++ [c]) } :=
    { s.ranges with directory := (congrArg List.length (s.store.setOpenCodes_dir slot _)).trans_le }
  have echoed := stored.trans (State.placeEcho_ranges _ (.code c))
  unfold State.writeCode
  dsimp only
  split
  · exact (State.release_ranges _ slot false).after { echoed with }
  · exact { echoed with }

theorem State.returnRelease_ranges (s : State) (slot : Nat) : s.keepsRanges (s.returnRelease slot) := by
  unfold State.returnRelease
  split
  · exact s.release_ranges slot false
  · exact s.ranges

theorem State.allocate_ranges (s : State) (slot gap : Nat) (codes : List Code) (rel : Bool) :
    s.keepsRanges { s with store := s.store.allocate slot gap codes rel } :=
  { s.ranges with directory := (s.store.allocate_length slot gap codes rel).trans_le }

theorem State.emitLine_ranges (slot k : Nat) :
    ∀ (es : List Emit) (s : State), s.keepsRanges (s.emitLine slot k es) := by
  induction k with
  | zero => exact fun _ => State.ranges
  | succ k ih =>
    intro es s
    cases es with
    | nil => exact s.keyDone_ranges
    | cons e rest =>
      unfold State.emitLine
      split
      · exact (s.returnRelease_ranges slot).trans (ih _ _)
      · split
        · exact ih _ _
        · split
          · exact (s.writeCode_ranges slot _ _).trans (ih _ _)
          · split
            · exact (s.allocate_ranges slot 0 [] false).trans (ih _ _)
            · exact { s.ranges with }

theorem State.writeEmits_ranges (s : State) (es : List Emit) : s.keepsRanges (s.writeEmits es) := by
  unfold State.writeEmits
  split
  · exact s.keyDone_ranges
  · exact State.emitLine_ranges _ _ _ _

theorem nextMessage_bounds {n : Nat} (h : 1 ≤ n ∧ n ≤ 255) : 1 ≤ nextMessage n ∧ nextMessage n ≤ 255 := by
  unfold nextMessage
  split <;> omega

/-- An opening is granted only with a place in the send list and an entry (R64, R128). -/
theorem State.openMessage_ranges {s : State} (h : s.canOpen = true) (dest cls : Nat) :
    s.keepsRanges (s.openMessage dest cls) := by
  obtain ⟨hl, -, hd⟩ := s.canOpen_iff.mp h
  exact { s.ranges with
    directory := fun _ => (s.store.openMessage_length dest _ cls).trans_le hd
    send := fun ⟨_, hc, hw, hn, hq⟩ => ⟨by simpa [State.openMessage] using hl, hc, hw, nextMessage_bounds hn, hq⟩ }

theorem State.openAndWrite_ranges (s : State) (k : Keystroke) : s.keepsRanges (s.openAndWrite k) := by
  unfold State.openAndWrite
  split
  · exact s.keyBell_ranges
  · split
    · rename_i h
      exact (State.openMessage_ranges h _ _).trans (State.writeEmits_ranges _ _)
    · exact { s.ranges with }

/-- A code joins the local punch FIFO only while it has room (R138). -/
theorem State.pushPunch_ranges {s : State} (h : s.punch.fifoFull ≠ true) (c : Code) :
    s.keepsRanges (s.pushPunch c) := by
  have room : s.punch.fifo.length < 64 := by simpa [Punch.fifoFull, Config.punchPlaces] using h
  exact { s.ranges with fifo := fun _ => by simpa using room }

theorem State.emitLocal_ranges (k : Nat) :
    ∀ (es : List Emit) (s : State), s.keepsRanges (s.emitLocal k es) := by
  induction k with
  | zero => exact fun _ => State.ranges
  | succ k ih =>
    intro es s
    cases es with
    | nil => exact s.keyDone_ranges
    | cons e rest =>
      unfold State.emitLocal
      split
      · exact ih _ _
      · rename_i c left _
        have echoed : s.keepsRanges ((s.placeEcho (.code c)).withKb
            { (s.placeEcho (.code c)).kb with case := caseAfter s.kb.case c }) :=
          { s.placeEcho_ranges (.code c) with }
        dsimp only
        split
        · split
          · exact { echoed with }
          · rename_i hroom
            exact (echoed.trans (State.pushPunch_ranges hroom c)).trans (ih _ _)
        · exact echoed.trans (ih _ _)

theorem State.resumeLocal_ranges (s : State) : s.keepsRanges s.resumeLocal := by
  unfold State.resumeLocal
  split
  · split
    · split
      · exact s.ranges
      · rename_i hroom
        exact (State.pushPunch_ranges hroom _).trans (State.emitLocal_ranges _ _ _)
    · exact State.emitLocal_ranges _ _ _
  · exact s.ranges

theorem State.takeText_ranges (s : State) (k : Keystroke) : s.keepsRanges (s.takeText k) := by
  unfold State.takeText
  split
  · exact s.keyBell_ranges
  · exact s.openAndWrite_ranges k
  · exact s.writeEmits_ranges _
  · exact State.emitLocal_ranges _ _ _
  · exact s.entryEnds_ranges
  · exact s.entryEnds_ranges

theorem State.ended_ranges (s : State) (fromKey : Bool) : s.keepsRanges (s.ended fromKey) := by
  unfold State.ended
  dsimp only
  split
  · exact (State.keyDone_ranges _).after { s.ranges with }
  · exact { s.ranges with }

theorem State.endMessage_ranges (s : State) (slot : Nat) (fromKey : Bool) :
    s.keepsRanges (s.endMessage slot fromKey) := by
  unfold State.endMessage
  split
  · split
    · have withdrawn : s.keepsRanges (s.withdraw slot) :=
        (State.leaveSendList_ranges _ slot).after { s.abandonEntry_ranges slot with }
      exact withdrawn.trans (State.ended_ranges _ fromKey)
    · exact (s.release_ranges slot true).trans (State.ended_ranges _ fromKey)
  · split
    · exact ((s.allocate_ranges slot 0 [] false).trans (State.release_ranges _ slot true)).trans
        (State.ended_ranges _ fromKey)
    · exact { s.ranges with }

theorem State.endCurrent_ranges (s : State) (fromKey : Bool) : s.keepsRanges (s.endCurrent fromKey) := by
  unfold State.endCurrent
  split
  · exact s.ended_ranges fromKey
  · exact s.endMessage_ranges _ fromKey

theorem State.takeEnd_ranges (s : State) : s.keepsRanges s.takeEnd := by
  unfold State.takeEnd
  split
  · exact s.endCurrent_ranges true
  · exact s.entryEnds_ranges
  · exact s.entryEnds_ranges
  all_goals exact s.keyBell_ranges

theorem State.autoEndExpires_ranges (s : State) : s.keepsRanges s.autoEndExpires := by
  unfold State.autoEndExpires
  split
  · exact (s.placeEcho_ranges _).trans (State.endCurrent_ranges _ false)
  · exact s.ranges

theorem State.eraseLast_ranges (s : State) (slot : Nat) (codes : List Code) :
    s.keepsRanges (s.eraseLast slot codes) := by
  have stored : s.keepsRanges { s with store := s.store.setOpenCodes slot codes.dropLast } :=
    { s.ranges with directory := (congrArg List.length (s.store.setOpenCodes_dir slot _)).trans_le }
  have marked := stored.trans (State.placeEcho_ranges _ (.eraseMarker (markerCase (recomputed (s.store.released slot)
    codes.dropLast))))
  exact (State.keyDone_ranges _).after { marked with }

theorem State.eraseLocal_ranges (s : State) : s.keepsRanges s.eraseLocal := by
  have marked : s.keepsRanges ((s.placeEcho (.eraseMarker .letters)).withKb { s.kb with case := .letters }) :=
    { s.placeEcho_ranges _ with }
  unfold State.eraseLocal
  dsimp only
  split
  · split
    · exact { marked with }
    · rename_i hroom
      exact (marked.trans (State.pushPunch_ranges hroom 31)).trans (State.keyDone_ranges _)
  · exact marked.trans (State.keyDone_ranges _)

theorem State.takeErase_ranges (s : State) : s.keepsRanges s.takeErase := by
  unfold State.takeErase
  split
  · unfold State.eraseComposing
    split
    · exact s.keyBell_ranges
    · split
      · exact s.keyBell_ranges
      · exact s.keyBell_ranges
      · exact s.eraseLast_ranges _ _
  · exact s.eraseLocal_ranges
  · exact s.keyBell_ranges
  · exact s.keyBell_ranges
  all_goals exact s.entryEnds_ranges

theorem State.takeDest_ranges (s : State) (k : Keystroke) : s.keepsRanges (s.takeDest k) := by
  unfold State.takeDest
  split
  · exact { s.keyDone_ranges with }
  · exact { s.keyDone_ranges with }
  · exact { s.keyDone_ranges with }
  · exact { s.keyBell_ranges with }
  · exact s.entryEnds_ranges
  all_goals exact s.keyBell_ranges

theorem State.takeDestDigit_ranges (s : State) (d : Nat) : s.keepsRanges (s.takeDestDigit d) := by
  unfold State.takeDestDigit
  split
  · exact { s.keyDone_ranges with }
  · unfold State.judgeDest
    split
    · exact { (s.keyDone_ranges.trans (State.placeEcho_ranges _ _)) with }
    · exact { s.keyBell_ranges with }
  · exact s.ranges

theorem State.takeTime_ranges (s : State) : s.keepsRanges s.takeTime := by
  unfold State.takeTime
  split
  · exact { s.keyDone_ranges with }
  · exact { s.keyDone_ranges with }
  · exact { s.keyDone_ranges with }
  · exact s.keyBell_ranges
  all_goals exact s.entryEnds_ranges

/-- The clock is set only to a time of day (R126, R189). -/
theorem State.takeTimeDigit_ranges (s : State) (d : Nat) : s.keepsRanges (s.takeTimeDigit d) := by
  unfold State.takeTimeDigit
  split
  · unfold State.judgeTime
    dsimp only
    split
    · rename_i htime
      refine s.keyDone_ranges.trans { State.ranges _ with
        journal := fun ⟨hr, hlow, hhigh, ho, _⟩ => ⟨hr, hlow, hhigh, ho, ?_⟩ }
      dsimp only [Journal.setClock]
      omega
    · exact { s.keyDone_ranges with }
  · exact { s.keyDone_ranges with }
  · exact s.ranges

theorem State.punchLocalBegins_ranges (s : State) : s.keepsRanges s.punchLocalBegins := by
  unfold State.punchLocalBegins
  split
  · exact s.ranges
  · exact { s.ranges with fifo := (congrArg List.length (s.punch.localBegins_fifo _)).trans_le }

theorem State.beginLocal_ranges (s : State) : s.keepsRanges s.beginLocal := by
  unfold State.beginLocal
  dsimp only
  split
  · exact (State.punchLocalBegins_ranges _).after { s.ranges with }
  · exact { s.ranges with }

theorem State.punchLocalEnds_ranges (s : State) : s.keepsRanges s.punchLocalEnds :=
  { s.ranges with fifo := (congrArg List.length s.punch.localEnds_fifo).trans_le }

theorem State.takeMode_ranges (s : State) : s.keepsRanges s.takeMode := by
  have modeLocal : s.keepsRanges s.keyDone.beginLocal := s.keyDone_ranges.trans (State.beginLocal_ranges _)
  unfold State.takeMode
  split
  · split
    · exact s.keyBell_ranges
    · exact modeLocal
  · split
    · exact s.keyBell_ranges
    · exact modeLocal
  · split
    · exact s.keyBell_ranges
    · exact (State.punchLocalEnds_ranges _).after { s.keyDone_ranges with }
  · exact s.keyBell_ranges
  all_goals exact s.entryEnds_ranges

theorem State.request_ranges (s : State) (kind : FrameKind) : s.keepsRanges (s.request kind) := by
  unfold State.request
  split
  · exact s.keyBell_ranges
  · split
    · exact s.keyBell_ranges
    · split
      · exact s.keyBell_ranges
      · rename_i t ht
        exact s.keyDone_ranges.trans { State.ranges _ with send := fun h => h.queueRequest ht }

theorem State.takeRequest_ranges (s : State) (kind : FrameKind) : s.keepsRanges (s.takeRequest kind) := by
  unfold State.takeRequest
  split
  · exact s.request_ranges kind
  · exact s.request_ranges kind
  · exact s.keyBell_ranges
  · exact s.keyBell_ranges
  all_goals exact s.entryEnds_ranges

theorem Transmission.bounded.breakRelease {t : Transmission} (h : t.bounded) (r : SendRec) :
    (t.breakRelease r).1.bounded := by
  unfold Transmission.breakRelease
  split
  · exact h
  · split
    · exact h
    · rename_i u hu; exact h.queueControl hu

theorem State.takeBreak_ranges (s : State) : s.keepsRanges s.takeBreak := by
  unfold State.takeBreak
  split
  · exact { s.ranges with }
  · rename_i r _
    have queued : s.keepsRanges (State.withSend { s with line := if r.phase = Phase.onLine then s.line.cut else s.line }
        (s.send.breakRelease r).1) := { s.ranges with send := fun h => h.breakRelease r }
    exact (queued.trans (State.abandonMessage_ranges _ _ _ _)).trans
      { State.ranges _ with kb := fun h => ⟨h.1, Nat.zero_le _⟩ }

/-- A key is held while fewer than three are, and queued while fewer than 16 are (R121, R123). -/
theorem State.closeKey_ranges (s : State) (k : Key) : s.keepsRanges (s.closeKey k) := by
  have down : s.keepsRanges (s.withKb { s.kb with down := s.kb.down ++ [k] }) := { s.ranges with }
  unfold State.closeKey
  split
  · exact s.ranges
  · dsimp only
    split
    · exact down
    · rename_i hroom
      have room : s.kb.held.length < 3 := Nat.lt_of_not_le fun h => hroom (.inr (.inr h))
      have held : s.keepsRanges ((s.withKb { s.kb with down := s.kb.down ++ [k] }).withKb
          { s.kb with down := s.kb.down ++ [k], held := s.kb.held ++ [k] }) :=
        { s.ranges with kb := fun h => ⟨by simpa using room, h.2⟩ }
      refine held.trans ?_
      unfold State.routeKey
      split
      · exact { State.ranges _ with }
      · split
        · rename_i hplace
          exact { State.ranges _ with kb := fun h => ⟨h.1, by simpa [Config.keyPlaces] using hplace⟩ }
        · exact { State.ranges _ with }

theorem State.openKey_ranges (s : State) (k : Key) : s.keepsRanges (s.openKey k) := by
  unfold State.openKey
  split
  · exact { s.ranges with kb := fun h => ⟨(List.length_filter_le _ _).trans h.1, h.2⟩ }
  · exact s.ranges

theorem State.repeatOpening_ranges (s : State) : s.keepsRanges s.repeatOpening := by
  unfold State.repeatOpening
  split
  · exact s.openAndWrite_ranges _
  · exact s.ranges

theorem State.repeatBlock_ranges (s : State) : s.keepsRanges s.repeatBlock := by
  unfold State.repeatBlock
  split
  · exact s.writeEmits_ranges _
  · exact s.endCurrent_ranges true
  · exact s.endCurrent_ranges false
  · exact s.ranges

theorem State.idleRelease_ranges (s : State) : s.keepsRanges s.idleRelease := by
  unfold State.idleRelease
  split
  · split
    · exact s.release_ranges _ false
    · exact s.ranges
  · exact s.ranges

theorem State.latchCleared_ranges (s : State) : s.keepsRanges s.latchCleared := by
  unfold State.latchCleared
  split
  · split
    · exact s.release_ranges _ false
    · exact s.ranges
  · exact s.ranges

/-! ### Reception -/

theorem State.restartTimers_ranges (s : State) (origin : Nat) :
    s.keepsRanges { s with recv := s.recv.restartTimers origin } :=
  { s.ranges with circ := (List.length_map _).trans_le }

theorem State.closeRecord_ranges (s : State) (r : Record) (why : Option Reason) :
    s.keepsRanges (s.closeRecord r why) :=
  (State.log_ranges _ _ _).after { s.ranges with directory := (s.store.closeEntry_length r.entry why).trans }

theorem State.closeHold_ranges (s : State) (why : Option Reason) : s.keepsRanges (s.closeHold why) := by
  unfold State.closeHold
  split
  · exact s.ranges
  · exact { s.closeRecord_ranges _ why with }

theorem State.closeCircular_ranges (s : State) (r : Record) (why : Option Reason) :
    s.keepsRanges (s.closeCircular r why) :=
  (s.closeRecord_ranges r why).trans { State.ranges _ with circ := (List.length_filter_le _ _).trans }

theorem State.completeHold_ranges (s : State) (origin number seq : Nat) :
    s.keepsRanges (s.completeHold origin number seq) := by
  have closed : s.keepsRanges { s.closeHold none with
      recv := { (s.closeHold none).recv with completion := some (origin, number, seq) } } :=
    { s.closeHold_ranges none with }
  unfold State.completeHold
  dsimp only
  split
  · exact closed
  · refine closed.trans ?_
    unfold State.queueReceipt
    split
    · exact State.ranges _
    · rename_i t ht; exact { State.ranges _ with send := fun h => h.queueControl ht }

theorem State.judgeFirst_ranges (s : State) (f : Frame) : s.keepsRanges (s.judgeFirst f).1 := by
  unfold State.judgeFirst
  split
  · exact s.ranges
  · dsimp only
    split
    · exact s.ranges
    · rename_i hsh
      obtain ⟨-, hd⟩ := (Store.shortage_iff _ _ _).mp (Bool.eq_false_iff.mpr hsh)
      have room := hd rfl
      split
      · exact (State.completeHold_ranges _ _ _ _).after
          { s.ranges with directory := fun _ => (Store.storeFirst_length _ _ _ _ _ _ _).trans_le room }
      · exact { s.ranges with directory := fun _ => (Store.storeFirst_length _ _ _ _ _ _ _).trans_le room }

theorem State.judgeNext_ranges (s : State) (r : Record) (f : Frame) : s.keepsRanges (s.judgeNext r f).1 := by
  unfold State.judgeNext
  dsimp only
  split
  · exact s.ranges
  · split
    · exact (State.completeHold_ranges _ _ _ _).after
        { s.ranges with directory := (Store.storeSection_length _ _ _ _).trans_le }
    · exact { s.ranges with directory := (Store.storeSection_length _ _ _ _).trans_le }

theorem State.judgeHeld_ranges (s : State) (r : Record) (f : Frame) : s.keepsRanges (s.judgeHeld r f).1 := by
  unfold State.judgeHeld
  split
  · exact s.judgeNext_ranges r f
  · split
    · exact s.ranges
    · exact s.closeHold_ranges _

theorem State.judgeText_ranges (s : State) (f : Frame) : s.keepsRanges (s.judgeText f).1 := by
  refine (s.restartTimers_ranges f.origin).trans ?_
  unfold State.judgeText
  dsimp only
  split
  · exact State.ranges _
  · split
    · split
      · exact State.judgeFirst_ranges _ f
      · exact State.ranges _
    · split
      · exact State.ranges _
      · split
        · exact State.judgeHeld_ranges _ _ f
        · split
          · exact (State.closeHold_ranges _ _).trans (State.judgeFirst_ranges _ f)
          · exact State.ranges _

theorem supersede_ranges (l : List Record) : ∀ s : State, s.keepsRanges (supersede l s) := by
  induction l with
  | nil => exact State.ranges
  | cons r l ih => exact fun s => (s.closeCircular_ranges r _).trans (ih _)

/-- A circular record is opened only while fewer than three are, with an entry (R64, R72, R83). -/
theorem State.judgeCircularFirst_ranges (s : State) (f : Frame) : s.keepsRanges (s.judgeCircularFirst f) := by
  unfold State.judgeCircularFirst
  split
  · exact s.log_ranges _ _
  · split
    · exact s.log_ranges _ _
    · rename_i hsh
      obtain ⟨hrec, hsh⟩ := not_or.mp hsh
      obtain ⟨-, hd⟩ := (Store.shortage_iff _ _ _).mp (Bool.eq_false_iff.mpr hsh)
      have room := hd rfl
      have place : s.recv.circ.length < 3 := Nat.lt_of_not_le hrec
      dsimp only
      split
      · exact (State.closeCircular_ranges _ _ _).after
          { s.ranges with
            directory := fun _ => (Store.storeFirst_length _ _ _ _ _ _ _).trans_le room
            circ := fun _ => by simpa using place }
      · exact { s.ranges with
          directory := fun _ => (Store.storeFirst_length _ _ _ _ _ _ _).trans_le room
          circ := fun _ => by simpa using place }

theorem State.circularFirst_ranges (s : State) (f : Frame) : s.keepsRanges (s.circularFirst f) := by
  refine (s.restartTimers_ranges f.origin).trans ?_
  unfold State.circularFirst
  dsimp only
  split
  · exact { State.ranges _ with }
  · exact (supersede_ranges _ _).trans (State.judgeCircularFirst_ranges _ f)

theorem State.circularNext_ranges (s : State) (f : Frame) : s.keepsRanges (s.circularNext f) := by
  refine (s.restartTimers_ranges f.origin).trans ?_
  unfold State.circularNext
  dsimp only
  split
  · exact { State.ranges _ with }
  · split
    · split
      · exact State.closeCircular_ranges _ _ _
      · exact State.ranges _
    · split
      · exact (State.closeCircular_ranges _ _ _).after
          { State.ranges _ with
            directory := (Store.storeSection_length _ _ _ _).trans_le
            circ := (List.length_map _).trans_le }
      · exact { State.ranges _ with
          directory := (Store.storeSection_length _ _ _ _).trans_le
          circ := (List.length_map _).trans_le }

theorem State.judgeRequest_ranges (s : State) (f : Frame) (reply : FrameKind) (text : List Code) :
    s.keepsRanges (s.judgeRequest f reply text).1 := by
  unfold State.judgeRequest
  split
  · exact s.ranges
  · split
    · exact s.ranges
    · rename_i t ht
      have queued : s.keepsRanges ((s.withSend t).remember f) := { s.ranges with send := fun h => h.queueControl ht }
      dsimp only
      split
      · exact queued.trans (State.log_ranges _ _ _)
      · exact queued

theorem State.judgeReply_ranges (s : State) (f : Frame) (n : Notice) : s.keepsRanges (s.judgeReply f n).1 := by
  unfold State.judgeReply
  split
  · exact s.ranges
  · exact { s.ranges with print := fun h => h.place n, send := fun h => h.satisfyWatch _ _ }

theorem State.actRelease_ranges (s : State) (f : Frame) : s.keepsRanges (s.actRelease f) := by
  have circularPart : ∀ t : State, t.keepsRanges (match t.recv.findCircular f.origin f.number with
      | none => t
      | some r => t.closeCircular r (some .cancelled)) := by
    intro t
    split
    · exact t.ranges
    · exact t.closeCircular_ranges _ _
  unfold State.actRelease
  dsimp only
  refine .trans ?_ (circularPart _)
  split
  · exact s.ranges
  · split
    · exact s.closeHold_ranges _
    · exact s.ranges

theorem State.recordExpired_ranges (s : State) (r : RecordRef) : s.keepsRanges (s.recordExpired r) := by
  unfold State.recordExpired
  split
  · split
    · exact s.ranges
    · split
      · exact s.ranges
      · exact s.closeHold_ranges _
  · split
    · exact s.ranges
    · split
      · exact s.ranges
      · exact s.closeCircular_ranges _ _

theorem closeAllCircular_ranges (l : List Record) : ∀ s : State, s.keepsRanges (closeAllCircular l s) := by
  induction l with
  | nil => exact State.ranges
  | cons r l ih => exact fun s => (s.closeCircular_ranges r _).trans (ih _)

theorem State.restartReception_ranges (s : State) : s.keepsRanges s.restartReception :=
  ((s.closeHold_ranges _).trans (closeAllCircular_ranges _ _)).trans
    { State.ranges _ with circ := fun _ => Nat.zero_le _ }

theorem State.clashTest_ranges (s : State) (f : Frame) : s.keepsRanges (s.clashTest f) := by
  unfold State.clashTest
  split
  · exact s.ranges
  · split
    · exact { s.ranges with print := fun h => h.place _, journal := fun h => h.add _ _ }
    · exact s.ranges

theorem State.frameEnds_ranges (s : State) (f : Frame) : s.keepsRanges (s.frameEnds f) :=
  { s.clashTest_ranges f with }

theorem State.handIndividual_ranges (s : State) (f : Frame) {judge : State → State × AnswerCode}
    (h : ∀ t : State, t.keepsRanges (judge t).1) : s.keepsRanges (s.handIndividual f judge) := by
  unfold State.handIndividual
  split
  · dsimp only
    split
    · exact s.frameEnds_ranges f
    · exact { (s.frameEnds_ranges f).trans (h _) with }
  · exact s.ranges

theorem State.handCircular_ranges (s : State) (f : Frame) {act : State → State}
    (h : ∀ t : State, t.keepsRanges (act t)) : s.keepsRanges (s.handCircular f act) := by
  unfold State.handCircular
  split
  · exact (s.frameEnds_ranges f).trans (h _)
  · exact s.ranges

end Sys2Proof.Machine
end

section
/-! SUPPORT. Every command, and the block's own step, keeps the capacities of the lists and the ranges of the counters,
of the journal and of the settings. -/
namespace Sys2Proof.Machine

/-! ### The mechanisms, the panel and the configuration -/

theorem State.motorJudged_ranges (s : State) : s.keepsRanges s.motorJudged := by
  rcases s.motorJudged_cases with ⟨-, -, -, h⟩ | ⟨-, h⟩ <;> rw [h]
  · exact { s.ranges with }
  · exact s.ranges

theorem State.stallTapeOut_ranges (s : State) : s.keepsRanges s.stallTapeOut :=
  { s.ranges with print := fun h => h.place _, journal := fun h => h.add _ _ }

theorem State.stallFault_ranges (s : State) : s.keepsRanges s.stallFault :=
  { s.ranges with print := fun h => h.place _, journal := fun h => h.add _ _ }

theorem State.tapeRunsOut_ranges (s : State) : s.keepsRanges s.tapeRunsOut := by
  have out : s.keepsRanges { s with punch := { s.punch with tapeOut := true } } := { s.ranges with }
  unfold State.tapeRunsOut
  dsimp only
  split
  · exact out
  · split
    · exact { out with }
    · exact out.trans (State.stallTapeOut_ranges _)

theorem State.punchCompletes_ranges (s : State) (sense : Code) (feedHole : Bool) :
    s.keepsRanges (s.punchCompletes sense feedHole) := by
  unfold State.punchCompletes
  split
  · exact s.ranges
  · split
    · exact s.stallTapeOut_ranges
    · split
      · exact { s.ranges with
          fifo := (congrArg List.length (Punch.sourceAdvances_fifo { s.punch with flight := none } _)).trans_le }
      · exact s.stallFault_ranges

theorem State.punchOff_ranges (s : State) : s.keepsRanges s.punchOff :=
  (State.resumeLocal_ranges _).after { s.ranges with directory := s.store.removePunchAll_length.trans }

theorem State.punchOn_ranges (s : State) : s.keepsRanges s.punchOn := by
  unfold State.punchOn
  split
  · exact s.punchLocalBegins_ranges
  · exact s.ranges

theorem State.reportStart_ranges (s : State) (fault : Bool) : s.keepsRanges (s.reportStart fault) := by
  unfold State.reportStart
  split
  · exact (s.log_ranges _ _).trans (State.notice_ranges _ _)
  · dsimp only
    split
    · exact (s.log_ranges _ _).trans (State.notice_ranges _ _)
    · exact s.log_ranges _ _

theorem clamp_bounds {lo hi : Nat} (h : lo ≤ hi) (v : Nat) : lo ≤ clamp lo hi v ∧ clamp lo hi v ≤ hi := by
  unfold clamp
  omega

/-- A page length is 0 or lies within 20 to 99 (R193). -/
theorem clampPage_bounds (v : Nat) : clampPage v = 0 ∨ 20 ≤ clampPage v ∧ clampPage v ≤ 99 := by
  unfold clampPage
  split
  · exact .inl rfl
  · exact .inr (clamp_bounds (by decide) v)

/-- A valid image gives settings within the ranges of R193's table. -/
theorem settingsOf_inRange {image : List Byte} (h : imageValid image = true) : (settingsOf image).inRange := by
  obtain ⟨hlen, -, -, hlow, hhigh⟩ := (imageValid_iff image).mp h
  exact {
    station := fun n hn => by cases hn; exact ⟨hlow, hhigh⟩
    width := clamp_bounds (by decide) _
    page := clampPage_bounds _
    leader := Nat.min_le_left _ _
    tries := clamp_bounds (by decide) _
    level := Nat.min_le_left _ _
    attendedIdle := clamp_bounds (by decide) _
    unattendedIdle := clamp_bounds (by decide) _
    release := clamp_bounds (by decide) _
    answerback := by simp [settingsOf, hlen] }

theorem Settings.configFault_inRange : Settings.configFault.inRange where
  station := fun n hn => by cases hn
  width := by decide
  page := .inl rfl
  leader := by decide
  tries := by decide
  level := by decide
  attendedIdle := by decide
  unattendedIdle := by decide
  release := by decide
  answerback := rfl

/-- The end of the read takes settings in their ranges: those of a valid image, or the stand-in values (R193). -/
theorem State.readEnds_ranges (s : State) {image : Option (List Byte)}
    (h : ∀ im, image = some im → imageValid im = true) : s.keepsRanges (s.readEnds image) := by
  have localPart : ∀ (t : State) (fault : Bool), t.keepsRanges (if fault = true then t.beginLocal else t) := by
    intro t fault
    split
    · exact t.beginLocal_ranges
    · exact t.ranges
  have tapePart : ∀ t : State, t.keepsRanges (if t.punch.tapeOut = true then t.tapeRunsOut else t) := by
    intro t
    split
    · exact t.tapeRunsOut_ranges
    · exact t.ranges
  have taken : ∀ (set : Settings) (fault : Bool), set.inRange →
      s.keepsRanges { s with panel := s.panel.taken set fault } :=
    fun set fault hset => { s.ranges with panel := fun _ => ⟨hset, hset.level⟩ }
  unfold State.readEnds
  dsimp only
  refine (State.settle_ranges _).after ((tapePart _).after ((localPart _ _).after ((State.reportStart_ranges _ _).after
    (taken _ _ ?_))))
  split
  · exact settingsOf_inRange (h _ rfl)
  · exact Settings.configFault_inRange

theorem PrintUnit.bounded.restart {p : PrintUnit} (h : p.bounded) : p.restart.bounded := by
  unfold PrintUnit.restart
  refine .place ?_ _
  exact ⟨Nat.zero_le _, h.2⟩

theorem State.restartAll_ranges (s : State) : s.keepsRanges s.restartAll := by
  have cut : s.keepsRanges ((s.log .restart {}).withLine { s.line.cut with clash := false }) :=
    { s.log_ranges _ _ with }
  refine ((cut.trans (State.restartReception_ranges _)).trans (State.restartSending_ranges _)).trans ?_
  exact { State.ranges _ with kb := fun h => ⟨h.1, Nat.zero_le _⟩, print := .restart }

theorem State.lineFaultBegins_ranges (s : State) : s.keepsRanges s.lineFaultBegins := by
  have begun : s.keepsRanges (((s.withLine s.line.faultBegins).log .lineFault {}).notice .lineFault) :=
    ((s.withLine_ranges _).trans (State.log_ranges _ _ _)).trans (State.notice_ranges _ _)
  unfold State.lineFaultBegins
  dsimp only
  split
  · exact begun.trans (State.reportNoAnswer_ranges _)
  · exact begun

theorem State.readingEnds_ranges (s : State) (frame answer : LineUnit) :
    s.keepsRanges (s.readingEnds frame answer) := by
  unfold State.readingEnds
  split
  · exact s.withLine_ranges _
  · split
    · exact (s.withLine_ranges _).trans (State.answerLost_ranges _)
    · exact s.ranges

theorem State.answerBegins_ranges (s : State) : s.keepsRanges s.answerBegins := by
  unfold State.answerBegins
  split
  · exact s.ranges
  · split <;> exact { s.ranges with }

theorem nextLevel_le {n : Nat} (h : n ≤ 2) : nextLevel n ≤ 2 := by
  cases n with
  | zero => exact Nat.le_refl 2
  | succ n => exact (Nat.le_succ n).trans h

/-! ### Every command -/

/-- At power-on every list is empty and every counter stands at its first value. -/
theorem State.poweredOn_ranges (s : State) (a b c : Bool) (n : Nat) :
    s.keepsRanges (State.poweredOn a b c n s.pending) where
  circ := fun _ => Nat.zero_le _
  send := fun _ => ⟨Nat.zero_le _, Nat.zero_le _, Nat.zero_le _, ⟨Nat.le_refl 1, (by decide : 1 ≤ 255)⟩, Nat.zero_le _⟩
  kb := fun _ => ⟨Nat.zero_le _, Nat.zero_le _⟩
  print := fun _ => ⟨Nat.zero_le _, Nat.zero_le _, Nat.zero_le _⟩
  fifo := fun _ => Nat.zero_le _
  directory := fun _ => Nat.zero_le _
  journal := fun _ => ⟨Nat.zero_le _, Nat.le_refl 1, (by decide : 1 ≤ 9999), Nat.zero_le _, Nat.zero_le _⟩
  panel := fun _ => ⟨Settings.configFault_inRange, Nat.le_refl 2⟩

/-- Every command keeps the capacities and ranges. -/
theorem exec_keepsRanges (c : Instr) (s : State) : ∃ t : State, exec c s = .next t ∧ s.keepsRanges t := by
  cases c with
  | powerOn => exact ⟨_, rfl, s.poweredOn_ranges _ _ _ _⟩
  | configReadAttemptFailed =>
    refine ⟨_, rfl, ?_⟩
    split
    · split <;> exact { s.ranges with }
    · exact s.ranges
  | configReadRetry =>
    refine ⟨_, rfl, ?_⟩
    split
    · exact { s.ranges with }
    · exact s.ranges
  | configReadEnd image =>
    refine ⟨_, rfl, ?_⟩
    split
    · refine s.readEnds_ranges fun im him => ?_
      unfold judgeImage at him
      split at him
      · rename_i hvalid; cases him; exact hvalid
      · cases him
    · exact s.readEnds_ranges nofun
    · exact s.ranges
  | restart => exact ⟨_, rfl, .acting (.given s.restartAll_ranges _)⟩
  | lineFree => exact ⟨_, rfl, .whenLive (s.withLine_ranges _)⟩
  | lineFault => exact ⟨_, rfl, .acting (.given s.lineFaultBegins_ranges _)⟩
  | loadWindowEnd =>
    refine ⟨_, rfl, .whenLive ?_⟩
    dsimp only
    split
    · exact (s.withLine_ranges _).trans (State.latchCleared_ranges _)
    · exact s.withLine_ranges _
  | framingError => exact ⟨_, rfl, .acting (s.readingEnds_ranges _ _)⟩
  | truncation => exact ⟨_, rfl, .acting (s.readingEnds_ranges _ _)⟩
  | malformedFrame =>
    exact ⟨_, rfl, .whenLive (.given (f := fun s => s.withLine s.line.discardFrame) (s.withLine_ranges _) _)⟩
  | checkFailure =>
    exact ⟨_, rfl, .whenLive (.given (f := fun s => s.withLine s.line.discardFrame) (s.withLine_ranges _) _)⟩
  | breakRead => exact ⟨_, rfl, .acting (s.readingEnds_ranges _ _)⟩
  | textSection f =>
    exact ⟨_, rfl, .acting (.given (f := fun s => s.handIndividual f fun s => s.judgeText f)
      (s.handIndividual_ranges f fun t => t.judgeText_ranges f) _)⟩
  | circularFirstSection f =>
    exact ⟨_, rfl, .acting (.given (f := fun s => s.handCircular f fun s => s.circularFirst f)
      (s.handCircular_ranges f fun t => t.circularFirst_ranges f) _)⟩
  | circularContinuation f =>
    exact ⟨_, rfl, .acting (.given (f := fun s => s.handCircular f fun s => s.circularNext f)
      (s.handCircular_ranges f fun t => t.circularNext_ranges f) _)⟩
  | who f =>
    exact ⟨_, rfl, .acting (.given (f := fun s => s.handIndividual f fun s => s.judgeWho f)
      (s.handIndividual_ranges f fun t => t.judgeRequest_ranges f _ _) _)⟩
  | enquire f =>
    exact ⟨_, rfl, .acting (.given (f := fun s => s.handIndividual f fun s => s.judgeEnquire f)
      (s.handIndividual_ranges f fun t => t.judgeRequest_ranges f _ _) _)⟩
  | ident f =>
    exact ⟨_, rfl, .acting (.given
      (f := fun s => s.handIndividual f fun s => s.judgeReply f (.ident f.origin f.text))
      (s.handIndividual_ranges f fun t => t.judgeReply_ranges f _) _)⟩
  | status f =>
    exact ⟨_, rfl, .acting (.given
      (f := fun s => s.handIndividual f fun s => s.judgeReply f (.status f.origin f.text))
      (s.handIndividual_ranges f fun t => t.judgeReply_ranges f _) _)⟩
  | release f =>
    refine ⟨_, rfl, .acting (.given (f := fun s => if isCircular f then s.handCircular f fun s => s.actRelease f
      else s.handIndividual f fun s => (s.actRelease f, .accept)) ?_ _)⟩
    split
    · exact s.handCircular_ranges f fun t => t.actRelease_ranges f
    · exact s.handIndividual_ranges f fun t => t.actRelease_ranges f
  | recordTimerExpiry r => exact ⟨_, rfl, .acting (s.recordExpired_ranges r)⟩
  | answerStart => exact ⟨_, rfl, .whenLive (.given s.answerBegins_ranges _)⟩
  | answerEchoMismatch =>
    exact ⟨_, rfl, .whenLive (.given (f := fun s => s.withLine s.line.hunt) (s.withLine_ranges _) _)⟩
  | startCellDriven =>
    refine ⟨_, rfl, .whenLive (.given (f := fun s => match s.offer with
      | none => s
      | some (c, f) => { s with line := s.line.contend f, send := s.send.putOnLine c }) ?_ _)⟩
    split
    · exact s.ranges
    · exact { s.ranges with send := fun h => h.putOnLine _ }
  | loss =>
    exact ⟨_, rfl, .whenLive (.given (f := fun s => (s.withLine s.line.txIdle).reportLoss)
      ((s.withLine_ranges _).trans (State.reportLoss_ranges _)) _)⟩
  | arbitrationWon =>
    exact ⟨_, rfl, .whenLive (.given (f := fun s => s.withLine { s.line with tx := .send }) (s.withLine_ranges _) _)⟩
  | collision =>
    exact ⟨_, rfl, .acting (.given (f := fun s => (s.withLine s.line.txIdle.hunt).reportNoAnswer)
      ((s.withLine_ranges _).trans (State.reportNoAnswer_ranges _)) _)⟩
  | individualFrameSent =>
    exact ⟨_, rfl, .whenLive (.given (f := fun s => s.withLine s.line.awaits) (s.withLine_ranges _) _)⟩
  | circularFrameCompleted =>
    exact ⟨_, rfl, .acting (.given (f := fun s => (s.withLine s.line.txIdle.readyRx).reportDone)
      ((s.withLine_ranges _).trans (State.reportDone_ranges _)) _)⟩
  | accept => exact ⟨_, rfl, State.answered_ranges State.reportDone_ranges s⟩
  | duplicate => exact ⟨_, rfl, State.answered_ranges State.reportDone_ranges s⟩
  | wait => exact ⟨_, rfl, State.answered_ranges State.reportWait_ranges s⟩
  | engaged => exact ⟨_, rfl, State.answered_ranges State.reportEngaged_ranges s⟩
  | refuse => exact ⟨_, rfl, State.answered_ranges State.reportRefuse_ranges s⟩
  | answerGarbled => exact ⟨_, rfl, State.answered_ranges State.reportNoAnswer_ranges s⟩
  | answerWindowEnd =>
    exact ⟨_, rfl, .acting (.given (f := fun s => (s.withLine s.line.readyRx).answerLost)
      ((s.withLine_ranges _).trans (State.answerLost_ranges _)) _)⟩
  | breakSignalEnd =>
    exact ⟨_, rfl, .whenLive (.given (f := fun s => s.withLine s.line.txIdle) (s.withLine_ranges _) _)⟩
  | delayTimerExpiry r => exact ⟨_, rfl, .whenLive { s.ranges with send := fun h => h.delayExpired r }⟩
  | replyWatchExpiry slot =>
    refine ⟨_, rfl, .acting ?_⟩
    split
    · exact s.ranges
    · exact { s.ranges with send := fun h => h.dropWatch slot, print := fun h => h.place _ }
  | keyClosure k => exact ⟨_, rfl, .whenLive (s.closeKey_ranges k)⟩
  | keyRelease k => exact ⟨_, rfl, .whenLive (s.openKey_ranges k)⟩
  | textKey => exact ⟨_, rfl, .acting (.takeHead (f := fun k s => s.takeText k) s.takeText_ranges _)⟩
  | hereIs => exact ⟨_, rfl, .acting (.takeHead (f := fun k s => s.takeText k) s.takeText_ranges _)⟩
  | erase => exact ⟨_, rfl, .acting (.takeHead (f := fun _ s => s.takeErase) (fun _ => s.takeErase_ranges) _)⟩
  | endKey => exact ⟨_, rfl, .acting (.takeHead (f := fun _ s => s.takeEnd) (fun _ => s.takeEnd_ranges) _)⟩
  | dest => exact ⟨_, rfl, .acting (.takeHead (f := fun k s => s.takeDest k) s.takeDest_ranges _)⟩
  | destinationDigit =>
    exact ⟨_, rfl, .acting (.takeHead (f := fun k s => s.takeDestDigit ((digitOf k).getD 0))
      (fun _ => s.takeDestDigit_ranges _) _)⟩
  | whoKey =>
    exact ⟨_, rfl, .acting (.takeHead (f := fun _ s => s.takeRequest .who) (fun _ => s.takeRequest_ranges _) _)⟩
  | enq =>
    exact ⟨_, rfl, .acting (.takeHead (f := fun _ s => s.takeRequest .enquire)
      (fun _ => s.takeRequest_ranges _) _)⟩
  | mode => exact ⟨_, rfl, .acting (.takeHead (f := fun _ s => s.takeMode) (fun _ => s.takeMode_ranges) _)⟩
  | time => exact ⟨_, rfl, .acting (.takeHead (f := fun _ s => s.takeTime) (fun _ => s.takeTime_ranges) _)⟩
  | timeDigit =>
    exact ⟨_, rfl, .acting (.takeHead (f := fun k s => s.takeTimeDigit ((digitOf k).getD 0))
      (fun _ => s.takeTimeDigit_ranges _) _)⟩
  | breakKey => exact ⟨_, rfl, .acting ((State.takeBreak_ranges _).after { s.ranges with })⟩
  | openingRepeated => exact ⟨_, rfl, .acting s.repeatOpening_ranges⟩
  | blockRequestRepeated => exact ⟨_, rfl, .acting s.repeatBlock_ranges⟩
  | localCodeResumed => exact ⟨_, rfl, .acting s.resumeLocal_ranges⟩
  | idleReleaseExpiry => exact ⟨_, rfl, .whenLive s.idleRelease_ranges⟩
  | autoEndExpiry => exact ⟨_, rfl, .acting s.autoEndExpires_ranges⟩
  | attend =>
    exact ⟨_, rfl, .acting ((State.notice_ranges _ _).after ((State.motorJudged_ranges _).after { s.ranges with }))⟩
  | print => exact ⟨_, rfl, .acting { s.ranges with print := fun h => h.place _ }⟩
  | punch =>
    have noted : ∀ on : Bool, s.keepsRanges (((s.takeHanded .punch).withPanel
        { s.panel with punchSel := on }).notice (.punchSel on)) := fun on =>
      { s.ranges with print := fun h => h.place _ }
    refine ⟨_, rfl, .acting ?_⟩
    dsimp only
    split
    · exact (noted _).trans (State.punchOn_ranges _)
    · exact (noted _).trans (State.punchOff_ranges _)
  | level =>
    exact ⟨_, rfl, .acting { s.ranges with print := fun h => h.place _, panel := fun h => ⟨h.1, nextLevel_le h.2⟩ }⟩
  | paperFeed =>
    refine ⟨_, rfl, .acting ?_⟩
    dsimp only
    split <;> exact { s.ranges with }
  | tapeFeed =>
    refine ⟨_, rfl, .acting ?_⟩
    dsimp only
    split <;> exact { s.ranges with }
  | tapeFeedRelease => exact ⟨_, rfl, .acting { s.ranges with }⟩
  | punchResume =>
    refine ⟨_, rfl, .acting ?_⟩
    dsimp only
    split <;> exact { s.ranges with }
  | journal shift =>
    refine ⟨_, rfl, .acting ?_⟩
    dsimp only
    split <;> exact { s.ranges with }
  | printOperationComplete => exact ⟨_, rfl, .acting s.printCompletes_ranges⟩
  | motorStartComplete => exact ⟨_, rfl, .acting s.printCompletes_ranges⟩
  | motorStopComplete => exact ⟨_, rfl, .acting s.printCompletes_ranges⟩
  | motorIdleExpiry => exact ⟨_, rfl, .acting s.motorJudged_ranges⟩
  | echoIdleExpiry => exact ⟨_, rfl, .acting { s.ranges with }⟩
  | paperOut => exact ⟨_, rfl, { s.ranges with }⟩
  | paperPresent => exact ⟨_, rfl, { s.ranges with }⟩
  | punchOperationComplete sense feedHole => exact ⟨_, rfl, .acting (s.punchCompletes_ranges sense feedHole)⟩
  | tapeOut =>
    refine ⟨_, rfl, ?_⟩
    split
    · exact s.tapeRunsOut_ranges.trans (State.settle_ranges _)
    · exact { s.ranges with }
  | tapePresent => exact ⟨_, rfl, { s.ranges with }⟩
  | tapeLow => exact ⟨_, rfl, { s.ranges with }⟩
  | tapeLowCleared => exact ⟨_, rfl, (State.settle_ranges _).after { s.ranges with }⟩
  | dayClockDividerExpiry => exact ⟨_, rfl, { s.ranges with journal := fun h => h.divide }⟩
  | lampFlash => exact ⟨_, rfl, .whenLive { s.ranges with }⟩
  | frameStartCell =>
    exact ⟨_, rfl, .whenLive (.given (f := fun s => s.withLine s.line.startRead) (s.withLine_ranges _) _)⟩
  | frameNotHandedOn f =>
    exact ⟨_, rfl, .acting (.given (f := fun s => s.frameEnds f) (s.frameEnds_ranges f) _)⟩
  | answerComplete =>
    exact ⟨_, rfl, .whenLive (.given (f := fun s => s.withLine s.line.readyRx) (s.withLine_ranges _) _)⟩
  | restartContactOpened => exact ⟨_, rfl, { s.ranges with }⟩

/-! ### The block's own step -/

theorem State.waitCells_ranges (s : State) : s.keepsRanges s.waitCells := by
  unfold State.waitCells
  split
  · exact s.ranges
  · exact { s.ranges with send := fun h => h.shrinks (List.length_map _).le (List.length_map _).le le_rfl rfl rfl }

theorem State.lineCell_ranges (s : State) (drove read : Level) : s.keepsRanges (s.lineCell drove read).1 := by
  obtain ⟨a, cells, sent, win, answer, h⟩ := s.lineCell_moves drove read
  rw [h]
  exact { s.ranges with }

theorem State.ageTimers_ranges (s : State) (dt : Nat) : s.keepsRanges (s.ageTimers dt) := { s.ranges with
  circ := (List.length_map _).trans_le
  send := fun h => h.shrinks (List.length_map _).le (List.length_map _).le (List.length_map _).le rfl rfl }

theorem State.keepsRanges.withPending {s t : State} (h : s.keepsRanges t) (commands : List Instr) :
    s.keepsRanges { t with pending := commands } := { h with }

/-- The block's own step counts and times; it keeps the capacities and ranges. -/
theorem State.tick_ranges (s : State) : s.keepsRanges s.tick := by
  unfold State.tick
  split
  · exact { s.ranges with }
  · split
    · have passed : s.keepsRanges s.passCell.1 := by
        have counted : s.keepsRanges s.counted := { s.waitCells_ranges with }
        rw [State.passCell_eq]
        exact counted.trans (State.lineCell_ranges _ _ _)
      exact (passed.trans (State.ageTimers_ranges _ _)).withPending _
    · unfold State.tickRead
      split
      · exact { s.ranges with }
      · exact s.ranges

theorem step_keepsRanges {s t : State} (h : step s = .next t) : s.keepsRanges t := by
  unfold step at h
  split at h
  · cases h
    exact s.tick_ranges
  · rename_i c rest hp
    obtain ⟨u, hu, hk⟩ := exec_keepsRanges c { s with pending := rest }
    rw [hu] at h
    cases h
    exact hk.after { s.ranges with }

/-! ### The obligation -/

/-- Settles O58: each command's parts keep the ranges of each block, and so does the block's own step. -/
theorem capacitiesKept : Obligations.CapacitiesKept := by
  refine ⟨fun p n i => ⟨fun h => if_pos h, fun h => if_neg (Nat.not_lt_of_le h), fun h => if_pos h,
    fun h => if_neg (Nat.not_lt_of_le h)⟩, fun s t hc hj hp h => (step_keepsRanges h).invariants hc hj hp⟩

end Sys2Proof.Machine
end

section
/-! SUPPORT. Closing the records of the reassembly table: what a closing and a timer's expiry leave, and what a closed
entry then reads (R57, R73, R74, R93). -/
namespace Sys2Proof.Machine

/-! ### What a closing touches -/

/-- Only the reassembly table, the store and the journal have changed. -/
def State.recordsOnly (s t : State) : Prop := t = { s with recv := t.recv, store := t.store, journal := t.journal }

theorem State.recordsOnly.trans {s t u : State} (h : s.recordsOnly t) (h' : t.recordsOnly u) : s.recordsOnly u := by
  unfold State.recordsOnly at h h' ⊢
  rw [h] at h'
  exact h'

theorem State.closeRecord_only (s : State) (r : Record) (why : Option Reason) :
    s.recordsOnly (s.closeRecord r why) := rfl

theorem State.closeHold_only (s : State) (why : Option Reason) : s.recordsOnly (s.closeHold why) := by
  unfold State.closeHold
  split <;> rfl

theorem State.closeCircular_only (s : State) (r : Record) (why : Option Reason) :
    s.recordsOnly (s.closeCircular r why) := rfl

/-! ### The journal entry and the state after a closing -/

/-- What the journal keeps of a record closed incomplete, the entry as it stands in the store (R74, R184). -/
def Record.incomplete (r : Record) (st : Store) (why : Reason) : JournalFields :=
  { peer := some r.origin, number := some r.number, cls := some r.cls
    sections := some (entrySections (st.entry r.entry)), reason := some (.incomplete why) }

theorem State.closeHold_incomplete {s : State} {r : Record} (h : s.recv.hold = some r) (why : Reason) :
    s.closeHold (some why) = { s with
      recv := { s.recv with hold := none }
      store := s.store.closeEntry r.entry (some why)
      journal := s.journal.add .receivedIncomplete (r.incomplete s.store why) } := by
  unfold State.closeHold
  rw [h]
  rfl

theorem State.closeCircular_incomplete (s : State) (r : Record) (why : Reason) :
    s.closeCircular r (some why) = { s with
      recv := { s.recv with circ := s.recv.circ.filter fun x => !sameRecord x r.origin r.number }
      store := s.store.closeEntry r.entry (some why)
      journal := s.journal.add .receivedIncomplete (r.incomplete s.store why) } := rfl

/-- A closing without a reason of its own: the journal reads the reason the entry has noted, if any (R74). -/
theorem State.closeRecord_noted {s : State} {r : Record} {e : Entry} (h : s.store.entry r.entry = some e) :
    (s.closeRecord r none).journal = s.journal.add (if e.reason = none then .received else .receivedIncomplete)
      { peer := some r.origin, number := some r.number, cls := some r.cls, sections := some e.sections
        reason := e.reason.map .incomplete } := by
  unfold State.closeRecord
  rw [h]
  cases hr : e.reason <;> simp [closingReason, closingKind, entrySections, hr]

/-! ### The entry after its closing -/

/-- An entry something waits for stays, CLOSED with the reason of its closing before its own (R57, R74). -/
theorem Store.closeEntry_waits {st : Store} {slot : Nat} {e : Entry} (h : st.entry slot = some e)
    (ho : hasObligation e = true) (why : Option Reason) :
    (st.closeEntry slot why).entry slot = some (e.closedFor why) := by
  have hu : (st.updateEntry slot (Entry.closedFor why)).entry slot = some (e.closedFor why) :=
    Store.entry_updateEntry h (Store.entry_mem h).2
  have hw : ¬ ((e.closedFor why).state = .closed ∧ hasObligation (e.closedFor why) = false) :=
    fun hd => Bool.noConfusion (ho.symm.trans hd.2)
  rw [Store.closeEntry_eq, Store.freeIfDone, hu]
  dsimp only
  rw [if_neg hw, hu]

/-- An entry nothing waits for is freed by its closing (R57). -/
theorem Store.closeEntry_frees {st : Store} {slot : Nat} {e : Entry} (h : st.entry slot = some e)
    (ho : hasObligation e = false) (why : Option Reason) : (st.closeEntry slot why).entry slot = none := by
  have hu : (st.updateEntry slot (Entry.closedFor why)).entry slot = some (e.closedFor why) :=
    Store.entry_updateEntry h (Store.entry_mem h).2
  have hd : (e.closedFor why).state = .closed ∧ hasObligation (e.closedFor why) = false := ⟨rfl, ho⟩
  rw [Store.closeEntry_eq, Store.freeIfDone, hu]
  dsimp only
  rw [if_pos hd, Store.entry, findSlot, Store.reclaim_dir, Store.spend_dir]
  simp

/-- No entry comes to stand under a number by its closing. -/
theorem Store.closeEntry_absent {st : Store} {slot : Nat} (h : st.entry slot = none) (why : Option Reason) :
    (st.closeEntry slot why).entry slot = none := by
  have hu : (st.updateEntry slot (Entry.closedFor why)).entry slot = none := by
    simp only [Store.entry, findSlot, List.find?_eq_none, beq_iff_eq] at h ⊢
    intro x hx
    obtain ⟨y, hy, rfl⟩ := List.mem_map.mp hx
    have hne := h y hy
    simp [hne]
  rw [Store.closeEntry_eq, Store.freeIfDone, hu]
  exact hu

/-- What stands under the number after a closing with a reason is CLOSED with that reason (R57, R74). -/
theorem Store.closeEntry_reads {st : Store} {slot : Nat} {why : Reason} {e : Entry}
    (h : (st.closeEntry slot (some why)).entry slot = some e) : e.state = .closed ∧ e.reason = some why := by
  cases hx : st.entry slot with
  | none =>
    rw [Store.closeEntry_absent hx] at h
    cases h
  | some x =>
    cases ho : hasObligation x with
    | true =>
      rw [Store.closeEntry_waits hx ho] at h
      cases h
      exact ⟨rfl, rfl⟩
    | false =>
      rw [Store.closeEntry_frees hx ho] at h
      cases h

/-! ### A timer's expiry -/

theorem sameRecord_iff (r : Record) (origin number : Nat) :
    sameRecord r origin number = true ↔ r.origin = origin ∧ r.number = number := by simp [sameRecord]

theorem Reception.findCircular_same {t : Reception} {origin number : Nat} {r : Record}
    (h : t.findCircular origin number = some r) : r.origin = origin ∧ r.number = number :=
  (sameRecord_iff _ _ _).mp (List.find?_some (p := fun r => sameRecord r origin number) h)

theorem Reception.findCircular_none_iff (t : Reception) (origin number : Nat) :
    t.findCircular origin number = none ↔ ∀ r ∈ t.circ, ¬ (r.origin = origin ∧ r.number = number) := by
  simp [Reception.findCircular, sameRecord]

theorem exec_recordTimerExpiry {s : State} (h : s.panel.phase = .done) (r : RecordRef) :
    exec (.recordTimerExpiry r) s = .next (s.recordExpired r).settle :=
  congrArg _ (State.acting_live (s.live_iff.mpr h) _)

theorem State.recordExpired_hold {s : State} {r : Record} (h : s.recv.hold = some r) :
    s.recordExpired .hold = if r.justRestarted then s else s.closeHold (some .holdTimeout) := by
  unfold State.recordExpired
  rw [h]

theorem State.recordExpired_circular {s : State} {origin number : Nat} {r : Record}
    (h : s.recv.findCircular origin number = some r) : s.recordExpired (.circular origin number)
      = if r.justRestarted then s else s.closeCircular r (some .gap) := by
  unfold State.recordExpired
  dsimp only
  rw [h]

theorem Record.justRestarted_iff (r : Record) : r.justRestarted = true ↔ 120 * Config.second ≤ r.timer :=
  decide_eq_true_iff

/-- Settles O32: an expired record is closed, hold or circular; a restarted one stays. -/
theorem recordTimerCloses : Obligations.RecordTimerCloses := by
  intro r s h
  refine ⟨fun hr ht => ?_, fun hr ht => ?_, fun hr ht => ?_, fun hr ht => ?_⟩
  · have hnot : ¬ r.justRestarted = true := fun hj => Nat.not_le_of_lt ht (r.justRestarted_iff.mp hj)
    rw [exec_recordTimerExpiry h, State.recordExpired_hold hr, if_neg hnot, State.closeHold_incomplete hr]
    exact ⟨_, rfl, rfl, rfl, rfl, rfl⟩
  · have hnot : ¬ r.justRestarted = true := fun hj => Nat.not_le_of_lt ht (r.justRestarted_iff.mp hj)
    rw [exec_recordTimerExpiry h, State.recordExpired_circular hr, if_neg hnot, State.closeCircular_incomplete]
    refine ⟨_, rfl, rfl, ?_, rfl, rfl, rfl⟩
    rw [Reception.findCircular_none_iff]
    intro x hx hsame
    obtain ⟨-, hne⟩ := List.mem_filter.mp hx
    rw [(sameRecord_iff _ _ _).mpr hsame] at hne
    cases hne
  · rw [exec_recordTimerExpiry h, State.recordExpired_hold hr, if_pos (r.justRestarted_iff.mpr ht)]
  · rw [exec_recordTimerExpiry h, State.recordExpired_circular hr, if_pos (r.justRestarted_iff.mpr ht)]

end Sys2Proof.Machine
end

section
/-! SUPPORT. Handing a frame over: the state the reception controller judges in, and what the commands of chapter 5
answer with it (R17, R27, R29, R35). -/
namespace Sys2Proof.Machine

/-! ### The state a frame is judged in -/

/-- The station is handed the individual frame: the receiver has it, its number is the station's, and there is no
clash (R27, R35). -/
structure State.takesIndividual (s : State) (f : Frame) : Prop where
  done : s.panel.phase = .done
  rx : s.line.rx = .frame
  contend : s.line.tx ≠ .contend
  send : s.line.tx ≠ .send
  own : s.own = some f.dest
  dest : f.dest ≠ 0
  origin : f.origin ≠ f.dest
  clash : s.line.clash = false

/-- The station is handed the circular frame (R27). -/
structure State.takesCircular (s : State) (f : Frame) : Prop where
  done : s.panel.phase = .done
  rx : s.line.rx = .frame
  contend : s.line.tx ≠ .contend
  send : s.line.tx ≠ .send
  dest : f.dest = 0

/-- The answer window has opened (R17). -/
def State.windowOpen (s : State) : State := { s with line := s.line.frameEnds false }

/-- The judged state, its code due in the window with the frame's sequence (R29). -/
def State.answerDue (a : State × AnswerCode) (seq : Nat) : State :=
  { a.1 with line := { a.1.line with answerDue := some (a.2, seq) } }

/-- The clash test is made and the receiver is READY (R17, R35). -/
def State.circularEnded (s : State) (f : Frame) : State := { s with
  line := { s.line with clash := s.line.clash || decide (s.own = some f.origin) }.frameEnds true
  journal := s.clashJournal f
  print := s.clashPrint f }

theorem State.frameEnds_circular {f : Frame} (hd : f.dest = 0) (s : State) : s.frameEnds f = s.circularEnded f := by
  have hcirc : isCircular f = true := by simp [isCircular, hd]
  rw [State.frameEnds, State.clashTest_eq, hcirc]
  rfl

/-- A frame of another station passes the clash test (R35). -/
theorem State.clashTest_other {s : State} {f : Frame} (h : s.own ≠ some f.origin) : s.clashTest f = s := by
  unfold State.clashTest
  cases ho : s.own with
  | none => rfl
  | some n =>
    dsimp only
    exact if_neg fun hn => h (by rw [ho, hn.1])

theorem State.takesIndividual.own_ne {s : State} {f : Frame} (h : s.takesIndividual f) : s.own ≠ some f.origin := by
  rw [h.own]
  exact fun he => h.origin (Option.some.inj he).symm

theorem State.takesIndividual.isCircular_false {s : State} {f : Frame} (h : s.takesIndividual f) :
    isCircular f = false := by simpa [isCircular] using h.dest

theorem State.takesIndividual.handIndividual {s : State} {f : Frame} (h : s.takesIndividual f)
    (judge : State → State × AnswerCode) :
    s.handIndividual f judge = State.answerDue (judge s.windowOpen) f.seq := by
  have hf : s.frameEnds f = s.windowOpen := by
    rw [State.frameEnds, State.clashTest_other h.own_ne, h.isCircular_false]
    rfl
  have hg : (s.receiving && !isCircular f && s.own == some f.dest) = true := by
    rw [s.receiving_iff.mpr ⟨h.done, h.rx, h.contend, h.send⟩, h.isCircular_false, h.own]
    simp
  have hc : ¬ s.windowOpen.line.clash = true := by
    show ¬ s.line.clash = true
    rw [h.clash]
    exact Bool.false_ne_true
  unfold State.handIndividual
  rw [if_pos hg, hf]
  exact if_neg hc

theorem State.takesCircular.handCircular {s : State} {f : Frame} (h : s.takesCircular f) (act : State → State) :
    s.handCircular f act = act (s.circularEnded f) := by
  have hcirc : isCircular f = true := by simp [isCircular, h.dest]
  have hg : (s.receiving && isCircular f) = true := by
    rw [s.receiving_iff.mpr ⟨h.done, h.rx, h.contend, h.send⟩, hcirc]
    rfl
  unfold State.handCircular
  rw [if_pos hg, State.frameEnds_circular h.dest]

/-- A clash stands after the frame when it stood before or the frame is of the station's own number (R35). -/
theorem State.circularEnded_clash (s : State) (f : Frame) :
    (s.circularEnded f).line.clash = true ↔ s.line.clash = true ∨ s.own = some f.origin := by
  simp [State.circularEnded, LineUnit.frameEnds]

/-! ### The commands -/

theorem frameFor_of {kind : FrameKind} {f : Frame} (hw : frameWellFormed f = true) (hk : f.kind = kind) :
    frameFor kind f = true := by simp [frameFor, hw, hk]

section
variable {s : State} {f : Frame}

theorem exec_textSection (h : s.takesIndividual f) (hw : frameWellFormed f = true) (hk : f.kind = .text) :
    exec (.textSection f) s = .next (State.answerDue (s.windowOpen.judgeText f) f.seq).settle := by
  refine congrArg _ ((State.acting_live (s.live_iff.mpr h.done) _).trans ?_)
  rw [frameFor_of hw hk, State.given_true, h.handIndividual]

theorem exec_who (h : s.takesIndividual f) (hw : frameWellFormed f = true) (hk : f.kind = .who) :
    exec (.who f) s = .next (State.answerDue (s.windowOpen.judgeWho f) f.seq).settle := by
  refine congrArg _ ((State.acting_live (s.live_iff.mpr h.done) _).trans ?_)
  rw [frameFor_of hw hk, State.given_true, h.handIndividual]

theorem exec_enquire (h : s.takesIndividual f) (hw : frameWellFormed f = true) (hk : f.kind = .enquire) :
    exec (.enquire f) s = .next (State.answerDue (s.windowOpen.judgeEnquire f) f.seq).settle := by
  refine congrArg _ ((State.acting_live (s.live_iff.mpr h.done) _).trans ?_)
  rw [frameFor_of hw hk, State.given_true, h.handIndividual]

theorem exec_ident (h : s.takesIndividual f) (hw : frameWellFormed f = true) (hk : f.kind = .ident) :
    exec (.ident f) s
      = .next (State.answerDue (s.windowOpen.judgeReply f (.ident f.origin f.text)) f.seq).settle := by
  refine congrArg _ ((State.acting_live (s.live_iff.mpr h.done) _).trans ?_)
  rw [frameFor_of hw hk, State.given_true, h.handIndividual]

theorem exec_status (h : s.takesIndividual f) (hw : frameWellFormed f = true) (hk : f.kind = .status) :
    exec (.status f) s
      = .next (State.answerDue (s.windowOpen.judgeReply f (.status f.origin f.text)) f.seq).settle := by
  refine congrArg _ ((State.acting_live (s.live_iff.mpr h.done) _).trans ?_)
  rw [frameFor_of hw hk, State.given_true, h.handIndividual]

theorem exec_release_individual (h : s.takesIndividual f) (hw : frameWellFormed f = true) (hk : f.kind = .release) :
    exec (.release f) s = .next (State.answerDue (s.windowOpen.actRelease f, .accept) f.seq).settle := by
  refine congrArg _ ((State.acting_live (s.live_iff.mpr h.done) _).trans ?_)
  rw [frameFor_of hw hk, State.given_true, if_neg (ne_true_of_eq_false h.isCircular_false), h.handIndividual]

theorem exec_release_circular (h : s.takesCircular f) (hw : frameWellFormed f = true) (hk : f.kind = .release) :
    exec (.release f) s = .next ((s.circularEnded f).actRelease f).settle := by
  have hcirc : isCircular f = true := by simp [isCircular, h.dest]
  refine congrArg _ ((State.acting_live (s.live_iff.mpr h.done) _).trans ?_)
  rw [frameFor_of hw hk, State.given_true, if_pos hcirc, h.handCircular]

theorem exec_circularFirstSection (h : s.takesCircular f) (hw : frameWellFormed f = true) (hk : f.kind = .text)
    (hf : f.first = true) :
    exec (.circularFirstSection f) s = .next ((s.circularEnded f).circularFirst f).settle := by
  have hg : (frameFor .text f && f.first) = true := by rw [frameFor_of hw hk, hf, Bool.and_true]
  refine congrArg _ ((State.acting_live (s.live_iff.mpr h.done) _).trans ?_)
  rw [hg, State.given_true, h.handCircular]

theorem exec_circularContinuation (h : s.takesCircular f) (hw : frameWellFormed f = true) (hk : f.kind = .text)
    (hf : f.first = false) :
    exec (.circularContinuation f) s = .next ((s.circularEnded f).circularNext f).settle := by
  have hg : (frameFor .text f && !f.first) = true := by rw [frameFor_of hw hk, hf]; rfl
  refine congrArg _ ((State.acting_live (s.live_iff.mpr h.done) _).trans ?_)
  rw [hg, State.given_true, h.handCircular]

end

end Sys2Proof.Machine
end

section
/-! SUPPORT. Control frames received: requests, replies, the STATUS report and the RELEASE (R86 to R92). -/
namespace Sys2Proof.Machine

/-! ### Requests (R86, R87, R91) -/

theorem Reception.isRepeat_iff (t : Reception) (f : Frame) :
    t.isRepeat f = true ↔ t.recent = some (f.origin, f.kind, f.seq) := beq_iff_eq

section
variable {s : State} {f : Frame}

/-- A request that is acted on: its reply queued, the frame remembered, a WHO journalled (R86, R87). -/
def State.requestTaken (s : State) (f : Frame) (reply : FrameKind) (text : List Code) : State := { s with
  recv := { s.recv with recent := some (f.origin, f.kind, f.seq) }
  send := { s.send with
    seqCounter := (s.send.seqCounter + 1) % 8
    control := s.send.control ++ [{ kind := reply, dest := f.origin, seq := s.send.seqCounter, number := 0
                                    text := text, phase := .ready, counts := Counts.zero, delay := 0
                                    watch := none }] }
  journal := if f.kind = .who then s.journal.add .whoAnswered { peer := some f.origin } else s.journal }

theorem State.judgeRequest_repeat (h : s.recv.recent = some (f.origin, f.kind, f.seq)) (reply : FrameKind)
    (text : List Code) : s.judgeRequest f reply text = (s, .duplicate) := by
  unfold State.judgeRequest
  exact if_pos ((s.recv.isRepeat_iff f).mpr h)

theorem State.judgeRequest_full (h : s.recv.recent ≠ some (f.origin, f.kind, f.seq))
    (hl : 6 ≤ s.send.control.length) (reply : FrameKind) (text : List Code) :
    s.judgeRequest f reply text = (s, .wait) := by
  unfold State.judgeRequest
  rw [if_neg (mt (s.recv.isRepeat_iff f).mp h), (Transmission.queueControl_none _ _ _ _ _ _).mpr hl]

theorem Transmission.queueControl_room {t : Transmission} (h : t.control.length < 6) (kind : FrameKind)
    (dest number : Nat) (text : List Code) (watch : Option Nat) :
    t.queueControl kind dest number text watch = some { t with
      control := t.control ++ [{ kind := kind, dest := dest, seq := t.seqCounter, number := number, text := text
                                 phase := .ready, counts := Counts.zero, delay := 0, watch := watch }]
      seqCounter := (t.seqCounter + 1) % 8 } := if_pos h

theorem State.judgeRequest_accepted (h : s.recv.recent ≠ some (f.origin, f.kind, f.seq))
    (hl : s.send.control.length < 6) (reply : FrameKind) (text : List Code) :
    s.judgeRequest f reply text = (s.requestTaken f reply text, .accept) := by
  unfold State.judgeRequest State.requestTaken
  rw [if_neg (mt (s.recv.isRepeat_iff f).mp h), Transmission.queueControl_room hl]
  by_cases hk : f.kind = .who
  · simp only [if_pos hk]
    rfl
  · simp only [if_neg hk]
    rfl

end

/-- Settles O28: repeat, full queue, and the reply queued. -/
theorem requestsJudged : Obligations.RequestsJudged := by
  intro f s hp hw hr hc hs ho hd hne hcl c reply text hk
  have h : s.takesIndividual f := ⟨hp, hr, hc, hs, ho, hd, hne, hcl⟩
  have hx : exec c s = .next (State.answerDue (s.windowOpen.judgeRequest f reply text) f.seq).settle := by
    rcases hk with ⟨rfl, hk, rfl, rfl⟩ | ⟨rfl, hk, rfl, rfl⟩
    · exact exec_who h hw hk
    · exact exec_enquire h hw hk
  by_cases hrep : s.recv.recent = some (f.origin, f.kind, f.seq)
  · rw [State.judgeRequest_repeat (s := s.windowOpen) hrep] at hx
    exact ⟨_, hx, rfl, rfl, fun _ => ⟨rfl, rfl, rfl, rfl⟩, fun hn => absurd hrep hn, fun hn => absurd hrep hn⟩
  · by_cases hl : s.send.control.length < 6
    · rw [State.judgeRequest_accepted (s := s.windowOpen) hrep hl] at hx
      exact ⟨_, hx, rfl, rfl, fun hn => absurd hn hrep, fun _ hn => absurd hl (Nat.not_lt_of_le hn),
        fun _ _ => ⟨rfl, rfl, rfl, rfl⟩⟩
    · rw [State.judgeRequest_full (s := s.windowOpen) hrep (Nat.le_of_not_lt hl)] at hx
      exact ⟨_, hx, rfl, rfl, fun hn => absurd hn hrep, fun _ _ => ⟨rfl, rfl, rfl, rfl⟩, fun _ hn => absurd hn hl⟩

/-! ### The STATUS report (R90) -/

/-- T1: five flags. -/
def statusFlags (attended paper motor ready low : Bool) : Code :=
  Fin.ofNat 32 (one attended 16 + one paper 8 + one motor 4 + one ready 2 + one low 1)

/-- T2: the level below two flags. -/
def statusLevel (level : Nat) (draining latch : Bool) : Code :=
  Fin.ofNat 32 (level + one draining 4 + one latch 8)

theorem statusFlags_bits : ∀ a b c d e : Bool,
    ((statusFlags a b c d e).val / 16 = 1 ↔ a = true) ∧ ((statusFlags a b c d e).val / 8 % 2 = 1 ↔ b = true) ∧
      ((statusFlags a b c d e).val / 4 % 2 = 1 ↔ c = true) ∧ ((statusFlags a b c d e).val / 2 % 2 = 1 ↔ d = true) ∧
      ((statusFlags a b c d e).val % 2 = 1 ↔ e = true) := by decide

theorem statusLevel_bits : ∀ level < 3, ∀ draining latch : Bool,
    (statusLevel level draining latch).val ≤ 14 ∧ (statusLevel level draining latch).val % 4 = level ∧
      ((statusLevel level draining latch).val / 4 % 2 = 1 ↔ draining = true) ∧
      ((statusLevel level draining latch).val / 8 = 1 ↔ latch = true) := by decide

theorem code_val_of_lt {n : Nat} (h : n < 32) : (Fin.ofNat 32 n).val = n := Nat.mod_eq_of_lt h

/-- The punch is ready when it is neither stalled nor reserved (R170). -/
theorem Punch.ready_iff (p : Punch) : punchReady p.state = true ↔
    p.stallFault = false ∧ p.stallTapeOut = false ∧ p.reservation.holdsPunch = false := by
  unfold Punch.state
  split_ifs <;> simp_all [punchReady]

theorem Punch.low_iff (p : Punch) : (p.state == .tapeLow) = true ↔
    p.stallFault = false ∧ p.stallTapeOut = false ∧ p.reservation.holdsPunch = false ∧ p.tapeLow = true := by
  unfold Punch.state
  split_ifs <;> simp_all

theorem Store.draining_iff (st : Store) (able : Able) (sh : Shortage) : st.draining able sh = true ↔
    (sh.blocks = true → blockingProgresses able st.tailOwner = true) ∧
      (sh.directory = true → blockingProgresses able st.dir.head? = true) := by
  simp [Store.draining, imp_iff_not_or]

/-- The draining figure asks after the tail block below 256 free blocks and after the oldest entry of a full
directory (R68). -/
theorem Store.drainingFigure_iff (st : Store) (able : Able) : st.drainingFigure able = true ↔
    (st.free < 256 → blockingProgresses able st.tailOwner = true) ∧
      (32 ≤ st.dir.length → blockingProgresses able st.dir.head? = true) := by
  rw [Store.drainingFigure, Store.draining_iff]
  exact and_congr (imp_congr_left decide_eq_true_iff) (imp_congr_left decide_eq_true_iff)

/-- Settles O29: the codes bit by bit. -/
theorem statusRanges : Obligations.StatusRanges := by
  intro s hlevel hdir hhold hload
  obtain ⟨hattended, hpaper, hmotor, hready, hlow⟩ := statusFlags_bits s.panel.attended s.print.paperPresent
    (s.print.motor == .running) (punchReady s.punch.state) (s.punch.state == .tapeLow)
  obtain ⟨hmax, hlev, hdrain, hlatch⟩ := statusLevel_bits s.panel.acceptLevel (Nat.lt_succ_of_le hlevel)
    (s.store.drainingFigure s.able) s.line.latch
  have h3 : (Fin.ofNat 32 (min 31 (s.store.free / 8))).val = min 31 (s.store.free / 8) :=
    code_val_of_lt (Nat.lt_succ_of_le (Nat.min_le_left _ _))
  have h4 : (Fin.ofNat 32 (min 31 (Config.entries - s.store.dir.length))).val = min 31 (32 - s.store.dir.length) :=
    code_val_of_lt (Nat.lt_succ_of_le (Nat.min_le_left _ _))
  have h5 : (Fin.ofNat 32 (s.holdOrigin % 32)).val = s.holdOrigin % 32 :=
    code_val_of_lt (Nat.mod_lt _ (by decide))
  have h6 : (Fin.ofNat 32 (s.holdOrigin / 32 + 2 * (s.line.loadE / 512))).val
      = s.holdOrigin / 32 + 2 * (s.line.loadE / 512) := code_val_of_lt (by omega)
  refine ⟨_, _, _, _, _, _, rfl, hmax, hlev, h3, h4, ?_, ?_, ?_, hattended, hpaper,
    hmotor.trans beq_iff_eq, hready.trans s.punch.ready_iff, hlow.trans s.punch.low_iff,
    hdrain.trans (s.store.drainingFigure_iff _), hlatch⟩
  · rw [h5, h6]
    omega
  · rw [h6]
    omega
  · rw [h6]
    omega

/-! ### Replies (R88, R89, R111) -/

section
variable {s : State} {f : Frame}

theorem Transmission.satisfyWatch_none {t : Transmission} {peer : Nat} {kind : FrameKind}
    (h : ∀ r ∈ t.watch, ¬ (r.peer = peer ∧ r.kind = kind)) : t.satisfyWatch peer kind = t := by
  have hf : (t.watch.find? fun r => r.peer == peer && r.kind == kind) = none := by simpa using h
  unfold Transmission.satisfyWatch
  rw [hf]

/-- The oldest record that the reply answers goes, with the link to it (R111). -/
theorem Transmission.satisfyWatch_oldest {t : Transmission} {before rest : List WatchRec} {r : WatchRec}
    (hw : t.watch = before ++ r :: rest) (hb : ∀ x ∈ before, ¬ (x.peer = r.peer ∧ x.kind = r.kind))
    (hs : ∀ x ∈ before ++ rest, x.slot ≠ r.slot) : t.satisfyWatch r.peer r.kind = { t with
      watch := before ++ rest
      control := t.control.map fun x => if x.watch = some r.slot then { x with watch := none } else x } := by
  have hb' : (before.find? fun x => x.peer == r.peer && x.kind == r.kind) = none := by simpa using hb
  have hf : (t.watch.find? fun x => x.peer == r.peer && x.kind == r.kind) = some r := by
    rw [hw, List.find?_append, hb']
    simp
  have hkeep : ∀ l : List WatchRec, (∀ x ∈ l, x.slot ≠ r.slot) → (l.filter fun x => x.slot != r.slot) = l :=
    fun l hl => List.filter_eq_self.mpr fun x hx => by simpa using hl x hx
  have hfilter : (t.watch.filter fun x => x.slot != r.slot) = before ++ rest := by
    rw [hw, List.filter_append, List.filter_cons_of_neg (by simp),
      hkeep before fun x hx => hs x (List.mem_append_left _ hx),
      hkeep rest fun x hx => hs x (List.mem_append_right _ hx)]
  unfold Transmission.satisfyWatch
  rw [hf]
  dsimp only [Transmission.dropWatch]
  rw [hfilter]

theorem State.judgeReply_repeat (h : s.recv.recent = some (f.origin, f.kind, f.seq)) (n : Notice) :
    s.judgeReply f n = (s, .accept) := by
  unfold State.judgeReply
  exact if_pos ((s.recv.isRepeat_iff f).mpr h)

theorem State.judgeReply_new (h : s.recv.recent ≠ some (f.origin, f.kind, f.seq)) (n : Notice) :
    s.judgeReply f n = ({ s with
      recv := { s.recv with recent := some (f.origin, f.kind, f.seq) }
      print := s.print.place n
      send := s.send.satisfyWatch f.origin f.kind }, .accept) := by
  unfold State.judgeReply
  exact if_neg (mt (s.recv.isRepeat_iff f).mp h)

end

/-- Settles O30: a repeat, else the notice and the oldest reply watch. -/
theorem repliesNoticed : Obligations.RepliesNoticed := by
  intro f s hp hw hr hc hs ho hd hne hcl c n hk
  have h : s.takesIndividual f := ⟨hp, hr, hc, hs, ho, hd, hne, hcl⟩
  have hx : exec c s = .next (State.answerDue (s.windowOpen.judgeReply f n) f.seq).settle := by
    rcases hk with ⟨rfl, hk, rfl⟩ | ⟨rfl, hk, rfl⟩
    · exact exec_ident h hw hk
    · exact exec_status h hw hk
  by_cases hrep : s.recv.recent = some (f.origin, f.kind, f.seq)
  · rw [State.judgeReply_repeat (s := s.windowOpen) hrep] at hx
    exact ⟨_, hx, rfl, rfl, rfl, fun _ => ⟨rfl, rfl, rfl⟩, fun hn => absurd hrep hn⟩
  · rw [State.judgeReply_new (s := s.windowOpen) hrep] at hx
    refine ⟨_, hx, rfl, rfl, rfl, fun hn => absurd hn hrep, fun _ => ⟨rfl, rfl, ?_, ?_⟩⟩
    · exact fun hnone => Transmission.satisfyWatch_none hnone
    · intro before r rest hwatch hbefore hpeer hkind hslot
      show s.send.satisfyWatch f.origin f.kind = _
      rw [← hpeer, ← hkind] at hbefore ⊢
      exact Transmission.satisfyWatch_oldest hwatch hbefore hslot

/-! ### The RELEASE (R92) -/

section
variable {s : State} {f : Frame}

/-- The hold's part of a RELEASE. -/
def State.cancelHold (s : State) (f : Frame) : State :=
  match s.recv.hold with
  | none => s
  | some r => if sameRecord r f.origin f.number then s.closeHold (some .cancelled) else s

/-- The circular records' part of a RELEASE. -/
def State.cancelCircular (s : State) (f : Frame) : State :=
  match s.recv.findCircular f.origin f.number with
  | none => s
  | some r => s.closeCircular r (some .cancelled)

theorem State.actRelease_eq (s : State) (f : Frame) : s.actRelease f = (s.cancelHold f).cancelCircular f := rfl

theorem State.cancelHold_match {r : Record} (h : s.recv.hold = some r) (ho : r.origin = f.origin)
    (hn : r.number = f.number) : s.cancelHold f = s.closeHold (some .cancelled) := by
  unfold State.cancelHold
  rw [h]
  exact if_pos ((sameRecord_iff _ _ _).mpr ⟨ho, hn⟩)

theorem State.cancelHold_other
    (h : ∀ r, s.recv.hold = some r → ¬ (r.origin = f.origin ∧ r.number = f.number)) : s.cancelHold f = s := by
  unfold State.cancelHold
  split
  · rfl
  next r hr => exact if_neg (mt (sameRecord_iff _ _ _).mp (h r hr))

theorem State.cancelCircular_some {r : Record} (h : s.recv.findCircular f.origin f.number = some r) :
    s.cancelCircular f = s.closeCircular r (some .cancelled) := by
  unfold State.cancelCircular
  rw [h]

theorem State.cancelCircular_none (h : s.recv.findCircular f.origin f.number = none) : s.cancelCircular f = s := by
  unfold State.cancelCircular
  rw [h]

theorem State.cancelHold_only (s : State) (f : Frame) : s.recordsOnly (s.cancelHold f) := by
  unfold State.cancelHold
  split
  · rfl
  · split
    · exact s.closeHold_only _
    · rfl

theorem State.cancelCircular_only (s : State) (f : Frame) : s.recordsOnly (s.cancelCircular f) := by
  unfold State.cancelCircular
  split
  · rfl
  · exact s.closeCircular_only _ _

theorem State.actRelease_only (s : State) (f : Frame) : s.recordsOnly (s.actRelease f) :=
  (s.cancelHold_only f).trans (State.cancelCircular_only _ f)

theorem State.cancelHold_recv (s : State) (f : Frame) : (s.cancelHold f).recv = { s.recv with
    hold := s.recv.hold.filter fun r => !sameRecord r f.origin f.number } := by
  unfold State.cancelHold
  cases h : s.recv.hold with
  | none =>
    show s.recv = { s.recv with hold := none }
    rw [← h]
  | some r =>
    cases hs : sameRecord r f.origin f.number with
    | true => simp [State.closeHold_incomplete h, Option.filter, hs]
    | false =>
      have hstay : (some r).filter (fun x => !sameRecord x f.origin f.number) = s.recv.hold := by
        simp [Option.filter, hs, h]
      rw [hstay]
      simp [hs]

/-- The circular records other than the frame's are those that stay when it has none. -/
theorem Reception.filter_of_findCircular_none {t : Reception} {origin number : Nat}
    (h : t.findCircular origin number = none) :
    (t.circ.filter fun r => !sameRecord r origin number) = t.circ := by
  refine List.filter_eq_self.mpr fun r hr => ?_
  rw [Bool.not_eq_true', ← Bool.not_eq_true, sameRecord_iff]
  exact (t.findCircular_none_iff origin number).mp h r hr

theorem State.cancelCircular_recv (s : State) (f : Frame) : (s.cancelCircular f).recv = { s.recv with
    circ := s.recv.circ.filter fun r => !sameRecord r f.origin f.number } := by
  cases h : s.recv.findCircular f.origin f.number with
  | none => rw [State.cancelCircular_none h, Reception.filter_of_findCircular_none h]
  | some r =>
    obtain ⟨ho, hn⟩ := Reception.findCircular_same h
    rw [State.cancelCircular_some h, State.closeCircular_incomplete, ho, hn]

theorem State.actRelease_recv (s : State) (f : Frame) : (s.actRelease f).recv = { s.recv with
    hold := s.recv.hold.filter fun r => !sameRecord r f.origin f.number
    circ := s.recv.circ.filter fun r => !sameRecord r f.origin f.number } := by
  rw [State.actRelease_eq, State.cancelCircular_recv, State.cancelHold_recv]

theorem State.cancelHold_findCircular (s : State) (f : Frame) (origin number : Nat) :
    (s.cancelHold f).recv.findCircular origin number = s.recv.findCircular origin number := by
  rw [State.cancelHold_recv]
  rfl

/-! The store and the journal of a RELEASE, by what matches. -/

theorem State.actRelease_hold {r : Record} (h : s.recv.hold = some r) (ho : r.origin = f.origin)
    (hn : r.number = f.number) (hc : s.recv.findCircular f.origin f.number = none) :
    s.actRelease f = s.closeHold (some .cancelled) := by
  rw [State.actRelease_eq, State.cancelCircular_none (by rw [State.cancelHold_findCircular, hc]),
    State.cancelHold_match h ho hn]

theorem State.actRelease_circular {r : Record}
    (h : ∀ x, s.recv.hold = some x → ¬ (x.origin = f.origin ∧ x.number = f.number))
    (hc : s.recv.findCircular f.origin f.number = some r) :
    s.actRelease f = s.closeCircular r (some .cancelled) := by
  rw [State.actRelease_eq, State.cancelHold_other h, State.cancelCircular_some hc]

theorem State.actRelease_both {r x : Record} (h : s.recv.hold = some r) (ho : r.origin = f.origin)
    (hn : r.number = f.number) (hc : s.recv.findCircular f.origin f.number = some x) :
    s.actRelease f = (s.closeHold (some .cancelled)).closeCircular x (some .cancelled) := by
  rw [State.actRelease_eq, State.cancelCircular_some (by rw [State.cancelHold_findCircular, hc]),
    State.cancelHold_match h ho hn]

theorem State.actRelease_none (h : ∀ r, s.recv.hold = some r → ¬ (r.origin = f.origin ∧ r.number = f.number))
    (hc : s.recv.findCircular f.origin f.number = none) : s.actRelease f = s := by
  rw [State.actRelease_eq, State.cancelHold_other h, State.cancelCircular_none hc]

/-! ### Handing a RELEASE over -/

theorem State.recordsOnly.line_eq {s t : State} (h : s.recordsOnly t) : t.line = s.line := by
  unfold State.recordsOnly at h
  rw [h]

theorem State.recordsOnly.with_line {s t : State} (h : s.recordsOnly t) : { t with line := s.line } = t := by
  rw [← h.line_eq]

theorem State.clashJournal_other (h : s.own ≠ some f.origin) : s.clashJournal f = s.journal :=
  if_neg fun hc => h hc.1

theorem State.clashPrint_other (h : s.own ≠ some f.origin) : s.clashPrint f = s.print :=
  if_neg fun hc => h hc.1

/-- The state a RELEASE is judged in: the clash test is made, and the receiver waits or is READY. -/
def State.clashTested (s : State) (f : Frame) (l : LineUnit) : State :=
  { s with line := l, journal := s.clashJournal f, print := s.clashPrint f }

/-- A RELEASE, individual or circular, acts after the clash test; only an individual one is answered (R92). -/
theorem exec_release (hp : s.panel.phase = .done) (hw : frameWellFormed f = true) (hk : f.kind = .release)
    (hr : s.line.rx = .frame) (hc : s.line.tx ≠ .contend) (hs : s.line.tx ≠ .send)
    (h : f.dest = 0 ∨ s.own = some f.dest ∧ s.line.clash = false ∧ s.own ≠ some f.origin) :
    ∃ l l', exec (.release f) s = .next { (s.clashTested f l).actRelease f with line := l' }.settle ∧
      l'.answerDue = (if f.dest = 0 then none else some (.accept, f.seq)) ∧
      (l'.clash = true ↔ s.line.clash = true ∨ s.own = some f.origin) := by
  by_cases hd : f.dest = 0
  · have hx := exec_release_circular (s := s) ⟨hp, hr, hc, hs, hd⟩ hw hk
    have hl := s.circularEnded_clash f
    have honly : (s.circularEnded f).recordsOnly _ := (s.circularEnded f).actRelease_only f
    exact ⟨(s.circularEnded f).line, (s.circularEnded f).line,
      hx.trans (congrArg (fun u : State => Host.Outcome.next u.settle) honly.with_line.symm), (if_pos hd).symm, hl⟩
  · obtain ⟨ho, hcl, hne⟩ := h.resolve_left hd
    have hor : f.origin ≠ f.dest := fun he => hne (he ▸ ho)
    have hx := exec_release_individual ⟨hp, hr, hc, hs, ho, hd, hor, hcl⟩ hw hk
    have hbase : s.clashTested f s.windowOpen.line = s.windowOpen := by
      rw [State.clashTested, State.clashJournal_other hne, State.clashPrint_other hne]
      rfl
    refine ⟨s.windowOpen.line, { s.windowOpen.line with answerDue := some (.accept, f.seq) }, ?_, (if_neg hd).symm, ?_⟩
    · have hline := (s.windowOpen.actRelease_only f).line_eq
      rw [hx, hbase, State.answerDue, hline]
    · show s.line.clash = true ↔ _
      simp [hcl, hne]

end

theorem Record.incomplete_of {r : Record} {f : Frame} (ho : r.origin = f.origin) (hn : r.number = f.number)
    (st : Store) (why : Reason) : r.incomplete st why =
      { peer := some f.origin, number := some f.number, cls := some r.cls
        sections := some (entrySections (st.entry r.entry)), reason := some (.incomplete why) } := by
  rw [Record.incomplete, ho, hn]

theorem hold_filter_other {h : Option Record} {origin number : Nat}
    (hh : ∀ r, h = some r → ¬ (r.origin = origin ∧ r.number = number)) :
    h.filter (fun r => !sameRecord r origin number) = h := by
  cases h with
  | none => rfl
  | some r =>
    have hs : sameRecord r origin number = false := Bool.eq_false_iff.mpr (mt (sameRecord_iff _ _ _).mp (hh r rfl))
    rw [Option.filter_some, hs]
    rfl

/-- Settles O31: the hold's part, then the circular records'. -/
theorem releaseCancels : Obligations.ReleaseCancels := by
  intro f s hp hw hk hr hc hs h
  obtain ⟨l, l', hx, hdue, hclash⟩ := exec_release hp hw hk hr hc hs h
  have hrecv := (s.clashTested f l).actRelease_recv f
  have honly := (s.clashTested f l).actRelease_only f
  refine ⟨_, hx, hdue, ?_, hclash, ?_, ?_, ?_, ?_, ?_, ?_, ?_, ?_, ?_⟩
  · show ((s.clashTested f l).actRelease f).print = _
    rw [honly]
    rfl
  · exact (congrArg Reception.recent hrecv).trans rfl
  · exact (congrArg Reception.completion hrecv).trans rfl
  · show ((s.clashTested f l).actRelease f).send = _
    rw [honly]
    rfl
  · intro r hh ho hn
    refine (congrArg Reception.hold hrecv).trans ?_
    show s.recv.hold.filter _ = none
    rw [hh, Option.filter_some, (sameRecord_iff _ _ _).mpr ⟨ho, hn⟩]
    rfl
  · intro r hh hne
    refine (congrArg Reception.hold hrecv).trans ((hold_filter_other fun x hx => ?_).trans hh)
    cases hh.symm.trans hx
    exact hne
  · exact congrArg Reception.circ hrecv
  · intro r hr
    have hstore : ((s.clashTested f l).actRelease f).store = s.store.closeEntry r.entry (some .cancelled) ∧
        ((s.clashTested f l).actRelease f).journal
          = (s.clashJournal f).add .receivedIncomplete (r.incomplete s.store .cancelled) ∧
        r.origin = f.origin ∧ r.number = f.number := by
      rcases hr with ⟨hh, ho, hn, hnone⟩ | ⟨hother, hsome⟩
      · rw [State.actRelease_hold (s := s.clashTested f l) hh ho hn hnone,
          State.closeHold_incomplete (s := s.clashTested f l) hh]
        exact ⟨rfl, rfl, ho, hn⟩
      · rw [State.actRelease_circular (s := s.clashTested f l) hother hsome, State.closeCircular_incomplete]
        exact ⟨rfl, rfl, Reception.findCircular_same hsome⟩
    obtain ⟨hst, hj, ho, hn⟩ := hstore
    refine ⟨hst, fun e he => ?_, fun e he hob => ?_, hj.trans (by rw [Record.incomplete_of ho hn])⟩
    · exact Store.closeEntry_reads ((congrArg (·.entry r.entry) hst).symm.trans he)
    · exact (congrArg (·.entry r.entry) hst).trans (Store.closeEntry_waits he hob _)
  · intro r x hh ho hn hsome
    obtain ⟨hxo, hxn⟩ := Reception.findCircular_same hsome
    rw [State.actRelease_both (s := s.clashTested f l) hh ho hn hsome,
      State.closeHold_incomplete (s := s.clashTested f l) hh, State.closeCircular_incomplete,
      Record.incomplete_of ho hn, Record.incomplete_of hxo hxn]
    exact ⟨rfl, rfl⟩
  · intro hother hnone
    have hnone' : s.recv.findCircular f.origin f.number = none := (s.recv.findCircular_none_iff _ _).mpr hnone
    rw [State.actRelease_none (s := s.clashTested f l) hother hnone']
    exact ⟨rfl, rfl, rfl⟩

/-! ### One code for every individual frame (R29) -/

/-- Only the reassembly table, the store, the transmission controller, the journal and the print unit have
changed. -/
def State.receptionOnly (s t : State) : Prop :=
  t = { s with recv := t.recv, store := t.store, send := t.send, journal := t.journal, print := t.print }

theorem State.receptionOnly.trans {s t u : State} (h : s.receptionOnly t) (h' : t.receptionOnly u) :
    s.receptionOnly u := by
  unfold State.receptionOnly at h h' ⊢
  rw [h] at h'
  exact h'

theorem State.recordsOnly.receptionOnly {s t : State} (h : s.recordsOnly t) : s.receptionOnly t := by
  unfold State.recordsOnly at h
  unfold State.receptionOnly
  rw [h]

theorem State.stored_only (s : State) (recv : Reception) (store : Store) :
    s.receptionOnly { s with recv := recv, store := store } := rfl

theorem State.queueReceipt_only (s : State) (origin : Nat) : s.receptionOnly (s.queueReceipt origin) := by
  unfold State.queueReceipt
  split <;> rfl

theorem State.completeHold_only (s : State) (origin number seq : Nat) :
    s.receptionOnly (s.completeHold origin number seq) := by
  have hclose := (s.closeHold_only none).receptionOnly
  unfold State.completeHold
  dsimp only
  split
  · exact hclose.trans (State.stored_only _ _ _)
  · exact (hclose.trans (State.stored_only _ _ _)).trans (State.queueReceipt_only _ _)

theorem State.judgeFirst_only (s : State) (f : Frame) : s.receptionOnly (s.judgeFirst f).1 := by
  unfold State.judgeFirst
  dsimp only
  split
  · rfl
  · split
    · rfl
    · split
      · exact (State.stored_only _ _ _).trans (State.completeHold_only _ _ _ _)
      · rfl

theorem State.judgeNext_only (s : State) (r : Record) (f : Frame) : s.receptionOnly (s.judgeNext r f).1 := by
  unfold State.judgeNext
  dsimp only
  split
  · rfl
  · split
    · exact (State.stored_only _ _ _).trans (State.completeHold_only _ _ _ _)
    · rfl

theorem State.judgeHeld_only (s : State) (r : Record) (f : Frame) : s.receptionOnly (s.judgeHeld r f).1 := by
  unfold State.judgeHeld
  split
  · exact s.judgeNext_only r f
  · split
    · rfl
    · exact (s.closeHold_only _).receptionOnly

theorem State.judgeText_only (s : State) (f : Frame) : s.receptionOnly (s.judgeText f).1 := by
  refine State.receptionOnly.trans (t := { s with recv := s.recv.restartTimers f.origin }) rfl ?_
  unfold State.judgeText
  dsimp only
  split
  · rfl
  · split
    · split
      · exact State.judgeFirst_only _ f
      · rfl
    · split
      · rfl
      · split
        · exact State.judgeHeld_only _ _ f
        · split
          · exact (State.closeHold_only _ _).receptionOnly.trans (State.judgeFirst_only _ f)
          · rfl

theorem State.judgeRequest_only (s : State) (f : Frame) (reply : FrameKind) (text : List Code) :
    s.receptionOnly (s.judgeRequest f reply text).1 := by
  unfold State.judgeRequest
  split
  · rfl
  · split
    · rfl
    · dsimp only
      split <;> rfl

theorem State.judgeReply_only (s : State) (f : Frame) (n : Notice) : s.receptionOnly (s.judgeReply f n).1 := by
  unfold State.judgeReply
  split <;> rfl

/-- What a judged frame leaves of the line unit and of the other blocks (R17, R29). -/
theorem State.receptionOnly.answered {s : State} {a : State × AnswerCode} (h : s.windowOpen.receptionOnly a.1)
    (seq : Nat) : (State.answerDue a seq).line = { s.line with
        rx := .answer, asm := Assembly.empty, winCells := 0, answering := false, ansCells := []
        answerDue := some (a.2, seq) } ∧
      (State.answerDue a seq).panel = s.panel ∧ (State.answerDue a seq).kb = s.kb ∧
      (State.answerDue a seq).punch = s.punch ∧ (State.answerDue a seq).bell = s.bell ∧
      (State.answerDue a seq).cell = s.cell ∧ (State.answerDue a seq).pending = s.pending := by
  unfold State.receptionOnly at h
  rw [State.answerDue, h]
  exact ⟨rfl, rfl, rfl, rfl, rfl, rfl, rfl⟩

/-- Settles O23: each command judges the frame in the open window, and its code is due there. -/
theorem individualAnswered : Obligations.IndividualAnswered := by
  intro f s hp hw hr hc hs ho hd hne hcl c hk
  have h : s.takesIndividual f := ⟨hp, hr, hc, hs, ho, hd, hne, hcl⟩
  have hx : ∃ a, exec c s = .next (State.answerDue a f.seq).settle ∧ s.windowOpen.receptionOnly a.1 := by
    rcases hk with ⟨rfl, hk⟩ | ⟨rfl, hk⟩ | ⟨rfl, hk⟩ | ⟨rfl, hk⟩ | ⟨rfl, hk⟩ | ⟨rfl, hk⟩
    · exact ⟨_, exec_textSection h hw hk, s.windowOpen.judgeText_only f⟩
    · exact ⟨_, exec_who h hw hk, s.windowOpen.judgeRequest_only f _ _⟩
    · exact ⟨_, exec_enquire h hw hk, s.windowOpen.judgeRequest_only f _ _⟩
    · exact ⟨_, exec_ident h hw hk, s.windowOpen.judgeReply_only f _⟩
    · exact ⟨_, exec_status h hw hk, s.windowOpen.judgeReply_only f _⟩
    · exact ⟨_, exec_release_individual h hw hk, (s.windowOpen.actRelease_only f).receptionOnly⟩
  obtain ⟨a, hx, honly⟩ := hx
  exact ⟨_, a.2, hx, honly.answered f.seq⟩

end Sys2Proof.Machine
end

section
/-! SUPPORT. Individual TEXT sections: what the store holds after one, and what each test of R76 answers
(R60, R75 to R82). -/
namespace Sys2Proof.Machine

/-! ### The entry of a stored section (R60) -/

/-- The entry after one more section: its block joins the chain, and a gap before it is noted (R60). -/
def Entry.tookSection (e : Entry) (block gap : Nat) : Entry :=
  { e with chain := e.chain ++ [block], sections := e.sections + 1
           reason := if gap > 0 then some .gap else e.reason }

theorem Store.allocate_entry {st : Store} {slot : Nat} {e : Entry} (h : st.entry slot = some e) (gap : Nat)
    (codes : List Code) (released : Bool) :
    (st.allocate slot gap codes released).entry slot = some { e with chain := e.chain ++ [st.head] } := by
  have hslot := (Store.entry_mem h).2
  unfold Store.allocate
  rw [h]
  exact Store.entry_updateEntry (st := st.setBlock st.head _) (f := fun e => { e with chain := e.chain ++ [st.head] })
    h hslot

theorem Store.storeSection_entry {st : Store} {slot : Nat} {e : Entry} (h : st.entry slot = some e) (gap : Nat)
    (codes : List Code) :
    (st.storeSection slot gap codes).entry slot = some (e.tookSection st.head gap) :=
  Store.entry_updateEntry (Store.allocate_entry h gap codes true) (Store.entry_mem h).2

/-- A first section's entry has one section and no reason (R57, R60). -/
theorem Store.storeFirst_entry {st : Store} (hd : st.dir.length < 32) (origin number cls : Nat) (pr pu : Bool)
    (codes : List Code) : (st.storeFirst origin number cls pr pu codes).entry st.freeSlot
      = some ((Entry.arrived st.freeSlot origin number cls pr pu).tookSection st.head 0) :=
  Store.storeSection_entry (st := st.createReceived origin number cls pr pu)
    (Store.entry_append (e := Entry.arrived st.freeSlot origin number cls pr pu) (Store.freeSlot_fresh hd) _ _) 0 codes

/-! ### A message completed (R75, R82) -/

/-- The transmission controller after a message is complete: an unattended station queues a receipt (R82). -/
def State.receiptSend (s : State) (origin : Nat) : Transmission :=
  if s.panel.attended then s.send
  else (s.send.queueControl .ident origin 0 s.panel.settings.answerback none).getD s.send

theorem State.receiptSend_none {s : State} (h : s.panel.attended = true ∨ 6 ≤ s.send.control.length)
    (origin : Nat) : s.receiptSend origin = s.send := by
  unfold State.receiptSend
  rcases h with ha | hl
  · rw [if_pos ha]
  · rw [(Transmission.queueControl_none _ _ _ _ _ _).mpr hl]
    exact ite_self _

theorem State.receiptSend_queued {s : State} (ha : s.panel.attended = false) (hl : s.send.control.length < 6)
    (origin : Nat) : s.receiptSend origin = { s.send with
      seqCounter := (s.send.seqCounter + 1) % 8
      control := s.send.control ++ [{ kind := .ident, dest := origin, seq := s.send.seqCounter, number := 0
                                      text := s.panel.settings.answerback, phase := .ready
                                      counts := Counts.zero, delay := 0, watch := none }] } := by
  unfold State.receiptSend
  rw [if_neg (ne_true_of_eq_false ha), Transmission.queueControl_room hl]
  rfl

/-- The message of the hold is complete (R75, R79, R82). -/
theorem State.completeHold_eq {s : State} {r : Record} (h : s.recv.hold = some r) (origin number seq : Nat) :
    s.completeHold origin number seq = { s with
      recv := { s.recv with hold := none, completion := some (origin, number, seq) }
      store := s.store.closeEntry r.entry none
      journal := (s.closeRecord r none).journal
      send := s.receiptSend origin } := by
  have hclose : s.closeHold none = { s.closeRecord r none with recv := { s.recv with hold := none } } := by
    unfold State.closeHold
    rw [h]
  unfold State.completeHold State.receiptSend
  rw [hclose]
  cases ha : s.panel.attended with
  | true => exact if_pos ha
  | false =>
    refine (if_neg (ne_true_of_eq_false ha)).trans ?_
    unfold State.queueReceipt
    show (match s.send.queueControl .ident origin 0 s.panel.settings.answerback none with
      | none => _
      | some t => _) = _
    cases s.send.queueControl .ident origin 0 s.panel.settings.answerback none <;> rfl

/-! ### A first section (R77) -/

section
variable {s : State} {f : Frame} {r : Record}

/-- The record that a first section opens (R72, R77). -/
def Record.opened (f : Frame) (slot : Nat) : Record :=
  { origin := f.origin, number := f.number, cls := f.cls, next := (f.seq + 1) % 8, entry := slot
    timer := Config.recordTime }

/-- A completion record of another origin stays when a hold opens (R75). -/
def Reception.completionBeside (t : Reception) (origin : Nat) : Option (Nat × Nat × Nat) :=
  match t.completion with
  | none => none
  | some c => if c.1 = origin then none else some c

theorem Reception.completionBeside_none {t : Reception} (h : t.completion = none) (origin : Nat) :
    t.completionBeside origin = none := by
  unfold Reception.completionBeside
  rw [h]

theorem Reception.completionBeside_some {t : Reception} {o n q : Nat} (h : t.completion = some (o, n, q))
    (origin : Nat) : t.completionBeside origin = if o = origin then none else some (o, n, q) := by
  unfold Reception.completionBeside
  rw [h]

/-- The store with a first section in it. -/
def State.storeWithFirst (s : State) (f : Frame) : Store :=
  s.store.storeFirst f.origin f.number f.cls s.panel.printSel s.panel.punchSel f.text

/-- The hold opened by a first section that is stored (R75, R77). -/
def State.firstStored (s : State) (f : Frame) : State := { s with
  store := s.storeWithFirst f
  recv := { s.recv with hold := some (Record.opened f s.store.freeSlot)
                        completion := s.recv.completionBeside f.origin } }

theorem State.judgeFirst_declined (h : s.panel.acceptLevel < f.cls) : s.judgeFirst f = (s, .refuse) := by
  unfold State.judgeFirst
  exact if_pos h

theorem State.judgeFirst_short (hl : f.cls ≤ s.panel.acceptLevel)
    (h : s.store.free < 8 ∨ 32 ≤ s.store.dir.length) : s.judgeFirst f = (s, if s.store.draining s.able
        { blocks := decide (s.store.free < 8), directory := decide (32 ≤ s.store.dir.length) }
      then .wait else .refuse) := by
  have hshort : (s.store.shortage Config.reserveFirst true).isShort = true := by
    rw [← Bool.not_eq_false, Store.shortage_iff]
    rintro ⟨hf, hd⟩
    exact h.elim (Nat.not_lt_of_le hf) (Nat.not_le_of_lt (hd rfl))
  unfold State.judgeFirst
  rw [if_neg (Nat.not_lt_of_le hl), if_pos hshort]
  rfl

/-- A first section within the level and the reserve is stored (R77). -/
theorem State.judgeFirst_stored (hl : f.cls ≤ s.panel.acceptLevel) (hf : 8 ≤ s.store.free)
    (hd : s.store.dir.length < 32) : s.judgeFirst f
      = (if f.final then (s.firstStored f).completeHold f.origin f.number f.seq else s.firstStored f, .accept) := by
  have hroom : ¬ (s.store.shortage Config.reserveFirst true).isShort = true := by
    rw [Bool.not_eq_true, Store.shortage_iff]
    exact ⟨hf, fun _ => hd⟩
  unfold State.judgeFirst
  rw [if_neg (Nat.not_lt_of_le hl), if_neg hroom]
  rfl

theorem State.judgeFirst_opened (hl : f.cls ≤ s.panel.acceptLevel) (hf : 8 ≤ s.store.free)
    (hd : s.store.dir.length < 32) (hfin : f.final = false) : s.judgeFirst f = (s.firstStored f, .accept) := by
  rw [State.judgeFirst_stored hl hf hd, if_neg (ne_true_of_eq_false hfin)]

/-- A message of one section (R75, R77, R82). -/
theorem State.judgeFirst_completed (hl : f.cls ≤ s.panel.acceptLevel) (hf : 8 ≤ s.store.free)
    (hd : s.store.dir.length < 32) (hfin : f.final = true) : s.judgeFirst f = ({ s with
      recv := { s.recv with hold := none, completion := some (f.origin, f.number, f.seq) }
      store := (s.storeWithFirst f).closeEntry s.store.freeSlot none
      journal := s.journal.add .received { peer := some f.origin, number := some f.number, cls := some f.cls
                                           sections := some 1 }
      send := s.receiptSend f.origin }, .accept) := by
  have hentry := Store.storeFirst_entry hd f.origin f.number f.cls s.panel.printSel s.panel.punchSel f.text
  have hjournal := State.closeRecord_noted (s := s.firstStored f) (r := Record.opened f s.store.freeSlot) hentry
  rw [State.judgeFirst_stored hl hf hd, if_pos hfin,
    State.completeHold_eq (s := s.firstStored f) (r := Record.opened f s.store.freeSlot) rfl, hjournal]
  rfl

theorem State.judgeFirst_table (s : State) (f : Frame) :
    (s.judgeFirst f).1.recv.circ = s.recv.circ ∧ (s.judgeFirst f).1.recv.recent = s.recv.recent := by
  unfold State.judgeFirst
  dsimp only
  split
  · exact ⟨rfl, rfl⟩
  · split
    · exact ⟨rfl, rfl⟩
    · split
      · rw [State.completeHold_eq rfl]
        exact ⟨rfl, rfl⟩
      · exact ⟨rfl, rfl⟩

/-! ### The tests in order (R76) -/

/-- The timers of the origin's records have started again (R73). -/
def State.restarted (s : State) (origin : Nat) : State := { s with recv := s.recv.restartTimers origin }

/-- The record with its timer started again (R73). -/
def Record.renewed (r : Record) : Record := { r with timer := Config.recordTime }

theorem Record.restart_own {origin : Nat} (h : r.origin = origin) : r.restart origin = r.renewed := if_pos h

theorem Record.restart_other {origin : Nat} (h : r.origin ≠ origin) : r.restart origin = r := if_neg h

theorem Reception.restartTimers_hold {t : Reception} (h : t.hold = some r) (origin : Nat) :
    (t.restartTimers origin).hold = some (r.restart origin) := by
  show t.hold.map _ = _
  rw [h]
  rfl

theorem Reception.restartTimers_noHold {t : Reception} (h : t.hold = none) (origin : Nat) :
    (t.restartTimers origin).hold = none := by
  show t.hold.map _ = _
  rw [h]
  rfl

theorem State.judgeText_completed (h : s.recv.completion = some (f.origin, f.number, f.seq)) :
    s.judgeText f = (s.restarted f.origin, .duplicate) := by
  unfold State.judgeText
  exact if_pos h

section
variable (hc : s.recv.completion ≠ some (f.origin, f.number, f.seq))
include hc

theorem State.judgeText_free (hh : s.recv.hold = none) :
    s.judgeText f = if f.first then (s.restarted f.origin).judgeFirst f else (s.restarted f.origin, .refuse) := by
  unfold State.judgeText
  dsimp only
  rw [if_neg (show ¬ (s.recv.restartTimers f.origin).completion = _ from hc), Reception.restartTimers_noHold hh]
  rfl

theorem State.judgeText_engaged (hh : s.recv.hold = some r) (ho : r.origin ≠ f.origin) :
    s.judgeText f = (s.restarted f.origin, .engaged) := by
  unfold State.judgeText
  dsimp only
  rw [if_neg (show ¬ (s.recv.restartTimers f.origin).completion = _ from hc), Reception.restartTimers_hold hh,
    Record.restart_other ho]
  exact if_pos ho

theorem State.judgeText_held (hh : s.recv.hold = some r) (ho : r.origin = f.origin) (hn : r.number = f.number) :
    s.judgeText f = (s.restarted f.origin).judgeHeld r.renewed f := by
  unfold State.judgeText
  dsimp only
  rw [if_neg (show ¬ (s.recv.restartTimers f.origin).completion = _ from hc), Reception.restartTimers_hold hh,
    Record.restart_own ho]
  exact (if_neg (not_not_intro ho)).trans (if_pos hn)

theorem State.judgeText_another (hh : s.recv.hold = some r) (ho : r.origin = f.origin) (hn : r.number ≠ f.number) :
    s.judgeText f = if f.first then ((s.restarted f.origin).closeHold (some .superseded)).judgeFirst f
      else (s.restarted f.origin, .refuse) := by
  unfold State.judgeText
  dsimp only
  rw [if_neg (show ¬ (s.recv.restartTimers f.origin).completion = _ from hc), Reception.restartTimers_hold hh,
    Record.restart_own ho]
  exact (if_neg (not_not_intro ho)).trans (if_neg hn)

end

/-- Settles O24: the level, the reserve, and the section stored, each read off the judgement. -/
theorem firstSectionJudged : Obligations.FirstSectionJudged := by
  intro f s hp hw hk hr hc hs ho hd hne hcl hfirst hhold hcomp
  have hx := exec_textSection (s := s) ⟨hp, hr, hc, hs, ho, hd, hne, hcl⟩ hw hk
  rw [State.judgeText_free (s := s.windowOpen) hcomp hhold, if_pos hfirst] at hx
  have hnone : (s.recv.restartTimers f.origin).hold = none := Reception.restartTimers_noHold hhold _
  obtain ⟨hcirc, hrecent⟩ := (s.windowOpen.restarted f.origin).judgeFirst_table f
  refine ⟨_, hx, hcirc, hrecent, fun hl hf hdir hfin => ?_, fun hl hf hdir hfin => ?_, fun hl => ?_,
    fun hl hshort => ?_⟩
  · rw [State.judgeFirst_opened (s := s.windowOpen.restarted f.origin) hl hf hdir hfin]
    exact ⟨rfl, rfl, rfl, fun hn => Reception.completionBeside_none hn _,
      fun _ _ _ hq => Reception.completionBeside_some hq _, rfl, rfl, rfl⟩
  · rw [State.judgeFirst_completed (s := s.windowOpen.restarted f.origin) hl hf hdir hfin]
    exact ⟨rfl, rfl, rfl, rfl, rfl, rfl, fun hn => State.receiptSend_none (s := s) hn _,
      fun ha hq => State.receiptSend_queued (s := s) ha hq _⟩
  · rw [State.judgeFirst_declined (s := s.windowOpen.restarted f.origin) hl]
    exact ⟨rfl, rfl, hnone, rfl, rfl, rfl⟩
  · rw [State.judgeFirst_short (s := s.windowOpen.restarted f.origin) hl hshort]
    exact ⟨rfl, hnone, rfl, rfl, rfl, rfl⟩

/-! ### A section of the held message (R79, R80) -/

theorem State.judgeHeld_repeat (hn : f.seq ≠ r.next) (hlast : (f.seq + 1) % 8 = r.next) :
    s.judgeHeld r f = (s, .duplicate) := by
  unfold State.judgeHeld
  rw [if_neg hn, if_pos hlast]

theorem State.judgeHeld_outOfOrder (hn : f.seq ≠ r.next) (hlast : (f.seq + 1) % 8 ≠ r.next) :
    s.judgeHeld r f = (s.closeHold (some .outOfOrder), .refuse) := by
  unfold State.judgeHeld
  rw [if_neg hn, if_neg hlast]

theorem State.judgeHeld_short (hn : f.seq = r.next) (hf : s.store.free = 0) :
    s.judgeHeld r f = (s, if s.store.draining s.able { blocks := true, directory := false }
      then .wait else .refuse) := by
  have hshortage : s.store.shortage Config.reserveFurther false = { blocks := true, directory := false } := by
    rw [Store.shortage, hf]
    rfl
  unfold State.judgeHeld State.judgeNext
  rw [if_pos hn, hshortage]
  rfl

/-- The hold with its next section stored (R79). -/
def State.nextStored (s : State) (r : Record) (f : Frame) : State := { s with
  store := s.store.storeSection r.entry 0 f.text
  recv := { s.recv with hold := some { r with next := (r.next + 1) % 8 } } }

theorem State.judgeHeld_stored (hn : f.seq = r.next) (hf : 1 ≤ s.store.free) : s.judgeHeld r f
    = (if f.final then (s.nextStored r f).completeHold f.origin f.number f.seq else s.nextStored r f, .accept) := by
  have hroom : ¬ (s.store.shortage Config.reserveFurther false).isShort = true := by
    rw [Bool.not_eq_true, Store.shortage_iff]
    exact ⟨hf, nofun⟩
  unfold State.judgeHeld State.judgeNext
  rw [if_pos hn, if_neg hroom]
  rfl

end

/-! ### Another number of the hold's origin (R81) -/

/-- The state after the hold is superseded (R74, R81). -/
def State.holdSuperseded (s : State) (r : Record) : State := { s with
  recv := { s.recv.restartTimers r.origin with hold := none }
  store := s.store.closeEntry r.entry (some .superseded)
  journal := s.journal.add .receivedIncomplete (r.incomplete s.store .superseded) }

theorem State.closeHold_superseded {s : State} {r : Record} (h : s.recv.hold = some r) {origin : Nat}
    (ho : r.origin = origin) : (s.restarted origin).closeHold (some .superseded) = s.holdSuperseded r := by
  subst ho
  have hh := Reception.restartTimers_hold h r.origin
  rw [Record.restart_own rfl] at hh
  exact State.closeHold_incomplete (s := s.restarted r.origin) hh _

/-- Settles O25: the tests of R76 in their order. -/
theorem heldSectionJudged : Obligations.HeldSectionJudged := by
  intro f s hp hw hk hr hc hs ho hd hne hcl
  have hx := exec_textSection (s := s) ⟨hp, hr, hc, hs, ho, hd, hne, hcl⟩ hw hk
  refine ⟨_, hx, fun hcomp => ?_, fun hcomp => ⟨fun r hh hro => ?_, fun hh hfirst => ?_, fun r hh hro hrn => ?_,
    fun r hh hro hrn hfirst => ?_, fun r st j hh hro hrn hfirst hst hj => ?_⟩⟩
  · rw [State.judgeText_completed (s := s.windowOpen) hcomp]
    exact ⟨rfl, rfl, rfl⟩
  · rw [State.judgeText_engaged (s := s.windowOpen) hcomp hh hro]
    exact ⟨rfl, rfl, rfl⟩
  · rw [State.judgeText_free (s := s.windowOpen) hcomp hh, if_neg (ne_true_of_eq_false hfirst)]
    exact ⟨rfl, rfl, rfl⟩
  · have hh' : (s.recv.restartTimers f.origin).hold = some r.renewed := by
      rw [Reception.restartTimers_hold hh, Record.restart_own hro]
    rw [State.judgeText_held (s := s.windowOpen) hcomp hh hro hrn]
    refine ⟨fun hn hlast => ?_, fun hn hlast => ?_, fun hn hf => ?_, fun hn hf hfin => ?_, fun hn hf hfin => ?_⟩
    · rw [State.judgeHeld_repeat (r := r.renewed) hn hlast]
      exact ⟨rfl, rfl⟩
    · rw [State.judgeHeld_outOfOrder (r := r.renewed) hn hlast,
        State.closeHold_incomplete (s := s.windowOpen.restarted f.origin) hh']
      exact ⟨rfl, rfl, rfl, rfl⟩
    · rw [State.judgeHeld_short (s := s.windowOpen.restarted f.origin) (r := r.renewed) hn hf]
      exact ⟨rfl, rfl, rfl, rfl⟩
    · rw [State.judgeHeld_stored (s := s.windowOpen.restarted f.origin) (r := r.renewed) hn hf,
        if_neg (ne_true_of_eq_false hfin)]
      exact ⟨rfl, rfl, rfl, rfl, rfl, rfl⟩
    · rw [State.judgeHeld_stored (s := s.windowOpen.restarted f.origin) (r := r.renewed) hn hf, if_pos hfin,
        State.completeHold_eq rfl]
      refine ⟨rfl, rfl, rfl, rfl, fun e he hreason => ?_, fun hn => State.receiptSend_none (s := s) hn _,
        fun ha hq => State.receiptSend_queued (s := s) ha hq _⟩
      refine (State.closeRecord_noted he).trans ?_
      rw [hreason]
      rfl
  · rw [State.judgeText_another (s := s.windowOpen) hcomp hh hro hrn, if_neg (ne_true_of_eq_false hfirst)]
    exact ⟨rfl, rfl, rfl, rfl⟩
  · subst hst hj
    rw [State.judgeText_another (s := s.windowOpen) hcomp hh hro hrn, if_pos hfirst,
      State.closeHold_superseded (s := s.windowOpen) hh hro]
    refine ⟨fun hl => ?_, fun hl hshort => ?_, fun hl hf hdir => ?_⟩
    · rw [State.judgeFirst_declined (s := s.windowOpen.holdSuperseded r) hl]
      exact ⟨rfl, rfl, rfl, rfl⟩
    · rw [State.judgeFirst_short (s := s.windowOpen.holdSuperseded r) hl hshort]
      exact ⟨rfl, rfl, rfl, rfl⟩
    · cases hfin : f.final with
      | false =>
        rw [State.judgeFirst_opened (s := s.windowOpen.holdSuperseded r) hl hf hdir hfin]
        exact ⟨rfl, fun _ => ⟨rfl, rfl, rfl, fun hn => Reception.completionBeside_none hn _,
          fun _ _ _ hq => Reception.completionBeside_some hq _⟩, nofun⟩
      | true =>
        rw [State.judgeFirst_completed (s := s.windowOpen.holdSuperseded r) hl hf hdir hfin]
        exact ⟨rfl, nofun, fun _ => ⟨rfl, rfl, rfl, rfl, fun hn => State.receiptSend_none (s := s) hn _,
          fun ha hq => State.receiptSend_queued (s := s) ha hq _⟩⟩

end Sys2Proof.Machine
end

section
/-! SUPPORT. Circular reception: the records under a restart of their timers, and what each step of R83 and R84
leaves (R73, R74, R83, R84). -/
namespace Sys2Proof.Machine

/-! ### The table under a restart and a closing -/

theorem sameRecord_restart (r : Record) (o origin number : Nat) :
    sameRecord (r.restart o) origin number = sameRecord r origin number := by
  unfold Record.restart
  split <;> rfl

theorem Record.restart_origin (r : Record) (o : Nat) : (r.restart o).origin = r.origin := by
  unfold Record.restart
  split <;> rfl

/-- Restarted timers leave a record where it is found (R73). -/
theorem Reception.findCircular_restartTimers (t : Reception) (o origin number : Nat) :
    (t.restartTimers o).findCircular origin number
      = (t.findCircular origin number).map fun r => r.restart o := by
  have hp : (fun r => sameRecord r origin number) ∘ (fun r : Record => r.restart o)
      = fun r => sameRecord r origin number := funext fun r => sameRecord_restart r o origin number
  show (t.circ.map fun r => r.restart o).find? _ = _
  rw [List.find?_map, hp]
  rfl

/-- A restart changes nothing in records of other origins. -/
theorem map_restart_others {l : List Record} {o : Nat} (h : ∀ r ∈ l, r.origin ≠ o) :
    (l.map fun r => r.restart o) = l := by
  conv_rhs => rw [← List.map_id l]
  exact List.map_congr_left fun r hr => Record.restart_other (h r hr)

theorem filter_origin_restart (l : List Record) (o : Nat) :
    ((l.map fun r => r.restart o).filter fun r => r.origin == o)
      = (l.filter fun r => r.origin == o).map fun r => r.restart o := by
  have hp : (fun r : Record => r.origin == o) ∘ (fun r : Record => r.restart o) = fun r => r.origin == o :=
    funext fun r => congrArg (· == o) (r.restart_origin o)
  rw [List.filter_map, hp]

/-- Without the one record of an origin, its others are left, their timers as they were. -/
theorem filter_only_record {l : List Record} {r : Record} {o : Nat} (h : (l.filter fun x => x.origin == o) = [r]) :
    ((l.map fun x => x.restart o).filter fun x => !sameRecord x r.origin r.number)
      = l.filter fun x => x.origin != o := by
  have hmem : ∀ x ∈ l, x.origin = o → x = r := fun x hx ho =>
    List.mem_singleton.mp (h ▸ List.mem_filter.mpr ⟨hx, beq_iff_eq.mpr ho⟩)
  have hr : r.origin = o := by
    have hr : r ∈ l.filter fun x => x.origin == o := h ▸ List.mem_singleton_self r
    exact beq_iff_eq.mp (List.mem_filter.mp hr).2
  have hp : (fun x => !sameRecord x r.origin r.number) ∘ (fun x : Record => x.restart o)
      = fun x => !sameRecord x r.origin r.number := funext fun x => congrArg (!·) (sameRecord_restart x o _ _)
  have hcongr : (l.filter fun x => !sameRecord x r.origin r.number) = l.filter fun x => x.origin != o := by
    refine List.filter_congr fun x hx => congrArg (!·) (Bool.eq_iff_iff.mpr ?_)
    rw [sameRecord_iff, beq_iff_eq, hr]
    exact ⟨And.left, fun ho => by rw [hmem x hx ho]; exact ⟨hr, rfl⟩⟩
  rw [List.filter_map, hp, hcongr]
  exact map_restart_others fun x hx => by simpa using (List.mem_filter.mp hx).2

/-- A record rewritten in its place is gone with it. -/
theorem filter_rewritten {r : Record} {origin number : Nat} (h : sameRecord r origin number = true)
    (l : List Record) : ((l.map fun x => if sameRecord x origin number then r else x).filter
        fun x => !sameRecord x origin number) = l.filter fun x => !sameRecord x origin number := by
  induction l with
  | nil => rfl
  | cons x l ih => cases hx : sameRecord x origin number <;> simp [hx, h, ih]

/-! ### What circular reception touches -/

/-- Only the circular records, the store and the journal have changed. -/
def State.circularOnly (s t : State) : Prop :=
  t = { s with recv := { s.recv with circ := t.recv.circ }, store := t.store, journal := t.journal }

theorem State.circularOnly.trans {s t u : State} (h : s.circularOnly t) (h' : t.circularOnly u) :
    s.circularOnly u := by
  unfold State.circularOnly at h h' ⊢
  rw [h] at h'
  exact h'

theorem State.circularOnly.line_eq {s t : State} (h : s.circularOnly t) : t.line = s.line := by
  unfold State.circularOnly at h
  rw [h]

theorem State.closeCircular_circularOnly (s : State) (r : Record) (why : Option Reason) :
    s.circularOnly (s.closeCircular r why) := rfl

theorem State.circStored_only (s : State) (circ : List Record) (st : Store) :
    s.circularOnly { s with store := st, recv := { s.recv with circ := circ } } := rfl

theorem supersede_only (l : List Record) (s : State) : s.circularOnly (supersede l s) := by
  induction l generalizing s with
  | nil => rfl
  | cons r l ih => exact (s.closeCircular_circularOnly r _).trans (ih _)

theorem State.judgeCircularFirst_only (s : State) (f : Frame) : s.circularOnly (s.judgeCircularFirst f) := by
  unfold State.judgeCircularFirst
  split
  · rfl
  · split
    · rfl
    · dsimp only
      split
      · exact (s.circStored_only _ _).trans (State.closeCircular_circularOnly _ _ _)
      · rfl

/-! ### A first section (R83) -/

section
variable {s : State} {f : Frame} {r : Record}

theorem State.circularFirst_repeat (h : s.recv.findCircular f.origin f.number = some r) :
    s.circularFirst f = (s.restarted f.origin).discard := by
  unfold State.circularFirst
  dsimp only
  rw [Reception.findCircular_restartTimers, h]
  rfl

theorem State.circularFirst_new (h : s.recv.findCircular f.origin f.number = none) :
    s.circularFirst f = (supersede ((s.recv.circ.filter fun x => x.origin == f.origin).map fun x => x.restart f.origin)
      (s.restarted f.origin)).judgeCircularFirst f := by
  rw [← filter_origin_restart]
  unfold State.circularFirst
  dsimp only
  rw [Reception.findCircular_restartTimers, h]
  rfl

theorem State.circularFirst_only (h : s.recv.findCircular f.origin f.number = none) :
    (s.restarted f.origin).circularOnly (s.circularFirst f) := by
  rw [State.circularFirst_new h]
  exact (supersede_only _ _).trans (State.judgeCircularFirst_only _ f)

/-- The state step 3 of R83 starts from, the origin's other record closed if there is one. -/
def State.circularBase (s : State) (origin : Nat) (st : Store) (circ : List Record) (j : Journal) : State :=
  { s with store := st, recv := { s.recv.restartTimers origin with circ := circ }, journal := j }

/-- Step 2 of R83: no open record of the origin, or one with another number, closed as superseded. -/
def State.circularSuperseded (s : State) (f : Frame) (st : Store) (circ : List Record) (j : Journal) : Prop :=
  (∀ r ∈ s.recv.circ, r.origin ≠ f.origin) ∧ st = s.store ∧ circ = s.recv.circ ∧ j = s.journal ∨
    ∃ r, (s.recv.circ.filter fun x => x.origin == f.origin) = [r] ∧ r.number ≠ f.number ∧
      st = s.store.closeEntry r.entry (some .superseded) ∧
      circ = (s.recv.circ.filter fun x => x.origin != f.origin) ∧
      j = s.journal.add .receivedIncomplete (r.incomplete s.store .superseded)

variable {st : Store} {circ : List Record} {j : Journal}

theorem State.circularSuperseded.findCircular (h : s.circularSuperseded f st circ j) :
    s.recv.findCircular f.origin f.number = none := by
  rw [Reception.findCircular_none_iff]
  rintro x hx ⟨ho, hn⟩
  rcases h with ⟨hnone, -⟩ | ⟨r, hr, hne, -⟩
  · exact hnone x hx ho
  · have hxr : x = r := List.mem_singleton.mp (hr ▸ List.mem_filter.mpr ⟨hx, beq_iff_eq.mpr ho⟩)
    exact hne (hxr ▸ hn)

theorem State.circularSuperseded.others (h : s.circularSuperseded f st circ j) :
    ∀ x ∈ circ, x.origin ≠ f.origin := by
  rcases h with ⟨hnone, -, rfl, -⟩ | ⟨r, -, -, -, rfl, -⟩
  · exact hnone
  · exact fun x hx => by simpa using (List.mem_filter.mp hx).2

theorem State.circularSuperseded.circularFirst (h : s.circularSuperseded f st circ j) :
    s.circularFirst f = (s.circularBase f.origin st circ j).judgeCircularFirst f := by
  rw [State.circularFirst_new h.findCircular]
  rcases h with ⟨hnone, rfl, rfl, rfl⟩ | ⟨r, hr, hne, rfl, rfl, rfl⟩
  · have hfilter : (s.recv.circ.filter fun x => x.origin == f.origin) = [] :=
      List.filter_eq_nil_iff.mpr fun x hx => by simpa using hnone x hx
    rw [hfilter, State.circularBase]
    conv_rhs => rw [← map_restart_others hnone]
    rfl
  · have ho : r.origin = f.origin := by
      have hmem : r ∈ s.recv.circ.filter fun x => x.origin == f.origin := hr ▸ List.mem_singleton_self r
      exact beq_iff_eq.mp (List.mem_filter.mp hmem).2
    rw [hr, State.circularBase, ← filter_only_record hr]
    show State.judgeCircularFirst ((s.restarted f.origin).closeCircular (r.restart f.origin) _) f = _
    rw [Record.restart_own ho]
    rfl

theorem State.judgeCircularFirst_declined (h : s.panel.acceptLevel < f.cls) :
    s.judgeCircularFirst f = s.log .circularDeclined (circularFields f) := if_pos h

theorem Store.circularShort_iff (st : Store) : (st.shortage Config.reserveCircular true).isShort = true ↔
    st.free < 16 ∨ 32 ≤ st.dir.length := by
  rw [← Bool.not_eq_false, Store.shortage_iff, not_and_or]
  simp [Config.reserveCircular]

theorem State.judgeCircularFirst_missed (hl : f.cls ≤ s.panel.acceptLevel)
    (h : 3 ≤ s.recv.circ.length ∨ s.store.free < 16 ∨ 32 ≤ s.store.dir.length) :
    s.judgeCircularFirst f = s.log .circularMissed (circularFields f) := by
  unfold State.judgeCircularFirst
  rw [if_neg (Nat.not_lt_of_le hl)]
  exact if_pos (h.imp id s.store.circularShort_iff.mpr)

/-- A circular section stored opens its record (R83). -/
def State.circularStored (s : State) (f : Frame) : State := { s with
  store := s.storeWithFirst f
  recv := { s.recv with circ := s.recv.circ ++ [Record.opened f s.store.freeSlot] } }

theorem State.judgeCircularFirst_stored (hl : f.cls ≤ s.panel.acceptLevel) (hr : s.recv.circ.length < 3)
    (hf : 16 ≤ s.store.free) (hd : s.store.dir.length < 32) : s.judgeCircularFirst f
      = if f.final then (s.circularStored f).closeCircular (Record.opened f s.store.freeSlot) none
        else s.circularStored f := by
  have hroom : ¬ (s.recv.circ.length ≥ Config.circularRecords ∨
      (s.store.shortage Config.reserveCircular true).isShort = true) := by
    rw [Store.circularShort_iff]
    rintro (hc | hc | hc)
    · exact Nat.not_lt_of_le hc hr
    · exact Nat.not_lt_of_le hf hc
    · exact Nat.not_lt_of_le hc hd
  unfold State.judgeCircularFirst
  rw [if_neg (Nat.not_lt_of_le hl), if_neg hroom]
  rfl

/-- The record that a final first section opens is closed in the same step, and the others stay. -/
theorem circ_closed_again {f : Frame} {l : List Record} (h : ∀ x ∈ l, x.origin ≠ f.origin) (slot : Nat) :
    ((l ++ [Record.opened f slot]).filter fun x => !sameRecord x f.origin f.number) = l := by
  have hl : (l.filter fun x => !sameRecord x f.origin f.number) = l := List.filter_eq_self.mpr fun x hx => by
    rw [Bool.not_eq_true', ← Bool.not_eq_true, sameRecord_iff]
    exact fun hs => h x hx hs.1
  have hself : sameRecord (Record.opened f slot) f.origin f.number = true := (sameRecord_iff _ _ _).mpr ⟨rfl, rfl⟩
  rw [List.filter_append, hl, List.filter_cons_of_neg (by rw [hself]; exact Bool.false_ne_true)]
  exact List.append_nil l

end

/-- What a circular frame that is not discarded leaves: the receiver READY, the rest of the reassembly table and the
other blocks (R17, R73). -/
theorem State.circularOnly.leaves {s u : State} {f : Frame}
    (h : ((s.circularEnded f).restarted f.origin).circularOnly u) :
    u.line.rx = .ready ∧ u.line.answerDue = none ∧ u.send = s.send ∧ u.kb = s.kb ∧ u.print = s.clashPrint f ∧
      (u.line.clash = true ↔ s.line.clash = true ∨ s.own = some f.origin) ∧
      u.recv = { s.recv with circ := u.recv.circ, hold := s.recv.hold.map fun x => x.restart f.origin } ∧
      u.punch = s.punch ∧ u.panel = s.panel ∧ u.bell = s.bell := by
  unfold State.circularOnly at h
  rw [h]
  exact ⟨rfl, rfl, rfl, rfl, rfl, s.circularEnded_clash f, rfl, rfl, rfl, rfl⟩

/-- Settles O26: a repeat, or the steps of R83 from the state step 2 leaves. -/
theorem circularFirstJudged : Obligations.CircularFirstJudged := by
  intro f s hp hw hk hd hfirst hr hc hs
  have hx := exec_circularFirstSection (s := s) ⟨hp, hr, hc, hs, hd⟩ hw hk hfirst
  cases hfind : s.recv.findCircular f.origin f.number with
  | some r =>
    rw [State.circularFirst_repeat (s := s.circularEnded f) hfind] at hx
    refine ⟨_, hx, rfl, rfl, rfl, rfl, rfl, s.circularEnded_clash f, rfl, rfl, rfl, rfl, fun _ => ⟨rfl, rfl, rfl, rfl⟩,
      fun st circ j hsup => ?_⟩
    have hnone := State.circularSuperseded.findCircular (s := s.circularEnded f) hsup
    cases hfind.symm.trans hnone
  | none =>
    obtain ⟨h1, h2, h3, h4, h5, h6, h7, h8, h9, h10⟩ :=
      State.circularOnly.leaves (State.circularFirst_only (s := s.circularEnded f) hfind)
    refine ⟨_, hx, h1, h2, h3, h4, h5, h6, h7, h8, h9, h10, fun hany => ?_, fun st circ j hsup => ?_⟩
    · obtain ⟨x, hmem, hsame⟩ := List.any_eq_true.mp hany
      exact absurd ((sameRecord_iff _ _ _).mp hsame) ((s.recv.findCircular_none_iff _ _).mp hfind x hmem)
    · have hothers := State.circularSuperseded.others (s := s.circularEnded f) hsup
      rw [State.circularSuperseded.circularFirst (s := s.circularEnded f) hsup]
      refine ⟨?_, fun hl => ?_, fun hl hshort => ?_, fun hl hlen hf hdir st' hst' => ⟨fun hfin => ?_, fun hfin => ?_⟩⟩
      · rw [(State.judgeCircularFirst_only _ f).line_eq]
        rfl
      · rw [State.judgeCircularFirst_declined (s := (s.circularEnded f).circularBase f.origin st circ j) hl]
        exact ⟨rfl, rfl, rfl⟩
      · rw [State.judgeCircularFirst_missed (s := (s.circularEnded f).circularBase f.origin st circ j) hl hshort]
        exact ⟨rfl, rfl, rfl⟩
      · rw [State.judgeCircularFirst_stored (s := (s.circularEnded f).circularBase f.origin st circ j) hl hlen hf hdir,
          if_neg (ne_true_of_eq_false hfin), hst']
        exact ⟨rfl, rfl, rfl⟩
      · rw [State.judgeCircularFirst_stored (s := (s.circularEnded f).circularBase f.origin st circ j) hl hlen hf hdir,
          if_pos hfin, hst']
        refine ⟨rfl, circ_closed_again hothers _, fun e he hreason => (State.closeRecord_noted he).trans ?_⟩
        rw [hreason]
        rfl

/-! ### A continuation (R84) -/

section
variable {s : State} {f : Frame} {r : Record}

/-- The sections missing before the frame, by the record's next sequence (R84). -/
def Record.gapBefore (r : Record) (f : Frame) : Nat := (f.seq + 8 - r.next) % 8

/-- The record after a continuation is stored (R84). -/
def Record.continued (r : Record) (f : Frame) : Record :=
  { r with next := (f.seq + 1) % 8, timer := Config.recordTime }

/-- A continuation stored with its gap, the record's next sequence after it (R73, R84). -/
def State.continuationStored (s : State) (r : Record) (f : Frame) : State := { s.restarted f.origin with
  store := s.store.storeSection r.entry (r.gapBefore f) f.text
  recv := { s.recv.restartTimers f.origin with
    circ := (s.recv.restartTimers f.origin).circ.map fun x =>
      if sameRecord x r.origin r.number then r.continued f else x } }

theorem State.circularNext_unknown (h : s.recv.findCircular f.origin f.number = none) :
    s.circularNext f = (s.restarted f.origin).discard := by
  unfold State.circularNext
  dsimp only
  rw [Reception.findCircular_restartTimers, h]
  rfl

/-- The matching record is found with its timer started again (R73). -/
theorem Reception.findCircular_renewed {t : Reception} (h : t.findCircular f.origin f.number = some r) :
    (t.restartTimers f.origin).findCircular f.origin f.number = some r.renewed := by
  rw [Reception.findCircular_restartTimers, h]
  exact congrArg some (Record.restart_own (Reception.findCircular_same h).1)

theorem State.circularNext_short (h : s.recv.findCircular f.origin f.number = some r) (hf : s.store.free = 0) :
    s.circularNext f = if f.final then (s.restarted f.origin).closeCircular r.renewed (some .gap)
      else s.restarted f.origin := by
  have hshort : (s.store.shortage Config.reserveFurther false).isShort = true := by
    rw [← Bool.not_eq_false, Store.shortage_iff, hf]
    exact fun hn => absurd hn.1 (by decide)
  unfold State.circularNext
  dsimp only
  rw [Reception.findCircular_renewed h]
  exact if_pos hshort

theorem State.circularNext_stored (h : s.recv.findCircular f.origin f.number = some r) (hf : 1 ≤ s.store.free) :
    s.circularNext f = if f.final then (s.continuationStored r f).closeCircular (r.continued f) none
      else s.continuationStored r f := by
  have hroom : ¬ (s.store.shortage Config.reserveFurther false).isShort = true := by
    rw [Bool.not_eq_true, Store.shortage_iff]
    exact ⟨hf, nofun⟩
  unfold State.circularNext
  dsimp only
  rw [Reception.findCircular_renewed h]
  exact if_neg hroom

/-- A final continuation's record is gone, the others of the table are left (R74, R84). -/
theorem State.continuationClosed_circ (h : s.recv.findCircular f.origin f.number = some r) :
    ((s.continuationStored r f).closeCircular (r.continued f) none).recv.circ
      = (s.recv.restartTimers f.origin).circ.filter fun x => !sameRecord x f.origin f.number := by
  obtain ⟨ho, hn⟩ := Reception.findCircular_same h
  have hself : sameRecord (r.continued f) r.origin r.number = true := (sameRecord_iff _ _ _).mpr ⟨rfl, rfl⟩
  exact (filter_rewritten hself (s.recv.restartTimers f.origin).circ).trans (by rw [ho, hn])

theorem State.circularNext_only (h : s.recv.findCircular f.origin f.number = some r) :
    (s.restarted f.origin).circularOnly (s.circularNext f) := by
  rcases Nat.eq_zero_or_pos s.store.free with hf | hf
  · rw [State.circularNext_short h hf]
    split <;> rfl
  · rw [State.circularNext_stored h hf]
    split <;> rfl

end

/-- Settles O27: no record, a section stored with its gap, or no block for it. -/
theorem circularContinuationJudged : Obligations.CircularContinuationJudged := by
  intro f s hp hw hk hd hfirst hr hc hs
  have hx := exec_circularContinuation (s := s) ⟨hp, hr, hc, hs, hd⟩ hw hk hfirst
  cases hfind : s.recv.findCircular f.origin f.number with
  | none =>
    rw [State.circularNext_unknown (s := s.circularEnded f) hfind] at hx
    exact ⟨_, hx, rfl, rfl, rfl, rfl, rfl, s.circularEnded_clash f, rfl, rfl, rfl, rfl, fun _ => ⟨rfl, rfl, rfl, rfl⟩,
      nofun⟩
  | some x =>
    have honly := State.circularNext_only (s := s.circularEnded f) hfind
    obtain ⟨h1, h2, h3, h4, h5, h6, h7, h8, h9, h10⟩ := honly.leaves
    refine ⟨_, hx, h1, h2, h3, h4, h5, h6, h7, h8, h9, h10, fun hnone => ?_, fun r circ st hr hcirc hst => ?_⟩
    · cases hfind.symm.trans ((s.recv.findCircular_none_iff _ _).mpr hnone)
    · cases hr
      obtain ⟨ho, hn⟩ := Reception.findCircular_same hfind
      have hline : ((s.circularEnded f).circularNext f).line = (s.circularEnded f).line := honly.line_eq
      refine ⟨by rw [hline]; rfl, fun e e' he he' => ?_, fun hf hfin => ?_, fun hf hfin => ?_, fun hf hfin => ?_,
        fun hf hfin => ?_⟩
      · rw [hst, Store.storeSection_entry he] at he'
        cases he'
        refine ⟨rfl, ?_⟩
        rcases Nat.eq_zero_or_pos ((f.seq + 8 - x.next) % 8) with hg | hg
        · rw [if_pos hg]
          exact if_neg (Nat.not_lt_of_le (Nat.le_of_eq hg))
        · rw [if_neg (Nat.ne_of_gt hg)]
          exact if_pos hg
      · rw [State.circularNext_stored (s := s.circularEnded f) hfind hf, if_neg (ne_true_of_eq_false hfin)]
        refine ⟨rfl, hst.symm, ?_⟩
        rw [hcirc]
        exact List.map_congr_left fun y _ => if_congr ((sameRecord_iff _ _ _).trans (by rw [ho, hn])) rfl rfl
      · rw [State.circularNext_stored (s := s.circularEnded f) hfind hf, if_pos hfin]
        refine ⟨by rw [hst]; rfl, ?_, fun e he => ?_⟩
        · rw [hcirc]
          exact State.continuationClosed_circ (s := s.circularEnded f) hfind
        · rw [hst] at he
          exact State.closeRecord_noted (s := (s.circularEnded f).continuationStored x f) (r := x.continued f) he
      · rw [State.circularNext_short (s := s.circularEnded f) hfind hf, if_neg (ne_true_of_eq_false hfin)]
        exact ⟨rfl, rfl, hcirc.symm⟩
      · rw [State.circularNext_short (s := s.circularEnded f) hfind hf, if_pos hfin, State.closeCircular_incomplete]
        refine ⟨rfl, ?_, rfl⟩
        rw [hcirc, ← ho, ← hn]
        rfl

end Sys2Proof.Machine
end

section
/-! SUPPORT. The reports on the frame on line: the answer read by the sender that awaits it, the tries that are counted
up to a limit, and the abandonment that ends them (R20, R30, R101 to R107, R110, R111). -/
namespace Sys2Proof.Machine

/-! ### The answer read -/

/-- The sender that awaits an answer reports it with the line unit READY and IDLE (R30). -/
theorem State.answered_awaits {s : State} (h : s.panel.phase = .done) (ht : s.line.tx = .awaitAnswer)
    (report : State → State) : s.answered report = (report (s.withLine s.line.txIdle.readyRx)).settle := by
  rw [State.answered, State.acting_live (s.live_iff.mpr h), ht]
  rfl

/-- What is known of the state that settles is known of the answer. -/
theorem exec_settles {c : Instr} {s u v : State} (h : exec c s = .next u.settle) (hu : u = v) :
    exec c s = .next v.settle := hu ▸ h

/-! ### A try that is counted (R103, R104, R110) -/

/-- A report that counts a try of the frame on line: at the limit the frame is abandoned, below it the frame goes on as
the report says. -/
def State.countTry (s : State) (tried : Counts → Nat) (limit : Nat) (why : JournalReason) (notice : NoticeReason)
    (again : SendRec → SendRec) (againControl : ControlRec → ControlRec) : State :=
  match s.send.onLine with
  | .none => s
  | .message r =>
    if limit ≤ tried r.counts + 1 then s.abandonMessage r why (some notice)
    else s.withSend (s.send.updateMessage r.entry again)
  | .control i r =>
    if limit ≤ tried r.counts + 1 then s.abandonControl i r why notice
    else s.withSend (s.send.updateControl i againControl)

/-- WAIT counts up to 30 and delays the frame 2 s. -/
theorem State.reportWait_eq (s : State) : s.reportWait = s.countTry (·.waits) 30 .storeFull .storeFull
    (fun r => { r with phase := .delayed, delay := 2 * Config.second
                       counts := { r.counts with waits := r.counts.waits + 1 } })
    (fun r => { r with phase := .delayed, delay := 2 * Config.second
                       counts := { r.counts with waits := r.counts.waits + 1 } }) := rfl

/-- ENGAGED counts up to 24 and delays the frame 5 s. -/
theorem State.reportEngaged_eq (s : State) : s.reportEngaged = s.countTry (·.engageds) 24 .engaged .engaged
    (fun r => { r with phase := .delayed, delay := 5 * Config.second
                       counts := { r.counts with engageds := r.counts.engageds + 1 } })
    (fun r => { r with phase := .delayed, delay := 5 * Config.second
                       counts := { r.counts with engageds := r.counts.engageds + 1 } }) := rfl

/-- An unanswered try counts up to the limit of the settings and makes the frame READY again. -/
theorem State.reportNoAnswer_eq (s : State) : s.reportNoAnswer =
    s.countTry (·.tries) s.panel.settings.tryLimit .noAnswer .noAnswer
      (fun r => { r with phase := .ready, counts := { r.counts with tries := r.counts.tries + 1 } })
      (fun r => { r with phase := .ready, counts := { r.counts with tries := r.counts.tries + 1 } }) := rfl

section
variable {s : State} {tried : Counts → Nat} {limit : Nat} {why : JournalReason} {notice : NoticeReason}
  {again : SendRec → SendRec} {againControl : ControlRec → ControlRec}

theorem State.countTry_none (h : s.send.onLine = .none) :
    s.countTry tried limit why notice again againControl = s := by
  rw [State.countTry, h]

theorem State.countTry_message {r : SendRec} (h : s.send.onLine = .message r) (hn : tried r.counts + 1 < limit) :
    s.countTry tried limit why notice again againControl = s.withSend (s.send.updateMessage r.entry again) := by
  rw [State.countTry, h]
  exact if_neg (Nat.not_le_of_lt hn)

theorem State.countTry_messageLimit {r : SendRec} (h : s.send.onLine = .message r)
    (hn : limit ≤ tried r.counts + 1) :
    s.countTry tried limit why notice again againControl = s.abandonMessage r why (some notice) := by
  rw [State.countTry, h]
  exact if_pos hn

theorem State.countTry_control {i : Nat} {r : ControlRec} (h : s.send.onLine = .control i r)
    (hn : tried r.counts + 1 < limit) :
    s.countTry tried limit why notice again againControl = s.withSend (s.send.updateControl i againControl) := by
  rw [State.countTry, h]
  exact if_neg (Nat.not_le_of_lt hn)

theorem State.countTry_controlLimit {i : Nat} {r : ControlRec} (h : s.send.onLine = .control i r)
    (hn : limit ≤ tried r.counts + 1) :
    s.countTry tried limit why notice again againControl = s.abandonControl i r why notice := by
  rw [State.countTry, h]
  exact if_pos hn

end

theorem exec_wait {s : State} (h : s.panel.phase = .done) (ht : s.line.tx = .awaitAnswer) :
    exec .wait s = .next (State.reportWait (s.withLine s.line.txIdle.readyRx)).settle :=
  congrArg _ (State.answered_awaits h ht _)

theorem exec_engaged {s : State} (h : s.panel.phase = .done) (ht : s.line.tx = .awaitAnswer) :
    exec .engaged s = .next (State.reportEngaged (s.withLine s.line.txIdle.readyRx)).settle :=
  congrArg _ (State.answered_awaits h ht _)

/-- Settles O38: below its limit each answer delays the frame on line, at the limit it abandons it. -/
theorem delayAnswers : Obligations.DelayAnswers := by
  intro s h ht
  have hwait := exec_wait h ht
  have hengaged := exec_engaged h ht
  rw [State.reportWait_eq] at hwait
  rw [State.reportEngaged_eq] at hengaged
  refine ⟨fun c hc hr => ?none, fun r hr => ⟨fun hn => ?_, fun hn => ?_, fun hn => ?_, fun hn => ?_⟩,
    fun i r hr => ⟨fun hn => ?_, fun hn => ?_, fun hn => ?_, fun hn => ?_⟩⟩
  case none =>
    rcases hc with rfl | rfl
    · exact exec_settles hwait (State.countTry_none hr)
    · exact exec_settles hengaged (State.countTry_none hr)
  · exact exec_settles hwait (State.countTry_message hr (Nat.succ_lt_succ hn))
  · exact exec_settles hwait (State.countTry_messageLimit hr (Nat.succ_le_succ hn))
  · exact exec_settles hengaged (State.countTry_message hr (Nat.succ_lt_succ hn))
  · exact exec_settles hengaged (State.countTry_messageLimit hr (Nat.succ_le_succ hn))
  · exact exec_settles hwait (State.countTry_control hr (Nat.succ_lt_succ hn))
  · exact exec_settles hwait (State.countTry_controlLimit hr (Nat.succ_le_succ hn))
  · exact exec_settles hengaged (State.countTry_control hr (Nat.succ_lt_succ hn))
  · exact exec_settles hengaged (State.countTry_controlLimit hr (Nat.succ_le_succ hn))

theorem exec_collision {s : State} (h : s.panel.phase = .done) (ht : s.line.tx = .contend ∨ s.line.tx = .send) :
    exec .collision s = .next (State.reportNoAnswer (s.withLine s.line.txIdle.hunt)).settle := by
  refine (congrArg _ (State.acting_live (s.live_iff.mpr h) _)).trans ?_
  rw [s.line.driving_iff.mpr ht]
  rfl

theorem exec_answerGarbled {s : State} (h : s.panel.phase = .done) (ht : s.line.tx = .awaitAnswer) :
    exec .answerGarbled s = .next (State.reportNoAnswer (s.withLine s.line.txIdle.readyRx)).settle :=
  congrArg _ (State.answered_awaits h ht _)

theorem exec_answerWindowEnd {s : State} (h : s.panel.phase = .done) (hr : s.line.rx = .answer) :
    exec .answerWindowEnd s = .next (State.answerLost (s.withLine s.line.readyRx)).settle := by
  refine (congrArg _ (State.acting_live (s.live_iff.mpr h) _)).trans ?_
  rw [hr]
  rfl

/-- Settles O39: the three events bring the same report, each with its own state of the line unit. -/
theorem noAnswerCounts : Obligations.NoAnswerCounts := by
  refine ⟨fun c l s h hc => ?_, fun s h hr ht => ?_⟩
  · have hx : exec c s = .next (State.reportNoAnswer (s.withLine l)).settle := by
      rcases hc with ⟨rfl, ht, rfl⟩ | ⟨rfl, ht, rfl⟩ | ⟨rfl, ht, hr, rfl⟩
      · exact exec_collision h ht
      · exact exec_answerGarbled h ht
      · rw [exec_answerWindowEnd h hr, State.answerLost_awaits (s := s.withLine s.line.readyRx) ht]
        rfl
    rw [State.reportNoAnswer_eq] at hx
    exact ⟨fun hr => exec_settles hx (State.countTry_none hr),
      fun r hr => ⟨fun hn => exec_settles hx (State.countTry_message hr hn),
        fun hn => exec_settles hx (State.countTry_messageLimit hr hn)⟩,
      fun i r hr => ⟨fun hn => exec_settles hx (State.countTry_control hr hn),
        fun hn => exec_settles hx (State.countTry_controlLimit hr hn)⟩⟩
  · rw [exec_answerWindowEnd h hr, State.answerLost_other (s := s.withLine s.line.readyRx) ht]
    rfl

/-! ### Abandonment (R105, R110, R140) -/

theorem Keyboard.isComposing_iff (kb : Keyboard) (slot : Nat) :
    kb.isComposing slot = true ↔ kb.current = some slot ∧ kb.comp = .composing := by
  simp [Keyboard.isComposing]

/-- The loss of the message being composed closes the composer. -/
theorem Keyboard.loseMessage_composing {kb : Keyboard} {slot : Nat} (h : kb.current = some slot)
    (hc : kb.comp = .composing) : kb.loseMessage slot = { kb.close with current := none } := by
  rw [Keyboard.loseMessage, if_pos h, hc]

/-- The loss of the current message leaves a composer that does not compose it. -/
theorem Keyboard.loseMessage_current {kb : Keyboard} {slot : Nat} (h : kb.current = some slot)
    (hc : kb.comp ≠ .composing) : kb.loseMessage slot = { kb with current := none } := by
  rw [Keyboard.loseMessage, if_pos h]
  split
  · next hcomp => exact absurd hcomp hc
  · rfl

theorem Keyboard.loseMessage_other {kb : Keyboard} {slot : Nat} (h : kb.current ≠ some slot) :
    kb.loseMessage slot = kb := if_neg h

/-- An abandonment with a notice, block by block (R105). -/
theorem State.abandonMessage_eq (s : State) (r : SendRec) (why : JournalReason) (n : NoticeReason) :
    s.abandonMessage r why (some n) = { s with
      store := s.store.abandonEntry r.entry
      kb := s.kb.loseMessage r.entry
      bell := s.bell + (if s.kb.current = some r.entry ∧ s.kb.comp = .composing then 1 else 0)
      send := { s.send with
        sendList := refreshList (s.store.abandonEntry r.entry) [] (s.send.sendList.filter fun x => x.entry != r.entry) }
      print := s.print.place (.notSent r.number r.dest r.cls r.lastTried n)
      journal := s.journal.add .sendAbandoned
        { peer := some r.dest, number := some r.number, cls := some r.cls, sections := some r.done
          reason := some why } } := by
  unfold State.abandonMessage State.composerLoses
  simp only [Option.isSome_some, Bool.true_and, s.kb.isComposing_iff r.entry]
  split <;> rfl

/-- A control record that leaves the queue, with the reply watch it links to (R110, R111). -/
def Transmission.withoutControl (t : Transmission) (place : Nat) : Option Nat → Transmission
  | none => { t with control := t.control.eraseIdx place }
  | some slot => Transmission.dropWatch { t with control := t.control.eraseIdx place } slot

theorem Transmission.withoutControl_sendList (t : Transmission) (place : Nat) (watch : Option Nat) :
    (t.withoutControl place watch).sendList = t.sendList := by
  cases watch <;> rfl

/-- An abandoned control frame, block by block (R110). -/
theorem State.abandonControl_eq (s : State) (place : Nat) (r : ControlRec) (why : JournalReason) (n : NoticeReason) :
    s.abandonControl place r why n = { s with
      send := s.send.withoutControl place r.watch
      print := if r.kind = .who ∨ r.kind = .enquire then s.print.place (.controlNotSent r.kind r.dest n) else s.print
      journal := s.journal.add .sendAbandoned
        { peer := some r.dest, frame := some r.kind
          number := if r.kind = .release then some r.number else none, reason := some why } } := by
  unfold State.abandonControl Transmission.withoutControl
  cases r.watch <;> (dsimp only; split <;> rfl)

theorem exec_refuse {s : State} (h : s.panel.phase = .done) (ht : s.line.tx = .awaitAnswer) :
    exec .refuse s = .next (State.reportRefuse (s.withLine s.line.txIdle.readyRx)).settle :=
  congrArg _ (State.answered_awaits h ht _)

/-- Settles O40: nothing on line, a message abandoned, or a control frame. -/
theorem refuseAbandons : Obligations.RefuseAbandons := by
  intro s h ht
  rw [exec_refuse h ht, State.reportRefuse, State.withLine_send]
  cases hr : s.send.onLine with
  | none => exact ⟨_, rfl, rfl, rfl, rfl, rfl, fun _ => rfl, nofun, nofun⟩
  | message r =>
    refine ⟨_, rfl, ?_⟩
    dsimp only
    rw [State.abandonMessage_eq]
    refine ⟨rfl, rfl, rfl, rfl, nofun, fun _ hx => ?_, nofun⟩
    cases hx
    exact ⟨rfl, Keyboard.loseMessage_composing, Keyboard.loseMessage_current, Keyboard.loseMessage_other, rfl, rfl,
      rfl, rfl⟩
  | control i r =>
    refine ⟨_, rfl, ?_⟩
    dsimp only
    rw [State.abandonControl_eq]
    refine ⟨rfl, rfl, rfl, rfl, nofun, nofun, fun _ _ hx => ?_⟩
    cases hx
    refine ⟨rfl, rfl, rfl, Transmission.withoutControl_sendList _ _ _, fun hw => ?_, fun p hw => ?_, rfl, rfl⟩
    · rw [hw]
      exact ⟨rfl, rfl⟩
    · rw [hw]
      exact ⟨rfl, rfl⟩

end Sys2Proof.Machine
end

section
/-! SUPPORT. A frame that is done: the records of the send list that become READY, the message SENT, and the control
record that leaves its queue (R98, R100, R102, R110 to R112). -/
namespace Sys2Proof.Machine

/-! ### The send list judged again (R98, R100) -/

theorem sectionReleased_iff (st : Store) (r : SendRec) :
    sectionReleased st r = true ↔ ∃ e, st.entry r.entry = some e ∧ r.done < e.sections := by
  unfold sectionReleased
  cases st.entry r.entry <;> simp

/-- A record as the list is judged: `earlier` are the destinations of the records before it. -/
def SendRec.judged (st : Store) (earlier : List Nat) (r : SendRec) : SendRec :=
  if r.phase = .pending ∧ r.dest ∉ earlier ∧ sectionReleased st r = true then
    { r with phase := .ready, counts := Counts.zero }
  else r

theorem refreshList_cons (st : Store) (seen : List Nat) (r : SendRec) (l : List SendRec) :
    refreshList st seen (r :: l) = r.judged st seen :: refreshList st (r.dest :: seen) l := by
  simp [refreshList, SendRec.judged]

/-- Only the destinations seen before a record matter, not their order. -/
theorem SendRec.judged_congr (st : Store) {xs ys : List Nat} (r : SendRec) (h : ∀ d, d ∈ xs ↔ d ∈ ys) :
    r.judged st xs = r.judged st ys := by
  simp only [SendRec.judged, h]

theorem refreshList_getElem? (st : Store) (l : List SendRec) (seen : List Nat) (i : Nat) :
    (refreshList st seen l)[i]? = l[i]?.map (SendRec.judged st ((l.take i).map (·.dest) ++ seen)) := by
  induction l generalizing seen i with
  | nil => rfl
  | cons r l ih =>
    rw [refreshList_cons]
    cases i with
    | zero => rfl
    | succ i =>
      rw [List.getElem?_cons_succ, List.getElem?_cons_succ, ih]
      refine congrFun (congrArg _ (funext fun x => x.judged_congr st fun d => ?_)) _
      simp [or_left_comm]

/-- The record at a place becomes READY when R98 and R100 say so, and stays as it is otherwise. -/
theorem refreshList_becomesReady (st : Store) (l : List SendRec) (i : Nat) (r : SendRec) (h : l[i]? = some r) :
    (becomesReady st l i r → (refreshList st [] l)[i]? = some { r with phase := .ready, counts := Counts.zero }) ∧
    (¬ becomesReady st l i r → (refreshList st [] l)[i]? = some r) := by
  have hready : r.phase = .pending ∧ r.dest ∉ (l.take i).map (·.dest) ++ [] ∧ sectionReleased st r = true ↔
      becomesReady st l i r := by
    rw [sectionReleased_iff]
    simp [becomesReady, -List.map_take]
  rw [refreshList_getElem?, h, Option.map_some, SendRec.judged]
  exact ⟨fun hr => congrArg some (if_pos (hready.mpr hr)), fun hr => congrArg some (if_neg (mt hready.mp hr))⟩

/-! ### The frame done -/

theorem LineUnit.sends_circular {l : LineUnit} {f : Frame} (h : l.tx = .send) (hf : l.outFrame = some f)
    (hd : f.dest = 0) : l.sends true = true := by
  simp [LineUnit.sends, h, hf, isCircular, hd]

/-- ACCEPT, DUPLICATE and the circular frame completed bring one report (R102, R110, R112). -/
theorem exec_frameDone {c : Instr} {s : State} (h : s.panel.phase = .done)
    (hc : s.line.tx = .awaitAnswer ∧ (c = .accept ∨ c = .duplicate) ∨
      s.line.tx = .send ∧ c = .circularFrameCompleted ∧ ∃ f, s.line.outFrame = some f ∧ f.dest = 0) :
    exec c s = .next (State.reportDone (s.withLine s.line.txIdle.readyRx)).settle := by
  rcases hc with ⟨ht, rfl | rfl⟩ | ⟨ht, rfl, f, hf, hd⟩
  · exact congrArg _ (State.answered_awaits h ht _)
  · exact congrArg _ (State.answered_awaits h ht _)
  · refine (congrArg _ (State.acting_live (s.live_iff.mpr h) _)).trans ?_
    rw [LineUnit.sends_circular ht hf hd]
    rfl

section
variable {s : State} {r : SendRec}

theorem State.reportDone_none (h : s.send.onLine = .none) : s.reportDone = s := by
  rw [State.reportDone, h]

/-- A control record leaves its queue, and the reply watch of a request begins to run (R110, R111). -/
theorem State.reportDone_control {i : Nat} {r : ControlRec} (h : s.send.onLine = .control i r) :
    s.reportDone = { s with send := { s.send with
      control := s.send.control.eraseIdx i
      watch := match r.watch with
        | none => s.send.watch
        | some slot => s.send.watch.map fun x =>
          if x.slot = slot ∧ x.timer = none then { x with timer := some (10 * Config.second) } else x } } := by
  rw [State.reportDone, h]
  dsimp only
  cases r.watch <;> rfl

/-- A section that is not final is done, and the send list is judged again (R102). -/
theorem State.reportDone_section (h : s.send.onLine = .message r) (hf : isFinalSection s.store r = false) :
    s.reportDone = { s with send := { s.send with sendList := refreshList s.store [] (s.send.sendList.map fun x =>
      if x.entry = r.entry then
        { x with phase := .pending, done := x.done + 1, counts := Counts.zero, delay := 0 }
      else x) } } := by
  rw [State.reportDone, h]
  exact if_neg (ne_true_of_eq_false hf)

/-- With its final section done the message is SENT (R102). -/
theorem State.reportDone_final (h : s.send.onLine = .message r) (hf : isFinalSection s.store r = true) :
    s.reportDone = s.messageSent r := by
  rw [State.reportDone, h]
  exact if_pos hf

end

/-- Settles O37: the list judged again place by place, then the report by what is on line. -/
theorem frameDone : Obligations.FrameDone := by
  refine ⟨fun st l => ⟨refreshList_length st [] l, refreshList_becomesReady st l⟩, fun c s h hc => ?_⟩
  have hx := exec_frameDone h hc
  cases hr : s.send.onLine with
  | none =>
    exact ⟨_, exec_settles hx (State.reportDone_none hr), rfl, rfl, rfl, rfl, rfl, rfl, rfl, fun _ => rfl, nofun,
      nofun, nofun⟩
  | control i r =>
    refine ⟨_, exec_settles hx (State.reportDone_control hr), rfl, rfl, rfl, rfl, rfl, rfl, rfl, nofun,
      fun _ _ hy => ?_, nofun, nofun⟩
    cases hy
    rfl
  | message r =>
    cases hf : isFinalSection s.store r with
    | false =>
      refine ⟨_, exec_settles hx (State.reportDone_section hr hf), rfl, rfl, rfl, rfl, rfl, rfl, rfl, nofun, nofun,
        fun _ hy _ => ?_, fun _ hy hfin => ?_⟩
      · cases hy
        rfl
      · cases hy
        cases hf.symm.trans hfin
    | true =>
      refine ⟨_, exec_settles hx (State.reportDone_final hr hf), rfl, rfl, rfl, rfl, rfl, rfl, rfl, nofun, nofun,
        fun _ hy hnot => ?_, fun _ hy _ => ?_⟩
      · cases hy
        cases hf.symm.trans hnot
      · cases hy
        exact ⟨rfl, rfl, rfl, rfl, rfl⟩

end Sys2Proof.Machine
end

section
/-! SUPPORT. BREAK: the RELEASE of a broken message, its abandonment and the keystroke queue emptied (R113 to R116,
R137, R140). -/
namespace Sys2Proof.Machine

/-! ### The RELEASE (R115, R116) -/

section
variable {t : Transmission} {r : SendRec}

/-- With no section done, or no room in the control queue, no RELEASE is queued. -/
theorem Transmission.breakRelease_stays (h : r.done = 0 ∨ 6 ≤ t.control.length) : (t.breakRelease r).1 = t := by
  unfold Transmission.breakRelease
  split
  · rfl
  · next hd => rw [(t.queueControl_none _ _ _ _ _).mpr (h.resolve_left hd)]

/-- The RELEASE takes the next control sequence at the tail of the queue. -/
theorem Transmission.breakRelease_queued (hd : r.done ≠ 0) (h : t.control.length < 6) :
    (t.breakRelease r).1 = { t with
    control := t.control ++ [{ kind := .release, dest := r.dest, seq := t.seqCounter, number := r.number, text := []
                               phase := .ready, counts := Counts.zero, delay := 0, watch := none }]
    seqCounter := (t.seqCounter + 1) % 8 } := by
  rw [Transmission.breakRelease, if_neg hd]
  cases hq : t.queueControl .release r.dest r.number [] none with
  | none => exact absurd h (Nat.not_lt.mpr ((t.queueControl_none _ _ _ _ _).mp hq))
  | some u => exact (t.queueControl_some u _ _ _ _ _ hq).2

/-- Only a RELEASE that is called for and finds no room changes the notice's reason. -/
theorem Transmission.breakRelease_reason :
    (t.breakRelease r).2 = if r.done ≠ 0 ∧ 6 ≤ t.control.length then .breakNoRelease else .break := by
  unfold Transmission.breakRelease
  by_cases hd : r.done = 0
  · simp [hd]
  · cases hq : t.queueControl .release r.dest r.number [] none with
    | none => simp [hd, (t.queueControl_none _ _ _ _ _).mp hq]
    | some u => simp [hd, (t.queueControl_some u _ _ _ _ _ hq).1]

end

/-- The send list, the reply watch and the message numbers are as they were. -/
theorem Transmission.breakRelease_leaves (t : Transmission) (r : SendRec) :
    (t.breakRelease r).1.sendList = t.sendList ∧ (t.breakRelease r).1.watch = t.watch ∧
    (t.breakRelease r).1.msgCounter = t.msgCounter := by
  by_cases h : r.done = 0 ∨ 6 ≤ t.control.length
  · rw [Transmission.breakRelease_stays h]
    exact ⟨rfl, rfl, rfl⟩
  · obtain ⟨hd, hl⟩ := not_or.mp h
    rw [Transmission.breakRelease_queued hd (Nat.lt_of_not_le hl)]
    exact ⟨rfl, rfl, rfl⟩

/-! ### The key -/

theorem State.currentRecord_entry {s : State} {r : SendRec} (h : s.currentRecord = some r) :
    s.kb.current = some r.entry := by
  unfold State.currentRecord at h
  split at h
  · cases h
  · next slot hc =>
    have hr := List.find?_some h
    rw [hc, beq_iff_eq.mp hr]

/-- BREAK's part of the message, block by block (R114, R115, R137). -/
theorem State.breakMessage_eq (s : State) (r : SendRec) : s.breakMessage r = { s with
    line := if r.phase = .onLine then s.line.cut else s.line
    store := s.store.abandonEntry r.entry
    kb := (s.kb.loseMessage r.entry).emptyQueue
    bell := s.bell + (if s.kb.current = some r.entry ∧ s.kb.comp = .composing then 1 else 0)
    send := { (s.send.breakRelease r).1 with
      sendList := refreshList (s.store.abandonEntry r.entry) [] (s.send.sendList.filter fun x => x.entry != r.entry) }
    print := s.print.place (.notSent r.number r.dest r.cls r.lastTried (s.send.breakRelease r).2)
    journal := s.journal.add .sendAbandoned
      { peer := some r.dest, number := some r.number, cls := some r.cls, sections := some r.done
        reason := some .break } } := by
  unfold State.breakMessage
  dsimp only
  rw [State.abandonMessage_eq, State.withSend_send, (s.send.breakRelease_leaves r).1]
  rfl

/-- The keyboard unit after BREAK took the current message. -/
theorem Keyboard.broken_fields {kb : Keyboard} {slot : Nat} (h : kb.current = some slot) :
    let broken := (kb.loseMessage slot).emptyQueue
    broken.queue = [] ∧ broken.hold = .none ∧ broken.current = none ∧ broken.handed = kb.handed ∧
    (kb.comp = .composing → broken.comp = .lineIdle ∧ broken.dest = none ∧ broken.idleTimer = none ∧
      broken.autoEnd = none) ∧
    (kb.comp ≠ .composing → broken.comp = kb.comp ∧ broken.dest = kb.dest) := by
  by_cases hc : kb.comp = .composing
  · rw [Keyboard.loseMessage_composing h hc]
    exact ⟨rfl, rfl, rfl, rfl, fun _ => ⟨rfl, rfl, rfl, rfl⟩, fun hn => absurd hc hn⟩
  · rw [Keyboard.loseMessage_current h hc]
    exact ⟨rfl, rfl, rfl, rfl, fun hy => absurd hy hc, fun _ => ⟨rfl, rfl⟩⟩

theorem State.takeBreak_none {s : State} (h : s.kb.current = none) : s.takeBreak = s.ring := by
  rw [State.takeBreak, State.currentRecord, h]

theorem State.takeBreak_message {s : State} {r : SendRec} (h : s.currentRecord = some r) :
    s.takeBreak = s.breakMessage r := by
  rw [State.takeBreak, h]

theorem exec_breakKey {s : State} (h : s.panel.phase = .done) :
    exec .breakKey s = .next (s.takeHanded .breakKey).takeBreak.settle :=
  congrArg _ (State.acting_live (s.live_iff.mpr h) _)

/-- Settles O50: the bell without a current message, else the message's abandonment part by part. -/
theorem breakKey : Obligations.BreakKey := by
  intro s h
  have hx := exec_breakKey h
  have hleaves := s.takeHanded_leaves .breakKey
  refine ⟨fun hc => ⟨_, hleaves, exec_settles hx (State.takeBreak_none (s := s.takeHanded .breakKey) hc)⟩,
    fun r hr => ?_⟩
  obtain ⟨hqueue, hhold, hcurrent, hhanded, hclosed, hother⟩ :=
    Keyboard.broken_fields (kb := (s.takeHanded .breakKey).kb) (State.currentRecord_entry hr)
  obtain ⟨-, hwatch, hnumber⟩ := s.send.breakRelease_leaves r
  refine ⟨_, exec_settles hx ((State.takeBreak_message (s := s.takeHanded .breakKey) hr).trans
    (State.breakMessage_eq _ r)), rfl, rfl, rfl, rfl, rfl, hhanded ▸ hleaves, hqueue, hhold, hcurrent,
    fun hc => ?composing, fun hc => ?other, rfl, hwatch, hnumber, fun hn => ?stays, fun hd hl => ?queued, ?notice, rfl⟩
  case composing =>
    obtain ⟨hcomp, hdest, hidle, hauto⟩ := hclosed hc
    exact ⟨hcomp, hdest, hidle, hauto, congrArg (s.bell + ·) (if_pos ⟨State.currentRecord_entry hr, hc⟩)⟩
  case other =>
    obtain ⟨hcomp, hdest⟩ := hother hc
    exact ⟨hcomp, hdest, congrArg (s.bell + ·) (if_neg fun h => hc h.2)⟩
  case stays =>
    have hstays := Transmission.breakRelease_stays (t := s.send) hn
    exact ⟨congrArg (·.control) hstays, congrArg (·.seqCounter) hstays⟩
  case queued =>
    have hqueued := Transmission.breakRelease_queued (t := s.send) hd hl
    exact ⟨congrArg (·.seqCounter) hqueued, congrArg (·.control) hqueued⟩
  case notice =>
    exact congrArg (fun n => s.print.place (.notSent r.number r.dest r.cls r.lastTried n))
      Transmission.breakRelease_reason

end Sys2Proof.Machine
end

section
/-! SUPPORT. What one cell does to the timers: W of the frames that wait, every running timer, and the expiries that
join the queue (R45, R73, R93, R100, R103, R111, R131, R133, R146, R152, R189, R197; logs 1, 25, 26, 40). -/
namespace Sys2Proof.Machine

/-! ### The state with every timer moved -/

/-- W after a cell, as the line's conditions stand while it passes (R45; log 40). -/
def State.older (s : State) (c : Counts) (p : Phase) : Counts :=
  if (p = .ready ∨ p = .onLine) ∧ s.line.lineFault = false ∧ s.line.clash = false then
    { c with w := min 65535 (c.w + 1) }
  else c

theorem State.waitCells_eq (s : State) : s.waitCells = { s with send := { s.send with
    sendList := s.send.sendList.map fun r => { r with counts := s.older r.counts r.phase }
    control := s.send.control.map fun r => { r with counts := s.older r.counts r.phase } } } := by
  unfold State.waitCells
  by_cases h : s.line.lineFault = true ∨ s.line.clash = true
  · have hstill (c : Counts) (p : Phase) : s.older c p = c :=
      if_neg fun ⟨_, hf, hc⟩ => h.elim (Bool.eq_false_iff.mp hf) (Bool.eq_false_iff.mp hc)
    simp [h, hstill]
  · have hwait (c : Counts) (p : Phase) : c.waitCell p = s.older c p := by
      obtain ⟨hf, hc⟩ := not_or.mp h
      simp [Counts.waitCell, State.older, hf, hc, Config.maxWaiting]
    rw [if_neg h]
    simp only [hwait]
    rfl

/-- The state in which the timers are judged at the end of a cell. -/
def State.aged (s : State) : State := (s.counted.lineCell s.line.drives s.nextLevel).1.ageTimers s.cellTime

theorem State.tickLive_aged (s : State) : s.tickLive = { s.aged with pending := s.tickLive.pending } := by
  unfold State.tickLive State.aged
  rw [State.passCell_eq]

/-- The cell reaches the line unit and the timers alone, and leaves the latch. -/
theorem State.aged_eq (s : State) : ∃ l : LineUnit, l.latch = s.line.latch ∧
    s.aged = State.ageTimers { s.waitCells with line := l, cell := s.cell + 1 } s.cellTime := by
  obtain ⟨a, cells, sent, win, answer, h⟩ := s.counted.lineCell_moves s.line.drives s.nextLevel
  refine ⟨_, ?_, congrArg (State.ageTimers · s.cellTime) h⟩
  rfl

theorem State.aged_send (s : State) : s.aged.send = { s.send with
    sendList := s.send.sendList.map fun r => { r with
      counts := s.older r.counts r.phase, delay := r.delay - s.cellTime }
    control := s.send.control.map fun r => { r with
      counts := s.older r.counts r.phase, delay := r.delay - s.cellTime }
    watch := s.send.watch.map fun r => { r with timer := r.timer.map fun n => n - s.cellTime } } := by
  obtain ⟨l, -, h⟩ := s.aged_eq
  rw [h, State.waitCells_eq]
  simp [State.ageTimers, Function.comp_def]

theorem State.aged_recv (s : State) : s.aged.recv = { s.recv with
    hold := s.recv.hold.map fun r => { r with timer := r.timer - s.cellTime }
    circ := s.recv.circ.map fun r => { r with timer := r.timer - s.cellTime } } := by
  obtain ⟨l, -, h⟩ := s.aged_eq
  rw [h, State.waitCells_eq]
  rfl

theorem State.aged_kb (s : State) : s.aged.kb = { s.kb with
    idleTimer := s.kb.idleTimer.map fun n => n + s.cellTime
    autoEnd := s.kb.autoEnd.map fun n => n + s.cellTime } := by
  obtain ⟨l, -, h⟩ := s.aged_eq
  rw [h, State.waitCells_eq]
  rfl

theorem PrintUnit.idling_iff (p : PrintUnit) : p.idling = true ↔ p.motor = .running ∧ p.flight = .none := by
  simp [PrintUnit.idling]

theorem State.aged_print (s : State) : s.aged.print = { s.print with
    motorIdle := if s.print.motor = .running ∧ s.print.flight = .none then s.print.motorIdle + s.cellTime
      else s.print.motorIdle
    echoIdle := s.print.echoIdle.map fun n => n + s.cellTime } := by
  obtain ⟨l, -, h⟩ := s.aged_eq
  rw [h, State.waitCells_eq]
  simp only [← PrintUnit.idling_iff]
  rfl

theorem State.aged_journal (s : State) : s.aged.journal =
    { s.journal with divider := s.journal.divider.map fun n => n - s.cellTime } := by
  obtain ⟨l, -, h⟩ := s.aged_eq
  rw [h, State.waitCells_eq]
  rfl

theorem State.aged_panel (s : State) : s.aged.panel = { s.panel with flashLeft := s.panel.flashLeft - s.cellTime } := by
  obtain ⟨l, -, h⟩ := s.aged_eq
  rw [h, State.waitCells_eq]
  rfl

/-- The store, the punch and the bell know no timer. -/
theorem State.aged_leaves (s : State) : s.aged.store = s.store ∧ s.aged.punch = s.punch ∧ s.aged.bell = s.bell ∧
    s.aged.line.latch = s.line.latch := by
  obtain ⟨l, hl, h⟩ := s.aged_eq
  rw [h, State.waitCells_eq]
  exact ⟨rfl, rfl, rfl, hl⟩

/-! ### The commands of the cell are no expiries -/

/-- The rows of the table that a timer brings. -/
def isExpiry : Instr → Bool
  | .delayTimerExpiry _ => true
  | .recordTimerExpiry _ => true
  | .replyWatchExpiry _ => true
  | .idleReleaseExpiry => true
  | .autoEndExpiry => true
  | .motorIdleExpiry => true
  | .echoIdleExpiry => true
  | .dayClockDividerExpiry => true
  | .lampFlash => true
  | _ => false

def noExpiries (cs : List Instr) : Prop := ∀ c ∈ cs, isExpiry c = false

theorem noExpiries_nil : noExpiries [] := List.forall_mem_nil _

theorem noExpiries_one {c : Instr} (h : isExpiry c = false) : noExpiries [c] := List.forall_mem_singleton.mpr h

theorem noExpiries.append {cs ds : List Instr} (hc : noExpiries cs) (hd : noExpiries ds) : noExpiries (cs ++ ds) :=
  List.forall_mem_append.mpr ⟨hc, hd⟩

theorem noExpiries.ite {cs ds : List Instr} (hc : noExpiries cs) (hd : noExpiries ds) (p : Prop) [Decidable p] :
    noExpiries (if p then cs else ds) := by
  split
  · exact hc
  · exact hd

theorem State.frameRow_noExpiry (s : State) (f : Frame) : isExpiry (s.frameRow f) = false := by
  unfold State.frameRow
  split
  · rfl
  · split
    · split
      · rfl
      · split <;> rfl
    all_goals rfl

theorem State.judgeUnit_noExpiries (s : State) (us : List Byte) : noExpiries (s.judgeUnit us) := by
  unfold State.judgeUnit
  refine .ite (noExpiries_one rfl) (.ite (.ite ?_ (noExpiries_one rfl) _) noExpiries_nil _) _
  split
  · exact noExpiries_one (s.commandOfFrame_eq _ ▸ s.frameRow_noExpiry _)
  · exact noExpiries_one rfl

theorem commandOfAnswer_noExpiry (c : Option AnswerCode) : isExpiry (commandOfAnswer c) = false := by
  cases c with
  | none => rfl
  | some c => cases c <;> rfl

theorem LineUnit.judgeAnswerUnits_noExpiries (l : LineUnit) (us : List Byte) : noExpiries (l.judgeAnswerUnits us) := by
  unfold LineUnit.judgeAnswerUnits
  split
  · refine .ite ?_ (noExpiries_one rfl) _
    split
    · exact noExpiries_one (commandOfAnswer_noExpiry _)
    · exact noExpiries_one rfl
  · exact noExpiries_nil

theorem LineUnit.echoEvents_noExpiries (l : LineUnit) (drove read : Level) : noExpiries (l.echoEvents drove read) := by
  unfold LineUnit.echoEvents
  refine .ite (.ite (noExpiries_one rfl) (noExpiries_one rfl) _)
    (.append (.ite (noExpiries_one rfl) noExpiries_nil _) (.ite ?_ noExpiries_nil _)) _
  split
  · exact .ite (noExpiries_one rfl) (noExpiries_one rfl) _
  · exact noExpiries_one rfl

theorem LineUnit.answerEcho_noExpiries (l : LineUnit) (drove read : Level) :
    noExpiries (l.answerEcho drove read).2 := by
  unfold LineUnit.answerEcho
  split
  · exact noExpiries_one rfl
  · exact .ite (noExpiries_one rfl) noExpiries_nil _

theorem State.frameEvents_noExpiries (s : State) (e : UnitEvent) (us : List Byte) :
    noExpiries (s.frameEvents e us) := by
  cases e with
  | nothing => exact .ite (noExpiries_one rfl) noExpiries_nil _
  | unit => exact s.judgeUnit_noExpiries us
  | framingError => exact noExpiries_one rfl
  | truncation => exact noExpiries_one rfl

theorem State.answerEvents_noExpiries (s : State) (e : UnitEvent) (a : Assembly) : noExpiries (s.answerEvents e a) := by
  cases e with
  | nothing => exact .ite (noExpiries_one rfl) (.ite (noExpiries_one rfl) noExpiries_nil _) _
  | unit => exact s.line.judgeAnswerUnits_noExpiries _
  | framingError => exact noExpiries_one rfl
  | truncation => exact noExpiries_one rfl

/-- What the receiver and the transmitter make of a cell, by the state of the line unit. -/
theorem State.lineCell_noExpiries (s : State) (drove read : Level) : noExpiries (s.lineCell drove read).2 := by
  cases hd : s.line.driving with
  | true =>
    rw [State.lineCell_own hd]
    exact s.line.echoEvents_noExpiries drove read
  | false =>
    cases hx : s.line.rx with
    | hunt =>
      rw [State.lineCell_hunt hd hx]
      exact noExpiries_nil
    | ready =>
      rw [State.lineCell_ready hd hx]
      exact .ite (noExpiries_one rfl) noExpiries_nil _
    | frame =>
      rw [State.lineCell_frame hd hx]
      exact s.frameEvents_noExpiries _ _
    | answer =>
      cases ha : s.line.answering with
      | true =>
        rw [State.lineCell_answering hd hx ha]
        exact LineUnit.answerEcho_noExpiries _ _ _
      | false =>
        rw [State.lineCell_answer hd hx ha]
        exact State.answerEvents_noExpiries _ _ _

theorem State.countEvents_noExpiries (s : State) (before : LineUnit) : noExpiries (s.countEvents before) := by
  unfold State.countEvents
  exact .append (.append (.ite (noExpiries_one rfl) noExpiries_nil _) (.ite (noExpiries_one rfl) noExpiries_nil _))
    (.ite (noExpiries_one rfl) noExpiries_nil _)

/-- An expiry in the queue after the cell is that of a timer. -/
theorem State.mem_tickLive_expiry {s : State} {c : Instr} (hc : isExpiry c = true) :
    c ∈ s.tickLive.pending ↔ c ∈ s.aged.timerEvents s := by
  have hcell := (s.counted.lineCell_noExpiries s.line.drives s.nextLevel).append
    (s.counted.countEvents_noExpiries s.line)
  rw [State.tickLive_pending, List.mem_append]
  refine or_iff_left fun hm => ?_
  rw [hcell c hm] at hc
  cases hc

/-! ### The expiries due -/

theorem mem_delayedControls (c : Instr) (rs : List ControlRec) (n : Nat) : c ∈ delayedControls n rs ↔
    ∃ i r, rs[i]? = some r ∧ r.phase = .delayed ∧ r.delay = 0 ∧ c = .delayTimerExpiry (.control (n + i)) := by
  induction rs generalizing n with
  | nil => simp [delayedControls]
  | cons r rs ih =>
    rw [delayedControls, List.mem_append, ih]
    constructor
    · rintro (h | ⟨i, x, hx, hp, hd, rfl⟩)
      · rw [List.mem_ite_nil_right, List.mem_singleton] at h
        exact ⟨0, r, rfl, h.1.1, h.1.2, h.2⟩
      · exact ⟨i + 1, x, hx, hp, hd, by rw [Nat.add_right_comm, Nat.add_assoc]⟩
    · rintro ⟨_ | i, x, hx, hp, hd, rfl⟩
      · cases hx
        exact .inl (by simp [hp, hd])
      · exact .inr ⟨i, x, hx, hp, hd, by rw [Nat.add_right_comm, Nat.add_assoc]⟩

theorem reached_iff (timer : Option Nat) (limit : Nat) :
    reached timer limit = true ↔ ∃ n, timer = some n ∧ limit ≤ n := by
  cases timer <;> simp [reached]

/-- Every expiry that the timers of a state bring, `before` being the state before the cell. -/
theorem State.mem_timerEvents (s before : State) (c : Instr) : c ∈ s.timerEvents before ↔
    (∃ r ∈ s.send.sendList, r.phase = .delayed ∧ r.delay = 0 ∧ c = .delayTimerExpiry (.message r.entry)) ∨
    (∃ i r, s.send.control[i]? = some r ∧ r.phase = .delayed ∧ r.delay = 0 ∧
      c = .delayTimerExpiry (.control i)) ∨
    ((∃ r, s.recv.hold = some r ∧ r.timer = 0) ∧ c = .recordTimerExpiry .hold) ∨
    (∃ r ∈ s.recv.circ, r.timer = 0 ∧ c = .recordTimerExpiry (.circular r.origin r.number)) ∨
    (∃ r ∈ s.send.watch, r.timer = some 0 ∧ c = .replyWatchExpiry r.slot) ∨
    ((∃ n, s.kb.idleTimer = some n ∧ s.idleThreshold ≤ n) ∧ (∃ slot, s.releasable = some slot) ∧
      c = .idleReleaseExpiry) ∨
    ((∃ n, s.kb.autoEnd = some n ∧ Config.autoEndTime ≤ n) ∧ s.kb.comp = .composing ∧ c = .autoEndExpiry) ∨
    (s.print.motor = .running ∧ s.print.flight = .none ∧
      motorIdleTime s.panel.settings s.panel.attended ≤ s.print.motorIdle ∧ c = .motorIdleExpiry) ∨
    ((∃ n, s.print.echoIdle = some n ∧ Config.echoIdleTime ≤ n) ∧
      (¬ ∃ n, before.print.echoIdle = some n ∧ Config.echoIdleTime ≤ n) ∧ c = .echoIdleExpiry) ∨
    (s.journal.divider = some 0 ∧ c = .dayClockDividerExpiry) ∨
    (s.panel.flashLeft = 0 ∧ c = .lampFlash) := by
  simp only [← reached_iff, State.timerEvents, List.mem_append, mem_delayedControls, List.mem_ite_nil_right,
    List.mem_singleton, List.mem_map, List.mem_filter, Bool.and_eq_true, beq_iff_eq, PrintUnit.idling_iff, or_assoc,
    and_assoc, Nat.zero_add, eq_comm (b := c), Option.map_eq_some_iff, Option.isSome_iff_exists, Bool.not_eq_true,
    ge_iff_le]

theorem State.aged_idleThreshold (s : State) : s.aged.idleThreshold = s.idleThreshold := by
  obtain ⟨-, -, -, hl⟩ := s.aged_leaves
  simp only [State.idleThreshold, State.releaseTime, hl, State.aged_panel]

theorem State.aged_releasable (s : State) (slot : Nat) :
    s.aged.releasable = some slot ↔ s.releasable = some slot := by
  obtain ⟨hs, -, -, -⟩ := s.aged_leaves
  rw [State.releasable_iff, State.releasable_iff, hs, State.aged_kb]

/-- The idle release comes due for an open block with codes (R131). -/
theorem State.idleRelease_due (s : State) (dt : Nat) :
    ((∃ n, s.kb.idleTimer = some n ∧ s.idleThreshold ≤ n + dt) ∧ ∃ slot, s.releasable = some slot) ↔
    ∃ n slot c cs, s.kb.idleTimer = some n ∧ s.idleThreshold ≤ n + dt ∧ s.kb.comp = .composing ∧
      s.kb.current = some slot ∧ s.store.openCodes slot = some (c :: cs) := by
  simp only [State.releasable_iff]
  constructor
  · rintro ⟨⟨n, hn, ht⟩, slot, hcomp, hcur, c, cs, hx⟩
    exact ⟨n, slot, c, cs, hn, ht, hcomp, hcur, hx⟩
  · rintro ⟨n, slot, c, cs, hn, ht, hcomp, hcur, hx⟩
    exact ⟨⟨n, hn, ht⟩, slot, hcomp, hcur, c, cs, hx⟩

/-! ### The expiry rows -/

theorem exec_delayTimerExpiry {s : State} (h : s.panel.phase = .done) (r : DelayRef) :
    exec (.delayTimerExpiry r) s = .next (s.withSend (s.send.delayExpired r)) :=
  congrArg _ (State.whenLive_live (s.live_iff.mpr h) _)

/-- A delay that expires returns the section of its message to READY (R103). -/
theorem Transmission.delayExpired_message (t : Transmission) (n : Nat) : t.delayExpired (.message n) = { t with
    sendList := t.sendList.map fun x =>
      if x.entry = n ∧ x.phase = .delayed then { x with phase := .ready, delay := 0 } else x } := by
  simp only [Transmission.delayExpired, Transmission.updateMessage, ite_and]

theorem exec_replyWatchExpiry_running {s : State} {n : Nat} {r : WatchRec} (h : s.panel.phase = .done)
    (hr : s.send.running n = some r) : exec (.replyWatchExpiry n) s =
    .next ((s.withSend (s.send.dropWatch n)).notice (.noReply r.peer)).settle := by
  refine (congrArg _ (State.acting_live (s.live_iff.mpr h) _)).trans ?_
  rw [hr]

theorem exec_replyWatchExpiry_none {s : State} {n : Nat} (h : s.panel.phase = .done)
    (hr : s.send.running n = none) : exec (.replyWatchExpiry n) s = .next s.settle := by
  refine (congrArg _ (State.acting_live (s.live_iff.mpr h) _)).trans ?_
  rw [hr]

/-- No record runs at a place where every timer is absent. -/
theorem Transmission.running_none {t : Transmission} {n : Nat}
    (h : ∀ r ∈ t.watch, ¬ (r.slot = n ∧ r.timer.isSome = true)) : t.running n = none := by
  refine List.find?_eq_none.mpr fun r hr => ?_
  rw [Bool.and_eq_true, beq_iff_eq]
  exact h r hr

/-- Settles O41: the cell field by field and expiry by expiry, then the expiry rows. -/
theorem sendingExpiries : Obligations.SendingExpiries := by
  refine ⟨fun s h => ⟨s.tickLive, step_cellPasses h, fun dt older hdt holder => ?_⟩, fun n s h => ?_⟩
  · obtain rfl : dt = s.cellTime := hdt
    obtain rfl : older = s.older := funext fun c => funext fun p => holder c p
    obtain ⟨hstore, hpunch, hbell, -⟩ := s.aged_leaves
    have haged := s.tickLive_aged
    have hdue {c : Instr} (hc : isExpiry c = true) :=
      (State.mem_tickLive_expiry (s := s) hc).trans (s.aged.mem_timerEvents s c)
    simp only [State.aged_send, State.aged_recv, State.aged_kb, State.aged_print, State.aged_journal, State.aged_panel,
      State.aged_idleThreshold, State.aged_releasable] at hdue
    refine ⟨(congrArg (·.send) haged).trans s.aged_send, (congrArg (·.recv) haged).trans s.aged_recv,
      (congrArg (·.kb) haged).trans s.aged_kb, (congrArg (·.print) haged).trans s.aged_print,
      (congrArg (·.journal) haged).trans s.aged_journal, (congrArg (·.panel) haged).trans s.aged_panel,
      (congrArg (·.store) haged).trans hstore, (congrArg (·.punch) haged).trans hpunch,
      (congrArg (·.bell) haged).trans hbell, fun n => (hdue rfl).trans ?message, fun i => (hdue rfl).trans ?control,
      fun n => (hdue rfl).trans ?watch, (hdue rfl).trans ?hold, fun o n => (hdue rfl).trans ?circular,
      (hdue rfl).trans ?idleRelease, (hdue rfl).trans ?autoEnd, (hdue rfl).trans ?motorIdle,
      (hdue rfl).trans ?echoIdle, (hdue rfl).trans ?divider, (hdue rfl).trans ?flash⟩
    case message => simp [Nat.sub_eq_zero_iff_le, eq_comm (a := n), and_comm, and_left_comm]
    case control => simp [Nat.sub_eq_zero_iff_le]
    case watch => simp [Nat.sub_eq_zero_iff_le, eq_comm (a := n), and_comm]
    case hold => simp [Nat.sub_eq_zero_iff_le]
    case circular =>
      simp [Nat.sub_eq_zero_iff_le, eq_comm (a := n), eq_comm (a := o), and_comm, and_left_comm, and_assoc]
    case idleRelease => exact Iff.trans (by simp) (s.idleRelease_due s.cellTime)
    case autoEnd => cases s.kb.autoEnd <;> simp [Config.autoEndTime]
    case motorIdle =>
      by_cases hi : s.print.motor = .running ∧ s.print.flight = .none
      · obtain ⟨hm, hf⟩ := hi
        simp [hm, hf, motorIdleTime]
      · simp [← and_assoc, hi]
    case echoIdle => cases s.print.echoIdle <;> simp [Config.echoIdleTime, and_comm]
    case divider => simp [Nat.sub_eq_zero_iff_le]
    case flash => simp [Nat.sub_eq_zero_iff_le]
  · refine ⟨?messageRow, exec_delayTimerExpiry h (.control n), fun r hr => ?runs, fun hn => ?noneRuns⟩
    case messageRow => rw [exec_delayTimerExpiry h, Transmission.delayExpired_message, State.withSend]
    case runs => exact ⟨_, exec_replyWatchExpiry_running h hr, rfl, rfl, rfl⟩
    case noneRuns => exact exec_replyWatchExpiry_none h (Transmission.running_none hn)

end Sys2Proof.Machine
end

section
/-! SUPPORT. The key matrix: closures, releases and the way of a registered key (R120 to R123). -/
namespace Sys2Proof.Machine

theorem exec_keyClosure {s : State} (h : s.panel.phase = .done) (k : Key) :
    exec (.keyClosure k) s = .next (s.closeKey k) :=
  congrArg _ (State.whenLive_live (s.live_iff.mpr h) _)

theorem exec_keyRelease {s : State} (h : s.panel.phase = .done) (k : Key) :
    exec (.keyRelease k) s = .next (s.openKey k) :=
  congrArg _ (State.whenLive_live (s.live_iff.mpr h) _)

/-- The keys that go to their owners outside the keystroke queue (R122). -/
theorem isHandedKey_iff (k : Key) : isHandedKey k = true ↔
    k ∈ [.breakKey, .attend, .print, .punch, .level, .paperFeed, .tapeFeed, .punchResume, .journal] := by
  cases k <;> simp [isHandedKey]

section
variable {s : State} {k : Key}

theorem State.closeKey_down (h : k ∈ s.kb.down) : s.closeKey k = s := if_pos (List.contains_iff_mem.mpr h)

theorem State.closeKey_up (h : k ∉ s.kb.down) : s.closeKey k =
    if k = .shift ∨ isVacant k = true ∨ 3 ≤ s.kb.held.length then
      { s with kb := { s.kb with down := s.kb.down ++ [k] } }
    else State.routeKey { s with kb := { s.kb with down := s.kb.down ++ [k], held := s.kb.held ++ [k] } }
      { key := k, shift := s.kb.down.contains .shift } :=
  if_neg fun hc => h (List.contains_iff_mem.mp hc)

theorem State.openKey_down (h : k ∈ s.kb.down) : s.openKey k = { s with kb := { s.kb with
    down := s.kb.down.filter (fun x => x != k), held := s.kb.held.filter (fun x => x != k)
    handed := if k = .tapeFeed then s.kb.handed ++ [.tapeFeedRelease] else s.kb.handed } } :=
  if_pos (List.contains_iff_mem.mpr h)

theorem State.openKey_up (h : k ∉ s.kb.down) : s.openKey k = s :=
  if_neg fun hc => h (List.contains_iff_mem.mp hc)

end

section
variable {s : State} {k : Keystroke}

theorem State.routeKey_handed (h : isHandedKey k.key = true) :
    s.routeKey k = { s with kb := { s.kb with handed := s.kb.handed ++ [.key k] } } := if_pos h

theorem State.routeKey_queued (h : ¬ isHandedKey k.key = true) (hq : s.kb.queue.length < 16) :
    s.routeKey k = { s with kb := { s.kb with queue := s.kb.queue ++ [k] } } :=
  (if_neg h).trans (if_pos hq)

theorem State.routeKey_dropped (h : ¬ isHandedKey k.key = true) (hq : 16 ≤ s.kb.queue.length) :
    s.routeKey k = s.ring :=
  (if_neg h).trans (if_neg (Nat.not_lt.mpr hq))

end

/-- Settles O42: a position down or up already, one only noted, and the three ways of a registered key. -/
theorem keyMatrix : Obligations.KeyMatrix := by
  intro k s h
  simp only [exec_keyClosure h, exec_keyRelease h]
  refine ⟨fun hd => ?again, fun hd hn => ?noted, fun hd hs hv hl => ?registered, fun hd => ?up, fun hd => ?released⟩
  case again => rw [State.closeKey_down hd]
  case noted => rw [State.closeKey_up hd, if_pos hn]
  case registered =>
    rw [State.closeKey_up hd, if_neg (by simp [hs, hv, hl]), ← isHandedKey_iff]
    exact ⟨fun hk => congrArg _ (State.routeKey_handed hk), fun hk =>
      ⟨fun hq => congrArg _ (State.routeKey_queued hk hq), fun hq => congrArg _ (State.routeKey_dropped hk hq)⟩⟩
  case up => rw [State.openKey_up hd]
  case released => rw [State.openKey_down hd]

end Sys2Proof.Machine
end

section
/-! SUPPORT. The keystroke that the composer takes from the head of its queue: the row of each key, and what a key
leaves that is only discarded or ends an entry (R123 to R126). -/
namespace Sys2Proof.Machine

/-- The composer holds nothing, and this keystroke is the next that it takes (R123). -/
structure State.takesNext (s : State) (k : Keystroke) (rest : List Keystroke) : Prop where
  live : s.panel.phase = .done
  free : s.kb.hold = .none
  queue : s.kb.queue = k :: rest

/-- Destination or time entry is under way (R125, R126). -/
def Keyboard.inEntry (kb : Keyboard) : Prop :=
  (∃ cls touched digit, kb.comp = .destEntry cls touched digit) ∨ ∃ fromLocal ds, kb.comp = .timeEntry fromLocal ds

/-- A keystroke acted on while nothing is held leaves the queue and no more. -/
theorem State.keyDone_took {s : State} {k : Keystroke} {rest : List Keystroke} (hh : s.kb.hold = .none)
    (hq : s.kb.queue = k :: rest) : s.keyDone = { s with kb := { s.kb with queue := rest } } := by
  rw [State.keyDone, hq, ← hh]
  rfl

section
variable {s : State} {k : Keystroke} {rest : List Keystroke}

theorem State.takesNext.keyDone (h : s.takesNext k rest) : s.keyDone = { s with kb := { s.kb with queue := rest } } :=
  State.keyDone_took h.free h.queue

theorem State.takesNext.keyBell (h : s.takesNext k rest) :
    s.keyBell = { s with kb := { s.kb with queue := rest }, bell := s.bell + 1 } := by
  rw [State.keyBell, h.keyDone]
  rfl

theorem State.takesNext.entryEnds (h : s.takesNext k rest) : s.entryEnds =
    { s with kb := { s.kb with queue := rest, comp := s.kb.entryFrom }, bell := s.bell + 1 } := by
  rw [State.entryEnds, h.keyBell]
  rfl

/-- A row whose key is at the head acts on it, and the mechanism units then act. -/
theorem State.takesNext.acts (h : s.takesNext k rest) {mine : State → Keystroke → Bool}
    {f : Keystroke → State → State} (hm : mine s k = true) :
    s.acting (fun s => s.takeHead (mine s) f) = (f k s).settle := by
  rw [State.acting_live (s.live_iff.mpr h.live), State.takeHead, State.headKey, h.free, h.queue]
  exact congrArg State.settle (if_pos hm)

/-! ### The rows -/

theorem State.takesNext.textKey (h : s.takesNext k rest) (hk : s.kb.takesAsText k = true) :
    exec .textKey s = .next (s.takeText k).settle := congrArg _ (h.acts (mine := fun s => s.kb.takesAsText) hk)

theorem State.takesNext.hereIs (h : s.takesNext k rest) (hk : k.key = .hereIs) :
    exec .hereIs s = .next (s.takeText k).settle := congrArg _ (h.acts (beq_iff_eq.mpr hk))

theorem State.takesNext.erase (h : s.takesNext k rest) (hk : k.key = .erase) :
    exec .erase s = .next s.takeErase.settle := congrArg _ (h.acts (beq_iff_eq.mpr hk))

theorem State.takesNext.endKey (h : s.takesNext k rest) (hk : k.key = .endKey) :
    exec .endKey s = .next s.takeEnd.settle := congrArg _ (h.acts (beq_iff_eq.mpr hk))

theorem State.takesNext.dest (h : s.takesNext k rest) (hk : k.key = .dest) :
    exec .dest s = .next (s.takeDest k).settle := congrArg _ (h.acts (beq_iff_eq.mpr hk))

theorem State.takesNext.whoKey (h : s.takesNext k rest) (hk : k.key = .who) :
    exec .whoKey s = .next (s.takeRequest .who).settle := congrArg _ (h.acts (beq_iff_eq.mpr hk))

theorem State.takesNext.enq (h : s.takesNext k rest) (hk : k.key = .enq) :
    exec .enq s = .next (s.takeRequest .enquire).settle := congrArg _ (h.acts (beq_iff_eq.mpr hk))

theorem State.takesNext.mode (h : s.takesNext k rest) (hk : k.key = .mode) :
    exec .mode s = .next s.takeMode.settle := congrArg _ (h.acts (beq_iff_eq.mpr hk))

theorem State.takesNext.time (h : s.takesNext k rest) (hk : k.key = .time) :
    exec .time s = .next s.takeTime.settle := congrArg _ (h.acts (beq_iff_eq.mpr hk))

theorem State.takesNext.destinationDigit (h : s.takesNext k rest) (he : s.kb.inDestEntry = true) {d : Nat}
    (hd : digitOf k = some d) : exec .destinationDigit s = .next (s.takeDestDigit d).settle := by
  refine congrArg _ ((h.acts (mine := fun s k => s.kb.inDestEntry && (digitOf k).isSome) ?_).trans ?_)
  · simp only [he, hd, Option.isSome_some, Bool.and_self]
  · rw [hd, Option.getD_some]

theorem State.takesNext.timeDigit (h : s.takesNext k rest) (he : s.kb.inTimeEntry = true) {d : Nat}
    (hd : digitOf k = some d) : exec .timeDigit s = .next (s.takeTimeDigit d).settle := by
  refine congrArg _ ((h.acts (mine := fun s k => s.kb.inTimeEntry && (digitOf k).isSome) ?_).trans ?_)
  · simp only [he, hd, Option.isSome_some, Bool.and_self]
  · rw [hd, Option.getD_some]

/-- A text key or HERE IS where it is no digit (R124). -/
theorem State.takesNext.text (h : s.takesNext k rest) {c : Instr} (hc : textCommand k c)
    (hd : s.kb.inDestEntry = false) (ht : s.kb.inTimeEntry = false) : exec c s = .next (s.takeText k).settle := by
  obtain ⟨hk, rfl⟩ | ⟨hk, rfl⟩ := hc
  · exact h.textKey (by simp [Keyboard.takesAsText, hk, hd, ht])
  · exact h.hereIs hk

/-! ### The keys that end an entry (R125, R126) -/

theorem Keyboard.entryFrom_dest {kb : Keyboard} {cls : Nat} {touched : Bool} {digit : Option Nat}
    (h : kb.comp = .destEntry cls touched digit) :
    kb.entryFrom = if kb.dest.isSome then .lineReady else .lineIdle := by
  rw [Keyboard.entryFrom, h]
  rfl

theorem Keyboard.entryFrom_time {kb : Keyboard} {fromLocal : Bool} {ds : List Nat}
    (h : kb.comp = .timeEntry fromLocal ds) : kb.entryFrom =
    if fromLocal then .localMode else if kb.dest.isSome then .lineReady else .lineIdle := by
  rw [Keyboard.entryFrom, h]
  cases fromLocal <;> rfl

/-- In an entry each of these keys only ends it. -/
theorem State.entryEnds_of_inEntry (he : s.kb.inEntry) : (∀ k, s.takeText k = s.entryEnds) ∧
    s.takeErase = s.entryEnds ∧ s.takeEnd = s.entryEnds ∧ (∀ kind, s.takeRequest kind = s.entryEnds) ∧
    s.takeMode = s.entryEnds ∧ s.takeTime = s.entryEnds := by
  obtain ⟨_, _, _, he⟩ | ⟨_, _, he⟩ := he <;>
    simp [State.takeText, State.takeErase, State.takeEnd, State.takeRequest, State.takeMode, State.takeTime, he]

/-- Every key but a digit and DEST rings the bell and ends the entry. -/
theorem State.takesNext.endsEntry (h : s.takesNext k rest) (he : s.kb.inEntry) {c : Instr} (hc : entryCommand k c) :
    exec c s = .next (State.settle { s with
      kb := { s.kb with queue := rest, comp := s.kb.entryFrom }, bell := s.bell + 1 }) := by
  obtain ⟨htext, herase, hend, hrequest, hmode, htime⟩ := State.entryEnds_of_inEntry he
  rw [← h.entryEnds]
  obtain ⟨hk, hd, rfl⟩ | ⟨hk, rfl⟩ | ⟨hk, rfl⟩ | ⟨hk, rfl⟩ | ⟨hk, rfl⟩ | ⟨hk, rfl⟩ | ⟨hk, rfl⟩ | ⟨hk, rfl⟩ := hc
  · exact exec_settles (h.textKey (by simp [Keyboard.takesAsText, hk, hd])) (htext k)
  · exact exec_settles (h.hereIs hk) (htext k)
  · exact exec_settles (h.erase hk) herase
  · exact exec_settles (h.endKey hk) hend
  · exact exec_settles (h.whoKey hk) (hrequest .who)
  · exact exec_settles (h.enq hk) (hrequest .enquire)
  · exact exec_settles (h.mode hk) hmode
  · exact exec_settles (h.time hk) htime

end

end Sys2Proof.Machine
end

section
/-! SUPPORT. Destination and time entry, MODE with the LOCAL reservation, and the requests of WHO and ENQ (R125 to R127,
R136, R177, R189). -/
namespace Sys2Proof.Machine

section
variable {s : State} {k : Keystroke} {rest : List Keystroke}

/-! ### DEST and its digits (R125) -/

theorem State.takesNext.takeDest_opens (h : s.takesNext k rest) (hc : s.kb.comp = .lineIdle ∨ s.kb.comp = .lineReady) :
    s.takeDest k = { s with kb := { s.kb with
      queue := rest, comp := .destEntry (if k.shift then 0 else 1) false none } } := by
  obtain hc | hc := hc <;> rw [State.takeDest, hc, h.keyDone] <;> rfl

/-- DEST as the first key of the entry. -/
theorem State.takesNext.takeDest_first (h : s.takesNext k rest) {cls : Nat} {digit : Option Nat}
    (hc : s.kb.comp = .destEntry cls false digit) :
    s.takeDest k = { s with kb := { s.kb with queue := rest, comp := .destEntry 2 true none } } := by
  rw [State.takeDest, hc, h.keyDone]
  rfl

theorem State.takesNext.takeDest_later (h : s.takesNext k rest) {cls : Nat} {digit : Option Nat}
    (hc : s.kb.comp = .destEntry cls true digit) : s.takeDest k = { s with
      kb := { s.kb with queue := rest, comp := .destEntry cls true none }, bell := s.bell + 1 } := by
  rw [State.takeDest, hc, h.keyBell]
  rfl

theorem State.takesNext.takeDest_elsewhere (h : s.takesNext k rest)
    (hc : s.kb.comp = .composing ∨ s.kb.comp = .localMode) :
    s.takeDest k = { s with kb := { s.kb with queue := rest }, bell := s.bell + 1 } := by
  obtain hc | hc := hc <;> rw [State.takeDest, hc, h.keyBell]

/-- DEST in time entry ends it as any other key. -/
theorem State.takesNext.takeDest_time (h : s.takesNext k rest) {fromLocal : Bool} {ds : List Nat}
    (hc : s.kb.comp = .timeEntry fromLocal ds) : s.takeDest k = { s with
      kb := { s.kb with queue := rest, comp := s.kb.entryFrom }, bell := s.bell + 1 } := by
  rw [State.takeDest, hc, h.entryEnds]

theorem State.takesNext.takeDestDigit_first (h : s.takesNext k rest) {cls : Nat} {touched : Bool}
    (hc : s.kb.comp = .destEntry cls touched none) (d : Nat) :
    s.takeDestDigit d = { s with kb := { s.kb with queue := rest, comp := .destEntry cls true (some d) } } := by
  rw [State.takeDestDigit, hc, h.keyDone]
  rfl

theorem State.takeDestDigit_second {cls d1 : Nat} {touched : Bool} (hc : s.kb.comp = .destEntry cls touched (some d1))
    (d : Nat) : s.takeDestDigit d = s.judgeDest cls (10 * d1 + d) := by
  rw [State.takeDestDigit, hc]

theorem State.takesNext.judgeDest_taken (h : s.takesNext k rest) {cls dd : Nat} (hd : dd ≤ 62 ∧ s.own ≠ some dd) :
    s.judgeDest cls dd = { s with
      print := s.print.echo (.destMarker dd cls)
      kb := { s.kb with queue := rest, comp := .lineReady, dest := some (dd, cls) } } := by
  rw [State.judgeDest, if_pos hd, h.keyDone]
  rfl

theorem State.takesNext.judgeDest_refused (h : s.takesNext k rest) {cls dd : Nat} (hd : 62 < dd ∨ s.own = some dd) :
    s.judgeDest cls dd = { s with
      kb := { s.kb with queue := rest, comp := .destEntry cls true none }, bell := s.bell + 1 } := by
  rw [State.judgeDest, if_neg (by rintro ⟨hl, hn⟩; exact hd.elim (Nat.not_lt.mpr hl) hn), h.keyBell]
  rfl

end

/-- Settles O47: DEST by the composer's state, the two digits, and the keys that end the entry. -/
theorem destinationEntry : Obligations.DestinationEntry := by
  intro k rest cls d d1 touched digit s hl hh hq
  have h : s.takesNext k rest := ⟨hl, hh, hq⟩
  refine ⟨fun hk hc => exec_settles (h.dest hk) (h.takeDest_opens hc),
    fun hk hc => exec_settles (h.dest hk) (h.takeDest_first hc),
    fun hk hc => exec_settles (h.dest hk) (h.takeDest_later hc),
    fun hk hc => exec_settles (h.dest hk) (h.takeDest_elsewhere hc), fun hd hc => ?first, fun hd hc => ?second,
    fun c he hc => ?ends⟩
  case first =>
    exact exec_settles (h.destinationDigit (by rw [Keyboard.inDestEntry, hc]) hd) (h.takeDestDigit_first hc d)
  case second =>
    have hx := exec_settles (h.destinationDigit (by rw [Keyboard.inDestEntry, hc]) hd) (State.takeDestDigit_second hc d)
    exact ⟨fun hn => exec_settles hx (h.judgeDest_taken hn), fun hn => exec_settles hx (h.judgeDest_refused hn)⟩
  case ends =>
    rw [← Keyboard.entryFrom_dest hc]
    exact h.endsEntry (.inl ⟨_, _, _, hc⟩) he

/-! ### The requests (R136) -/

/-- A request granted: its control record, with a RESERVED record of the reply watch. -/
theorem Transmission.queueRequest_granted {t : Transmission} (hw : t.watch.length < 4) (hc : t.control.length < 6)
    (kind : FrameKind) (d : Nat) : t.queueRequest kind d = some { t with
      seqCounter := (t.seqCounter + 1) % 8
      control := t.control ++ [{ kind := kind, dest := d, seq := t.seqCounter, number := 0, text := []
                                 phase := .ready, counts := Counts.zero, delay := 0, watch := some t.freeWatch }]
      watch := t.watch ++ [{ slot := t.freeWatch, peer := d, kind := awaitedKind kind, timer := none }] } := by
  rw [Transmission.queueRequest, if_pos (show _ < Config.watchPlaces from hw), Transmission.queueControl,
    if_pos (show _ < Config.controlPlaces from hc)]
  rfl

theorem Transmission.queueRequest_refused {t : Transmission} (h : 4 ≤ t.watch.length ∨ 6 ≤ t.control.length)
    (kind : FrameKind) (d : Nat) : t.queueRequest kind d = none := by
  unfold Transmission.queueRequest
  split
  · next hw => rw [(t.queueControl_none _ _ _ _ _).mpr (h.resolve_left (Nat.not_le.mpr hw))]; rfl
  · rfl

section
variable {s : State} {k : Keystroke} {rest : List Keystroke}

theorem State.takesNext.request_granted (h : s.takesNext k rest) {d cls : Nat} (hd : s.kb.dest = some (d, cls))
    (h0 : d ≠ 0) {kind : FrameKind} {t : Transmission} (ht : s.send.queueRequest kind d = some t) :
    s.request kind = { s with kb := { s.kb with queue := rest }, send := t } := by
  rw [State.request, hd]
  dsimp only
  rw [if_neg h0, ht, h.keyDone]
  rfl

theorem State.takesNext.request_refused (h : s.takesNext k rest) {d cls : Nat} (hd : s.kb.dest = some (d, cls))
    {kind : FrameKind} (hn : d = 0 ∨ s.send.queueRequest kind d = none) :
    s.request kind = { s with kb := { s.kb with queue := rest }, bell := s.bell + 1 } := by
  rw [State.request, hd, ← h.keyBell]
  dsimp only
  split
  · rfl
  · next h0 => rw [hn.resolve_left h0]

theorem State.takeRequest_asks (hc : s.kb.comp = .lineReady ∨ s.kb.comp = .composing) (kind : FrameKind) :
    s.takeRequest kind = s.request kind := by
  obtain hc | hc := hc <;> rw [State.takeRequest, hc]

theorem State.takesNext.takeRequest_elsewhere (h : s.takesNext k rest)
    (hc : s.kb.comp = .lineIdle ∨ s.kb.comp = .localMode) (kind : FrameKind) :
    s.takeRequest kind = { s with kb := { s.kb with queue := rest }, bell := s.bell + 1 } := by
  rw [← h.keyBell]
  obtain hc | hc := hc <;> rw [State.takeRequest, hc]

end

/-- Settles O48: the two keys ask alike, and a request is granted, or lacks its destination or a place. -/
theorem requestKeys : Obligations.RequestKeys := by
  intro c kind awaited k rest d cls s hl hh hq hkey
  have h : s.takesNext k rest := ⟨hl, hh, hq⟩
  obtain ⟨hx, ha⟩ : exec c s = .next (s.takeRequest kind).settle ∧ awaited = awaitedKind kind := by
    obtain ⟨rfl, hk, rfl, rfl⟩ | ⟨rfl, hk, rfl, rfl⟩ := hkey
    · exact ⟨h.whoKey hk, rfl⟩
    · exact ⟨h.enq hk, rfl⟩
  subst ha
  refine ⟨fun hc hd => ?_, fun hc => exec_settles hx (h.takeRequest_elsewhere hc kind)⟩
  rw [State.takeRequest_asks hc] at hx
  refine ⟨fun ⟨h0, hw, hn⟩ => ?granted, fun hn => ?refused⟩
  case granted => exact exec_settles hx (h.request_granted hd h0 (Transmission.queueRequest_granted hw hn kind d))
  case refused =>
    exact exec_settles hx (h.request_refused hd (hn.imp_right fun hn => Transmission.queueRequest_refused hn kind d))

/-! ### The LOCAL reservation (R177) -/

section
variable {p : Punch}

theorem Punch.localBegins_none (h : p.reservation = .none) (leader : Nat) : p.localBegins leader =
    if p.copy.isSome then { p with reservation := .waiting true }
    else { p with reservation := .active, leadLeft := leader, closeLeft := none } := by
  rw [Punch.localBegins, h]
  rfl

theorem Punch.localBegins_waiting {b : Bool} (h : p.reservation = .waiting b) (leader : Nat) :
    p.localBegins leader = { p with reservation := .waiting true } := by rw [Punch.localBegins, h]

theorem Punch.localBegins_active (h : p.reservation = .active) (leader : Nat) : p.localBegins leader = p := by
  rw [Punch.localBegins, h]

theorem Punch.localBegins_closing {b : Bool} (h : p.reservation = .closing b) (leader : Nat) :
    p.localBegins leader =
      { p with reservation := if p.closeLeft = none then .active else .closing true } := by
  rw [Punch.localBegins, h]
  cases hc : p.closeLeft <;> rfl

theorem Punch.localEnds_none (h : p.reservation = .none) : p.localEnds = p := by rw [Punch.localEnds, h]

theorem Punch.localEnds_waiting {b : Bool} (h : p.reservation = .waiting b) :
    p.localEnds = { p with reservation := if p.fifo = [] then .none else .waiting false } := by
  rw [Punch.localEnds, h]
  cases hf : p.fifo <;> rfl

theorem Punch.localEnds_held (h : p.reservation.holdsPunch = true) :
    p.localEnds = { p with reservation := .closing false } := by
  cases hr : p.reservation <;> simp [hr, Reservation.holdsPunch, Punch.localEnds] at h ⊢

end

/-! ### MODE (R127) -/

theorem State.beginLocal_eq (s : State) : s.beginLocal = { s with
    kb := { s.kb with comp := .localMode, case := .unknown }
    punch := if s.panel.punchSel = true ∧ s.punch.offDue = false
      then s.punch.localBegins s.panel.settings.leader else s.punch } := by
  cases hp : s.panel.punchSel <;> cases ho : s.punch.offDue <;>
    simp [State.beginLocal, State.withKb, State.punchLocalBegins, hp, ho]

section
variable {s : State} {k : Keystroke} {rest : List Keystroke}

theorem State.takesNext.takeMode_enters (h : s.takesNext k rest) (hc : s.kb.comp = .lineIdle ∨ s.kb.comp = .lineReady)
    (hf : s.panel.configFault = false) : s.takeMode = { s with
      kb := { s.kb with queue := rest, comp := .localMode, case := .unknown }
      punch := if s.panel.punchSel = true ∧ s.punch.offDue = false
        then s.punch.localBegins s.panel.settings.leader else s.punch } := by
  obtain hc | hc := hc <;> rw [State.takeMode, hc, hf, h.keyDone, State.beginLocal_eq] <;> rfl

theorem State.takesNext.takeMode_leaves (h : s.takesNext k rest) (hc : s.kb.comp = .localMode)
    (hf : s.panel.configFault = false) : s.takeMode = { s with
      kb := { s.kb with queue := rest, comp := if s.kb.dest.isSome then .lineReady else .lineIdle }
      punch := s.punch.localEnds } := by
  rw [State.takeMode, hc, hf, h.keyDone]
  rfl

theorem State.takesNext.takeMode_refused (h : s.takesNext k rest) (hc : s.kb.comp = .composing ∨
    s.panel.configFault = true ∧ (s.kb.comp = .lineIdle ∨ s.kb.comp = .lineReady ∨ s.kb.comp = .localMode)) :
    s.takeMode = { s with kb := { s.kb with queue := rest }, bell := s.bell + 1 } := by
  rw [← h.keyBell]
  obtain hc | ⟨hf, hc | hc | hc⟩ := hc
  · rw [State.takeMode, hc]
  all_goals
    rw [State.takeMode, hc, hf]
    rfl

/-! ### TIME and its digits (R126, R189) -/

theorem State.takesNext.takeTime_line (h : s.takesNext k rest)
    (hc : s.kb.comp = .lineIdle ∨ s.kb.comp = .lineReady) :
    s.takeTime = { s with kb := { s.kb with queue := rest, comp := .timeEntry false [] } } := by
  obtain hc | hc := hc <;> rw [State.takeTime, hc, h.keyDone] <;> rfl

theorem State.takesNext.takeTime_local (h : s.takesNext k rest) (hc : s.kb.comp = .localMode) :
    s.takeTime = { s with kb := { s.kb with queue := rest, comp := .timeEntry true [] } } := by
  rw [State.takeTime, hc, h.keyDone]
  rfl

theorem State.takesNext.takeTime_composing (h : s.takesNext k rest) (hc : s.kb.comp = .composing) :
    s.takeTime = { s with kb := { s.kb with queue := rest }, bell := s.bell + 1 } := by
  rw [State.takeTime, hc, h.keyBell]

/-- One of the first three digits is kept. -/
theorem State.takesNext.takeTimeDigit_kept (h : s.takesNext k rest) {fromLocal : Bool} {ds : List Nat}
    (hc : s.kb.comp = .timeEntry fromLocal ds) (hl : ds.length < 3) (d : Nat) : s.takeTimeDigit d =
    { s with kb := { s.kb with queue := rest, comp := .timeEntry fromLocal (ds ++ [d]) } } := by
  rw [State.takeTimeDigit, hc, h.keyDone]
  match ds, hl with
  | [], _ => rfl
  | [_], _ => rfl
  | [_, _], _ => rfl

theorem State.takeTimeDigit_fourth {fromLocal : Bool} {a b c : Nat} (hc : s.kb.comp = .timeEntry fromLocal [a, b, c])
    (d : Nat) : s.takeTimeDigit d = s.judgeTime a b c d := by
  rw [State.takeTimeDigit, hc]

theorem State.takesNext.judgeTime_set (h : s.takesNext k rest) {a b c d : Nat}
    (ht : 10 * a + b ≤ 23 ∧ 10 * c + d ≤ 59) : s.judgeTime a b c d = { s with
      kb := { s.kb with queue := rest, comp := s.kb.entryFrom }
      journal := { s.journal with minute := (10 * a + b) * 60 + (10 * c + d), clockSet := true
                                  divider := some Config.minuteTime } } := by
  rw [State.judgeTime, if_pos ht, h.keyDone]
  rfl

theorem State.takesNext.judgeTime_refused (h : s.takesNext k rest) {a b c d : Nat}
    (ht : 23 < 10 * a + b ∨ 59 < 10 * c + d) : s.judgeTime a b c d = { s with
      kb := { s.kb with queue := rest, comp := s.kb.entryFrom }, bell := s.bell + 1 } := by
  rw [State.judgeTime, if_neg (by omega), h.keyDone]
  rfl

end

/-- Settles O49: the moves of the reservation, then MODE, TIME and the digits by the composer's state. -/
theorem modeAndTime : Obligations.ModeAndTime := by
  refine ⟨fun p leader => ⟨fun h hc => ?_, fun h hc => ?_, Punch.localEnds_none,
    fun b h => ⟨Punch.localBegins_waiting h leader,
    fun hf => ?_, fun hf => ?_⟩, fun h => ⟨Punch.localBegins_active h leader, Punch.localEnds_held (by rw [h]; rfl)⟩,
    fun b h => ⟨fun hc => ?_, fun n hc => ?_, Punch.localEnds_held (by rw [h]; rfl)⟩⟩, ?keys⟩
  · rw [Punch.localBegins_none h, hc]; rfl
  · rw [Punch.localBegins_none h, if_pos hc]
  · rw [Punch.localEnds_waiting h, if_pos hf]
  · rw [Punch.localEnds_waiting h, if_neg hf]
  · rw [Punch.localBegins_closing h, if_pos hc]
  · rw [Punch.localBegins_closing h, hc]; rfl
  case keys =>
    intro k rest ds a b c d fromLocal s hl hh hq
    have h : s.takesNext k rest := ⟨hl, hh, hq⟩
    refine ⟨fun hk hc hf => exec_settles (h.mode hk) (h.takeMode_enters hc hf),
      fun hk hc hf => exec_settles (h.mode hk) (h.takeMode_leaves hc hf),
      fun hk hc => exec_settles (h.mode hk) (h.takeMode_refused hc),
      fun hk hc => exec_settles (h.time hk) (h.takeTime_line hc),
      fun hk hc => exec_settles (h.time hk) (h.takeTime_local hc), fun hd hc hn => ?kept, fun hd hc => ?fourth,
      fun hk hc => exec_settles (h.time hk) (h.takeTime_composing hc), fun i he hc => ?ends⟩
    case kept =>
      exact exec_settles (h.timeDigit (by rw [Keyboard.inTimeEntry, hc]) hd) (h.takeTimeDigit_kept hc hn d)
    case fourth =>
      have hx := exec_settles (h.timeDigit (by rw [Keyboard.inTimeEntry, hc]) hd) (State.takeTimeDigit_fourth hc d)
      exact ⟨s.kb.entryFrom, Keyboard.entryFrom_time hc, fun ht => exec_settles hx (h.judgeTime_set ht),
        fun ht => exec_settles hx (h.judgeTime_refused ht)⟩
    case ends =>
      rw [← Keyboard.entryFrom_time hc]
      obtain he | ⟨hk, rfl⟩ := he
      · exact h.endsEntry (.inr ⟨_, _, hc⟩) he
      · exact exec_settles (h.dest hk) (h.takeDest_time hc)

end Sys2Proof.Machine
end

section
/-! SUPPORT. ERASE in the composer's states, and the ways in which a composition ends (R11, R132 to R134, R138). -/
namespace Sys2Proof.Machine

/-! ### ERASE (R11, R134) -/

theorem markerCase_eq (cs : CompCase) : markerCase cs = if cs = .figures then .figures else .letters := by
  cases cs <;> rfl

/-- Only the last code of a block leaves it empty. -/
theorem isEmpty_dropLast_iff {α : Type} {l : List α} (h : l ≠ []) : l.dropLast.isEmpty = true ↔ l.length = 1 := by
  have := List.length_pos_iff.mpr h
  rw [List.isEmpty_iff, ← List.length_eq_zero_iff, List.length_dropLast]
  omega

section
variable {s : State} {k : Keystroke} {rest : List Keystroke}

theorem State.takesNext.eraseLast (h : s.takesNext k rest) (slot : Nat) {codes : List Code} (hn : codes ≠ []) :
    s.eraseLast slot codes = { s with
      store := s.store.setOpenCodes slot codes.dropLast
      print := s.print.echo (.eraseMarker
        (if recomputed (s.store.released slot) codes.dropLast = .figures then .figures else .letters))
      kb := { s.kb with queue := rest, case := recomputed (s.store.released slot) codes.dropLast
                        idleTimer := if codes.length = 1 then none else some 0 } } := by
  rw [← markerCase_eq]
  simp only [← isEmpty_dropLast_iff hn]
  exact State.keyDone_took (k := k) h.free h.queue

theorem State.takeErase_codes {slot : Nat} {codes : List Code} (hc : s.kb.comp = .composing)
    (hs : s.kb.current = some slot) (ho : s.store.openCodes slot = some codes) (hn : codes ≠ []) :
    s.takeErase = s.eraseLast slot codes := by
  obtain ⟨x, xs, rfl⟩ := List.exists_cons_of_ne_nil hn
  rw [State.takeErase, hc]
  dsimp only
  rw [State.eraseComposing, hs]
  dsimp only
  rw [ho]

/-- ERASE finds no code to remove. -/
theorem State.takeErase_empty {slot : Nat} (hc : s.kb.comp = .composing) (hs : s.kb.current = some slot)
    (ho : s.store.openCodes slot = none ∨ s.store.openCodes slot = some []) : s.takeErase = s.keyBell := by
  rw [State.takeErase, hc]
  dsimp only
  rw [State.eraseComposing, hs]
  obtain ho | ho := ho <;> (dsimp only; rw [ho])

theorem State.takeErase_local (hc : s.kb.comp = .localMode) : s.takeErase = s.eraseLocal := by
  rw [State.takeErase, hc]

theorem State.takeErase_line (hc : s.kb.comp = .lineIdle ∨ s.kb.comp = .lineReady) : s.takeErase = s.keyBell := by
  obtain hc | hc := hc <;> rw [State.takeErase, hc]

theorem State.takesNext.eraseLocal_off (h : s.takesNext k rest) (hp : s.panel.punchSel = false) :
    s.eraseLocal = { s with
      print := s.print.echo (.eraseMarker .letters), kb := { s.kb with queue := rest, case := .letters } } :=
  (if_neg (Bool.not_eq_true _ ▸ hp)).trans (State.keyDone_took (k := k) h.free h.queue)

theorem State.takesNext.eraseLocal_room (h : s.takesNext k rest) (hp : s.panel.punchSel = true)
    (hl : s.punch.fifo.length < 64) : s.eraseLocal = { s with
      print := s.print.echo (.eraseMarker .letters), punch := { s.punch with fifo := s.punch.fifo ++ [31] }
      kb := { s.kb with queue := rest, case := .letters } } :=
  (if_pos hp).trans ((if_neg fun hf => Nat.not_le.mpr hl (s.punch.fifoFull_iff.mp hf)).trans
    (State.keyDone_took (k := k) h.free h.queue))

theorem State.eraseLocal_full (hp : s.panel.punchSel = true) (hl : 64 ≤ s.punch.fifo.length) :
    s.eraseLocal = { s with
      print := s.print.echo (.eraseMarker .letters)
      kb := { s.kb with hold := .localCode 31 [], case := .letters } } :=
  (if_pos hp).trans (if_pos (s.punch.fifoFull_iff.mpr hl))

end

/-- Settles O45: the composition, LOCAL by the punch, the line states, and the entries. -/
theorem eraseKey : Obligations.EraseKey := by
  intro k rest slot codes s hl hh hq hk
  have h : s.takesNext k rest := ⟨hl, hh, hq⟩
  have hx := h.erase hk
  refine ⟨fun hc hs => ⟨fun ho hn => ?removes, fun ho => ?empty⟩, fun hc => ?inLocal, fun hc => ?line,
    fun cls touched digit hc => ?dest, fun fromLocal ds hc => ?time⟩
  case removes =>
    exact ⟨_, rfl, exec_settles hx ((State.takeErase_codes hc hs ho hn).trans (h.eraseLast slot hn))⟩
  case empty => exact exec_settles hx ((State.takeErase_empty hc hs ho).trans h.keyBell)
  case inLocal =>
    rw [State.takeErase_local hc] at hx
    exact ⟨fun hp => exec_settles hx (h.eraseLocal_off hp), fun hp hr => exec_settles hx (h.eraseLocal_room hp hr),
      fun hp hf => exec_settles hx (State.eraseLocal_full hp hf)⟩
  case line => exact exec_settles hx ((State.takeErase_line hc).trans h.keyBell)
  case dest =>
    rw [← Keyboard.entryFrom_dest hc]
    exact h.endsEntry (.inl ⟨_, _, _, hc⟩) (.inr (.inr (.inl ⟨hk, rfl⟩)))
  case time =>
    rw [← Keyboard.entryFrom_time hc]
    exact h.endsEntry (.inr ⟨_, _, hc⟩) (.inr (.inr (.inl ⟨hk, rfl⟩)))

/-! ### END and the auto end (R132, R133) -/

/-- The composition over: LINE-READY, both timers stopped, nothing held, and the END key taken from the queue (R132). -/
theorem State.ended_eq (s : State) (fromKey : Bool) : s.ended fromKey = { s with kb := { s.kb with
    comp := .lineReady, idleTimer := none, autoEnd := none, hold := .none
    queue := if fromKey then s.kb.queue.tail else s.kb.queue } } := by
  cases fromKey <;> rfl

/-- The end of a composition while nothing is held. -/
theorem State.ended_free (s : State) (hh : s.kb.hold = .none) (fromKey : Bool) : s.ended fromKey =
    { s with kb := { s.kb with
      comp := .lineReady, idleTimer := none, autoEnd := none
      queue := if fromKey then s.kb.queue.tail else s.kb.queue } } := by
  rw [State.ended_eq, ← hh]

section
variable {s : State} {slot : Nat}

theorem State.endMessage_releases {codes : List Code} (ho : s.store.openCodes slot = some codes)
    (hn : codes ≠ [] ∨ s.store.released slot ≠ 0) (fromKey : Bool) :
    s.endMessage slot fromKey = (s.release slot true).ended fromKey := by
  rw [State.endMessage, ho]
  exact if_neg fun ⟨he, hr⟩ => hn.elim (fun hn => hn (List.isEmpty_iff.mp he)) fun hn => hn hr

theorem State.endMessage_withdraws (ho : s.store.openCodes slot = some []) (hr : s.store.released slot = 0)
    (fromKey : Bool) : s.endMessage slot fromKey = (s.withdraw slot).ended fromKey := by
  rw [State.endMessage, ho]
  exact if_pos ⟨rfl, hr⟩

/-- A final section of length 0 where no block is open. -/
theorem State.endMessage_takesBlock (ho : s.store.openCodes slot = none) (hf : 1 ≤ s.store.free) (fromKey : Bool) :
    s.endMessage slot fromKey =
      (State.release { s with store := s.store.allocate slot 0 [] false } slot true).ended fromKey := by
  rw [State.endMessage, ho]
  exact if_pos (s.store.hasBlock_iff.mpr hf)

theorem State.endMessage_waits (ho : s.store.openCodes slot = none) (hf : s.store.free = 0) (fromKey : Bool) :
    s.endMessage slot fromKey = s.holdFor (if fromKey then .endBlock else .autoEnd) := by
  rw [State.endMessage, ho]
  exact if_neg fun hb => absurd (s.store.hasBlock_iff.mp hb) (by rw [hf]; exact Nat.lt_irrefl 0)

theorem State.endCurrent_message (hs : s.kb.current = some slot) (fromKey : Bool) :
    s.endCurrent fromKey = s.endMessage slot fromKey := by rw [State.endCurrent, hs]

theorem State.takeEnd_composing (hc : s.kb.comp = .composing) : s.takeEnd = s.endCurrent true := by
  rw [State.takeEnd, hc]

theorem State.takeEnd_elsewhere (hc : s.kb.comp = .lineIdle ∨ s.kb.comp = .lineReady ∨ s.kb.comp = .localMode) :
    s.takeEnd = s.keyBell := by
  obtain hc | hc | hc := hc <;> rw [State.takeEnd, hc]

theorem exec_autoEndExpiry (h : s.panel.phase = .done) : exec .autoEndExpiry s = .next s.autoEndExpires.settle :=
  congrArg _ (State.acting_live (s.live_iff.mpr h) _)

theorem State.autoEndExpires_due (hc : s.kb.comp = .composing) {n : Nat} (ha : s.kb.autoEnd = some n) (hn : 0 < n) :
    s.autoEndExpires = (s.placeEcho .autoEnd).endCurrent false := by
  obtain ⟨m, rfl⟩ := Nat.exists_eq_add_of_lt hn
  rw [State.autoEndExpires, hc, ha]
  rfl

end

/-- Settles O46: END outside a composition, then the two ends of a composition as one, case by case. -/
theorem endKey : Obligations.EndKey := by
  refine ⟨fun k rest s hl hh hq hk hc => ?_, fun c k rest slot s hl hh hc hs hrow => ?_⟩
  · have h : s.takesNext k rest := ⟨hl, hh, hq⟩
    exact exec_settles (h.endKey hk) ((State.takeEnd_elsewhere hc).trans h.keyBell)
  refine ⟨_, _, rfl, rfl, ?_⟩
  generalize hp : (if c = .endKey then s.print else s.print.echo .autoEnd) = p
  obtain ⟨fromKey, hx, hq, hw⟩ : ∃ fromKey,
    exec c s = .next (State.endMessage { s with print := p } slot fromKey).settle ∧
      (if c = .endKey then rest else s.kb.queue) = (if fromKey then s.kb.queue.tail else s.kb.queue) ∧
      (if c = .endKey then Hold.endBlock else .autoEnd) = (if fromKey then .endBlock else .autoEnd) := by
    subst hp
    obtain ⟨rfl, hq, hk⟩ | ⟨rfl, n, ha, hn⟩ := hrow
    · have h : s.takesNext k rest := ⟨hl, hh, hq⟩
      exact ⟨true, exec_settles (h.endKey hk) ((State.takeEnd_composing hc).trans (State.endCurrent_message hs true)),
        by rw [hq]; rfl, rfl⟩
    · exact ⟨false, exec_settles (exec_autoEndExpiry hl) ((State.autoEndExpires_due hc ha hn).trans
        (State.endCurrent_message (s := s.placeEcho .autoEnd) hs false)), rfl, rfl⟩
  rw [hq, hw]
  have ends (u : State) (hu : u.kb.hold = .none) := u.ended_free hu fromKey
  refine ⟨fun codes ho hn => ?releases, fun ho hf => ?takesBlock, fun ho hf => ?waits, fun ho hr => ?withdraws⟩
  case releases =>
    exact ⟨_, exec_settles hx
      ((State.endMessage_releases (s := { s with print := p }) ho hn fromKey).trans (ends _ hh)), rfl, rfl⟩
  case takesBlock =>
    exact ⟨_, exec_settles hx
      ((State.endMessage_takesBlock (s := { s with print := p }) ho hf fromKey).trans (ends _ hh)), rfl, rfl⟩
  case waits => exact exec_settles hx (State.endMessage_waits (s := { s with print := p }) ho hf fromKey)
  case withdraws =>
    exact ⟨_, exec_settles hx
      ((State.endMessage_withdraws (s := { s with print := p }) ho hr fromKey).trans (ends _ hh)), rfl, rfl⟩

end Sys2Proof.Machine
end

section
/-! SUPPORT. The codes that the elements of a keystroke emit one after another, and LOCAL typing (R10, R12, R124,
R138). -/
namespace Sys2Proof.Machine

/-! ### One element (R10, R12) -/

section
variable {cs : CompCase} {e : Emit} {c : Code} {left : List Emit}

theorem emission_none (h : emission cs e = none) : e = .returnRelease ∨ e = .leadShift ∧ cs = .letters := by
  cases e with
  | leadShift => by_cases hc : cs = .letters <;> simp_all [emission]
  | letter d => by_cases hc : cs = .letters <;> simp_all [emission]
  | figure d => by_cases hc : cs = .figures <;> simp_all [emission]
  | raw d => cases h
  | returnRelease => exact .inl rfl

/-- A code that leaves nothing of its element, or the shift of a character that stays behind it. -/
theorem emission_some (h : emission cs e = some (c, left)) :
    left = [] ∧ (e = .raw c ∨ e = .letter c ∧ cs = .letters ∨ e = .figure c ∧ cs = .figures ∨
      e = .leadShift ∧ cs ≠ .letters ∧ c = 31) ∨
    left = [e] ∧ ((∃ d, e = .letter d) ∧ cs ≠ .letters ∧ c = 31 ∨ (∃ d, e = .figure d) ∧ cs ≠ .figures ∧ c = 30) := by
  cases e with
  | letter d => by_cases hc : cs = .letters <;> simp_all [emission]
  | figure d => by_cases hc : cs = .figures <;> simp_all [emission]
  | leadShift => by_cases hc : cs = .letters <;> simp_all [emission]
  | raw d => simp_all [emission]
  | returnRelease => cases h

theorem emitOutput_silent (h : emission cs e = none) (rest : List Emit) :
    emitOutput cs (e :: rest) = emitOutput cs rest := by
  obtain rfl | ⟨rfl, rfl⟩ := emission_none h <;> simp [emitOutput]

theorem emitOutput_code (h : emission cs e = some (c, left)) (rest : List Emit) :
    emitOutput cs (e :: rest) = c :: emitOutput (caseAfter cs c) (left ++ rest) := by
  obtain ⟨rfl, rfl | ⟨rfl, rfl⟩ | ⟨rfl, rfl⟩ | ⟨rfl, hc, rfl⟩⟩ | ⟨rfl, ⟨⟨d, rfl⟩, hc, rfl⟩ | ⟨⟨d, rfl⟩, hc, rfl⟩⟩ :=
    emission_some h
  all_goals simp_all [emitOutput, caseAfter]

theorem leftAfter_silent (h : emission cs e = none) (n : Nat) (rest : List Emit) :
    leftAfter cs (n + 1) (e :: rest) = leftAfter cs (n + 1) rest := by
  obtain rfl | ⟨rfl, rfl⟩ := emission_none h <;> simp [leftAfter]

theorem leftAfter_code (h : emission cs e = some (c, left)) (n : Nat) (rest : List Emit) :
    leftAfter cs (n + 1) (e :: rest) = leftAfter (caseAfter cs c) n (left ++ rest) := by
  obtain ⟨rfl, rfl | ⟨rfl, rfl⟩ | ⟨rfl, rfl⟩ | ⟨rfl, hc, rfl⟩⟩ | ⟨rfl, ⟨⟨d, rfl⟩, hc, rfl⟩ | ⟨⟨d, rfl⟩, hc, rfl⟩⟩ :=
    emission_some h
  case inr.inl | inr.inr => cases n <;> simp_all [leftAfter, caseAfter]
  all_goals simp_all [leftAfter, caseAfter]

end

/-! ### The elements up to a code -/

/-- From a case the elements emit this code first and leave these: those before the code emit nothing. -/
inductive emitsFirst (cs : CompCase) (c : Code) : List Emit → List Emit → Prop where
  | code {e : Emit} {left rest : List Emit} : emission cs e = some (c, left) →
      emitsFirst cs c (e :: rest) (left ++ rest)
  | silent {e : Emit} {es left : List Emit} : emission cs e = none → emitsFirst cs c es left →
      emitsFirst cs c (e :: es) left

section
variable {cs : CompCase} {c : Code} {es left : List Emit}

theorem emitsFirst_of_output {out : List Code} (h : emitOutput cs es = c :: out) : ∃ left, emitsFirst cs c es left := by
  induction es with
  | nil => cases h
  | cons e es ih =>
    cases he : emission cs e with
    | none =>
      obtain ⟨left, hl⟩ := ih ((emitOutput_silent he es).symm.trans h)
      exact ⟨left, .silent he hl⟩
    | some x =>
      obtain ⟨d, l⟩ := x
      obtain ⟨rfl, -⟩ := List.cons.inj ((emitOutput_code he es).symm.trans h)
      exact ⟨_, .code he⟩

theorem emitsFirst.output (h : emitsFirst cs c es left) : emitOutput cs es = c :: emitOutput (caseAfter cs c) left := by
  induction h with
  | code he => exact emitOutput_code he _
  | silent he _ ih => rw [emitOutput_silent he, ih]

theorem emitsFirst.leftAfter (h : emitsFirst cs c es left) (n : Nat) :
    leftAfter cs (n + 1) es = leftAfter (caseAfter cs c) n left := by
  induction h with
  | code he => exact leftAfter_code he n _
  | silent he _ ih => rw [leftAfter_silent he, ih]

theorem emitsFirst.suffix (h : emitsFirst cs c es left) : left <:+ es := by
  induction h with
  | code he =>
    obtain ⟨hl, -⟩ | ⟨hl, -⟩ := emission_some he <;> rw [hl]
    · exact List.suffix_cons _ _
    · exact List.suffix_rfl
  | silent _ _ ih => exact ih.trans (List.suffix_cons _ _)

end

/-- Elements that emit no code emit nothing one by one. -/
theorem emission_of_output_nil {cs : CompCase} {es : List Emit} (h : emitOutput cs es = []) :
    ∀ e ∈ es, emission cs e = none := by
  induction es with
  | nil => exact List.forall_mem_nil _
  | cons e es ih =>
    cases he : emission cs e with
    | none => exact List.forall_mem_cons.mpr ⟨he, ih ((emitOutput_silent he es).symm.trans h)⟩
    | some x => exact absurd ((emitOutput_code he es).symm.trans h) (List.cons_ne_nil _ _)

/-- No element emits more than two codes. -/
theorem emitOutput_length (es : List Emit) : ∀ cs, (emitOutput cs es).length ≤ 2 * es.length := by
  induction es with
  | nil => exact fun _ => Nat.le_refl 0
  | cons e es ih =>
    intro cs
    cases e <;> grind [emitOutput]

/-! ### The elements of a keystroke -/

@[simp] theorem emitOutput_raws (codes : List Code) : ∀ cs, emitOutput cs (codes.map Emit.raw) = codes := by
  induction codes with
  | nil => exact fun _ => rfl
  | cons c codes ih => exact fun cs => congrArg (c :: ·) (ih _)

theorem leftAfter_raws (a : List Code) (es : List Emit) :
    ∀ cs, leftAfter cs a.length (a.map Emit.raw ++ es) = es := by
  induction a with
  | nil => intro cs; cases es <;> rfl
  | cons c a ih => exact fun cs => ih _

/-- What a text key or HERE IS emits is what its elements emit. -/
theorem keyOutput_eq (answerback : List Code) (k : Keystroke) (cs : CompCase) :
    keyOutput answerback k cs = emitOutput cs (emitsOf answerback k) := by
  unfold keyOutput emitsOf
  cases k.key with
  | code i => cases k.shift <;> by_cases h : cs = .letters <;> by_cases h' : cs = .figures <;> simp_all [emitOutput]
  | hereIs => by_cases h : cs = .letters <;> simp [emitOutput, h]
  | _ => rfl

/-- A keystroke that has emitted some of its codes leaves what brings the others. -/
theorem leftAfter_emitsOf {answerback : List Code} {k : Keystroke} {cs : CompCase} {one two : List Code}
    (h : keyOutput answerback k cs = one ++ two) (hone : one ≠ []) :
    leftAfter cs one.length (emitsOf answerback k) = leftOf k two := by
  have raws (tail : List Emit) :
    leftAfter cs one.length ((one ++ two).map Emit.raw ++ tail) = two.map Emit.raw ++ tail := by
    rw [List.map_append, List.append_assoc, leftAfter_raws]
  have bare := raws []
  rw [List.append_nil, List.append_nil] at bare
  obtain ⟨c, one, rfl⟩ := List.exists_cons_of_ne_nil hone
  unfold keyOutput at h
  unfold emitsOf leftOf
  cases hk : k.key with
  | code i =>
    simp only [hk] at h
    cases hs : k.shift
    · by_cases hc : cs = .letters <;> cases one <;> grind [leftAfter, List.append_eq_nil_iff]
    · by_cases hc : cs = .figures <;> cases one <;> grind [leftAfter, List.append_eq_nil_iff]
  | hereIs =>
    simp only [hk] at h
    by_cases hc : cs = .letters
    · rw [if_pos hc, List.nil_append] at h
      rw [h]
      exact (leftAfter_silent (by rw [emission, if_pos hc]) _ _).trans bare
    · rw [if_neg hc, List.singleton_append, List.cons_append, List.cons.injEq] at h
      rw [h.2, List.map_append]
      exact (leftAfter_code (by rw [emission, if_neg hc]) _ _).trans (leftAfter_raws _ _ _)
  | space =>
    rw [hk] at h
    exact (h ▸ bare :)
  | lineFeed =>
    rw [hk] at h
    exact (h ▸ bare :)
  | ret =>
    rw [hk] at h
    exact (h ▸ raws [.returnRelease] :)
  | _ => simp [hk] at h

/-- HERE IS emits most: its answerback of 20 codes behind a shift. -/
theorem emitsOf_length {answerback : List Code} (h : answerback.length = 20) (k : Keystroke) :
    (emitsOf answerback k).length ≤ 21 := by
  unfold emitsOf
  split <;> (try split) <;> simp [h]

theorem keyOutput_length {answerback : List Code} (h : answerback.length = 20) (k : Keystroke) (cs : CompCase) :
    (keyOutput answerback k cs).length ≤ 21 := by
  unfold keyOutput
  split <;> (try split) <;> (try split) <;> simp [h]

/-! ### LOCAL typing (R138) -/

/-- Codes typed in LOCAL have gone to the echo, and with PUNCH selected to the local punch FIFO. -/
def State.typed (s : State) (out : List Code) : State := { s with
  print := out.foldl (fun p x => p.echo (.code x)) s.print
  punch := { s.punch with fifo := if s.panel.punchSel then s.punch.fifo ++ out else s.punch.fifo }
  kb := { s.kb with case := out.foldl caseAfter s.kb.case } }

theorem State.typed_nil (s : State) : s.typed [] = s := by
  unfold State.typed
  simp

theorem State.typed_typed (s : State) (a b : List Code) : (s.typed a).typed b = s.typed (a ++ b) := by
  unfold State.typed
  cases s.panel.punchSel <;> simp

section
variable {s : State} {c : Code} {es left : List Emit}

/-- A code that is not held: PUNCH is off, or its FIFO has room. -/
theorem emitsFirst.typed (h : emitsFirst s.kb.case c es left)
    (hp : s.panel.punchSel = true → s.punch.fifo.length < 64) : ∀ k, es.length < k →
    ∃ k', k + left.length ≤ k' + es.length + 1 ∧ s.emitLocal k es = (s.typed [c]).emitLocal k' left := by
  induction h with
  | code he =>
    intro k hk
    obtain ⟨k, rfl⟩ := Nat.exists_eq_add_one.mpr (Nat.zero_lt_of_lt hk)
    refine ⟨k, ?_, ?_⟩
    · obtain ⟨hl, -⟩ | ⟨hl, -⟩ := emission_some he
        <;> simp only [hl, List.length_append, List.length_cons, List.length_nil] <;> omega
    · simp only [State.emitLocal, he]
      cases hs : s.panel.punchSel
      · simp [State.typed, State.placeEcho, State.withKb, hs]
      · have hf : s.punch.fifoFull = false := by
          rw [Bool.eq_false_iff, ne_eq, s.punch.fifoFull_iff]
          exact Nat.not_le.mpr (hp hs)
        simp [State.typed, State.placeEcho, State.withKb, State.pushPunch, hs, hf]
  | silent he _ ih =>
    intro k hk
    obtain ⟨k, rfl⟩ := Nat.exists_eq_add_one.mpr (Nat.zero_lt_of_lt hk)
    rw [List.length_cons] at hk ⊢
    obtain ⟨k', hk', heq⟩ := ih k (by omega)
    exact ⟨k', by omega, by simp only [State.emitLocal, he, heq]⟩

/-- A code that finds the FIFO full is echoed and held, however full it is. -/
theorem emitsFirst.held (h : emitsFirst s.kb.case c es left) (hp : s.panel.punchSel = true)
    (hl : 64 ≤ s.punch.fifo.length) : ∀ k, es.length < k → s.emitLocal k es = s.heldLocal [] c left := by
  induction h with
  | code he =>
    intro k hk
    obtain ⟨k, rfl⟩ := Nat.exists_eq_add_one.mpr (Nat.zero_lt_of_lt hk)
    have hf := s.punch.fifoFull_iff.mpr hl
    simp only [State.emitLocal, he]
    simp [State.heldLocal, State.placeEcho, State.withKb, hp, hf]
  | silent he _ ih =>
    intro k hk
    obtain ⟨k, rfl⟩ := Nat.exists_eq_add_one.mpr (Nat.zero_lt_of_lt hk)
    simp only [State.emitLocal, he, ih k (Nat.lt_of_succ_lt_succ hk)]

/-- Elements that emit no code end their keystroke. -/
theorem State.emitLocal_silent (h : emitOutput s.kb.case es = []) : ∀ k, es.length < k →
    s.emitLocal k es = s.keyDone := by
  have hn := emission_of_output_nil h
  clear h
  induction es with
  | nil =>
    intro k hk
    obtain ⟨k, rfl⟩ := Nat.exists_eq_add_one.mpr hk
    rfl
  | cons e es ih =>
    intro k hk
    obtain ⟨k, rfl⟩ := Nat.exists_eq_add_one.mpr (Nat.zero_lt_of_lt hk)
    obtain ⟨he, hes⟩ := List.forall_mem_cons.mp hn
    simp only [State.emitLocal, he, ih hes k (Nat.lt_of_succ_lt_succ hk)]

end

/-- Codes of which none is held end their keystroke. -/
theorem State.emitLocal_typed (out : List Code) : ∀ (s : State) (es : List Emit) (k : Nat),
    emitOutput s.kb.case es = out → es.length + out.length < k →
    (s.panel.punchSel = true → s.punch.fifo.length + out.length ≤ 64) → s.emitLocal k es = (s.typed out).keyDone := by
  induction out with
  | nil =>
    intro s es k ho hk _
    rw [State.emitLocal_silent ho k hk, State.typed_nil]
  | cons c out ih =>
    intro s es k ho hk hp
    rw [List.length_cons] at hk hp
    obtain ⟨left, hf⟩ := emitsFirst_of_output ho
    obtain ⟨k', hk', heq⟩ := hf.typed (fun h => by have := hp h; omega) k (by omega)
    have hout : emitOutput (s.typed [c]).kb.case left = out := (List.cons.inj (hf.output.symm.trans ho)).2
    have := hf.suffix.length_le
    rw [heq, ih _ _ _ hout (by omega), State.typed_typed, List.singleton_append]
    intro h
    have hs : s.panel.punchSel = true := h
    have := hp hs
    simp only [State.typed, hs, if_true, List.length_append, List.length_singleton]
    omega

/-- The codes before the one that is held have room, or the FIFO is full from the first on. -/
theorem State.emitLocal_stops {s : State} {es : List Emit} {one two : List Code} {y : Code} {k : Nat}
    (hp : s.panel.punchSel = true) (ho : emitOutput s.kb.case es = one ++ y :: two)
    (hl : s.punch.fifo.length + one.length = 64 ∨ one = [] ∧ 64 ≤ s.punch.fifo.length) (hk : 2 * es.length < k) :
    s.emitLocal k es = s.heldLocal one y (leftAfter s.kb.case (one.length + 1) es) := by
  obtain hl | ⟨rfl, hl⟩ := hl
  · exact State.emitLocal_full es one y two s k hp ho hl hk
  · obtain ⟨left, hf⟩ := emitsFirst_of_output ho
    rw [hf.held hp hl k (by omega), List.length_nil, hf.leftAfter 0, leftAfter]

section
variable {s : State} {k : Keystroke} {rest : List Keystroke}

theorem State.typed_off (hp : s.panel.punchSel = false) (out : List Code) : s.typed out = { s with
    print := out.foldl (fun p x => p.echo (.code x)) s.print
    kb := { s.kb with case := out.foldl caseAfter s.kb.case } } := by
  rw [State.typed, hp]
  rfl

theorem State.typed_on (hp : s.panel.punchSel = true) (out : List Code) : s.typed out = { s with
    print := out.foldl (fun p x => p.echo (.code x)) s.print
    punch := { s.punch with fifo := s.punch.fifo ++ out }
    kb := { s.kb with case := out.foldl caseAfter s.kb.case } } := by
  rw [State.typed, hp]
  rfl

/-- A keystroke acted on is no more held. -/
theorem State.keyDone_head (hq : s.kb.queue = k :: rest) :
    s.keyDone = { s with kb := { s.kb with queue := rest, hold := .none } } := by
  rw [State.keyDone, hq]
  rfl

theorem State.takeText_local (hc : s.kb.comp = .localMode) (k : Keystroke) :
    s.takeText k = s.emitLocal emitFuel (emitsOf s.panel.settings.answerback k) := by
  rw [State.takeText, hc]

theorem exec_localCodeResumed (h : s.panel.phase = .done) :
    exec .localCodeResumed s = .next s.resumeLocal.settle :=
  congrArg _ (State.acting_live (s.live_iff.mpr h) _)

theorem State.resumeLocal_off {x : Code} {es : List Emit} (hh : s.kb.hold = .localCode x es)
    (hp : s.panel.punchSel = false) : s.resumeLocal = s.emitLocal emitFuel es := by
  rw [State.resumeLocal, hh, hp]
  rfl

theorem State.resumeLocal_room {x : Code} {es : List Emit} (hh : s.kb.hold = .localCode x es)
    (hp : s.panel.punchSel = true) (hl : s.punch.fifo.length < 64) :
    s.resumeLocal = (s.pushPunch x).emitLocal emitFuel es := by
  rw [State.resumeLocal, hh]
  exact (if_pos hp).trans (if_neg fun hf => Nat.not_le.mpr hl (s.punch.fifoFull_iff.mp hf))

theorem State.resumeLocal_full {x : Code} {es : List Emit} (hh : s.kb.hold = .localCode x es)
    (hp : s.panel.punchSel = true) (hl : 64 ≤ s.punch.fifo.length) : s.resumeLocal = s := by
  rw [State.resumeLocal, hh]
  exact (if_pos hp).trans (if_pos (s.punch.fifoFull_iff.mpr hl))

end

/-- Settles O44: a keystroke and a resumption, each by the room that its codes find. -/
theorem localTyping : Obligations.LocalTyping := by
  intro c k rest out s hl hc hq hab
  refine ⟨fun ht hh ho => ?keystroke, fun x es hh hes ho => ?resumption⟩
  case keystroke =>
    have h : s.takesNext k rest := ⟨hl, hh, hq⟩
    have hx := exec_settles (h.text ht (by rw [Keyboard.inDestEntry, hc]) (by rw [Keyboard.inTimeEntry, hc]))
      (State.takeText_local hc k)
    have hlen := emitsOf_length hab k
    have hout : out.length ≤ 21 := ho ▸ keyOutput_length hab k s.kb.case
    have hemit := (keyOutput_eq s.panel.settings.answerback k s.kb.case).symm.trans ho.symm
    have hfuel : emitFuel = 100 := rfl
    have htyped := State.emitLocal_typed out s _ emitFuel hemit (by omega)
    refine ⟨fun hp => ?off, fun hp hr => ?room, fun one x two hp hsplit hr => ?full⟩
    case off =>
      rw [htyped (by simp [hp]), State.typed_off hp] at hx
      exact exec_settles hx (State.keyDone_took (k := k) hh hq)
    case room =>
      rw [htyped fun _ => hr, State.typed_on hp] at hx
      exact exec_settles hx (State.keyDone_took (k := k) hh hq)
    case full =>
      have hleft := leftAfter_emitsOf (one := one ++ [x]) (two := two) (ho.symm.trans (hsplit.trans (by simp)))
        (by simp)
      rw [List.length_append, List.length_singleton] at hleft
      rw [State.emitLocal_stops hp (hemit.trans hsplit) hr (by omega), hleft] at hx
      exact hx
  case resumption =>
    have hx := exec_localCodeResumed hl
    have hout : out.length ≤ 50 := ho ▸ (emitOutput_length es s.kb.case).trans (by omega)
    have hfuel : emitFuel = 100 := rfl
    have htyped (u : State) (hu : emitOutput u.kb.case es = out) :=
      State.emitLocal_typed out u es emitFuel hu (by omega)
    refine ⟨fun hp hr => ?room, fun one y two hp hsplit hr => ?again, fun hp hf => ?full, fun hp => ?off⟩
    case room =>
      have hlen : (s.pushPunch x).punch.fifo.length + out.length ≤ 64 := by simpa [State.pushPunch] using hr
      rw [State.resumeLocal_room hh hp (by omega), htyped (s.pushPunch x) ho.symm fun _ => hlen,
        State.typed_on (s := s.pushPunch x) hp] at hx
      refine exec_settles hx (Eq.trans (State.keyDone_head (k := k) hq) ?_)
      simp [State.pushPunch]
    case again =>
      have hlen : (s.pushPunch x).punch.fifo.length + one.length = 64 := by simpa [State.pushPunch] using hr
      rw [State.resumeLocal_room hh hp (by omega), State.emitLocal_stops (s := s.pushPunch x) hp
        (ho.symm.trans hsplit) (.inl hlen) (by omega)] at hx
      refine exec_settles hx ?_
      simp [State.heldLocal, State.pushPunch]
    case full => exact exec_settles hx (State.resumeLocal_full hh hp hf)
    case off =>
      rw [State.resumeLocal_off hh hp, htyped s ho.symm (by simp [hp]), State.typed_off hp] at hx
      exact exec_settles hx (State.keyDone_head (k := k) hq)

end Sys2Proof.Machine
end

section
/-! SUPPORT. Writing the codes of a keystroke to a composition: up to the end of a block, into a further block, and
RETURN's release (R10, R129 to R131). -/
namespace Sys2Proof.Machine

/-! ### Runs of codes -/

/-- What is left after some codes brings the others. -/
theorem emitOutput_leftAfter (one : List Code) : ∀ {cs : CompCase} {es : List Emit} {two : List Code},
    emitOutput cs es = one ++ two → emitOutput (one.foldl caseAfter cs) (leftAfter cs one.length es) = two := by
  induction one with
  | nil => intro cs es two h; rwa [List.length_nil, leftAfter]
  | cons c one ih =>
    intro cs es two h
    obtain ⟨left, hf⟩ := emitsFirst_of_output h
    rw [List.length_cons, hf.leftAfter]
    exact ih (List.cons.inj (hf.output.symm.trans h)).2

theorem leftAfter_suffix (one : List Code) : ∀ {cs : CompCase} {es : List Emit} {two : List Code},
    emitOutput cs es = one ++ two → leftAfter cs one.length es <:+ es := by
  induction one with
  | nil => intro cs es two _; rw [List.length_nil, leftAfter]
  | cons c one ih =>
    intro cs es two h
    obtain ⟨left, hf⟩ := emitsFirst_of_output h
    rw [List.length_cons, hf.leftAfter]
    exact (ih (List.cons.inj (hf.output.symm.trans h)).2).trans hf.suffix

theorem emitsFirst.append {cs : CompCase} {c : Code} {es left : List Emit} (h : emitsFirst cs c es left)
    (more : List Emit) : emitsFirst cs c (es ++ more) (left ++ more) := by
  induction h with
  | code he => rw [List.append_assoc]; exact .code he
  | silent he _ ih => exact .silent he ih

/-- Elements that emit nothing do not count. -/
theorem emitOutput_skip {cs : CompCase} {quiet : List Emit} (h : ∀ e ∈ quiet, emission cs e = none) (es : List Emit) :
    emitOutput cs (quiet ++ es) = emitOutput cs es := by
  induction quiet with
  | nil => rfl
  | cons e quiet ih =>
    obtain ⟨he, hq⟩ := List.forall_mem_cons.mp h
    rw [List.cons_append, emitOutput_silent he, ih hq]

/-- All codes of the elements in front come first. -/
theorem emitOutput_append (out : List Code) : ∀ {cs : CompCase} {es : List Emit}, emitOutput cs es = out →
    ∀ more, emitOutput cs (es ++ more) = out ++ emitOutput (out.foldl caseAfter cs) more := by
  induction out with
  | nil => exact fun h more => emitOutput_skip (emission_of_output_nil h) more
  | cons c out ih =>
    intro cs es h more
    obtain ⟨left, hf⟩ := emitsFirst_of_output h
    rw [(hf.append more).output, ih (List.cons.inj (hf.output.symm.trans h)).2]
    rfl

theorem leftAfter_append (one : List Code) : ∀ {cs : CompCase} {es : List Emit} {two : List Code},
    emitOutput cs es = one ++ two →
    ∀ more, leftAfter cs one.length (es ++ more) = leftAfter cs one.length es ++ more := by
  induction one with
  | nil => intro cs es two _ more; rw [List.length_nil, leftAfter, leftAfter]
  | cons c one ih =>
    intro cs es two h more
    obtain ⟨left, hf⟩ := emitsFirst_of_output h
    rw [List.length_cons, hf.leftAfter, (hf.append more).leftAfter, ih (List.cons.inj (hf.output.symm.trans h)).2]

/-! ### Releases (R130) -/

/-- RETURN's codes release the block: the option is set and the latch clear. -/
def State.returnDue (s : State) : Prop := s.panel.settings.returnReleases = true ∧ s.line.latch = false

theorem Store.openBlock_none {st : Store} {slot : Nat} : st.openBlock slot = none ↔ st.openCodes slot = none := by
  rw [Store.openCodes, Option.map_eq_none_iff]

/-- A released block is open no more; its entry stays, and no block is freed. -/
theorem Store.releaseOpen_closes {st : Store} {slot : Nat} {codes : List Code} (h : st.openCodes slot = some codes)
    (final : Bool) : (st.releaseOpen slot final).openCodes slot = none ∧
    (∃ e, (st.releaseOpen slot final).entry slot = some e) ∧ (st.releaseOpen slot final).free = st.free := by
  obtain ⟨b, hb, -⟩ := Store.openCodes_some.mp h
  obtain ⟨e, he, hl, -⟩ := Store.openBlock_some.mp hb
  rw [Store.releaseOpen_of hb]
  have hentry := Store.entry_updateEntry (st := st.setBlock b { st.block b with released := true })
    (f := fun e => { e with sections := e.sections + 1, state := if final then .closed else e.state }) he
    (Store.entry_mem he).2
  refine ⟨?_, ⟨_, hentry⟩, rfl⟩
  rw [← Store.openBlock_none, Store.openBlock, hentry]
  dsimp only
  rw [hl]
  exact if_pos (congrArg Block.released (Store.block_setBlock_live st b _ fun h => by cases congrArg Block.released h))

theorem Store.setOpenCodes_free (st : Store) (slot : Nat) (codes : List Code) :
    (st.setOpenCodes slot codes).free = st.free := by
  unfold Store.setOpenCodes
  split <;> rfl

section
variable {s : State} {slot : Nat}

theorem State.returnRelease_not (h : ¬ s.returnDue) : s.returnRelease slot = s :=
  if_neg fun ⟨hr, hl, _⟩ => h ⟨hr, hl⟩

theorem State.returnRelease_closed (h : s.store.openCodes slot = none) : s.returnRelease slot = s :=
  if_neg fun ⟨_, _, ho⟩ => by simp [Store.openBlock_none.mpr h] at ho

theorem State.returnRelease_open (h : s.returnDue) {codes : List Code} (ho : s.store.openCodes slot = some codes) :
    s.returnRelease slot = s.release slot false :=
  if_pos ⟨h.1, h.2, by obtain ⟨b, hb, -⟩ := Store.openCodes_some.mp ho; rw [hb]; rfl⟩

/-! ### Up to the end of a block (R129) -/

/-- Codes that end a block, which they release. -/
def State.filled (s : State) (slot : Nat) (codes out : List Code) : State :=
  (s.wrote slot codes out).release slot false

/-- Codes written to the open block: the 32nd ends it. -/
def State.written (s : State) (slot : Nat) (codes out : List Code) : State :=
  if 32 ≤ codes.length + out.length then s.filled slot codes out else s.wrote slot codes out

theorem State.writeCode_written (s : State) (slot : Nat) (codes : List Code) (c : Code) :
    s.writeCode slot codes c = s.written slot codes [c] := rfl

theorem State.wrote_written (s : State) (slot : Nat) (codes : List Code) {a b : List Code} (ha : a ≠ []) (hb : b ≠ []) :
    (s.wrote slot codes a).written slot (codes ++ a) b = s.written slot codes (a ++ b) := by
  unfold State.written State.filled
  rw [State.wrote_wrote _ _ _ _ _ ha hb, List.length_append, List.length_append, Nat.add_assoc]

/-- A block that has ended leaves the keystroke in hand. -/
theorem State.filled_keys (s : State) (slot : Nat) (codes out : List Code) :
    (s.filled slot codes out).kb.hold = s.kb.hold ∧ (s.filled slot codes out).kb.queue = s.kb.queue := ⟨rfl, rfl⟩

/-- Behind a block that has ended none is open. -/
theorem State.filled_closes {codes out : List Code} (ho : s.store.openCodes slot = some codes) (hne : out ≠ []) :
    (s.filled slot codes out).store.openCodes slot = none ∧
    (∃ e, (s.filled slot codes out).store.entry slot = some e) ∧
    (s.filled slot codes out).store.free = s.store.free := by
  obtain ⟨hclosed, hentry, hfree⟩ := Store.releaseOpen_closes
    (Store.openCodes_setOpenCodes (codes := codes ++ out) ho (by simp [hne])) false
  exact ⟨hclosed, hentry, hfree.trans (Store.setOpenCodes_free _ _ _)⟩

variable {es : List Emit}

/-- Elements that emit nothing, and of which none releases the block, are passed over. -/
theorem State.emitLine_skip {quiet : List Emit} (hq : ∀ e ∈ quiet, emission s.kb.case e = none)
    (hr : .returnRelease ∈ quiet → s.returnRelease slot = s) (k : Nat) (es : List Emit) :
    s.emitLine slot (k + quiet.length) (quiet ++ es) = s.emitLine slot k es := by
  induction quiet with
  | nil => rfl
  | cons e quiet ih =>
    obtain ⟨he, hq⟩ := List.forall_mem_cons.mp hq
    rw [List.length_cons, ← Nat.add_assoc, List.cons_append, State.emitLine,
      ← ih hq fun h => hr (List.mem_cons_of_mem _ h)]
    split
    · next hret => rw [hr (hret ▸ List.mem_cons_self)]
    · rw [he]

/-- The first code of the elements is written to the open block. RETURN's release behind it is not reached. -/
theorem emitsFirst.written {c : Code} {left : List Emit} {codes : List Code} (h : emitsFirst s.kb.case c es left)
    (hr : .returnRelease ∉ es.dropLast ∨ ¬ s.returnDue) (ho : s.store.openCodes slot = some codes) :
    ∀ k, es.length < k → ∃ k', k + left.length ≤ k' + es.length + 1 ∧
      s.emitLine slot k es = (s.written slot codes [c]).emitLine slot k' left := by
  induction h with
  | @code e left rest he =>
    intro k hk
    obtain ⟨k, rfl⟩ := Nat.exists_eq_add_one.mpr (Nat.zero_lt_of_lt hk)
    refine ⟨k, ?_, ?_⟩
    · obtain ⟨hl, -⟩ | ⟨hl, -⟩ := emission_some he <;>
        simp only [hl, List.length_append, List.length_cons, List.length_nil] <;> omega
    · have hne : e ≠ .returnRelease := by rintro rfl; cases he
      rw [State.emitLine, if_neg hne, he]
      dsimp only
      rw [ho, ← State.writeCode_written]
  | @silent e es left he hfirst ih =>
    intro k hk
    obtain ⟨k, rfl⟩ := Nat.exists_eq_add_one.mpr (Nat.zero_lt_of_lt hk)
    have hes : es ≠ [] := by rintro rfl; cases hfirst
    rw [List.dropLast_cons_of_ne_nil hes, List.mem_cons] at hr
    obtain ⟨k', hk', heq⟩ := ih (hr.imp_left fun h hm => h (.inr hm)) k (by rw [List.length_cons] at hk; omega)
    refine ⟨k', by rw [List.length_cons]; omega, ?_⟩
    rw [← heq]
    refine State.emitLine_skip (quiet := [e]) (List.forall_mem_singleton.mpr he) (fun hret => ?_) k es
    exact State.returnRelease_not (hr.resolve_left fun h => h (.inl (List.mem_singleton.mp hret)))

end

/-- Codes with room in the open block, or that fill it, are written, and the rest of the elements goes on. -/
theorem State.emitLine_written (one : List Code) : ∀ {s : State} {slot : Nat} {es : List Emit} {codes two : List Code}
    {k : Nat}, emitOutput s.kb.case es = one ++ two → one ≠ [] → codes.length + one.length ≤ 32 →
    (.returnRelease ∉ es.dropLast ∨ ¬ s.returnDue) → s.store.openCodes slot = some codes →
    es.length + one.length < k →
    ∃ k', k + (leftAfter s.kb.case one.length es).length ≤ k' + es.length + one.length ∧
      s.emitLine slot k es = (s.written slot codes one).emitLine slot k' (leftAfter s.kb.case one.length es) := by
  induction one with
  | nil => exact fun _ hne => absurd rfl hne
  | cons c one ih =>
    intro s slot es codes two k hout _ hl hr ho hk
    rw [List.length_cons] at hl hk ⊢
    obtain ⟨left, hf⟩ := emitsFirst_of_output hout
    have hsuffix := hf.suffix
    have hlen := hsuffix.length_le
    obtain ⟨k', hk', heq⟩ := hf.written hr ho k (by omega)
    rw [hf.leftAfter]
    cases one with
    | nil => exact ⟨k', by rw [List.length_nil, leftAfter]; omega, by rw [heq, List.length_nil, leftAfter]⟩
    | cons d one =>
      rw [List.length_cons] at hl hk ⊢
      have hroom : s.written slot codes [c] = s.wrote slot codes [c] :=
        if_neg (by rw [List.length_singleton]; omega)
      have hopen := Store.openCodes_setOpenCodes (codes := codes ++ [c]) ho (by simp)
      have hquiet : .returnRelease ∉ left.dropLast ∨ ¬ s.returnDue := by
        refine hr.imp_left fun h hm => h ?_
        obtain ⟨a, rfl⟩ := hsuffix
        have : left ≠ [] := by rintro rfl; cases hm
        rw [List.dropLast_append_of_ne_nil this]
        exact List.mem_append_right _ hm
      obtain ⟨k'', hk'', heq'⟩ := ih (s := s.wrote slot codes [c]) (k := k')
        (List.cons.inj (hf.output.symm.trans hout)).2 (by simp) (by simp; omega) hquiet hopen
        (by rw [List.length_cons]; omega)
      have hk'' : k' + (leftAfter (caseAfter s.kb.case c) (one.length + 1) left).length ≤
        k'' + left.length + (one.length + 1) := hk''
      refine ⟨k'', by omega, ?_⟩
      rw [heq, hroom, heq', State.wrote_written _ _ _ (by simp) (by simp)]
      rfl

section
variable {s : State} {slot k : Nat} {es : List Emit} {codes out : List Code}

/-- Elements that emit nothing, and of which none releases the block, end their keystroke. -/
theorem State.emitLine_quiet (hq : ∀ e ∈ es, emission s.kb.case e = none)
    (hr : .returnRelease ∈ es → s.returnRelease slot = s) (hk : es.length < k) : s.emitLine slot k es = s.keyDone := by
  obtain ⟨j, rfl⟩ := Nat.exists_eq_add_of_lt hk
  have hskip := State.emitLine_skip hq hr (j + 1) []
  rwa [List.append_nil, Nat.add_comm (j + 1), ← Nat.add_assoc] at hskip

/-- Codes with room in the open block end their keystroke. -/
theorem State.emitLine_room (hout : emitOutput s.kb.case es = out) (hne : out ≠ [])
    (hl : codes.length + out.length < 32)
    (hr : .returnRelease ∉ es ∨ ¬ s.returnDue) (ho : s.store.openCodes slot = some codes)
    (hk : es.length + out.length < k) : s.emitLine slot k es = (s.wrote slot codes out).keyDone := by
  have hsplit : emitOutput s.kb.case es = out ++ [] := by rw [hout, List.append_nil]
  have hsuffix := leftAfter_suffix out hsplit
  obtain ⟨k', hk', heq⟩ := State.emitLine_written out hsplit hne (Nat.le_of_lt hl)
    (hr.imp_left fun h hm => h (List.mem_of_mem_dropLast hm)) ho hk
  rw [heq, State.written, if_neg (Nat.not_le.mpr hl)]
  exact State.emitLine_quiet (s := s.wrote slot codes out)
    (emission_of_output_nil (emitOutput_leftAfter out hsplit))
    (fun hm => State.returnRelease_not (hr.resolve_left fun h => h (hsuffix.mem hm))) (by omega)

/-- The codes of RETURN, or of what is left of it, release their block (R130). -/
theorem State.emitLine_return (hout : emitOutput s.kb.case (es ++ [.returnRelease]) = out) (hne : out ≠ [])
    (hl : codes.length + out.length < 32) (hr : .returnRelease ∉ es) (hd : s.returnDue)
    (ho : s.store.openCodes slot = some codes) (hk : es.length + 1 + out.length < k) :
    s.emitLine slot k (es ++ [.returnRelease]) = (s.filled slot codes out).keyDone := by
  have hes : emitOutput s.kb.case es = out ++ [] := by
    rw [← hout, emitOutput_append _ rfl]
    simp [emitOutput]
  have hsplit : emitOutput s.kb.case (es ++ [.returnRelease]) = out ++ [] := by rw [hout, List.append_nil]
  have hsuffix := leftAfter_suffix out hes
  obtain ⟨k', hk', heq⟩ := State.emitLine_written (k := k) out hsplit hne (Nat.le_of_lt hl)
    (.inl (by rwa [List.dropLast_concat])) ho (by simpa using hk)
  rw [leftAfter_append out hes] at hk' heq
  simp only [List.length_append, List.length_singleton] at hk'
  obtain ⟨j, rfl⟩ : ∃ j, k' = j + 2 + (leftAfter s.kb.case out.length es).length :=
    ⟨k' - 2 - (leftAfter s.kb.case out.length es).length, by omega⟩
  rw [heq, State.written, if_neg (Nat.not_le.mpr hl), State.emitLine_skip (s := s.wrote slot codes out)
    (emission_of_output_nil (emitOutput_leftAfter out hes)) fun hm => absurd (hsuffix.mem hm) hr]
  exact congrArg State.keyDone (State.returnRelease_open (s := s.wrote slot codes out) hd
    (Store.openCodes_setOpenCodes ho (by simp [hne])))

end

/-! ### Into a further block (R129) -/

/-- The state with a further block taken for the composition. -/
def State.furtherBlock (s : State) (slot : Nat) : State := { s with store := s.store.allocate slot 0 [] false }

section
variable {s : State} {slot k : Nat} {e : Emit} {es : List Emit} {out : List Code} {entry : Entry}

/-- A code that finds no open block and none free is held with the elements behind it. -/
theorem State.emitLine_waits (he : (emission s.kb.case e).isSome = true) (ho : s.store.openCodes slot = none)
    (hf : s.store.free = 0) (k : Nat) : s.emitLine slot (k + 1) (e :: es) = s.holdFor (.block (e :: es)) := by
  have hne : e ≠ .returnRelease := by rintro rfl; cases he
  have hb : ¬ s.store.hasBlock = true := by rw [Store.hasBlock_iff, hf]; exact Nat.lt_irrefl 0
  obtain ⟨⟨c, left⟩, hc⟩ := Option.isSome_iff_exists.mp he
  rw [State.emitLine, if_neg hne, hc]
  dsimp only
  rw [ho]
  exact if_neg hb

theorem State.emitLine_takesBlock (he : (emission s.kb.case e).isSome = true) (ho : s.store.openCodes slot = none)
    (hf : 1 ≤ s.store.free) (k : Nat) :
    s.emitLine slot (k + 1) (e :: es) = (s.furtherBlock slot).emitLine slot k (e :: es) := by
  have hne : e ≠ .returnRelease := by rintro rfl; cases he
  obtain ⟨⟨c, left⟩, hc⟩ := Option.isSome_iff_exists.mp he
  rw [State.emitLine, if_neg hne, hc]
  dsimp only
  rw [ho]
  exact if_pos (s.store.hasBlock_iff.mpr hf)

theorem emitOutput_ne_nil {cs : CompCase} (he : (emission cs e).isSome = true) : emitOutput cs (e :: es) ≠ [] := by
  obtain ⟨⟨c, left⟩, hc⟩ := Option.isSome_iff_exists.mp he
  rw [emitOutput_code hc]
  exact List.cons_ne_nil _ _

/-- A keystroke that asks for a block and has room in it. -/
theorem State.emitLine_further (he : (emission s.kb.case e).isSome = true) (ho : s.store.openCodes slot = none)
    (hentry : s.store.entry slot = some entry) (hf : 1 ≤ s.store.free) (hout : emitOutput s.kb.case (e :: es) = out)
    (hl : out.length < 32) (hr : .returnRelease ∉ e :: es ∨ ¬ s.returnDue)
    (hk : (e :: es).length + out.length + 1 < k) :
    s.emitLine slot k (e :: es) = ((s.furtherBlock slot).wrote slot [] out).keyDone := by
  obtain ⟨k, rfl⟩ := Nat.exists_eq_add_one.mpr (Nat.zero_lt_of_lt hk)
  rw [State.emitLine_takesBlock he ho hf]
  exact State.emitLine_room (s := s.furtherBlock slot) hout (hout ▸ emitOutput_ne_nil he)
    (by rwa [List.length_nil, Nat.zero_add]) hr (Store.openCodes_allocate hentry) (Nat.lt_of_succ_lt_succ hk)

/-- A keystroke that asks for a block and releases it. -/
theorem State.emitLine_furtherReturn (he : (emission s.kb.case e).isSome = true) (ho : s.store.openCodes slot = none)
    (hentry : s.store.entry slot = some entry) (hf : 1 ≤ s.store.free) (hout : emitOutput s.kb.case (e :: es) = out)
    (hl : out.length < 32) {before : List Emit} (hes : e :: es = before ++ [.returnRelease])
    (hr : .returnRelease ∉ before) (hd : s.returnDue) (hk : (e :: es).length + out.length + 1 < k) :
    s.emitLine slot k (e :: es) = ((s.furtherBlock slot).filled slot [] out).keyDone := by
  obtain ⟨k, rfl⟩ := Nat.exists_eq_add_one.mpr (Nat.zero_lt_of_lt hk)
  rw [State.emitLine_takesBlock he ho hf]
  have hne : out ≠ [] := hout ▸ emitOutput_ne_nil he
  rw [hes, List.length_append] at hk
  rw [hes] at hout ⊢
  exact State.emitLine_return (s := s.furtherBlock slot) hout hne (by rwa [List.length_nil, Nat.zero_add]) hr hd
    (Store.openCodes_allocate hentry) (Nat.lt_of_succ_lt_succ hk)

/-! ### The end of a keystroke while nothing is held -/

section
variable {k : Keystroke} {rest : List Keystroke} (hh : s.kb.hold = .none) (hq : s.kb.queue = k :: rest)
include hh hq

theorem State.wrote_done (codes out : List Code) : (s.wrote slot codes out).keyDone = { s with
    store := s.store.setOpenCodes slot (codes ++ out)
    print := out.foldl (fun p x => p.echo (.code x)) s.print
    kb := { s.kb with
      queue := rest, case := out.foldl caseAfter s.kb.case, idleTimer := some 0, autoEnd := some 0 } } :=
  State.keyDone_took (s := s.wrote slot codes out) hh hq

theorem State.filled_done (codes out : List Code) : (s.filled slot codes out).keyDone = { s with
    store := (s.store.setOpenCodes slot (codes ++ out)).releaseOpen slot false
    send := { s.send with
      sendList := refreshList ((s.store.setOpenCodes slot (codes ++ out)).releaseOpen slot false) [] s.send.sendList }
    print := out.foldl (fun p x => p.echo (.code x)) s.print
    kb := { s.kb with queue := rest, case := .unknown, idleTimer := none, autoEnd := some 0 } } :=
  State.keyDone_took (s := s.filled slot codes out) hh hq

theorem State.further_done (out : List Code) : ((s.furtherBlock slot).wrote slot [] out).keyDone = { s with
    store := (s.store.allocate slot 0 [] false).setOpenCodes slot out
    print := out.foldl (fun p x => p.echo (.code x)) s.print
    kb := { s.kb with
      queue := rest, case := out.foldl caseAfter s.kb.case, idleTimer := some 0, autoEnd := some 0 } } :=
  State.wrote_done (s := s.furtherBlock slot) hh hq [] out

theorem State.furtherReturn_done (out : List Code) : ((s.furtherBlock slot).filled slot [] out).keyDone = { s with
    store := ((s.store.allocate slot 0 [] false).setOpenCodes slot out).releaseOpen slot false
    send := { s.send with
      sendList := refreshList (((s.store.allocate slot 0 [] false).setOpenCodes slot out).releaseOpen slot false) []
        s.send.sendList }
    print := out.foldl (fun p x => p.echo (.code x)) s.print
    kb := { s.kb with queue := rest, case := .unknown, idleTimer := none, autoEnd := some 0 } } :=
  State.filled_done (s := s.furtherBlock slot) hh hq [] out

end

end

end Sys2Proof.Machine
end

section
/-! SUPPORT. A text key or HERE IS in a composition: its elements, and what becomes of them by the room in the open block
and the blocks free (R12, R124, R129, R130). -/
namespace Sys2Proof.Machine

/-! ### The elements of a text key or HERE IS -/

/-- A text key or HERE IS (R124). -/
def Keystroke.isText (k : Keystroke) : Prop := isTextKey k.key = true ∨ k.key = .hereIs

theorem textCommand.isText {k : Keystroke} {c : Instr} (h : textCommand k c) : k.isText := h.imp And.left And.left

/-- The five kinds of such a key. -/
theorem Keystroke.isText.cases {k : Keystroke} (h : k.isText) :
    (∃ i, k.key = .code i) ∨ k.key = .space ∨ k.key = .ret ∨ k.key = .lineFeed ∨ k.key = .hereIs := by
  unfold Keystroke.isText at h
  cases hk : k.key <;> simp [hk, isTextKey] at h ⊢

section
variable {answerback : List Code} {k : Keystroke}

theorem emitsOf_code {i : Fin 26} (h : k.key = .code i) :
    emitsOf answerback k = [if k.shift then .figure (keyCode i) else .letter (keyCode i)] := by
  rw [emitsOf, h]
  cases k.shift <;> rfl

theorem emitsOf_ret (h : k.key = .ret) : emitsOf answerback k = [.raw 2, .raw 3] ++ [.returnRelease] := by
  rw [emitsOf, h]
  rfl

theorem leftOf_code {i : Fin 26} (h : k.key = .code i) {codes : List Code} (hc : codes ≠ []) :
    leftOf k codes = [if k.shift then .figure (keyCode i) else .letter (keyCode i)] := by
  rw [leftOf, h]
  exact if_neg hc

theorem leftOf_ret (h : k.key = .ret) (codes : List Code) :
    leftOf k codes = codes.map Emit.raw ++ [.returnRelease] := by
  rw [leftOf, h]

/-- Only RETURN ends with its release. -/
theorem returnRelease_mem_emitsOf (h : .returnRelease ∈ emitsOf answerback k) : k.key = .ret := by
  cases hk : k.key with
  | ret => rfl
  | code i => cases hs : k.shift <;> simp [emitsOf_code hk, hs] at h
  | _ => simp [emitsOf, hk] at h

theorem returnRelease_mem_leftOf {codes : List Code} (h : .returnRelease ∈ leftOf k codes) : k.key = .ret := by
  cases hk : k.key with
  | ret => rfl
  | code i =>
    cases codes with
    | nil => simp [leftOf, hk] at h
    | cons c codes => cases hs : k.shift <;> simp [leftOf_code hk, hs] at h
  | _ => simp [leftOf, hk] at h

/-- RETURN's release stands behind its codes. -/
theorem returnRelease_not_dropLast : .returnRelease ∉ (emitsOf answerback k).dropLast := by
  intro h
  rw [emitsOf_ret (returnRelease_mem_emitsOf (List.mem_of_mem_dropLast h)), List.dropLast_concat] at h
  simp at h

theorem Keystroke.isText.output_ne_nil (h : k.isText) (hab : answerback.length = 20) (cs : CompCase) :
    keyOutput answerback k cs ≠ [] := by
  have hne : answerback ≠ [] := by rintro rfl; cases hab
  unfold keyOutput
  obtain ⟨i, h⟩ | h | h | h | h := h.cases <;> simp only [h]
  · cases k.shift <;> cases cs <;> simp
  all_goals simp [hne]

/-- What is left when no code is still to come emits nothing. -/
theorem leftOf_nil_silent (cs : CompCase) : ∀ e ∈ leftOf k [], emission cs e = none := by
  unfold leftOf
  cases k.key <;> simp [emission]

/-- The next element left of a text key asks for a code in every case. -/
theorem Keystroke.isText.leftOf_asks (h : k.isText) {codes : List Code} (hc : codes ≠ []) :
    ∃ e es, leftOf k codes = e :: es ∧ ∀ cs, (emission cs e).isSome = true := by
  obtain ⟨c, codes, rfl⟩ := List.exists_cons_of_ne_nil hc
  obtain ⟨i, h⟩ | h | h | h | h := h.cases
  · rw [leftOf_code h hc]
    refine ⟨_, _, rfl, fun cs => ?_⟩
    cases k.shift <;> cases cs <;> rfl
  · rw [leftOf, h]; exact ⟨_, _, rfl, fun _ => rfl⟩
  · rw [leftOf, h]; exact ⟨_, _, rfl, fun _ => rfl⟩
  · rw [leftOf, h]; exact ⟨_, _, rfl, fun _ => rfl⟩
  · rw [leftOf, h]; exact ⟨_, _, rfl, fun _ => rfl⟩

/-- A character left comes out again with its shift. -/
theorem emitOutput_leftOf_code {i : Fin 26} (h : k.key = .code i) {codes : List Code} (hc : codes ≠ [])
    (cs : CompCase) :
    emitOutput cs (leftOf k codes) = keyOutput answerback k cs := by
  rw [keyOutput_eq, leftOf_code h hc, emitsOf_code h]

theorem emitOutput_leftOf (h : ∀ i, k.key ≠ .code i) (codes : List Code) (cs : CompCase) :
    emitOutput cs (leftOf k codes) = codes := by
  unfold leftOf
  cases hk : k.key with
  | code i => exact absurd hk (h i)
  | ret => rw [emitOutput_append _ rfl]; simp [emitOutput]
  | _ => exact emitOutput_raws codes cs

theorem leftOf_length (codes : List Code) : (leftOf k codes).length ≤ codes.length + 1 := by
  unfold leftOf
  split <;> (try split) <;> simp

/-- Before the first element that asks for a code stands at most the leading shift of HERE IS, not called for. -/
theorem Keystroke.isText.emitsOf_asks (h : k.isText) (hab : answerback.length = 20) (cs : CompCase) :
    ∃ quiet e es, emitsOf answerback k = quiet ++ e :: es ∧ quiet.length ≤ 1 ∧
      (∀ x ∈ quiet, x = .leadShift ∧ cs = .letters) ∧ (emission cs e).isSome = true ∧
      e :: es = if k.key = .hereIs ∧ cs ≠ .letters then .leadShift :: answerback.map Emit.raw
        else leftOf k (keyOutput answerback k cs) := by
  by_cases hhere : k.key = .hereIs
  · by_cases hc : cs = .letters
    · obtain ⟨c, codes, rfl⟩ := List.exists_cons_of_ne_nil (l := answerback) (by rintro rfl; cases hab)
      refine ⟨[.leadShift], .raw c, codes.map Emit.raw, ?_, Nat.le_refl 1, by simp [hc], rfl, ?_⟩
      · rw [emitsOf, hhere]; rfl
      · rw [if_neg (by simp [hc]), leftOf, keyOutput, hhere, hc]; rfl
    · refine ⟨[], .leadShift, answerback.map Emit.raw, ?_, Nat.zero_le 1, List.forall_mem_nil _, ?_, ?_⟩
      · rw [emitsOf, hhere]; rfl
      · rw [emission, if_neg hc]; rfl
      · rw [if_pos ⟨hhere, hc⟩]
  · obtain ⟨e, es, hes, he⟩ := h.leftOf_asks (h.output_ne_nil hab cs)
    have hkey : emitsOf answerback k = leftOf k (keyOutput answerback k cs) := by
      obtain ⟨i, h⟩ | h | h | h | h := h.cases
      · rw [emitsOf_code h, leftOf_code h (Keystroke.isText.output_ne_nil (.inl (by rw [h]; rfl)) hab cs)]
      · rw [emitsOf, leftOf, keyOutput, h]; rfl
      · rw [emitsOf, leftOf, keyOutput, h]; rfl
      · rw [emitsOf, leftOf, keyOutput, h]; rfl
      · exact absurd h hhere
    exact ⟨[], e, es, hkey.trans hes, Nat.zero_le 1, List.forall_mem_nil _, he cs, by
      rw [if_neg fun h => hhere h.1, hes]⟩

end

/-! ### The keystroke in a composition (R129, R130) -/

/-- A text key or HERE IS writes its codes to the composition. -/
def State.textLine (s : State) (slot : Nat) (k : Keystroke) : State :=
  s.emitLine slot emitFuel (emitsOf s.panel.settings.answerback k)

theorem State.takeText_composing {s : State} {slot : Nat} (hc : s.kb.comp = .composing)
    (hs : s.kb.current = some slot) (k : Keystroke) : s.takeText k = s.textLine slot k := by
  rw [State.takeText, hc]
  dsimp only
  rw [State.writeEmits, hs]
  rfl

theorem State.takeText_idle {s : State} (hc : s.kb.comp = .lineIdle) (k : Keystroke) : s.takeText k = s.keyBell := by
  rw [State.takeText, hc]

section
variable {s : State} {slot : Nat} {k : Keystroke} {codes out : List Code}

/-- The codes have room, and no release is due behind them. -/
theorem State.textLine_room (hk : k.isText) (hab : s.panel.settings.answerback.length = 20)
    (ho : s.store.openCodes slot = some codes) (hout : out = keyOutput s.panel.settings.answerback k s.kb.case)
    (hl : codes.length + out.length < 32) (hr : k.key = .ret → ¬ s.returnDue) :
    s.textLine slot k = (s.wrote slot codes out).keyDone := by
  have hlen := emitsOf_length hab k
  have hne : out ≠ [] := hout ▸ hk.output_ne_nil hab _
  rw [keyOutput_eq] at hout
  refine State.emitLine_room hout.symm hne hl ?_ ho (by rw [emitFuel]; omega)
  by_cases hm : .returnRelease ∈ emitsOf s.panel.settings.answerback k
  · exact .inr (hr (returnRelease_mem_emitsOf hm))
  · exact .inl hm

/-- RETURN's codes have room, and its release is due. -/
theorem State.textLine_return (hk : k.key = .ret) (hd : s.returnDue) (ho : s.store.openCodes slot = some codes)
    (hout : out = keyOutput s.panel.settings.answerback k s.kb.case) (hl : codes.length + out.length < 32) :
    s.textLine slot k = (s.filled slot codes out).keyDone := by
  have hcodes : out = [2, 3] := by rw [hout, keyOutput, hk]
  rw [keyOutput_eq] at hout
  rw [State.textLine, emitsOf_ret hk] at *
  subst hcodes
  exact State.emitLine_return hout.symm (List.cons_ne_nil _ _) hl (by simp) hd ho (by decide)

/-- The last code is the 32nd of its block. -/
theorem State.textLine_full (hk : k.isText) (hab : s.panel.settings.answerback.length = 20)
    (ho : s.store.openCodes slot = some codes) (hout : out = keyOutput s.panel.settings.answerback k s.kb.case)
    (hl : codes.length + out.length = 32) :
    s.textLine slot k = (s.filled slot codes out).keyDone := by
  have hlen := emitsOf_length hab k
  have hlen' : out.length ≤ 21 := hout ▸ keyOutput_length hab k s.kb.case
  have hne : out ≠ [] := hout ▸ hk.output_ne_nil hab _
  have hleft := leftAfter_emitsOf (hout.symm.trans (List.append_nil out).symm) hne
  rw [keyOutput_eq] at hout
  obtain ⟨k', hk', heq⟩ := State.emitLine_written (k := emitFuel) out (hout.symm.trans (List.append_nil out).symm) hne
    (Nat.le_of_eq hl) (.inl returnRelease_not_dropLast) ho (by rw [emitFuel]; omega)
  rw [State.textLine, heq, State.written, if_pos (Nat.le_of_eq hl.symm), hleft]
  rw [hleft, emitFuel] at hk'
  obtain ⟨hclosed, -, -⟩ := State.filled_closes ho hne
  exact State.emitLine_quiet (leftOf_nil_silent _) (fun _ => State.returnRelease_closed hclosed) (by omega)

/-- The 32nd code of the block has others of the keystroke behind it. -/
theorem State.textLine_over (hab : s.panel.settings.answerback.length = 20)
    (ho : s.store.openCodes slot = some codes) {one two : List Code}
    (hout : keyOutput s.panel.settings.answerback k s.kb.case = one ++ two) (hne : one ≠ [])
    (hl : codes.length + one.length = 32) :
    ∃ k', 50 ≤ k' ∧ s.textLine slot k = (s.filled slot codes one).emitLine slot k' (leftOf k two) := by
  have hlen := emitsOf_length hab k
  have hlen' := keyOutput_length hab k s.kb.case
  rw [hout, List.length_append] at hlen'
  have hleft := leftAfter_emitsOf hout hne
  rw [keyOutput_eq] at hout
  obtain ⟨k', hk', heq⟩ := State.emitLine_written (k := emitFuel) one hout hne (Nat.le_of_eq hl)
    (.inl returnRelease_not_dropLast) ho (by rw [emitFuel]; omega)
  rw [hleft, emitFuel] at hk'
  refine ⟨k', by omega, ?_⟩
  rw [State.textLine, heq, State.written, if_pos (Nat.le_of_eq hl.symm), hleft]

/-- Without an open block the first element that asks for a code asks for a block. -/
theorem State.textLine_asks (hk : k.isText) (hab : s.panel.settings.answerback.length = 20) :
    ∃ k' e es, 50 ≤ k' ∧ s.textLine slot k = s.emitLine slot k' (e :: es) ∧ (emission s.kb.case e).isSome = true ∧
      (e :: es).length ≤ 21 ∧ emitOutput s.kb.case (e :: es) = keyOutput s.panel.settings.answerback k s.kb.case ∧
      (.returnRelease ∈ e :: es → k.key = .ret) ∧
      e :: es = if k.key = .hereIs ∧ s.kb.case ≠ .letters
        then .leadShift :: s.panel.settings.answerback.map Emit.raw
        else leftOf k (keyOutput s.panel.settings.answerback k s.kb.case) := by
  obtain ⟨quiet, e, es, hes, hlen, hquiet, he, hheld⟩ := hk.emitsOf_asks hab s.kb.case
  have hlen' := emitsOf_length hab k
  have hsilent : ∀ x ∈ quiet, emission s.kb.case x = none := fun x hx => by
    obtain ⟨rfl, hc⟩ := hquiet x hx
    rw [emission, if_pos hc]
  have hnot : .returnRelease ∉ quiet := fun hx => by cases (hquiet _ hx).1
  refine ⟨emitFuel - quiet.length, e, es, by rw [emitFuel]; omega, ?_, he, ?_, ?_, fun hm => ?_, hheld⟩
  · rw [← State.emitLine_skip hsilent (fun hx => absurd hx hnot), Nat.sub_add_cancel (hlen.trans (by decide)), ← hes]
    rfl
  · rw [hes, List.length_append] at hlen'
    omega
  · rw [keyOutput_eq, hes, emitOutput_skip hsilent]
  · exact returnRelease_mem_emitsOf (hes ▸ List.mem_append_right _ hm)

end

/-- Settles O43: the codes by the room in the open block, then the keystroke without one. -/
theorem textWritten : Obligations.TextWritten := by
  intro c k rest slot codes out s releases hl ht hh hq hab hout hrel
  have h : s.takesNext k rest := ⟨hl, hh, hq⟩
  have hk := ht.isText
  have hdue (hn : ¬ releases) (hkey : k.key = .ret) : ¬ s.returnDue := fun hd => hn (hrel.mpr ⟨hkey, hd⟩)
  refine ⟨fun hc => ?idle, fun hc hs ho => ?openBlock, fun e hc hs he ho => ?noBlock⟩
  case idle =>
    exact exec_settles (h.text ht (by rw [Keyboard.inDestEntry, hc]) (by rw [Keyboard.inTimeEntry, hc]))
      ((State.takeText_idle hc k).trans h.keyBell)
  case openBlock =>
    have hx := exec_settles (h.text ht (by rw [Keyboard.inDestEntry, hc]) (by rw [Keyboard.inTimeEntry, hc]))
      (State.takeText_composing hc hs k)
    refine ⟨fun hr hn => ?room, fun hr => ?released,
      fun one two more st l hcodes hsplit htwo hone hmore hst hlist => ?overflow⟩
    case room =>
      exact exec_settles hx
        ((State.textLine_room hk hab ho hout hr (hdue hn)).trans (State.wrote_done hh hq codes out))
    case released =>
      have hline : s.textLine slot k = (s.filled slot codes out).keyDone := by
        obtain hr | ⟨hr, hn⟩ := hr
        · exact State.textLine_full hk hab ho hout hr
        · obtain ⟨hkey, hd⟩ := hrel.mp hn
          exact State.textLine_return hkey hd ho hout hr
      exact ⟨_, exec_settles hx (hline.trans (State.filled_done hh hq codes out)), rfl, rfl⟩
    case overflow =>
      have hne : one ≠ [] := by rintro rfl; exact absurd hone (Nat.ne_of_lt hcodes)
      obtain ⟨k', hk', hline⟩ := State.textLine_over hab ho (hout.symm.trans hsplit) hne hone
      obtain ⟨f, es, hes, hf⟩ := hk.leftOf_asks htwo
      obtain ⟨hclosed, ⟨e, he⟩, hkept⟩ := State.filled_closes ho hne
      obtain ⟨hhold, hqueue⟩ := s.filled_keys slot codes one
      have hlen : (leftOf k two).length ≤ two.length + 1 := leftOf_length two
      have hlen' : out.length ≤ 21 := hout ▸ keyOutput_length hab k s.kb.case
      rw [hsplit, List.length_append] at hlen'
      have hagain : emitOutput .unknown (leftOf k two) = more ∧ more.length ≤ 21 := by
        by_cases hcode : ∃ i, k.key = .code i
        · obtain ⟨i, hi⟩ := hcode
          rw [hi] at hmore
          exact ⟨(emitOutput_leftOf_code hi htwo _).trans hmore.symm, hmore ▸ keyOutput_length hab k .unknown⟩
        · split at hmore
          · next i hi => exact absurd ⟨i, hi⟩ hcode
          · exact ⟨(emitOutput_leftOf (not_exists.mp hcode) two _).trans hmore.symm, by rw [hmore]; omega⟩
      obtain ⟨hagain, hlen''⟩ := hagain
      subst hst hlist
      rw [hes] at hline hagain hlen
      rw [hline] at hx
      simp only [List.foldl_append]
      refine ⟨fun hfree => ?waits, fun hfree hn => ?further, fun hfree hn => ?furtherReturn⟩
      case waits =>
        obtain ⟨k', rfl⟩ := Nat.exists_eq_add_one.mpr (Nat.zero_lt_of_lt hk')
        rw [hes]
        exact exec_settles hx (State.emitLine_waits (hf _) hclosed (hkept.trans hfree) k')
      case further =>
        refine exec_settles hx ((State.emitLine_further (hf _) hclosed he (hfree.trans_eq hkept.symm) hagain
          (by omega) ?_ (by omega)).trans (State.further_done (hhold.trans hh) (hqueue.trans hq) more))
        by_cases hm : .returnRelease ∈ leftOf k two
        · exact .inr (hdue hn (returnRelease_mem_leftOf hm))
        · exact .inl (hes ▸ hm)
      case furtherReturn =>
        obtain ⟨hkey, hd⟩ := hrel.mp hn
        exact ⟨_, exec_settles hx ((State.emitLine_furtherReturn (hf _) hclosed he (hfree.trans_eq hkept.symm)
          hagain (by omega) (hes.symm.trans (leftOf_ret hkey two)) (by simp) hd (by omega)).trans
          (State.furtherReturn_done (hhold.trans hh) (hqueue.trans hq) more)), rfl, rfl⟩
  case noBlock =>
    have hx := exec_settles (h.text ht (by rw [Keyboard.inDestEntry, hc]) (by rw [Keyboard.inTimeEntry, hc]))
      (State.takeText_composing hc hs k)
    obtain ⟨k', f, es, hk', hline, hf, hlen, hes, hret, hheld⟩ := State.textLine_asks (slot := slot) hk hab
    rw [hline] at hx
    rw [← hout] at hes hheld
    have hlen' : out.length ≤ 21 := hout ▸ keyOutput_length hab k s.kb.case
    refine ⟨fun hfree => ?waits, fun hfree hn => ?further, fun hfree hn => ?furtherReturn⟩
    case waits =>
      obtain ⟨k', rfl⟩ := Nat.exists_eq_add_one.mpr (Nat.zero_lt_of_lt hk')
      rw [← hheld]
      exact exec_settles hx (State.emitLine_waits hf ho hfree k')
    case further =>
      refine exec_settles hx ((State.emitLine_further hf ho he hfree hes (by omega) ?_ (by omega)).trans
        (State.further_done hh hq out))
      by_cases hm : .returnRelease ∈ f :: es
      · exact .inr (hdue hn (hret hm))
      · exact .inl hm
    case furtherReturn =>
      obtain ⟨hkey, hd⟩ := hrel.mp hn
      rw [if_neg (by simp [hkey]), leftOf_ret hkey] at hheld
      exact ⟨_, exec_settles hx ((State.emitLine_furtherReturn hf ho he hfree hes (by omega) hheld (by simp) hd
        (by omega)).trans (State.furtherReturn_done hh hq out)), rfl, rfl⟩

end Sys2Proof.Machine
end

section
/-! SUPPORT. The openings, the held block requests, and the idle release (R128 to R133, R141). -/
namespace Sys2Proof.Machine

section
variable {s : State} {k : Keystroke} {rest : List Keystroke}

/-! ### Openings (R128) -/

theorem exec_openingRepeated (h : s.panel.phase = .done) (hh : s.kb.hold = .opening) (hq : s.kb.queue = k :: rest) :
    exec .openingRepeated s = .next (s.openAndWrite k).settle := by
  refine congrArg _ ((State.acting_live (s.live_iff.mpr h) _).trans ?_)
  rw [State.repeatOpening, hh, hq]

theorem State.takeText_ready (hc : s.kb.comp = .lineReady) (k : Keystroke) : s.takeText k = s.openAndWrite k := by
  rw [State.takeText, hc]

/-- An opening granted: the keystroke is the first of the composition. -/
theorem State.openAndWrite_granted {d cls : Nat} (hd : s.kb.dest = some (d, cls)) (ho : s.mayOpen) (k : Keystroke) :
    s.openAndWrite k = (s.openMessage d cls).textLine s.store.freeSlot k := by
  rw [State.openAndWrite, hd]
  exact if_pos (s.canOpen_iff.mpr ho)

theorem State.openAndWrite_held {d cls : Nat} (hd : s.kb.dest = some (d, cls)) (ho : ¬ s.mayOpen) (k : Keystroke) :
    s.openAndWrite k = { s with kb := { s.kb with hold := .opening, autoEnd := none } } := by
  rw [State.openAndWrite, hd]
  exact if_neg (mt s.canOpen_iff.mp ho)

/-! ### Held block requests (R129, R132, R133) -/

theorem exec_blockRequestRepeated (h : s.panel.phase = .done) :
    exec .blockRequestRepeated s = .next s.repeatBlock.settle :=
  congrArg _ (State.acting_live (s.live_iff.mpr h) _)

theorem State.repeatBlock_keystroke {slot : Nat} {es : List Emit} (hh : s.kb.hold = .block es)
    (hs : s.kb.current = some slot) : s.repeatBlock = s.emitLine slot emitFuel es := by
  rw [State.repeatBlock, hh]
  dsimp only
  rw [State.writeEmits, hs]

/-- A held end takes a block for its final section. -/
theorem State.repeatBlock_end {slot : Nat} (hh : s.kb.hold = .endBlock ∨ s.kb.hold = .autoEnd)
    (hs : s.kb.current = some slot) (ho : s.store.openCodes slot = none) (hf : 1 ≤ s.store.free) : s.repeatBlock =
      (((s.furtherBlock slot).release slot true).ended (decide (s.kb.hold = .endBlock))) := by
  obtain hh | hh := hh <;>
  · rw [State.repeatBlock, hh]
    exact (State.endCurrent_message hs _).trans (State.endMessage_takesBlock ho hf _)

/-! ### The idle release (R131, R141) -/

theorem exec_idleReleaseExpiry (h : s.panel.phase = .done) : exec .idleReleaseExpiry s = .next s.idleRelease :=
  congrArg _ (State.whenLive_live (s.live_iff.mpr h) _)

theorem State.idleRelease_reached {n slot : Nat} (hn : s.kb.idleTimer = some n) (hr : s.releasable = some slot)
    (ht : s.idleThreshold ≤ n) : s.idleRelease = s.release slot false := by
  rw [State.idleRelease, hn, hr]
  exact if_pos ht

theorem State.idleRelease_below {n : Nat} (hn : s.kb.idleTimer = some n) (ht : n < s.idleThreshold) :
    s.idleRelease = s := by
  rw [State.idleRelease, hn]
  cases s.releasable with
  | none => rfl
  | some slot => exact if_neg (Nat.not_le.mpr ht)

/-- An auto end whose timer a code has restarted does nothing. -/
theorem State.autoEndExpires_restarted (h : s.kb.autoEnd = some 0) : s.autoEndExpires = s := by
  rw [State.autoEndExpires, h]
  cases s.kb.comp <;> rfl

end

/-- Settles O51: the opening, the held keystroke, the held end, and the two expiries. -/
theorem heldRequests : Obligations.HeldRequests := by
  intro c k rest out d cls slot e s option hl hoption
  have hdue : option ↔ s.returnDue := hoption
  refine ⟨fun st l u hq hd hab hout hrow hst hlist hu => ?opening,
    fun es es' f st hh hes hf hlen hout hfit hs he ho hst =>
    ?keystroke, fun hh hs he ho hfree => ?ending, fun n limit hn hlimit => ?idle, fun ha => ?restarted⟩
  case opening =>
    have hk : k.isText := hrow.elim (fun ⟨ht, _⟩ => ht.isText) fun ⟨_, _, hk⟩ => hk
    have hx : exec c s = .next (s.openAndWrite k).settle := by
      obtain ⟨ht, hh, hc⟩ | ⟨rfl, hh, -⟩ := hrow
      · have h : s.takesNext k rest := ⟨hl, hh, hq⟩
        exact exec_settles (h.text ht (by rw [Keyboard.inDestEntry, hc]) (by rw [Keyboard.inTimeEntry, hc]))
          (State.takeText_ready hc k)
      · exact exec_openingRepeated hl hh hq
    have hlen : out.length ≤ 21 := hout ▸ keyOutput_length hab k .letters
    have hopen (hmay : s.mayOpen) := Store.openCodes_openMessage hmay.2.2 d s.send.msgCounter cls
    subst hst hlist hu
    refine ⟨fun hmay hn => ?granted, fun hmay hkey ho => ?returns, fun hnot => ?held⟩
    case granted =>
      rw [State.openAndWrite_granted hd hmay] at hx
      exact exec_settles hx ((State.textLine_room (s := s.openMessage d cls) hk hab (hopen hmay) hout
        (by rw [List.length_nil]; omega) fun hkey hr => hn ⟨hkey, hdue.mpr hr⟩).trans
        (State.wrote_done (s := s.openMessage d cls) rfl hq [] out))
    case returns =>
      rw [State.openAndWrite_granted hd hmay] at hx
      exact exec_settles hx ((State.textLine_return (s := s.openMessage d cls) hkey (hdue.mp ho) (hopen hmay) hout
        (by rw [List.length_nil]; omega)).trans (State.filled_done (s := s.openMessage d cls) rfl hq [] out))
    case held => exact exec_settles hx (State.openAndWrite_held hd hnot k)
  case keystroke =>
    have hx := exec_settles (exec_blockRequestRepeated hl) (State.repeatBlock_keystroke hh hs)
    subst hes hst
    have hfuel : emitFuel = 99 + 1 := rfl
    refine ⟨fun hfree => ?waits, fun hfree hn => ?goesOn, fun before hfree hoption hes hbefore => ?returns⟩
    case waits =>
      rw [hfuel, State.emitLine_waits hf ho hfree, State.holdFor, ← hh] at hx
      exact hx
    case goesOn =>
      exact exec_settles hx
        (State.emitLine_further hf ho he hfree hout.symm hfit (hn.imp_right fun h hr => h (hdue.mpr hr))
        (by omega))
    case returns =>
      exact ⟨_, exec_settles hx (State.emitLine_furtherReturn hf ho he hfree hout.symm hfit hes hbefore
        (hdue.mp hoption) (by omega)), rfl, rfl⟩
  case ending =>
    refine ⟨_, exec_settles (exec_blockRequestRepeated hl) ((State.repeatBlock_end hh hs ho hfree).trans
      (State.ended_eq _ _)), rfl, ?_⟩
    simp only [decide_eq_true_eq]
    rfl
  case idle =>
    subst hlimit
    refine ⟨fun x xs hc hs ho ht => ?reached, fun ht => ?below⟩
    case reached =>
      have hr : s.releasable = some slot := (s.releasable_iff slot).mpr ⟨hc, hs, x, xs, ho⟩
      exact ⟨_, (exec_idleReleaseExpiry hl).trans (congrArg _ (State.idleRelease_reached hn hr ht)), rfl, rfl⟩
    case below => exact (exec_idleReleaseExpiry hl).trans (congrArg _ (State.idleRelease_below hn ht))
  case restarted => exact exec_settles (exec_autoEndExpiry hl) (State.autoEndExpires_restarted ha)

end Sys2Proof.Machine
end

section
/-! SUPPORT. The carriage under the other blocks: what the transmission controller, the composer and the reception
controller bring to the printer are notices and echo items, which leave the carriage alone (R139, R162). -/
namespace Sys2Proof.Machine

/-! ### What the carriage's bounds read -/

/-- What the bounds of the carriage read: column, flight, the rest of a wrap or closing, settings and read phase. -/
def State.carriage (s : State) : Nat × Flight × List MechOp × Settings × ReadPhase :=
  (s.print.column, s.print.flight, s.print.pre, s.panel.settings, s.panel.phase)

theorem State.notice_carriage (s : State) (n : Notice) : (s.notice n).carriage = s.carriage := by
  unfold State.notice
  rw [s.print.place_still]
  rfl

theorem State.placeEcho_carriage (s : State) (i : EchoItem) : (s.placeEcho i).carriage = s.carriage := by
  unfold State.placeEcho
  rcases s.print.echo_cases i with ⟨-, h⟩ | ⟨-, h⟩ <;> rw [h] <;> rfl

/-! ### Sending -/

theorem State.composerLoses_carriage (s : State) (entry : Nat) (bell : Bool) :
    (s.composerLoses entry bell).carriage = s.carriage := by
  unfold State.composerLoses
  dsimp only
  split <;> rfl

theorem State.abandonMessage_carriage (s : State) (r : SendRec) (why : JournalReason)
    (n : Option NoticeReason) : (s.abandonMessage r why n).carriage = s.carriage := by
  have h : (({ s with store := s.store.abandonEntry r.entry }.composerLoses r.entry n.isSome).leaveSendList
      r.entry).carriage = s.carriage := State.composerLoses_carriage _ _ _
  cases n with
  | none => exact h
  | some _ => exact (State.notice_carriage _ _).trans h

theorem State.abandonControl_carriage (s : State) (place : Nat) (r : ControlRec) (why : JournalReason)
    (n : NoticeReason) : (s.abandonControl place r why n).carriage = s.carriage := by
  unfold State.abandonControl
  dsimp only
  split
  · exact State.notice_carriage (s.withSend _) _
  · rfl

theorem State.messageSent_carriage (s : State) (r : SendRec) : (s.messageSent r).carriage = s.carriage :=
  s.notice_carriage _

theorem State.reportLoss_carriage (s : State) : s.reportLoss.carriage = s.carriage := by
  unfold State.reportLoss
  split <;> rfl

theorem State.reportDone_carriage (s : State) : s.reportDone.carriage = s.carriage := by
  unfold State.reportDone
  split
  · rfl
  · unfold State.sectionDone
    split
    · exact s.messageSent_carriage _
    · rfl
  · rfl

/-- A frame on line is tried again, or its message or control record is abandoned. -/
theorem State.tried_carriage {s t : State} (p : Prop) [Decidable p] (h : t.carriage = s.carriage) (u : Transmission) :
    (if p then t else s.withSend u).carriage = s.carriage := by
  split
  · exact h
  · rfl

theorem State.reportWait_carriage (s : State) : s.reportWait.carriage = s.carriage := by
  unfold State.reportWait
  split
  · rfl
  · exact State.tried_carriage _ (s.abandonMessage_carriage _ _ _) _
  · exact State.tried_carriage _ (s.abandonControl_carriage _ _ _ _) _

theorem State.reportEngaged_carriage (s : State) : s.reportEngaged.carriage = s.carriage := by
  unfold State.reportEngaged
  split
  · rfl
  · exact State.tried_carriage _ (s.abandonMessage_carriage _ _ _) _
  · exact State.tried_carriage _ (s.abandonControl_carriage _ _ _ _) _

theorem State.reportRefuse_carriage (s : State) : s.reportRefuse.carriage = s.carriage := by
  unfold State.reportRefuse
  split
  · rfl
  · exact s.abandonMessage_carriage _ _ _
  · exact s.abandonControl_carriage _ _ _ _

theorem State.reportNoAnswer_carriage (s : State) : s.reportNoAnswer.carriage = s.carriage := by
  unfold State.reportNoAnswer
  split
  · rfl
  · exact State.tried_carriage _ (s.abandonMessage_carriage _ _ _) _
  · exact State.tried_carriage _ (s.abandonControl_carriage _ _ _ _) _

theorem abandonAll_carriage (l : List SendRec) : ∀ s : State, (abandonAll l s).carriage = s.carriage := by
  induction l with
  | nil => exact fun _ => rfl
  | cons r l ih => exact fun s => (ih _).trans (s.abandonMessage_carriage r .restart none)

theorem State.answerLost_carriage (s : State) : s.answerLost.carriage = s.carriage := by
  unfold State.answerLost
  split
  · exact State.reportNoAnswer_carriage _
  · rfl

/-! ### The composer -/

theorem State.writeCode_carriage (s : State) (slot : Nat) (codes : List Code) (c : Code) :
    (s.writeCode slot codes c).carriage = s.carriage := by
  unfold State.writeCode
  dsimp only
  split <;> exact State.placeEcho_carriage _ (.code c)

theorem State.returnRelease_carriage (s : State) (slot : Nat) : (s.returnRelease slot).carriage = s.carriage := by
  unfold State.returnRelease
  split <;> rfl

theorem State.emitLine_carriage (slot k : Nat) :
    ∀ (es : List Emit) (s : State), (s.emitLine slot k es).carriage = s.carriage := by
  induction k with
  | zero => exact fun _ _ => rfl
  | succ k ih =>
    intro es s
    cases es with
    | nil => rfl
    | cons e rest =>
      unfold State.emitLine
      split
      · exact (ih _ _).trans (s.returnRelease_carriage slot)
      · split
        · exact ih _ _
        · split
          · exact (ih _ _).trans (s.writeCode_carriage slot _ _)
          · split
            · exact ih _ _
            · rfl

theorem State.writeEmits_carriage (s : State) (es : List Emit) : (s.writeEmits es).carriage = s.carriage := by
  unfold State.writeEmits
  split
  · rfl
  · exact State.emitLine_carriage _ _ _ _

theorem State.openAndWrite_carriage (s : State) (k : Keystroke) : (s.openAndWrite k).carriage = s.carriage := by
  unfold State.openAndWrite
  split
  · rfl
  · split
    · exact State.writeEmits_carriage _ _
    · rfl

theorem State.emitLocal_carriage (k : Nat) :
    ∀ (es : List Emit) (s : State), (s.emitLocal k es).carriage = s.carriage := by
  induction k with
  | zero => exact fun _ _ => rfl
  | succ k ih =>
    intro es s
    cases es with
    | nil => rfl
    | cons e rest =>
      unfold State.emitLocal
      split
      · exact ih _ _
      · rename_i c left _
        have echoed := s.placeEcho_carriage (.code c)
        dsimp only
        split
        · split
          · exact echoed
          · exact (ih _ _).trans echoed
        · exact (ih _ _).trans echoed

theorem State.resumeLocal_carriage (s : State) : s.resumeLocal.carriage = s.carriage := by
  unfold State.resumeLocal
  split
  · split
    · split
      · rfl
      · exact State.emitLocal_carriage _ _ _
    · exact State.emitLocal_carriage _ _ _
  · rfl

theorem State.takeText_carriage (s : State) (k : Keystroke) : (s.takeText k).carriage = s.carriage := by
  unfold State.takeText
  split
  · rfl
  · exact s.openAndWrite_carriage k
  · exact s.writeEmits_carriage _
  · exact s.emitLocal_carriage _ _
  · rfl
  · rfl

theorem State.ended_carriage (s : State) (fromKey : Bool) : (s.ended fromKey).carriage = s.carriage := by
  unfold State.ended
  dsimp only
  split <;> rfl

theorem State.endCurrent_carriage (s : State) (fromKey : Bool) : (s.endCurrent fromKey).carriage = s.carriage := by
  unfold State.endCurrent
  split
  · exact s.ended_carriage fromKey
  · unfold State.endMessage
    split
    · split <;> exact State.ended_carriage _ fromKey
    · split
      · exact State.ended_carriage _ fromKey
      · rfl

theorem State.takeEnd_carriage (s : State) : s.takeEnd.carriage = s.carriage := by
  unfold State.takeEnd
  split
  · exact s.endCurrent_carriage true
  all_goals rfl

theorem State.autoEndExpires_carriage (s : State) : s.autoEndExpires.carriage = s.carriage := by
  unfold State.autoEndExpires
  split
  · exact (State.endCurrent_carriage _ false).trans (s.placeEcho_carriage _)
  · rfl

theorem State.takeErase_carriage (s : State) : s.takeErase.carriage = s.carriage := by
  unfold State.takeErase
  split
  · unfold State.eraseComposing
    split
    · rfl
    · split
      · rfl
      · rfl
      · exact State.placeEcho_carriage _ _
  · have echoed := s.placeEcho_carriage (.eraseMarker .letters)
    unfold State.eraseLocal
    dsimp only
    split
    · split <;> exact echoed
    · exact echoed
  all_goals rfl

theorem State.takeDest_carriage (s : State) (k : Keystroke) : (s.takeDest k).carriage = s.carriage := by
  unfold State.takeDest
  split <;> rfl

theorem State.takeDestDigit_carriage (s : State) (d : Nat) : (s.takeDestDigit d).carriage = s.carriage := by
  unfold State.takeDestDigit
  split
  · rfl
  · unfold State.judgeDest
    split
    · exact s.keyDone.placeEcho_carriage _
    · rfl
  · rfl

theorem State.takeTime_carriage (s : State) : s.takeTime.carriage = s.carriage := by
  unfold State.takeTime
  split <;> rfl

theorem State.takeTimeDigit_carriage (s : State) (d : Nat) : (s.takeTimeDigit d).carriage = s.carriage := by
  unfold State.takeTimeDigit
  split
  · unfold State.judgeTime
    dsimp only
    split <;> rfl
  · rfl
  · rfl

theorem State.punchLocalBegins_carriage (s : State) : s.punchLocalBegins.carriage = s.carriage := by
  unfold State.punchLocalBegins
  split <;> rfl

theorem State.beginLocal_carriage (s : State) : s.beginLocal.carriage = s.carriage := by
  unfold State.beginLocal
  dsimp only
  split
  · exact State.punchLocalBegins_carriage _
  · rfl

theorem State.takeMode_carriage (s : State) : s.takeMode.carriage = s.carriage := by
  unfold State.takeMode
  split
  · split
    · rfl
    · exact s.keyDone.beginLocal_carriage
  · split
    · rfl
    · exact s.keyDone.beginLocal_carriage
  · split <;> rfl
  all_goals rfl

theorem State.request_carriage (s : State) (kind : FrameKind) : (s.request kind).carriage = s.carriage := by
  unfold State.request
  split
  · rfl
  · split
    · rfl
    · split <;> rfl

theorem State.takeRequest_carriage (s : State) (kind : FrameKind) : (s.takeRequest kind).carriage = s.carriage := by
  unfold State.takeRequest
  split
  · exact s.request_carriage kind
  · exact s.request_carriage kind
  all_goals rfl

theorem State.takeBreak_carriage (s : State) : s.takeBreak.carriage = s.carriage := by
  unfold State.takeBreak
  split
  · rfl
  · rename_i r _
    exact State.abandonMessage_carriage (State.withSend { s with line := _ } _) r .break (some _)

theorem State.closeKey_carriage (s : State) (k : Key) : (s.closeKey k).carriage = s.carriage := by
  unfold State.closeKey
  split
  · rfl
  · dsimp only
    split
    · rfl
    · unfold State.routeKey
      split
      · rfl
      · split <;> rfl

theorem State.openKey_carriage (s : State) (k : Key) : (s.openKey k).carriage = s.carriage := by
  unfold State.openKey
  split <;> rfl

theorem State.repeatOpening_carriage (s : State) : s.repeatOpening.carriage = s.carriage := by
  unfold State.repeatOpening
  split
  · exact s.openAndWrite_carriage _
  · rfl

theorem State.repeatBlock_carriage (s : State) : s.repeatBlock.carriage = s.carriage := by
  unfold State.repeatBlock
  split
  · exact s.writeEmits_carriage _
  · exact s.endCurrent_carriage true
  · exact s.endCurrent_carriage false
  · rfl

theorem State.idleRelease_carriage (s : State) : s.idleRelease.carriage = s.carriage := by
  unfold State.idleRelease
  split
  · split <;> rfl
  · rfl

theorem State.latchCleared_carriage (s : State) : s.latchCleared.carriage = s.carriage := by
  unfold State.latchCleared
  split
  · split <;> rfl
  · rfl

/-! ### Reception -/

theorem State.closeHold_carriage (s : State) (why : Option Reason) : (s.closeHold why).carriage = s.carriage := by
  unfold State.closeHold
  split <;> rfl

theorem State.completeHold_carriage (s : State) (origin number seq : Nat) :
    (s.completeHold origin number seq).carriage = s.carriage := by
  unfold State.completeHold State.queueReceipt
  dsimp only
  split
  · exact s.closeHold_carriage none
  · split <;> exact s.closeHold_carriage none

theorem State.judgeFirst_carriage (s : State) (f : Frame) : (s.judgeFirst f).1.carriage = s.carriage := by
  unfold State.judgeFirst
  split
  · rfl
  · dsimp only
    split
    · rfl
    · split
      · exact State.completeHold_carriage _ _ _ _
      · rfl

theorem State.judgeHeld_carriage (s : State) (r : Record) (f : Frame) :
    (s.judgeHeld r f).1.carriage = s.carriage := by
  unfold State.judgeHeld
  split
  · unfold State.judgeNext
    dsimp only
    split
    · rfl
    · split
      · exact State.completeHold_carriage _ _ _ _
      · rfl
  · split
    · rfl
    · exact s.closeHold_carriage _

theorem State.judgeText_carriage (s : State) (f : Frame) : (s.judgeText f).1.carriage = s.carriage := by
  unfold State.judgeText
  dsimp only
  split
  · rfl
  · split
    · split
      · exact State.judgeFirst_carriage _ f
      · rfl
    · split
      · rfl
      · split
        · exact State.judgeHeld_carriage _ _ f
        · split
          · exact (State.judgeFirst_carriage _ f).trans (State.closeHold_carriage _ _)
          · rfl

theorem supersede_carriage (l : List Record) : ∀ s : State, (supersede l s).carriage = s.carriage := by
  induction l with
  | nil => exact fun _ => rfl
  | cons r l ih => exact fun s => ih _

theorem State.circularFirst_carriage (s : State) (f : Frame) : (s.circularFirst f).carriage = s.carriage := by
  have judged : ∀ t : State, (t.judgeCircularFirst f).carriage = t.carriage := by
    intro t
    unfold State.judgeCircularFirst
    split
    · rfl
    · split
      · rfl
      · dsimp only
        split <;> rfl
  unfold State.circularFirst
  dsimp only
  split
  · rfl
  · exact (judged _).trans (supersede_carriage _ _)

theorem State.circularNext_carriage (s : State) (f : Frame) : (s.circularNext f).carriage = s.carriage := by
  unfold State.circularNext
  dsimp only
  split
  · rfl
  · split
    · split <;> rfl
    · split <;> rfl

theorem State.judgeRequest_carriage (s : State) (f : Frame) (reply : FrameKind) (text : List Code) :
    (s.judgeRequest f reply text).1.carriage = s.carriage := by
  unfold State.judgeRequest
  split
  · rfl
  · split
    · rfl
    · dsimp only
      split <;> rfl

theorem State.judgeReply_carriage (s : State) (f : Frame) (n : Notice) :
    (s.judgeReply f n).1.carriage = s.carriage := by
  unfold State.judgeReply
  split
  · rfl
  · exact (s.remember f).notice_carriage n

theorem State.actRelease_carriage (s : State) (f : Frame) : (s.actRelease f).carriage = s.carriage := by
  have circularPart : ∀ t : State, (match t.recv.findCircular f.origin f.number with
      | none => t
      | some r => t.closeCircular r (some .cancelled)).carriage = t.carriage := by
    intro t
    split <;> rfl
  unfold State.actRelease
  dsimp only
  refine (circularPart _).trans ?_
  split
  · rfl
  · split
    · exact s.closeHold_carriage _
    · rfl

theorem State.recordExpired_carriage (s : State) (r : RecordRef) : (s.recordExpired r).carriage = s.carriage := by
  unfold State.recordExpired
  split
  · split
    · rfl
    · split
      · rfl
      · exact s.closeHold_carriage _
  · split
    · rfl
    · split <;> rfl

theorem closeAllCircular_carriage (l : List Record) :
    ∀ s : State, (closeAllCircular l s).carriage = s.carriage := by
  induction l with
  | nil => exact fun _ => rfl
  | cons r l ih => exact fun s => ih _

theorem State.restartReception_carriage (s : State) : s.restartReception.carriage = s.carriage :=
  (closeAllCircular_carriage _ _).trans (s.closeHold_carriage _)

theorem State.frameEnds_carriage (s : State) (f : Frame) : (s.frameEnds f).carriage = s.carriage := by
  have tested : (s.clashTest f).carriage = s.carriage := by
    unfold State.clashTest
    split
    · rfl
    · split
      · exact State.notice_carriage _ _
      · rfl
  exact tested

theorem State.handIndividual_carriage (s : State) (f : Frame) {judge : State → State × AnswerCode}
    (h : ∀ t : State, (judge t).1.carriage = t.carriage) : (s.handIndividual f judge).carriage = s.carriage := by
  unfold State.handIndividual
  split
  · dsimp only
    split
    · exact s.frameEnds_carriage f
    · exact (h _).trans (s.frameEnds_carriage f)
  · rfl

theorem State.handCircular_carriage (s : State) (f : Frame) {act : State → State}
    (h : ∀ t : State, (act t).carriage = t.carriage) : (s.handCircular f act).carriage = s.carriage := by
  unfold State.handCircular
  split
  · exact (h _).trans (s.frameEnds_carriage f)
  · rfl

end Sys2Proof.Machine
end

section
/-! SUPPORT. Every command, and the block's own step, keeps the carriage within 1 to width + 1 (R147, R148): the other
blocks leave it alone, a completion moves it by at most one column that a strike began within the width, and what the
print unit issues of its own accord does not move it. -/
namespace Sys2Proof.Machine

/-! ### The bounds of the carriage -/

/-- Where the carriage stands alike, its bounds hold alike. -/
theorem State.carriageBounded.congr {s t : State} (h : s.carriageBounded) (e : t.carriage = s.carriage) :
    t.carriageBounded := by
  simp only [State.carriage, Prod.mk.injEq] at e
  obtain ⟨hcol, hflight, hpre, hset, hphase⟩ := e
  exact ⟨hcol ▸ h.low, by rw [hcol, hset]; exact h.high, by rw [hcol, hflight, hset]; exact h.flight,
    hpre ▸ h.pre, hset ▸ h.width, by rw [hphase, hcol, hflight]; exact h.before⟩

theorem Flight.quiet_iff (f : Flight) : f.quiet ↔ ∀ o why, f = .op o why → strikes o = false := by
  cases f <;> simp [Flight.quiet]

/-- After the read the bounds are those that the print unit keeps for the width. -/
theorem State.carriageBounded_live {s : State} (h : s.panel.phase = .done) : s.carriageBounded ↔
    1 ≤ s.print.column ∧ 64 ≤ s.panel.settings.width ∧ s.print.carriage s.panel.settings.width := by
  constructor
  · exact fun hb => ⟨hb.low, hb.width, hb.high, hb.flight.imp_left (Flight.quiet_iff _).mp, hb.pre⟩
  · exact fun ⟨hlow, hwidth, hc⟩ =>
      ⟨hlow, hc.high, hc.flight.imp_left (Flight.quiet_iff _).mpr, hc.pre, hwidth, fun hn => absurd h hn⟩

/-- An operation keeps the bounds of the carriage. -/
def State.keepsCarriage (s t : State) : Prop := s.carriageBounded → t.carriageBounded

theorem State.keepsCarriage.of_same {s t : State} (h : t.carriage = s.carriage) : s.keepsCarriage t :=
  fun hb => hb.congr h

/-- With the read ended and the settings as they were, only the print unit's own bounds are to be shown. -/
theorem State.keepsCarriage.of_print {s t : State} (hl : s.panel.phase = .done) (hp : t.panel.phase = s.panel.phase)
    (hset : t.panel.settings = s.panel.settings)
    (h : 1 ≤ s.print.column → s.print.carriage s.panel.settings.width →
      1 ≤ t.print.column ∧ t.print.carriage s.panel.settings.width) : s.keepsCarriage t := by
  intro hb
  obtain ⟨hlow, hwidth, hc⟩ := (State.carriageBounded_live hl).mp hb
  rw [State.carriageBounded_live (hp.trans hl), hset]
  exact ⟨(h hlow hc).1, hwidth, (h hlow hc).2⟩

/-! ### What the print unit does of its own accord -/

theorem State.settle_keepsCarriage (s : State) : s.keepsCarriage s.settle := by
  by_cases hl : s.panel.phase = .done
  · refine .of_print hl (congrArg Panel.phase s.settle_panel) (congrArg Panel.settings s.settle_panel) fun hlow hc => ?_
    rw [State.settle_print hl]
    refine PrintSide.run_keeps s.printEnv
      (fun x => 1 ≤ x.print.column ∧ x.print.carriage s.printEnv.settings.width) ?_ printFuel s.printSide ⟨hlow, hc⟩
    rintro x y ⟨hlow, hc⟩ hs
    obtain ⟨hy, hcol⟩ := PrintSide.carriage_step hc hs
    exact ⟨hcol ▸ hlow, hy⟩
  · unfold State.settle
    rw [if_neg (mt s.live_iff.mp hl)]
    exact id

/-! ### A completion -/

theorem columnAfter_bounds {o : MechOp} {column width : Nat} (hlow : 1 ≤ column) (hhigh : column ≤ width + 1)
    (h : strikes o = false ∨ column ≤ width) : 1 ≤ columnAfter o column ∧ columnAfter o column ≤ width + 1 := by
  cases o <;> simp [columnAfter, strikes] at h ⊢ <;> omega

/-- A completion leaves what is due of a wrap or a closing. -/
theorem PrintSide.opDone_pre (env : PrintEnv) (x : PrintSide) (o : MechOp) (why : OpFor) :
    (x.opDone env o why).print.pre = x.print.pre := by
  have line : ∀ (p : PrintUnit) (w : Option Stream), (p.lineAfter o w).pre = p.pre := by
    intro p w
    unfold PrintUnit.lineAfter
    split
    · rfl
    · split <;> rfl
  cases why with
  | stream st item =>
    obtain ⟨cp, sto, j, e, -, -⟩ := x.opDone_stream_rest env o st item
    obtain ⟨im, ei, nl, ld, e'⟩ := ((x.moved env o).lineAfter o (some st)).streamAfter_rest o st
    rw [e]
    unfold PrintSide.served
    rw [e']
    exact line _ _
  | closing => exact line _ _
  | paperFeed => rw [PrintSide.opDone_paperFeed]; split <;> rfl
  | initial => rfl
  | orphan item =>
    show (PrintSide.marginBell env _ o item).print.pre = _
    rw [PrintSide.marginBell_eq]
    exact line _ _

theorem PrintSide.carriage_complete {env : PrintEnv} {x : PrintSide} (hlow : 1 ≤ x.print.column)
    (h : x.print.carriage env.settings.width) :
    1 ≤ (x.complete env).print.column ∧ (x.complete env).print.carriage env.settings.width := by
  unfold PrintSide.complete
  split
  · exact ⟨hlow, h⟩
  · exact ⟨hlow, h.high, .inl nofun, h.pre⟩
  · exact ⟨hlow, h.high, .inl nofun, h.pre⟩
  · rename_i o why hf
    have hframe := x.opDone_frame env o why
    have hflight : (x.opDone env o why).print.flight = .none := congrArg Prod.fst hframe
    have hcol : (x.opDone env o why).print.column = columnAfter o x.print.column :=
      congrArg (fun f => f.2.2.2.1) hframe
    obtain ⟨hl, hh⟩ := columnAfter_bounds hlow h.high (h.flight.imp_left fun hq => hq o why hf)
    exact ⟨hcol ▸ hl, hcol ▸ hh, .inl (hflight ▸ nofun), (x.opDone_pre env o why) ▸ h.pre⟩

theorem State.printCompletes_keepsCarriage {s : State} (hl : s.panel.phase = .done) :
    s.keepsCarriage s.printCompletes :=
  .of_print hl rfl rfl fun hlow hc => PrintSide.carriage_complete (env := s.printEnv) hlow hc

/-! ### The mechanisms, the panel and the configuration -/

theorem State.motorJudged_keepsCarriage {s : State} (hl : s.panel.phase = .done) : s.keepsCarriage s.motorJudged := by
  rcases s.motorJudged_cases with ⟨-, -, -, h⟩ | ⟨-, h⟩ <;> rw [h]
  · exact .of_print hl rfl rfl fun hlow hc => ⟨hlow, hc.high, .inl nofun, hc.pre⟩
  · exact id

theorem State.tapeRunsOut_carriage (s : State) : s.tapeRunsOut.carriage = s.carriage := by
  unfold State.tapeRunsOut
  dsimp only
  split
  · rfl
  · split
    · rfl
    · exact State.notice_carriage _ _

theorem State.punchCompletes_carriage (s : State) (sense : Code) (feedHole : Bool) :
    (s.punchCompletes sense feedHole).carriage = s.carriage := by
  unfold State.punchCompletes
  split
  · rfl
  · split
    · exact State.notice_carriage _ _
    · split
      · rfl
      · exact State.notice_carriage _ _

theorem State.punchOn_carriage (s : State) : s.punchOn.carriage = s.carriage := by
  unfold State.punchOn
  split
  · exact s.punchLocalBegins_carriage
  · rfl

theorem State.punchOff_carriage (s : State) : s.punchOff.carriage = s.carriage := State.resumeLocal_carriage _

theorem State.restartSending_carriage (s : State) : s.restartSending.carriage = s.carriage :=
  abandonAll_carriage s.send.sendList s

theorem Flight.orphaned_quiet {f : Flight} (h : ∀ o why, f = .op o why → strikes o = false) (o : MechOp)
    (why : OpFor) (e : f.orphaned = .op o why) : strikes o = false := by
  unfold Flight.orphaned at e
  split at e
  · cases e; exact h _ _ rfl
  · exact h o why e

/-- RESTART takes the printer from the echo and drops the echo's wrap or closing; the carriage stands (R167). -/
theorem PrintUnit.carriage_restart {p : PrintUnit} {width : Nat} (h : p.carriage width) :
    p.restart.column = p.column ∧ p.restart.carriage width := by
  unfold PrintUnit.restart
  rw [PrintUnit.place_still]
  refine ⟨rfl, h.high, h.flight.imp_left Flight.orphaned_quiet, ?_⟩
  dsimp only
  split
  · exact nofun
  · exact h.pre

theorem State.printRestarts_keepsCarriage {s : State} (hl : s.panel.phase = .done) (kb : Keyboard) (taken : Bool) :
    s.keepsCarriage { s.withKb kb with print := s.print.restart, panel := { s.panel with restartTaken := taken } } :=
  .of_print hl rfl rfl fun hlow hc => by
    obtain ⟨hcol, hr⟩ := PrintUnit.carriage_restart hc
    exact ⟨hcol.symm ▸ hlow, hr⟩

theorem State.restartAll_keepsCarriage {s : State} (hl : s.panel.phase = .done) : s.keepsCarriage s.restartAll := by
  intro hb
  have before : ((s.log .restart {}).withLine
      { s.line.cut with clash := false }).restartReception.restartSending.carriage = s.carriage :=
    (State.restartSending_carriage _).trans (State.restartReception_carriage _)
  exact State.printRestarts_keepsCarriage ((congrArg (fun c => c.2.2.2.2) before).trans hl) _ true (hb.congr before)

/-- Another phase of a read that goes on moves nothing. -/
theorem State.withPhase_keepsCarriage {s : State} (hs : s.panel.phase ≠ .done) (p : ReadPhase) :
    s.keepsCarriage (s.withPhase p) :=
  fun hb => ⟨hb.low, hb.high, hb.flight, hb.pre, hb.width, fun _ => hb.before hs⟩

/-- At the end of the read the carriage stands at column 1 with nothing in flight, within any width of R193. -/
theorem State.taken_keepsCarriage {s : State} (hs : s.panel.phase ≠ .done) {set : Settings} (hset : set.inRange)
    (fault : Bool) : s.keepsCarriage { s with panel := s.panel.taken set fault } := by
  intro hb
  obtain ⟨hcol, hflight⟩ := hb.before hs
  refine ⟨hb.low, ?_, .inl ?_, hb.pre, hset.width.1, fun hn => absurd rfl hn⟩
  · show s.print.column ≤ set.width + 1
    omega
  · show s.print.flight.quiet
    rw [hflight]
    trivial

theorem State.readEnds_keepsCarriage {s : State} (hs : s.panel.phase ≠ .done) {image : Option (List Byte)}
    (h : ∀ im, image = some im → imageValid im = true) : s.keepsCarriage (s.readEnds image) := by
  have startPart : ∀ (t : State) (fault : Bool), (t.reportStart fault).carriage = t.carriage := by
    intro t fault
    unfold State.reportStart
    split
    · exact State.notice_carriage _ _
    · dsimp only
      split
      · exact State.notice_carriage _ _
      · rfl
  have localPart : ∀ (t : State) (fault : Bool), (if fault = true then t.beginLocal else t).carriage = t.carriage := by
    intro t fault
    split
    · exact t.beginLocal_carriage
    · rfl
  have tapePart : ∀ t : State, (if t.punch.tapeOut = true then t.tapeRunsOut else t).carriage = t.carriage := by
    intro t
    split
    · exact t.tapeRunsOut_carriage
    · rfl
  intro hb
  unfold State.readEnds
  refine State.settle_keepsCarriage _ ?_
  refine State.carriageBounded.congr ?_ ((tapePart _).trans ((localPart _ _).trans (startPart _ _)))
  refine State.taken_keepsCarriage hs ?_ _ hb
  split
  · exact settingsOf_inRange (h _ rfl)
  · exact Settings.configFault_inRange

/-! ### The line unit's events -/

theorem State.lineFaultBegins_carriage (s : State) : s.lineFaultBegins.carriage = s.carriage := by
  have begun : (((s.withLine s.line.faultBegins).log .lineFault {}).notice .lineFault).carriage = s.carriage :=
    State.notice_carriage _ _
  unfold State.lineFaultBegins
  dsimp only
  split
  · exact (State.reportNoAnswer_carriage _).trans begun
  · exact begun

theorem State.readingEnds_carriage (s : State) (frame answer : LineUnit) :
    (s.readingEnds frame answer).carriage = s.carriage := by
  unfold State.readingEnds
  split
  · rfl
  · split
    · exact State.answerLost_carriage _
    · rfl

theorem State.answerBegins_carriage (s : State) : s.answerBegins.carriage = s.carriage := by
  unfold State.answerBegins
  split
  · rfl
  · split <;> rfl

/-! ### The guards of commands -/

theorem State.given_carriage {s : State} {f : State → State} (h : (f s).carriage = s.carriage) (c : Bool) :
    (s.given c f).carriage = s.carriage := by
  cases c
  · rfl
  · exact h

theorem State.takeHead_carriage {s : State} {f : Keystroke → State → State} (h : ∀ k, (f k s).carriage = s.carriage)
    (mine : Keystroke → Bool) : (s.takeHead mine f).carriage = s.carriage := by
  unfold State.takeHead
  split
  · rfl
  · split
    · exact h _
    · rfl

theorem State.keepsCarriage.whenLive {s : State} {f : State → State}
    (h : s.panel.phase = .done → s.keepsCarriage (f s)) : s.keepsCarriage (s.whenLive f) := by
  unfold State.whenLive
  split
  · rename_i hl
    exact h (s.live_iff.mp hl)
  · exact id

theorem State.keepsCarriage.acting {s : State} {f : State → State}
    (h : s.panel.phase = .done → s.keepsCarriage (f s)) : s.keepsCarriage (s.acting f) :=
  .whenLive fun hl hb => State.settle_keepsCarriage _ (h hl hb)

/-- A command of the other blocks, with and without the mechanism units acting after it. -/
theorem State.keepsCarriage.waits {s : State} {f : State → State} (h : (f s).carriage = s.carriage) :
    s.keepsCarriage (s.whenLive f) := .whenLive fun _ => .of_same h

theorem State.keepsCarriage.acts {s : State} {f : State → State} (h : (f s).carriage = s.carriage) :
    s.keepsCarriage (s.acting f) := .acting fun _ => .of_same h

theorem State.answered_keepsCarriage {report : State → State} (h : ∀ s : State, (report s).carriage = s.carriage)
    (s : State) : s.keepsCarriage (s.answered report) :=
  .acts (State.given_carriage (f := fun s => report (s.withLine s.line.txIdle.readyRx)) (h _) _)

/-! ### Every command -/

/-- Every command answers a next state, in which the carriage keeps its bounds. -/
theorem exec_keepsCarriage (c : Instr) (s : State) : ∃ t : State, exec c s = .next t ∧ s.keepsCarriage t := by
  cases c with
  | powerOn =>
    exact ⟨_, rfl, fun _ => ⟨Nat.le_refl 1, (by decide : 1 ≤ 72 + 1), .inl trivial, nofun, (by decide : 64 ≤ 72),
      fun _ => ⟨rfl, rfl⟩⟩⟩
  | configReadAttemptFailed =>
    refine ⟨_, rfl, ?_⟩
    split
    · rename_i hp
      have reading : s.panel.phase ≠ .done := hp ▸ nofun
      split <;> exact State.withPhase_keepsCarriage reading _
    · exact id
  | configReadRetry =>
    refine ⟨_, rfl, ?_⟩
    split
    · rename_i hp
      exact State.withPhase_keepsCarriage (hp ▸ nofun) _
    · exact id
  | configReadEnd image =>
    refine ⟨_, rfl, ?_⟩
    split
    · rename_i hp
      refine State.readEnds_keepsCarriage (hp ▸ nofun) fun im him => ?_
      unfold judgeImage at him
      split at him
      · rename_i hvalid; cases him; exact hvalid
      · cases him
    · rename_i hp
      exact State.readEnds_keepsCarriage (hp ▸ nofun) nofun
    · exact id
  | restart =>
    refine ⟨_, rfl, .acting fun hl => ?_⟩
    cases (!s.panel.restartTaken)
    · exact id
    · exact State.restartAll_keepsCarriage hl
  | lineFree => exact ⟨_, rfl, .waits rfl⟩
  | lineFault => exact ⟨_, rfl, .acts (State.given_carriage s.lineFaultBegins_carriage _)⟩
  | loadWindowEnd =>
    refine ⟨_, rfl, .waits ?_⟩
    dsimp only
    split
    · exact State.latchCleared_carriage _
    · rfl
  | framingError => exact ⟨_, rfl, .acts (s.readingEnds_carriage _ _)⟩
  | truncation => exact ⟨_, rfl, .acts (s.readingEnds_carriage _ _)⟩
  | malformedFrame =>
    exact ⟨_, rfl, .waits (State.given_carriage (f := fun s => s.withLine s.line.discardFrame) rfl _)⟩
  | checkFailure =>
    exact ⟨_, rfl, .waits (State.given_carriage (f := fun s => s.withLine s.line.discardFrame) rfl _)⟩
  | breakRead => exact ⟨_, rfl, .acts (s.readingEnds_carriage _ _)⟩
  | textSection f =>
    exact ⟨_, rfl, .acts (State.given_carriage (f := fun s => s.handIndividual f fun s => s.judgeText f)
      (s.handIndividual_carriage f fun t => t.judgeText_carriage f) _)⟩
  | circularFirstSection f =>
    exact ⟨_, rfl, .acts (State.given_carriage (f := fun s => s.handCircular f fun s => s.circularFirst f)
      (s.handCircular_carriage f fun t => t.circularFirst_carriage f) _)⟩
  | circularContinuation f =>
    exact ⟨_, rfl, .acts (State.given_carriage (f := fun s => s.handCircular f fun s => s.circularNext f)
      (s.handCircular_carriage f fun t => t.circularNext_carriage f) _)⟩
  | who f =>
    exact ⟨_, rfl, .acts (State.given_carriage (f := fun s => s.handIndividual f fun s => s.judgeWho f)
      (s.handIndividual_carriage f fun t => t.judgeRequest_carriage f _ _) _)⟩
  | enquire f =>
    exact ⟨_, rfl, .acts (State.given_carriage (f := fun s => s.handIndividual f fun s => s.judgeEnquire f)
      (s.handIndividual_carriage f fun t => t.judgeRequest_carriage f _ _) _)⟩
  | ident f =>
    exact ⟨_, rfl, .acts (State.given_carriage
      (f := fun s => s.handIndividual f fun s => s.judgeReply f (.ident f.origin f.text))
      (s.handIndividual_carriage f fun t => t.judgeReply_carriage f _) _)⟩
  | status f =>
    exact ⟨_, rfl, .acts (State.given_carriage
      (f := fun s => s.handIndividual f fun s => s.judgeReply f (.status f.origin f.text))
      (s.handIndividual_carriage f fun t => t.judgeReply_carriage f _) _)⟩
  | release f =>
    refine ⟨_, rfl, .acts (State.given_carriage (f := fun s => if isCircular f then
      s.handCircular f fun s => s.actRelease f else s.handIndividual f fun s => (s.actRelease f, .accept)) ?_ _)⟩
    split
    · exact s.handCircular_carriage f fun t => t.actRelease_carriage f
    · exact s.handIndividual_carriage f fun t => t.actRelease_carriage f
  | recordTimerExpiry r => exact ⟨_, rfl, .acts (s.recordExpired_carriage r)⟩
  | answerStart => exact ⟨_, rfl, .waits (State.given_carriage s.answerBegins_carriage _)⟩
  | answerEchoMismatch =>
    exact ⟨_, rfl, .waits (State.given_carriage (f := fun s => s.withLine s.line.hunt) rfl _)⟩
  | startCellDriven =>
    refine ⟨_, rfl, .waits (State.given_carriage (f := fun s => match s.offer with
      | none => s
      | some (c, f) => { s with line := s.line.contend f, send := s.send.putOnLine c }) ?_ _)⟩
    split <;> rfl
  | loss =>
    exact ⟨_, rfl, .waits (State.given_carriage (f := fun s => (s.withLine s.line.txIdle).reportLoss)
      (State.reportLoss_carriage _) _)⟩
  | arbitrationWon =>
    exact ⟨_, rfl, .waits (State.given_carriage (f := fun s => s.withLine { s.line with tx := .send }) rfl _)⟩
  | collision =>
    exact ⟨_, rfl, .acts (State.given_carriage (f := fun s => (s.withLine s.line.txIdle.hunt).reportNoAnswer)
      (State.reportNoAnswer_carriage _) _)⟩
  | individualFrameSent =>
    exact ⟨_, rfl, .waits (State.given_carriage (f := fun s => s.withLine s.line.awaits) rfl _)⟩
  | circularFrameCompleted =>
    exact ⟨_, rfl, .acts (State.given_carriage (f := fun s => (s.withLine s.line.txIdle.readyRx).reportDone)
      (State.reportDone_carriage _) _)⟩
  | accept => exact ⟨_, rfl, State.answered_keepsCarriage State.reportDone_carriage s⟩
  | duplicate => exact ⟨_, rfl, State.answered_keepsCarriage State.reportDone_carriage s⟩
  | wait => exact ⟨_, rfl, State.answered_keepsCarriage State.reportWait_carriage s⟩
  | engaged => exact ⟨_, rfl, State.answered_keepsCarriage State.reportEngaged_carriage s⟩
  | refuse => exact ⟨_, rfl, State.answered_keepsCarriage State.reportRefuse_carriage s⟩
  | answerGarbled => exact ⟨_, rfl, State.answered_keepsCarriage State.reportNoAnswer_carriage s⟩
  | answerWindowEnd =>
    exact ⟨_, rfl, .acts (State.given_carriage (f := fun s => (s.withLine s.line.readyRx).answerLost)
      (State.answerLost_carriage _) _)⟩
  | breakSignalEnd =>
    exact ⟨_, rfl, .waits (State.given_carriage (f := fun s => s.withLine s.line.txIdle) rfl _)⟩
  | delayTimerExpiry r => exact ⟨_, rfl, .waits rfl⟩
  | replyWatchExpiry slot =>
    refine ⟨_, rfl, .acts ?_⟩
    split
    · rfl
    · exact State.notice_carriage _ _
  | keyClosure k => exact ⟨_, rfl, .waits (s.closeKey_carriage k)⟩
  | keyRelease k => exact ⟨_, rfl, .waits (s.openKey_carriage k)⟩
  | textKey =>
    exact ⟨_, rfl, .acts (State.takeHead_carriage (f := fun k s => s.takeText k) s.takeText_carriage _)⟩
  | hereIs =>
    exact ⟨_, rfl, .acts (State.takeHead_carriage (f := fun k s => s.takeText k) s.takeText_carriage _)⟩
  | erase =>
    exact ⟨_, rfl, .acts (State.takeHead_carriage (f := fun _ s => s.takeErase) (fun _ => s.takeErase_carriage) _)⟩
  | endKey =>
    exact ⟨_, rfl, .acts (State.takeHead_carriage (f := fun _ s => s.takeEnd) (fun _ => s.takeEnd_carriage) _)⟩
  | dest =>
    exact ⟨_, rfl, .acts (State.takeHead_carriage (f := fun k s => s.takeDest k) s.takeDest_carriage _)⟩
  | destinationDigit =>
    exact ⟨_, rfl, .acts (State.takeHead_carriage (f := fun k s => s.takeDestDigit ((digitOf k).getD 0))
      (fun _ => s.takeDestDigit_carriage _) _)⟩
  | whoKey =>
    exact ⟨_, rfl, .acts (State.takeHead_carriage (f := fun _ s => s.takeRequest .who)
      (fun _ => s.takeRequest_carriage _) _)⟩
  | enq =>
    exact ⟨_, rfl, .acts (State.takeHead_carriage (f := fun _ s => s.takeRequest .enquire)
      (fun _ => s.takeRequest_carriage _) _)⟩
  | mode =>
    exact ⟨_, rfl, .acts (State.takeHead_carriage (f := fun _ s => s.takeMode) (fun _ => s.takeMode_carriage) _)⟩
  | time =>
    exact ⟨_, rfl, .acts (State.takeHead_carriage (f := fun _ s => s.takeTime) (fun _ => s.takeTime_carriage) _)⟩
  | timeDigit =>
    exact ⟨_, rfl, .acts (State.takeHead_carriage (f := fun k s => s.takeTimeDigit ((digitOf k).getD 0))
      (fun _ => s.takeTimeDigit_carriage _) _)⟩
  | breakKey => exact ⟨_, rfl, .acts (s.takeHanded .breakKey).takeBreak_carriage⟩
  | openingRepeated => exact ⟨_, rfl, .acts s.repeatOpening_carriage⟩
  | blockRequestRepeated => exact ⟨_, rfl, .acts s.repeatBlock_carriage⟩
  | localCodeResumed => exact ⟨_, rfl, .acts s.resumeLocal_carriage⟩
  | idleReleaseExpiry => exact ⟨_, rfl, .waits s.idleRelease_carriage⟩
  | autoEndExpiry => exact ⟨_, rfl, .acts s.autoEndExpires_carriage⟩
  | attend =>
    refine ⟨_, rfl, .acting fun hl hb => State.carriageBounded.congr ?_ (State.notice_carriage _ _)⟩
    exact State.motorJudged_keepsCarriage (s := (s.takeHanded .attend).withPanel _) hl (hb.congr rfl)
  | print => exact ⟨_, rfl, .acts (State.notice_carriage _ _)⟩
  | punch =>
    have noted (on : Bool) : (((s.takeHanded .punch).withPanel { s.panel with punchSel := on }).notice
        (.punchSel on)).carriage = s.carriage := State.notice_carriage _ _
    refine ⟨_, rfl, .acts ?_⟩
    dsimp only
    split
    · exact (State.punchOn_carriage _).trans (noted _)
    · exact (State.punchOff_carriage _).trans (noted _)
  | level => exact ⟨_, rfl, .acts (State.notice_carriage _ _)⟩
  | paperFeed =>
    refine ⟨_, rfl, .acts ?_⟩
    dsimp only
    split <;> rfl
  | tapeFeed =>
    refine ⟨_, rfl, .acts ?_⟩
    dsimp only
    split <;> rfl
  | tapeFeedRelease => exact ⟨_, rfl, .acts rfl⟩
  | punchResume =>
    refine ⟨_, rfl, .acts ?_⟩
    dsimp only
    split <;> rfl
  | journal shift =>
    refine ⟨_, rfl, .acts ?_⟩
    dsimp only
    split <;> rfl
  | printOperationComplete => exact ⟨_, rfl, .acting State.printCompletes_keepsCarriage⟩
  | motorStartComplete => exact ⟨_, rfl, .acting State.printCompletes_keepsCarriage⟩
  | motorStopComplete => exact ⟨_, rfl, .acting State.printCompletes_keepsCarriage⟩
  | motorIdleExpiry => exact ⟨_, rfl, .acting State.motorJudged_keepsCarriage⟩
  | echoIdleExpiry => exact ⟨_, rfl, .acts rfl⟩
  | paperOut => exact ⟨_, rfl, .of_same rfl⟩
  | paperPresent => exact ⟨_, rfl, .of_same rfl⟩
  | punchOperationComplete sense feedHole => exact ⟨_, rfl, .acts (s.punchCompletes_carriage sense feedHole)⟩
  | tapeOut =>
    refine ⟨_, rfl, ?_⟩
    split
    · exact fun hb => State.settle_keepsCarriage _ (hb.congr s.tapeRunsOut_carriage)
    · exact .of_same rfl
  | tapePresent => exact ⟨_, rfl, .of_same rfl⟩
  | tapeLow => exact ⟨_, rfl, .of_same rfl⟩
  | tapeLowCleared => exact ⟨_, rfl, fun hb => State.settle_keepsCarriage _ (hb.congr rfl)⟩
  | dayClockDividerExpiry => exact ⟨_, rfl, .of_same rfl⟩
  | lampFlash => exact ⟨_, rfl, .waits rfl⟩
  | frameStartCell =>
    exact ⟨_, rfl, .waits (State.given_carriage (f := fun s => s.withLine s.line.startRead) rfl _)⟩
  | frameNotHandedOn f =>
    exact ⟨_, rfl, .acts (State.given_carriage (f := fun s => s.frameEnds f) (s.frameEnds_carriage f) _)⟩
  | answerComplete =>
    exact ⟨_, rfl, .waits (State.given_carriage (f := fun s => s.withLine s.line.readyRx) rfl _)⟩
  | restartContactOpened => exact ⟨_, rfl, .of_same rfl⟩

/-! ### The block's own step -/

theorem State.tickLive_print (s : State) : s.tickLive.print = s.aged.print := by rw [State.tickLive_aged]

theorem State.tickLive_panel (s : State) : s.tickLive.panel = s.aged.panel := by rw [State.tickLive_aged]

/-- One cell of time reaches the timers of the printer, not its carriage. -/
theorem State.tickLive_carriage (s : State) : s.tickLive.carriage = s.carriage := by
  simp only [State.carriage, State.tickLive_print, State.tickLive_panel, State.aged_print, State.aged_panel]

theorem State.tick_keepsCarriage (s : State) : s.keepsCarriage s.tick := by
  unfold State.tick
  split
  · exact .of_same rfl
  · split
    · exact .of_same s.tickLive_carriage
    · unfold State.tickRead
      split
      · rename_i n left hp
        exact fun hb => (State.withPhase_keepsCarriage (hp ▸ nofun) (.retryWait n (left - s.cellTime)) hb).congr rfl
      · exact id

/-- Settles O59: the block's own step, and each command by what it does to the printer. -/
theorem carriageKept : Obligations.CarriageKept := by
  intro s t hb h
  unfold step at h
  split at h
  · cases h
    exact s.tick_keepsCarriage hb
  · rename_i c rest _
    obtain ⟨u, hu, hk⟩ := exec_keepsCarriage c { s with pending := rest }
    rw [hu] at h
    cases h
    exact hk (hb.congr rfl)

end Sys2Proof.Machine
end

section
/-! SUPPORT. What the two mechanism units leave alone in what they do of their own accord: of the journal all but the
report, the sensor readings and the stalls; notices and echo items leave their queues from the head, and the bell count
never falls (R144, R150, R155, R162, R169). -/
namespace Sys2Proof.Machine

/-! ### The print unit -/

/-- What the print unit does keeps the journal but for its report, the paper reading and the stall; it takes notices and
echo items from the head of their queues, and only adds to the bell count. -/
structure PrintSide.framed (x y : PrintSide) : Prop where
  journal : y.journal = { x.journal with report := y.journal.report }
  notices : y.print.notices <:+ x.print.notices
  echo : y.print.echoFifo <:+ x.print.echoFifo
  paper : y.print.paperPresent = x.print.paperPresent
  stall : y.print.stalled = x.print.stalled
  bell : x.bell ≤ y.bell

/-- Nothing done keeps it all: the start of each account that names what an operation changes. -/
theorem PrintSide.frames (x : PrintSide) : x.framed x :=
  ⟨rfl, List.suffix_rfl, List.suffix_rfl, rfl, rfl, Nat.le_refl _⟩

theorem PrintSide.framed.trans {x y z : PrintSide} (h : x.framed y) (h' : y.framed z) : x.framed z where
  journal := by rw [h'.journal, h.journal]
  notices := h'.notices.trans h.notices
  echo := h'.echo.trans h.echo
  paper := h'.paper.trans h.paper
  stall := h'.stall.trans h.stall
  bell := h.bell.trans h'.bell

theorem PrintSide.before_framed {x : PrintSide} {p : PrintUnit} (hp : x.print.before = some p) :
    x.framed { x with print := p } := by
  rcases x.print.before_some p hp with ⟨-, -, rfl⟩ | ⟨-, rfl⟩ <;> exact { x.frames with }

theorem PrintSide.framed.issue {x c : PrintSide} (hc : x.framed c) (env : PrintEnv) (st : Stream) (item : Bool)
    (o : MechOp) : x.framed (x.issue env st item o c) := by
  rcases PrintSide.issue_cases env st item o x c with ⟨p, hp, e⟩ | ⟨-, -, y, hy, e⟩ | ⟨-, q, -, e⟩ <;> rw [e]
  · exact PrintSide.before_framed hp
  · rcases hy with rfl | rfl
    · exact { y.frames with }
    · exact { hc with }
  · exact { hc with }

theorem PrintSide.framed.beginLine {x b : PrintSide} (hb : x.framed b) (st : Stream) :
    x.framed (x.beginLine st b) := by
  rcases PrintSide.beginLine_cases st x b with ⟨-, e⟩ | ⟨-, p, hp, e⟩ | ⟨-, e⟩ <;> rw [e]
  · exact { x.frames with }
  · exact PrintSide.before_framed hp
  · exact hb

theorem PrintSide.framed.issueElem {x c : PrintSide} (hc : x.framed c) (env : PrintEnv) (st : Stream) (e : Elem) :
    x.framed (x.issueElem env st e c) := by
  rcases PrintSide.issueElem_cases env st e x c with ⟨o, he⟩ | he <;> rw [he]
  · exact hc.issue env st false o
  · exact { hc with bell := hc.bell.trans (Nat.le_succ _) }

theorem PrintSide.actNotices_framed {env : PrintEnv} {x y : PrintSide} (h : x.actNotices env = some y) :
    x.framed y := by
  unfold PrintSide.actNotices at h
  split at h
  · cases h; exact .issueElem (by exact { x.frames with }) _ _ _
  · split at h
    · cases h; exact .beginLine (by exact { x.frames with }) _
    · split at h
      · cases h
      · rename_i n rest hq
        cases h
        exact .beginLine (by exact { x.frames with notices := hq ▸ List.suffix_cons n rest }) _

theorem PrintUnit.popEcho_suffix (p : PrintUnit) : p.popEcho.echoFifo <:+ p.echoFifo := by
  unfold PrintUnit.popEcho
  split
  · exact List.suffix_rfl
  · rename_i i rest hq
    exact hq ▸ List.suffix_cons i rest

/-- An item gone from the head of the echo FIFO, with the echo's idle timer. -/
theorem PrintUnit.popEcho_rest (p : PrintUnit) :
    p.popEcho = { p with echoFifo := p.popEcho.echoFifo, echoIdle := p.popEcho.echoIdle } := by
  unfold PrintUnit.popEcho
  split <;> rfl

theorem PrintSide.actEchoItem_framed (env : PrintEnv) (x : PrintSide) (i : EchoItem) :
    x.framed (x.actEchoItem env i) := by
  have popped : x.framed { x with print := x.print.popEcho } := by
    refine { x.frames with notices := ?_, echo := x.print.popEcho_suffix, paper := ?_, stall := ?_ } <;>
      rw [PrintUnit.popEcho_rest]
  unfold PrintSide.actEchoItem
  split
  · dsimp only
    split
    · exact { popped with }
    · exact { popped with bell := Nat.le_succ _ }
    · exact .issue (by exact { popped with }) _ _ _ _
  · exact .issue (by exact { popped with }) _ _ _ _
  · exact .beginLine (by exact { popped with }) _
  · exact .beginLine (by exact { popped with }) _

theorem PrintSide.actEcho_framed {env : PrintEnv} {x y : PrintSide} (h : x.actEcho env = some y) : x.framed y := by
  unfold PrintSide.actEcho at h
  split at h
  · cases h; exact .issueElem (by exact { x.frames with }) _ _ _
  · split at h
    · cases h; exact .issue (by exact { x.frames with }) _ _ _ _
    · split at h
      · cases h
      · split at h
        · cases h; exact { x.frames with }
        · split at h
          · cases h; exact .beginLine (by exact { x.frames with }) _
          · cases h; exact x.actEchoItem_framed env _

theorem PrintSide.reportLine_framed (x : PrintSide) (r : Report) (text : List Elem) :
    x.framed (x.reportLine r text) := { x.frames with journal := rfl }

theorem PrintSide.actEntries_framed (env : PrintEnv) (x : PrintSide) (r : Report) : x.framed (x.actEntries env r) := by
  unfold PrintSide.actEntries
  dsimp only
  split
  · exact (x.reportLine_framed _ _).beginLine _
  · split
    · exact (x.reportLine_framed _ _).beginLine _
    · split
      · exact (x.reportLine_framed _ _).beginLine _
      · split
        · exact { x.frames with journal := rfl }
        · exact (x.reportLine_framed _ _).beginLine _

theorem PrintSide.actReport_framed {env : PrintEnv} {x y : PrintSide} (h : x.actReport env = some y) :
    x.framed y := by
  unfold PrintSide.actReport at h
  split at h
  · cases h; exact .issueElem (by exact { x.frames with }) _ _ _
  · split at h
    · cases h
    · split at h
      · cases h; exact (x.reportLine_framed _ _).beginLine _
      · cases h; exact x.actEntries_framed env _
      · cases h; exact (x.reportLine_framed _ _).beginLine _
      · cases h

theorem PrintSide.actCopyText_framed {env : PrintEnv} {x y : PrintSide} {c : CopyPos}
    (h : x.actCopyText env c = some y) : x.framed y := by
  unfold PrintSide.actCopyText at h
  split at h
  · cases h
  · dsimp only at h
    split at h
    · unfold PrintSide.actCopyEnd at h
      split at h
      · split at h
        · cases h; exact .beginLine (by exact { x.frames with }) _
        · split at h <;> cases h <;> exact { x.frames with }
      · cases h
    · split at h
      · cases h; exact .beginLine (by exact { x.frames with }) _
      · obtain ⟨code, -, rfl⟩ := Option.map_eq_some_iff.mp h
        unfold PrintSide.actCopyCode
        dsimp only
        split
        · exact { x.frames with }
        · exact { x.frames with bell := Nat.le_succ _ }
        · exact .issue (by exact { x.frames with }) _ _ _ _

theorem PrintSide.actCopy_framed {env : PrintEnv} {x y : PrintSide} (h : x.actCopy env = some y) : x.framed y := by
  unfold PrintSide.actCopy at h
  split at h
  · cases h
  · split at h
    · cases h; exact .issueElem (by exact { x.frames with }) _ _ _
    · split at h
      · cases h
        split
        · exact { x.frames with bell := Nat.le_succ _ }
        · exact { x.frames with }
      · cases h
        unfold PrintSide.actCopyPage
        dsimp only
        split
        · exact .issue (by exact { x.frames with }) _ _ _ _
        · exact { x.frames with }
      · obtain ⟨e, -, rfl⟩ := Option.map_eq_some_iff.mp h
        exact .beginLine (by exact { x.frames with }) _
      · exact PrintSide.actCopyText_framed h
      · cases h; exact { x.frames with }

theorem PrintSide.act_framed {env : PrintEnv} {x y : PrintSide} {st : Stream} (h : x.act env st = some y) :
    x.framed y := by
  cases st with
  | notices => exact PrintSide.actNotices_framed h
  | echo => exact PrintSide.actEcho_framed h
  | copy => exact PrintSide.actCopy_framed h
  | report => exact PrintSide.actReport_framed h

theorem PrintSide.issueNext_framed {env : PrintEnv} {x y : PrintSide} (h : x.issueNext env = some y) :
    x.framed y := by
  have owed : x.framed { x with print := x.print.issueOwed env } := by
    unfold PrintUnit.issueOwed
    split
    · rename_i q hq; exact PrintSide.before_framed hq
    · exact { x.frames with }
  unfold PrintSide.issueNext at h
  split at h
  · split at h <;> cases h
    exact owed
  · split at h
    · cases h; exact owed
    · split at h
      · cases h
        unfold PrintUnit.issuePre
        split
        · rename_i q hq; exact PrintSide.before_framed hq
        · exact { x.frames with }
      · obtain ⟨st, -, hturn⟩ := Option.bind_eq_some_iff.mp h
        obtain ⟨z, hz, rfl⟩ := Option.map_eq_some_iff.mp hturn
        split
        · exact { x.frames with }
        · exact PrintSide.act_framed hz

theorem PrintSide.judge_framed (env : PrintEnv) (x : PrintSide) : x.framed (x.judge env) := by
  unfold PrintSide.judge
  split
  · exact { x.frames with }
  · split <;> exact { x.frames with }

theorem PrintSide.step_framed {env : PrintEnv} {x y : PrintSide} (h : x.step env = some y) : x.framed y := by
  rcases PrintSide.step_cases h with ⟨-, slot, -, rfl⟩ | ⟨-, -, rfl⟩ | ⟨-, -, -, rfl⟩ | ⟨-, hi⟩
  · exact { x.frames with }
  · exact x.judge_framed env
  · exact { x.frames with }
  · exact PrintSide.issueNext_framed hi

theorem State.settlePrint_framed (s : State) : s.printSide.framed s.settlePrint.printSide :=
  PrintSide.run_keeps s.printEnv s.printSide.framed (fun _ _ hx hs => hx.trans (PrintSide.step_framed hs)) printFuel
    s.printSide s.printSide.frames

/-! ### The punch unit -/

/-- The readings of the two tape switches and the stall's two causes. -/
def Punch.sensors (p : Punch) : Bool × Bool × Bool × Bool := (p.tapeOut, p.tapeLow, p.stallTapeOut, p.stallFault)

theorem Punch.localBegins_sensors (p : Punch) (leader : Nat) : (p.localBegins leader).sensors = p.sensors := by
  unfold Punch.localBegins
  split
  · split <;> rfl
  · rfl
  · rfl
  · split <;> rfl

theorem Punch.turnedOff_sensors (p : Punch) (leader : Nat) (relocal : Bool) :
    (p.turnedOff leader relocal).sensors = p.sensors := by
  unfold Punch.turnedOff
  dsimp only
  split
  · exact Punch.localBegins_sensors _ _
  · rfl

theorem Punch.closed_sensors (p : Punch) (leader : Nat) : (p.closed leader).sensors = p.sensors := by
  unfold Punch.closed
  split <;> rfl

theorem Punch.copyFinished_sensors (p : Punch) (leader : Nat) : (p.copyFinished leader).sensors = p.sensors := by
  unfold Punch.copyFinished
  split <;> rfl

theorem Punch.localStep_sensors {p q : Punch} {leader : Nat} (h : p.localStep leader = some q) :
    q.sensors = p.sensors := by
  unfold Punch.localStep at h
  split at h
  · cases h; rfl
  · split at h
    · cases h; rfl
    · split at h
      · cases h; rfl
      · split at h <;> cases h <;> rfl

theorem PunchSide.copyStep_sensors {x y : PunchSide} {leader : Nat} (h : x.copyStep leader = some y) :
    y.punch.sensors = x.punch.sensors := by
  unfold PunchSide.copyStep at h
  split at h
  · cases h
  · split at h
    · cases h; rfl
    · cases h; rfl
    · cases h; exact Punch.copyFinished_sensors _ _
    · cases h

/-- What the punch unit does of its own accord reads no switch and begins and ends no stall. -/
theorem PunchSide.step_sensors {leader : Nat} {relocal : Bool} {x y : PunchSide}
    (h : x.step leader relocal = some y) : y.punch.sensors = x.punch.sensors := by
  rcases PunchSide.step_cases h with ⟨_, _, rfl⟩ | ⟨_, ⟨_, rfl⟩ | ⟨_, ⟨_, rfl⟩ | ⟨_, _, h⟩⟩⟩
  · rfl
  · exact Punch.turnedOff_sensors _ _ _
  · exact Punch.closed_sensors _ _
  · unfold PunchSide.issueNext at h
    split at h
    · cases h; rfl
    · split at h
      · cases h; rfl
      · split at h
        · obtain ⟨p, hp, rfl⟩ := Option.map_eq_some_iff.mp h
          exact Punch.localStep_sensors hp
        · exact PunchSide.copyStep_sensors h

theorem State.settlePunch_sensors (s : State) : s.settlePunch.punch.sensors = s.punch.sensors :=
  PunchSide.run_keeps s.panel.settings.leader s.relocal (fun x => x.punch.sensors = s.punch.sensors)
    (fun _ _ hx hs => (PunchSide.step_sensors hs).trans hx) punchFuel s.punchSide rfl

/-! ### Settling -/

/-- Settling is what the print unit does and then what the punch unit does, or nothing. -/
theorem State.settle_framed (s : State) :
    s.printSide.framed s.settle.printSide ∧ s.settle.punch.sensors = s.punch.sensors := by
  unfold State.settle
  split
  · exact ⟨{ s.settlePrint_framed with }, s.settlePrint.settlePunch_sensors⟩
  · exact ⟨s.printSide.frames, rfl⟩

/-- Settles O3: the print unit's frame, the punch's sensors, and the ring's form by the store's operations. -/
theorem settleFrame : Obligations.SettleFrame := by
  intro s
  obtain ⟨hprint, hpunch⟩ := s.settle_framed
  simp only [Punch.sensors, Prod.mk.injEq] at hpunch
  obtain ⟨hout, hlow, hstall, hfault⟩ := hpunch
  exact ⟨s.settle_line, s.settle_recv, s.settle_send, s.settle_kb, s.settle_panel, s.settle_cell, s.settle_pending,
    hprint.journal, hprint.notices, hprint.echo, hprint.paper, hprint.stall, hout, hlow, hstall, hfault, hprint.bell,
    s.settle_keeps.form⟩

end Sys2Proof.Machine
end

section
/-! SUPPORT. What the print unit does while something is in flight, in the stall, and at an idle printer that nothing
wants: grants judged or kept, the echo that stays or is interjected, and a copy that begins (R144, R151 to R154, R157,
R159, R165). -/
namespace Sys2Proof.Machine

/-! ### With something in flight -/

/-- With something in flight the print unit gives a copy its position, judges grants and sets up an interjection, and
issues nothing (R144). -/
theorem State.settle_print_inFlight {s : State} (h : s.print.flight ≠ .none) : s.settle.print = { s.print with
    copy := s.settle.print.copy, holder := s.settle.print.holder, grantDue := s.settle.print.grantDue
    echoIdle := s.settle.print.echoIdle, saved := s.settle.print.saved, pre := s.settle.print.pre
    preFor := s.settle.print.preFor } := by
  by_cases hl : s.panel.phase = .done
  · have hrun := PrintSide.run_keeps s.printEnv (fun x => x.print.flight ≠ .none ∧ ∃ c hd g ei sv pr pf,
      x.print = { s.print with copy := c, holder := hd, grantDue := g, echoIdle := ei, saved := sv, pre := pr
                               preFor := pf }) ?_ printFuel s.printSide ⟨h, _, _, _, _, _, _, _, rfl⟩
    · obtain ⟨-, c, hd, g, ei, sv, pr, pf, hx⟩ := hrun
      rw [State.settle_print hl, hx]
    · rintro x y ⟨hf, c, hd, g, ei, sv, pr, pf, hx⟩ hs
      obtain ⟨c', hd', g', ei', sv', pr', pf', rfl⟩ := PrintSide.step_holds hf hs
      exact ⟨hf, c', hd', g', ei', sv', pr', pf', by rw [hx]⟩
  · unfold State.settle
    rw [if_neg (mt s.live_iff.mp hl)]

/-- With an operation in flight the punch unit only begins a copy (R169, R171). -/
theorem State.settle_punch_inFlight {s : State} (h : s.punch.flight.isSome = true) :
    s.settle.punch = { s.punch with copy := s.settle.punch.copy } := by
  by_cases hl : s.panel.phase = .done
  · have hrun := PunchSide.run_keeps s.panel.settings.leader s.relocal
      (fun x => x.punch.flight.isSome = true ∧ ∃ c, x.punch = { s.punch with copy := c }) ?_ punchFuel
      { punch := s.punch, store := s.settlePrint.store } ⟨h, _, rfl⟩
    · obtain ⟨-, c, hx⟩ := hrun
      rw [State.settle_punch hl, hx]
    · rintro x y ⟨hf, c, hx⟩ hs
      rcases PunchSide.step_cases hs with ⟨slot, -, rfl⟩ | ⟨hn, -⟩
      · exact ⟨hf, _, by rw [hx]⟩
      · rw [hn] at hf; cases hf
  · unfold State.settle
    rw [if_neg (mt s.live_iff.mp hl)]

/-- With something in flight, a copy in its place and no grant point, the print unit leaves the state as it is. -/
theorem State.settlePrint_still {s : State} (hf : s.print.flight ≠ .none) (hp : s.copyPlaced)
    (hg : s.printSide.grantPoint s.printEnv = false) : s.settlePrint = s := by
  unfold State.settlePrint
  rw [PrintSide.run_still _ _ _ (PrintSide.step_in_flight _ s.printSide hf hp hg)]
  rfl

/-- With an operation in flight and no copy that could begin, the punch unit leaves the state as it is. -/
theorem State.settlePunch_still {s : State} (hf : s.punch.flight.isSome = true)
    (hc : s.punch.copy.isSome = true ∨ s.store.punchQ = []) : s.settlePunch = s := by
  have hb : s.punch.mayBegin = false ∨ s.store.punchQ = [] := by
    refine hc.imp_left fun hc => ?_
    obtain ⟨c, hc⟩ := Option.isSome_iff_exists.mp hc
    exact Punch.noBegin hc
  unfold State.settlePunch
  rw [PunchSide.run_still _ _ _ _ (PunchSide.step_in_flight _ _ s.punchSide hf (PunchSide.no_beginning _ hb))]
  rfl

/-- Without a grant point settling leaves the printer, and with the punch busy too the whole state. -/
theorem State.settle_still {s : State} (hf : s.print.flight ≠ .none) (hp : s.copyPlaced)
    (hg : s.printSide.grantPoint s.printEnv = false) : s.settle.print = s.print ∧
    (s.punch.flight.isSome = true → s.punch.copy.isSome = true ∨ s.store.punchQ = [] → s.settle = s) := by
  unfold State.settle
  rw [State.settlePrint_still hf hp hg]
  split
  · exact ⟨rfl, State.settlePunch_still⟩
  · exact ⟨rfl, fun _ _ => rfl⟩

/-- An operation of the holder, or a holder that waits with no grant point kept, makes no grant point. -/
theorem PrintSide.grantPoint_none {env : PrintEnv} {x : PrintSide}
    (h : (∃ o st b, x.print.flight = .op o (.stream st b) ∧ x.print.holder = some st) ∨
      x.print.grantDue = false ∧ ∃ st, x.print.holder = some st ∧ x.waits env st = true) :
    x.grantPoint env = false := by
  rcases h with ⟨o, st, b, hf, hh⟩ | ⟨hg, st, hh, hw⟩
  · exact x.grantPoint_own env o st b hf hh
  · exact x.grantPoint_waits env st hh hg hw

/-! ### A grant point -/

/-- A holder that acts on nothing of its own and has nothing to stay for: no stream, or one at a grant point that is
not the echo with its line open (R152). -/
def PrintSide.yields (env : PrintEnv) (x : PrintSide) : Prop :=
  x.print.holder = none ∨ ∃ st, x.print.holder = some st ∧ x.print.pre = [] ∧
    (∀ o b, x.print.flight ≠ .op o (.stream st b)) ∧ (x.print.grantDue = true ∨ x.waits env st = false) ∧
    (st = .echo → x.print.openLine = false ∨ x.print.owner ≠ some .echo)

/-- A holder acts on an operation of its own in flight, or one still to issue. -/
theorem PrintUnit.holderActs_none {p : PrintUnit} (h : p.holder = none) : p.holderActs = false := by
  have hs : ∀ why, p.servesHolder why = false := by
    intro why
    cases why <;> simp [PrintUnit.servesHolder, h]
  unfold PrintUnit.holderActs
  simp only [hs, Bool.and_false, Bool.or_false]
  split <;> rfl

theorem PrintUnit.holderActs_free {p : PrintUnit} {st : Stream} (hh : p.holder = some st) (hp : p.pre = [])
    (hf : ∀ o b, p.flight ≠ .op o (.stream st b)) : p.holderActs = false := by
  unfold PrintUnit.holderActs
  rw [hp]
  simp only [List.isEmpty_nil, Bool.not_true, Bool.false_and, Bool.or_false]
  split
  · rename_i o why hfl
    cases why with
    | stream st' b =>
      have hne : st ≠ st' := fun e => hf o b (e ▸ hfl)
      simp [PrintUnit.servesHolder, hh, hne]
    | closing => rfl
    | paperFeed => rfl
    | initial => rfl
    | orphan item => rfl
  · rfl

theorem PrintUnit.echoStays_iff (p : PrintUnit) : p.echoStays = true ↔
    p.holder = some .echo ∧ p.openLine = true ∧ p.owner = some .echo := by
  simp [PrintUnit.echoStays, PrintUnit.echoKeeps]

/-- Where the holder yields there is a grant point, but for no holder, none kept and nothing that waits; and the printer
is granted, not kept by the echo. -/
theorem PrintSide.yields.point {env : PrintEnv} {x : PrintSide} (h : x.yields env) :
    x.print.echoStays = false ∧ (x.grantPoint env = true ∨
      x.grantPoint env = false ∧ x.print.holder = none ∧ x.print.grantDue = false ∧ x.firstWaiting env = none) := by
  rcases h with hh | ⟨st, hh, hp, hf, hg, he⟩
  · refine ⟨by simp [PrintUnit.echoStays, hh], ?_⟩
    simp only [PrintSide.grantPoint, PrintUnit.holderActs_none hh, PrintSide.grantArises, hh]
    cases x.print.grantDue <;> cases x.firstWaiting env <;> simp
  · have hs : x.print.echoStays = false := by
      rw [← Bool.not_eq_true, PrintUnit.echoStays_iff]
      rintro ⟨hecho, hopen, howner⟩
      rw [hh] at hecho
      rcases he (Option.some.inj hecho) with he | he
      · rw [hopen] at he; cases he
      · exact he howner
    refine ⟨hs, .inl ?_⟩
    simp only [PrintSide.grantPoint, PrintUnit.holderActs_free hh hp hf, PrintSide.grantArises, hh, hs]
    rcases hg with hg | hg <;> simp [hg]

theorem PrintSide.firstWaiting_of_wants {env : PrintEnv} {x y : PrintSide} {w : Option Stream}
    (hw : x.firstWaiting env = w) (h : y.wants = x.wants) : y.firstWaiting env = w := by
  rw [← hw]
  simp only [PrintSide.firstWaiting_eq, fun st => PrintSide.waits_of_wants (env := env) (st := st) rfl h]

/-- A grant leaves no grant point: the stream granted waits, or none does (R153). -/
theorem PrintSide.grantPoint_grant (env : PrintEnv) (x : PrintSide) : (x.grant env).grantPoint env = false := by
  cases hw : x.firstWaiting env with
  | none =>
    have hh : (x.grant env).print.holder = none := hw
    have hd : (x.grant env).print.grantDue = false := rfl
    rw [PrintSide.grantPoint, PrintSide.grantArises, hh, hd]
    dsimp only
    rw [PrintSide.firstWaiting_of_wants (y := x.grant env) hw rfl]
    exact Bool.and_false _
  | some st =>
    exact PrintSide.grantPoint_waits env _ st hw rfl
      (PrintSide.waits_of_wants (PrintSide.firstWaiting_waits hw) rfl)

/-- With something in flight and no stall a holder that yields loses the printer to the first that waits (R153). -/
theorem PrintSide.yields.granted {env : PrintEnv} {x : PrintSide} (h : x.yields env) (hf : x.print.flight ≠ .none)
    (hp : x.placed) (hs : x.print.stalled = false) :
    (PrintSide.run env printFuel x).print.holder = x.firstWaiting env ∧
    (PrintSide.run env printFuel x).print.grantDue = false := by
  obtain ⟨he, hg | ⟨hg, hh, hd, hw⟩⟩ := h.point
  · have hstep : x.step env = some (x.grant env) := by
      rw [PrintSide.step_placed _ _ hp, if_pos ⟨hg, hs⟩, PrintSide.judge, he]
      simp
    rw [PrintSide.settles hstep (PrintSide.step_in_flight env _ hf hp (x.grantPoint_grant env))]
    exact ⟨rfl, rfl⟩
  · rw [PrintSide.run_still _ _ _ (PrintSide.step_in_flight env x hf hp hg)]
    exact ⟨hh.trans hw.symm, hd⟩

/-! ### The stall -/

/-- The print side with a grant point kept for the stall's end. -/
def PrintSide.kept (x : PrintSide) : PrintSide := { x with print := { x.print with grantDue := true } }

theorem PrintSide.kept_of_due {x : PrintSide} (h : x.print.grantDue = true) : x.kept = x := by
  unfold PrintSide.kept
  rw [← h]

/-- In the stall, unless a PAPER FEED's feed is to end it, the print unit at most keeps a grant point (R165). -/
theorem PrintSide.step_stalled {env : PrintEnv} {x : PrintSide} (hp : x.placed) (hs : x.print.stalled = true)
    (hq : x.print.flight ≠ .none ∨ x.print.stallFeed = false ∨ x.print.paperPresent = false) : x.step env =
    if x.grantPoint env = true ∧ x.print.grantDue = false then some x.kept else none := by
  rw [PrintSide.step_placed _ _ hp, if_neg (by simp [hs])]
  split
  · rfl
  · split
    · rfl
    · rename_i hf
      exact PrintSide.issueNext_stalled _ _ hs (hq.resolve_left hf)

theorem PrintSide.run_stalled {env : PrintEnv} {x : PrintSide} (hp : x.placed) (hs : x.print.stalled = true)
    (hq : x.print.flight ≠ .none ∨ x.print.stallFeed = false ∨ x.print.paperPresent = false) (k : Nat) :
    PrintSide.run env (k + 1) x = if x.grantPoint env = true then x.kept else x := by
  have hstep := PrintSide.step_stalled (env := env) hp hs hq
  have hkept : x.kept.step env = none := (PrintSide.step_stalled (x := x.kept) hp hs hq).trans (if_neg nofun)
  split
  · rename_i hg
    cases hd : x.print.grantDue with
    | true => rw [PrintSide.kept_of_due hd] at hkept ⊢; exact PrintSide.run_still _ _ _ hkept
    | false => exact PrintSide.run_last (hstep.trans (if_pos ⟨hg, hd⟩)) hkept k
  · rename_i hg
    exact PrintSide.run_still _ _ _ (hstep.trans (if_neg fun h => hg h.1))

end Sys2Proof.Machine
end

section
/-! SUPPORT. The echo that keeps the printer with its line open, and the position and the beginning of a copy, as
settling leaves them (R152 to R154, R157, R159, R165, R171). -/
namespace Sys2Proof.Machine

/-! ### The echo with its line open (R152, R157) -/

/-- The echo holds the printer with its line open, acts on nothing, and has nothing to act on. -/
structure PrintSide.lingers (env : PrintEnv) (x : PrintSide) : Prop where
  holder : x.print.holder = some .echo
  openLine : x.print.openLine = true
  owner : x.print.owner = some .echo
  pre : x.print.pre = []
  flight : ∀ o b, x.print.flight ≠ .op o (.stream .echo b)
  still : x.waits env .echo = false

variable {env : PrintEnv} {x : PrintSide}

theorem PrintSide.lingers.echoStays (h : x.lingers env) : x.print.echoStays = true :=
  x.print.echoStays_iff.mpr ⟨h.holder, h.openLine, h.owner⟩

/-- Its grant points are those kept, and the interjection after 10 s (R152). -/
theorem PrintSide.lingers.grantPoint (h : x.lingers env) :
    x.grantPoint env = (x.print.grantDue || x.interjectionDue env) := by
  simp only [PrintSide.grantPoint, PrintUnit.holderActs_free h.holder h.pre h.flight, PrintSide.grantArises, h.holder,
    h.echoStays, h.still]
  simp

/-- With nothing else waiting no interjection is due (R152). -/
theorem PrintSide.lingers.notDue (h : x.lingers env) (hw : x.firstWaiting env = none) :
    x.interjectionDue env = false := by
  have ho : x.othersWait env = false := by
    rw [← Bool.not_eq_true, x.othersWait_iff env h.still, hw]
    simp
  rw [PrintSide.interjectionDue, ho, Bool.and_false]

/-- With nothing else waiting the echo keeps the printer at a grant point (R152). -/
theorem PrintSide.lingers.keeps (h : x.lingers env) (hf : x.print.flight ≠ .none) (hp : x.placed)
    (hs : x.print.stalled = false) (hw : x.firstWaiting env = none) :
    PrintSide.run env printFuel x = { x with print := { x.print with grantDue := false } } := by
  have hg : x.grantPoint env = x.print.grantDue := by rw [h.grantPoint, h.notDue hw, Bool.or_false]
  cases hd : x.print.grantDue with
  | false => rw [PrintSide.run_still _ _ _ (PrintSide.step_in_flight env x hf hp (hg.trans hd)), ← hd]
  | true =>
    have hy : PrintSide.lingers env { x with print := { x.print with grantDue := false } } :=
      ⟨h.holder, h.openLine, h.owner, h.pre, h.flight, PrintSide.waits_of_wants h.still rfl⟩
    refine PrintSide.settles ?_ (PrintSide.step_in_flight env _ hf hp ?_)
    · rw [PrintSide.step_placed _ _ hp, if_pos ⟨hg.trans hd, hs⟩, PrintSide.judge, if_pos ⟨h.echoStays, .inl hw⟩]
    · exact hy.grantPoint.trans (hy.notDue (PrintSide.firstWaiting_of_wants hw rfl))

/-- Before 10 s have passed and with no grant point kept the echo keeps the printer (R152, R154). -/
theorem PrintSide.lingers.waitsOn (h : x.lingers env) (hf : x.print.flight ≠ .none) (hp : x.placed) {n : Nat}
    (hn : x.print.echoIdle = some n) (ht : n < Config.echoIdleTime) (hd : x.print.grantDue = false) :
    PrintSide.run env printFuel x = x := by
  refine PrintSide.run_still _ _ _ (PrintSide.step_in_flight env x hf hp (h.grantPoint.trans ?_))
  simp [hd, PrintSide.interjectionDue, hn, ht]

/-- After 10 s, with another stream waiting, its line is saved and closed (R157; log 54). -/
theorem PrintSide.lingers.interjected (h : x.lingers env) (hf : x.print.flight ≠ .none) (hp : x.placed)
    (hs : x.print.stalled = false) {n : Nat} (hn : x.print.echoIdle = some n) (ht : Config.echoIdleTime ≤ n)
    (hw : x.firstWaiting env ≠ none) :
    PrintSide.run env printFuel x = { x with print := { x.print.interject with grantDue := false } } := by
  have hg : x.grantPoint env = true := by
    rw [h.grantPoint, PrintSide.interjectionDue, hn, (x.othersWait_iff env h.still).mpr hw]
    simp [ht]
  have hecho : x.firstWaiting env ≠ some .echo := by
    intro he
    have := PrintSide.firstWaiting_waits he
    rw [h.still] at this
    cases this
  have hacts : { x.print.interject with grantDue := false }.holderActs = true := by
    have hne : (closeOps x.print.column).isEmpty = false := by
      unfold closeOps
      split <;> rfl
    simp [PrintUnit.holderActs, PrintUnit.interject, PrintUnit.servesHolder, h.holder, hne]
  refine PrintSide.settles ?_ (PrintSide.step_in_flight env _ hf hp ?_)
  · rw [PrintSide.step_placed _ _ hp, if_pos ⟨hg, hs⟩, PrintSide.judge, if_neg (by simp [hw, hecho]),
      if_pos h.echoStays]
  · rw [PrintSide.grantPoint, hacts]
    rfl

/-! ### The copy's position (R159) -/

theorem PrintSide.run_places {slot : Nat} {rest : List Nat} (hc : x.print.copy = none)
    (hq : x.store.printQ = slot :: rest) (k : Nat) :
    PrintSide.run env (k + 1) x = PrintSide.run env k (x.withCopy (CopyPos.start slot)) := by
  refine PrintSide.run_succ ?_ k
  unfold PrintSide.step
  rw [hc, hq]

theorem PrintSide.placed_or (x : PrintSide) :
    x.placed ∨ x.print.copy = none ∧ ∃ slot rest, x.store.printQ = slot :: rest := by
  cases hc : x.print.copy with
  | some c => exact .inl (.inl (by rw [hc]; rfl))
  | none =>
    cases hq : x.store.printQ with
    | nil => exact .inl (.inr hq)
    | cons slot rest => exact .inr ⟨rfl, slot, rest, rfl⟩

/-- In the stall, unless a PAPER FEED's feed is to end it, the print unit gives a copy its position and keeps a grant
point, and does nothing else (R165). -/
theorem PrintSide.run_inStall (hs : x.print.stalled = true)
    (hq : x.print.flight ≠ .none ∨ x.print.stallFeed = false ∨ x.print.paperPresent = false) : ∃ c g,
    PrintSide.run env printFuel x = { x with print := { x.print with copy := c, grantDue := g } } ∧
    (x.placed → c = x.print.copy ∧ g = (x.print.grantDue || x.grantPoint env)) ∧
    (x.print.grantDue = true → g = true) := by
  have kept : ∀ y : PrintSide, y.placed → y.print.stalled = true →
      (y.print.flight ≠ .none ∨ y.print.stallFeed = false ∨ y.print.paperPresent = false) → ∀ k,
      PrintSide.run env (k + 1) y
        = { y with print := { y.print with grantDue := y.print.grantDue || y.grantPoint env } } := by
    intro y hp hs hq k
    rw [PrintSide.run_stalled hp hs hq]
    cases y.grantPoint env
    · rw [Bool.or_false]; rfl
    · rw [Bool.or_true]; rfl
  rcases x.placed_or with hp | ⟨hc, slot, rest, hsl⟩
  · exact ⟨x.print.copy, _, kept x hp hs hq (printFuel - 1), fun _ => ⟨rfl, rfl⟩, fun hd => by rw [hd]; rfl⟩
  · have hrun := PrintSide.run_places (env := env) hc hsl (printFuel - 1)
    refine ⟨_, _, hrun.trans (kept (x.withCopy (CopyPos.start slot)) (.inl rfl) hs hq (printFuel - 2)), ?_, ?_⟩
    · rintro (hp | hp)
      · rw [hc] at hp; cases hp
      · rw [hsl] at hp; cases hp
    · intro hd
      have hd' : (x.withCopy (CopyPos.start slot)).print.grantDue = true := hd
      rw [hd']
      rfl

/-- A copy's position stays while something is in flight or the printer is stalled. -/
theorem PrintSide.run_keepsCopy {c : CopyPos} (hc : x.print.copy = some c)
    (h : x.print.flight ≠ .none ∨ x.print.stalled = true) (k : Nat) :
    (PrintSide.run env k x).print.copy = some c := by
  refine (PrintSide.run_keeps env (fun x => x.print.copy = some c ∧ (x.print.flight ≠ .none ∨ x.print.stalled = true))
    ?_ k x ⟨hc, h⟩).1
  rintro x y ⟨hc, h⟩ hs
  have hstall : y.print.stalled = x.print.stalled := (PrintSide.step_framed hs).stall
  rcases PrintSide.step_cases hs with ⟨hn, -⟩ | ⟨-, -, rfl⟩ | ⟨-, -, -, rfl⟩ | ⟨hf, hi⟩
  · rw [hc] at hn; cases hn
  · unfold PrintSide.judge
    split
    · exact ⟨hc, h⟩
    · split <;> exact ⟨hc, h⟩
  · exact ⟨hc, h⟩
  · have hst : x.print.stalled = true := h.resolve_left fun hne => hne hf
    refine ⟨?_, .inr (hstall.trans hst)⟩
    unfold PrintSide.issueNext at hi
    rw [if_pos hst] at hi
    split at hi <;> cases hi
    dsimp only
    unfold PrintUnit.issueOwed
    split
    · rename_i q hq; exact (PrintUnit.before_copy hq).trans hc
    · exact hc

/-! ### A copy begins at an idle printer (R159) -/

/-- The state with the copy of an entry in its beginning. -/
def State.copyBegun (s : State) (slot : Nat) : State :=
  { s with print := { s.print with copy := some (CopyPos.start slot) } }

/-- An idle printer that nothing wants, with an entry in the print queue: nothing in flight, stalled, owed, due or
kept, and no stream that holds it or waits. -/
structure State.idleForCopy (s : State) (slot : Nat) : Prop where
  flight : s.print.flight = .none
  paper : s.print.stalled = false
  fed : s.print.owedFeeds = 0
  lines : s.print.pre = []
  judged : s.print.grantDue = false
  holder : s.print.holder = none
  line : s.print.openLine = false
  still : s.printSide.firstWaiting s.printEnv = none
  copy : s.print.copy = none
  queue : ∃ rest, s.store.printQ = slot :: rest

variable {s : State} {slot : Nat}

theorem State.idleForCopy.ready (h : s.idleForCopy slot) : ((s.copyBegun slot).inTurn .copy none).ready .copy :=
  ⟨h.flight, h.paper, h.fed, h.lines, h.judged, .inl rfl, rfl, .inl h.line⟩

/-- The copy takes its position and is granted the printer. -/
theorem State.idleForCopy.granted (h : s.idleForCopy slot) : PrintSide.run s.printEnv printFuel s.printSide
    = PrintSide.run s.printEnv (printFuel - 2) ((s.copyBegun slot).inTurn .copy none) := by
  obtain ⟨rest, hq⟩ := h.queue
  refine (PrintSide.run_places (k := printFuel - 1) (x := s.printSide) h.copy hq).trans ?_
  have hidle := PrintSide.firstWaiting_none h.still
  have hwait (st : Stream) (hst : st ≠ .copy) : (s.copyBegun slot).printSide.waits s.printEnv st ≠ true := by
    refine Bool.eq_false_iff.mp ?_
    rw [← hidle st]
    cases st with
    | notices => exact Bool.eq_iff_iff.mpr ((PrintSide.waits_notices _ _).trans (PrintSide.waits_notices _ s.printSide).symm)
    | echo => exact Bool.eq_iff_iff.mpr ((PrintSide.waits_echo _ _).trans (PrintSide.waits_echo _ s.printSide).symm)
    | copy => exact absurd rfl hst
    | report => exact Bool.eq_iff_iff.mpr ((PrintSide.waits_report _ _).trans (PrintSide.waits_report _ s.printSide).symm)
  have hfirst : (s.copyBegun slot).printSide.firstWaiting s.printEnv = some .copy := by
    rw [PrintSide.firstWaiting_eq, if_neg (hwait _ (by simp)), if_neg (hwait _ (by simp)),
      if_pos ((PrintSide.waits_copy _ _).mpr ⟨_, rfl, .inr (.inl rfl)⟩)]
  have hyields : (s.copyBegun slot).printSide.yields s.printEnv := .inl h.holder
  obtain ⟨he, hg | ⟨-, -, -, hnone⟩⟩ := hyields.point
  · refine PrintSide.run_succ (y := (s.copyBegun slot).inTurn .copy none) (k := printFuel - 2) ?_
    refine (PrintSide.step_placed _ (s.copyBegun slot).printSide (.inl rfl)).trans ?_
    rw [if_pos ⟨hg, h.paper⟩, PrintSide.judge, he]
    simp only [Bool.false_eq_true, false_and, if_false, PrintSide.grant, hfirst]
    rw [← h.judged]
    rfl
  · rw [hfirst] at hnone; cases hnone

/-- The copy's place behind its reception bell, with this many rings given (R159). -/
def State.copyPast (s : State) (slot : Nat) (ph : CopyPhase) (n : Nat) : PrintSide :=
  (s.copyBegun slot).copyMoved { CopyPos.start slot with phase := ph } n none

theorem State.idleForCopy.readyPast (h : s.idleForCopy slot) (ph : CopyPhase) (n : Nat) :
    (s.copyPast slot ph n).ready .copy :=
  h.ready.stands (State.copyMoved_stands _ _ _ _)

/-- It gives the reception bell and comes to the page, or else to the banner (R159). -/
theorem State.idleForCopy.rings (h : s.idleForCopy slot) {page : Bool}
    (hp : page = (s.panel.settings.pagePerMessage && s.panel.settings.pageLength != 0 && s.print.pageLine != 1))
    (hb : page = true ∨ s.panel.settings.banner = true) : PrintSide.run s.printEnv printFuel s.printSide
      = PrintSide.run s.printEnv (printFuel - 3) (s.copyPast slot (if page = true then .page else .banner)
        (if s.panel.attended = true then 1 else 0)) := by
  have hphase : ((s.copyBegun slot).inTurn .copy none).afterBell s.printEnv = if page = true then .page else .banner := by
    have hasked : ((s.copyBegun slot).inTurn .copy none).pageAsked s.printEnv = page := hp.symm
    rw [PrintSide.afterBell, hasked]
    split
    · rfl
    · rename_i hn
      exact if_pos (hb.resolve_left hn)
  rw [h.granted, State.copyPast, ← hphase]
  exact PrintSide.ready_next h.ready ((s.copyBegun slot).act_copyBell rfl rfl rfl none) (printFuel - 3)

end Sys2Proof.Machine
end

section
/-! SUPPORT. What a copy does behind its reception bell at an idle printer, and the settling of O4 (R145, R159, R168). -/
namespace Sys2Proof.Machine

/-! ### Behind the reception bell (R159) -/

variable {s : State} {slot : Nat} {e : Entry}

/-- The page comes, when it is asked for. -/
theorem State.copyPast_page {n : Nat} (ha : (s.copyPast slot .page n).pageAsked s.printEnv = true) :
    (s.copyPast slot .page n).act s.printEnv .copy = some ((s.copyPast slot .page n).issue s.printEnv .copy
      false .page (s.copyPast slot (afterPage s.printEnv) n)) :=
  PrintSide.act_copyPage (c := { CopyPos.start slot with phase := .page }) ⟨rfl, rfl, rfl⟩ ha

/-- The copy's place with the banner's line in hand. -/
def State.copyBannered (s : State) (slot n : Nat) (script : List Elem) : PrintSide :=
  (s.copyBegun slot).copyMoved { CopyPos.start slot with phase := .text, script := script } n none

theorem State.copyPast_banner {n : Nat} (he : s.store.entry slot = some e) :
    (s.copyPast slot .banner n).act s.printEnv .copy = some ((s.copyPast slot .banner n).beginLine .copy
      (s.copyBannered slot n (generated (bannerText e s.journal.time)))) :=
  PrintSide.act_copyBanner (x := s.copyPast slot .banner n) (env := s.printEnv)
    (c := { CopyPos.start slot with phase := .banner }) ⟨rfl, rfl, rfl⟩ he

/-- What stands before an operation, the motor start or the carriage return of R168, comes first (R145, R168). -/
theorem State.idleForCopy.awaits (h : s.idleForCopy slot) {ph : CopyPhase} {n : Nat} {q : PrintUnit}
    (he : s.store.entry slot = some e)
    (hph : ph = .page ∧ (s.copyPast slot .page n).pageAsked s.printEnv = true ∨ ph = .banner)
    (hq : (s.copyPast slot ph n).print.before = some q) (k : Nat) :
    PrintSide.run s.printEnv (k + 1) (s.copyPast slot ph n) = { s.copyPast slot ph n with print := q } := by
  refine PrintSide.before_run (h.readyPast ph n) hq ?_ k
  rcases hph with ⟨rfl, ha⟩ | rfl
  · rw [State.copyPast_page ha, PrintSide.issue, hq]
  · have hline : (s.copyPast slot .banner n).print.openLine = false := h.line
    rw [State.copyPast_banner he, PrintSide.beginLine, hline, hq]
    simp

/-- With the motor running the page is issued. -/
theorem State.idleForCopy.issuesPage (h : s.idleForCopy slot) {n : Nat}
    (ha : (s.copyPast slot .page n).pageAsked s.printEnv = true) (ht : s.print.turning) (k : Nat) :
    PrintSide.run s.printEnv (k + 1) (s.copyPast slot .page n)
      = (s.copyPast slot (afterPage s.printEnv) n).issuing .page .copy false :=
  PrintSide.issue_run (h.readyPast _ n) ht (by simp [strikes]) (State.copyPast_page ha) rfl (.inl rfl) k

/-- With the motor running the banner's line begins, with the M of its first word. -/
theorem State.idleForCopy.beginsBanner (h : s.idleForCopy slot) {n : Nat}
    (he : s.store.entry slot = some e) (ht : s.print.turning) (hcol : s.print.column ≤ s.panel.settings.width)
    (k : Nat) : PrintSide.run s.printEnv (k + 2) (s.copyPast slot .banner n)
      = (s.copyBannered slot n (generated (bannerText e s.journal.time)).tail).issuing (.glyph 12) .copy false :=
  PrintSide.begin_run (x := s.copyPast slot .banner n) (env := s.printEnv)
    (rest := (generated (bannerText e s.journal.time)).tail)
    (y := s.copyBannered slot n (generated (bannerText e s.journal.time)))
    (h.readyPast _ n) ht h.line hcol (State.copyPast_banner he)
    (h.ready.stands (State.copyMoved_stands _ _ _ _)) rfl rfl k

/-- At an idle printer a copy's bell is followed by the motor start or the carriage return of R168, by the page, or by
the banner's first glyph (R145, R159, R168). -/
theorem State.idleForCopy.begins (h : s.idleForCopy slot) (hl : s.panel.phase = .done) {page : Bool}
    (he : s.store.entry slot = some e) (hcol : s.print.column ≤ s.panel.settings.width)
    (hp : page = (s.panel.settings.pagePerMessage && s.panel.settings.pageLength != 0 && s.print.pageLine != 1))
    (hb : page = true ∨ s.panel.settings.banner = true) :
    s.settle.print.holder = some .copy ∧ s.settle.bell = (s.bell + if s.panel.attended then 1 else 0) ∧
    (s.print.motor = .off → s.settle.print.flight = .motorStart ∧ s.settle.print.motor = .starting ∧
      s.settle.print.copy = some { CopyPos.start slot with phase := if page then .page else .banner }) ∧
    (s.print.turning → page = false → s.settle.print.flight = .op (.glyph 12) (.stream .copy false) ∧
      s.settle.print.copy = some { CopyPos.start slot with
        phase := .text, script := (generated (bannerText e s.journal.time)).tail }) := by
  rw [State.settle_print hl, State.settle_bell hl]
  have hrun := h.rings hp hb
  generalize hn : (if s.panel.attended = true then 1 else 0) = n at hrun ⊢
  generalize hph : (if page = true then CopyPhase.page else .banner) = ph at hrun ⊢
  have hphase : ph = .page ∧ (s.copyPast slot .page n).pageAsked s.printEnv = true ∨ ph = .banner := by
    rw [← hph]
    cases hpg : page with
    | true => exact .inl ⟨rfl, hp.symm.trans hpg⟩
    | false => exact .inr rfl
  cases hq : (s.copyPast slot ph n).print.before with
  | some q =>
    have hend := hrun.trans (h.awaits he hphase hq (printFuel - 4))
    rw [hend]
    refine ⟨?_, rfl, fun hoff => ?_, fun ht => ?_⟩
    · obtain ⟨m, f, b, rfl, -, -⟩ := PrintUnit.before_rest hq
      rfl
    · have hoff' : (s.copyPast slot ph n).print.motor ≠ .running := hoff.trans_ne nofun
      rw [PrintUnit.before_off hoff'] at hq
      cases hq
      exact ⟨rfl, rfl, rfl⟩
    · have hnone : (s.copyPast slot ph n).print.before = none := PrintUnit.before_turning ht
      rw [hnone] at hq
      cases hq
  | none =>
    have ht : s.print.turning := PrintUnit.before_none (s.copyPast slot ph n).print hq
    have hrunning : s.print.motor ≠ .off := ht.1.trans_ne nofun
    rcases hphase with ⟨rfl, ha⟩ | rfl
    · have hend := hrun.trans (h.issuesPage ha ht (printFuel - 4))
      rw [hend]
      exact ⟨rfl, rfl, fun hoff => absurd hoff hrunning, fun _ hpg => by rw [hpg] at hph; cases hph⟩
    · have hfuel : printFuel - 3 = printFuel - 5 + 2 := rfl
      rw [hrun, hfuel, h.beginsBanner he ht hcol]
      exact ⟨rfl, rfl, fun hoff => absurd hoff hrunning, fun _ _ => ⟨rfl, rfl⟩⟩

end Sys2Proof.Machine
end

section
/-! The settling of O4: the stall as settling leaves it, and the text phase (R160, R165). -/
namespace Sys2Proof.Machine

/-- In the stall, unless a PAPER FEED's feed is to end it, settling gives a copy its position and keeps a grant point
(R165). -/
theorem State.settle_inStall {s : State} (hs : s.print.stalled = true)
    (hq : s.print.flight ≠ .none ∨ s.print.stallFeed = false ∨ s.print.paperPresent = false) : ∃ c g,
    s.settle.print = { s.print with copy := c, grantDue := g } ∧ s.settle.bell = s.bell ∧
    s.settle.journal = s.journal ∧ (s.copyPlaced → c = s.print.copy) ∧ (s.print.grantDue = true → g = true) ∧
    (s.panel.phase = .done → s.copyPlaced → s.printSide.grantPoint s.printEnv = true → g = true) := by
  by_cases hl : s.panel.phase = .done
  · obtain ⟨c, g, hrun, hplaced, hkept⟩ := PrintSide.run_inStall (env := s.printEnv) (x := s.printSide) hs hq
    refine ⟨c, g, ?_, ?_, ?_, fun hp => (hplaced hp).1, hkept, fun _ hp hg => ?_⟩
    · rw [State.settle_print hl, hrun]; rfl
    · rw [State.settle_bell hl, hrun]; rfl
    · rw [State.settle_journal hl, hrun]; rfl
    · rw [(hplaced hp).2, hg, Bool.or_true]
  · have hsame : s.settle = s := by
      unfold State.settle
      rw [if_neg (mt s.live_iff.mp hl)]
    rw [hsame]
    exact ⟨s.print.copy, s.print.grantDue, rfl, rfl, rfl, fun _ => rfl, id, fun h => absurd h hl⟩

/-- In its text phase a copy of an entry still open waits while a gap line or a code is left (R160). -/
theorem State.waits_copyText {s : State} {c : CopyPos} {e : Entry} (hc : s.print.copy = some c) (hsc : c.script = [])
    (hph : c.phase = .text) (he : s.store.entry c.entry = some e) (hst : e.state ≠ .closed) :
    s.printSide.waits s.printEnv .copy = true ↔ s.store.textLeft e c := by
  rw [PrintSide.waits_copy]
  constructor
  · rintro ⟨c', hc', h⟩
    cases hc.symm.trans hc'
    simp only [hsc, hph, ne_eq, not_true_eq_false, reduceCtorEq, false_and, true_and, false_or] at h
    obtain ⟨e', he', h⟩ := h
    cases he.symm.trans he'
    exact h.resolve_right hst
  · intro h
    exact ⟨c, hc, .inr (.inr (.inr (.inr (.inr ⟨hph, e, he, .inl h⟩))))⟩

/-- Settles O4: with something in flight by the steps that do not issue, in the stall by the grant point kept, and at an
idle printer by the copy's steps behind its bell. -/
theorem settleStill : Obligations.SettleStill := by
  intro s w hw
  have hfirst : s.printSide.firstWaiting s.printEnv = w := hw.symm
  have heq := hfirst.symm.trans (PrintSide.firstWaiting_eq s.printEnv s.printSide)
  have hnotices : s.printSide.waits s.printEnv .notices = true ↔ s.print.noticesWait := PrintSide.waits_notices _ _
  have hecho : s.printSide.waits s.printEnv .echo = true ↔ s.print.echoWaits := PrintSide.waits_echo _ _
  have hreport : s.printSide.waits s.printEnv .report = true ↔ s.reportWaits := PrintSide.waits_report _ _
  refine ⟨State.settle_print_inFlight, State.settle_punch_inFlight,
    fun hf hp hown => State.settle_still hf hp (PrintSide.grantPoint_none hown), ?_, ?_, ?_, ?_, ?_, ?_, ?_,
    PrintSide.waits_noCopy s.printEnv s.printSide, ?_, ?_, ?_⟩
  · intro hl hf hp hy
    have hyields : s.printSide.yields s.printEnv := hy
    refine ⟨fun hs => ?_, fun hs hne => ?_⟩
    · rw [State.settle_print hl, hw]
      exact hyields.granted hf hp hs
    · have hg : s.printSide.grantPoint s.printEnv = true :=
        hyields.point.2.resolve_right fun h => hne (hw.trans h.2.2.2)
      have hrun := PrintSide.run_stalled (env := s.printEnv) (x := s.printSide) hp hs (.inl hf) (printFuel - 1)
      rw [if_pos hg] at hrun
      exact (State.settle_print hl).trans (congrArg PrintSide.print hrun)
  · intro hl hf hp hs hh ho how hpre hfl hstill
    have hlin : s.printSide.lingers s.printEnv := ⟨hh, ho, how, hpre, hfl,
      Bool.eq_false_iff.mpr (mt hecho.mp hstill)⟩
    rw [State.settle_print hl]
    refine ⟨fun hnone => ?_, fun n hn hne => ⟨fun hlt hd => ?_, fun hle => ?_⟩⟩
    · rw [hlin.keeps hf hp hs (hfirst.trans hnone)]
      rfl
    · rw [hlin.waitsOn hf hp hn hlt hd]
      rfl
    · rw [hlin.interjected hf hp hs hn hle (hfirst ▸ hne)]
      rfl
  · intro hs hf hq
    obtain ⟨c, g, hprint, hbell, hjournal, hcopy, hkept, hpoint⟩ := State.settle_inStall hs (.inr hq)
    rw [hprint]
    refine ⟨rfl, hbell, hjournal, hcopy, hkept, fun hl hp hy => hpoint hl hp ?_⟩
    have hfree : ∀ st o b, s.print.flight ≠ .op o (.stream st b) := fun _ _ _ => hf.trans_ne nofun
    have hyields : s.printSide.yields s.printEnv := by
      rcases hy with ⟨hh, -⟩ | ⟨st, hh, hpre, hstill, he⟩
      · exact .inl hh
      · exact .inr ⟨st, hh, hpre, hfree st, .inr hstill, he⟩
    refine hyields.point.2.resolve_right fun ⟨_, hnone, _, hidle⟩ => ?_
    rcases hy with ⟨-, hne⟩ | ⟨st, hh, -⟩
    · exact hne (hw.trans hidle)
    · cases hh.symm.trans hnone
  · exact fun hn => heq.trans (if_pos (hnotices.mpr hn))
  · intro hn he
    rw [heq, if_neg (mt hnotices.mp hn), if_pos (hecho.mpr he)]
  · intro hn he hc
    rw [heq, if_neg (mt hnotices.mp hn), if_neg (mt hecho.mp he), if_pos hc]
  · intro hn he hc
    rw [heq, if_neg (mt hnotices.mp hn), if_neg (mt hecho.mp he), hc, if_neg nofun]
    exact ⟨fun hr => if_pos (hreport.mpr hr), fun hr => if_neg (mt hreport.mp hr)⟩
  · intro slot rest hl hf hc hq
    rw [State.settle_print hl]
    have hrun := PrintSide.run_places (env := s.printEnv) (x := s.printSide) hc hq (printFuel - 1)
    refine (congrArg (fun x => x.print.copy) hrun).trans ?_
    exact PrintSide.run_keepsCopy rfl hf _
  · intro slot rest e page hl hf hs hfed hpre hd hh ho hcol hnone hc hq he hpg hb
    have hidle : s.idleForCopy slot := ⟨hf, hs, hfed, hpre, hd, hh, ho, hfirst.trans hnone, hc, rest, hq⟩
    exact hidle.begins hl he hcol hpg hb
  · exact fun c e => State.waits_copyText

end Sys2Proof.Machine
end

section
/-! SUPPORT. The four mechanism keys and the sensor inputs (R165, R166, R173, R174, R176, R179, R186), with the
settling of O53 and O55. -/
namespace Sys2Proof.Machine

variable {s : State}

/-! ### The mechanism keys -/

/-- PAPER FEED owes a feed, or rings without paper (R166). -/
theorem exec_paperFeed (hl : s.panel.phase = .done) : exec .paperFeed s = .next (State.settle
    (if s.print.paperPresent = true then (s.takeHanded .paperFeed).withPrint s.print.owe
      else (s.takeHanded .paperFeed).ring)) :=
  congrArg _ (State.acting_live (s.live_iff.mpr hl) _)

/-- TAPE FEED is served, or refused with the bell (R179). -/
theorem exec_tapeFeed (hl : s.panel.phase = .done) : exec .tapeFeed s = .next (State.settle
    (if s.punch.refusesFeed = true then (s.takeHanded .tapeFeed).ring
      else (s.takeHanded .tapeFeed).withPunch { s.punch with tapeFeed := true })) :=
  congrArg _ (State.acting_live (s.live_iff.mpr hl) _)

/-- The release leaves the keys handed on and ends the serving (R179). -/
theorem exec_tapeFeedRelease (hl : s.panel.phase = .done) :
    exec .tapeFeedRelease s = .next (State.settle { s with
      punch := { s.punch with tapeFeed := false }
      kb := { s.kb with handed := s.kb.handed.erase .tapeFeedRelease } }) :=
  congrArg _ (State.acting_live (s.live_iff.mpr hl) _)

/-- PUNCH RESUME ends the stall with the tape present, and rings otherwise (R176). -/
theorem exec_punchResume (hl : s.panel.phase = .done) : exec .punchResume s = .next (State.settle
    (if s.punch.stalled = true ∧ s.punch.tapeOut = false then
      (s.takeHanded .punchResume).withPunch { s.punch with stallTapeOut := false, stallFault := false }
      else (s.takeHanded .punchResume).ring)) :=
  congrArg _ (State.acting_live (s.live_iff.mpr hl) _)

/-- JOURNAL begins a report, or rings during one (R186). -/
theorem exec_journal (shift : Bool) (hl : s.panel.phase = .done) : exec (.journal shift) s = .next (State.settle
    (if s.journal.report.isSome = true then (s.takeHanded .journal).ring
      else { s.takeHanded .journal with journal := s.journal.beginReport shift })) :=
  congrArg _ (State.acting_live (s.live_iff.mpr hl) _)

theorem Punch.stalled_iff (p : Punch) : p.stalled = true ↔ p.stallTapeOut = true ∨ p.stallFault = true := by
  simp [Punch.stalled]

/-- TAPE FEED is refused while stalled, with a copy or a restart mark, and in WAITING (R179). -/
theorem Punch.refusesFeed_iff (p : Punch) : p.refusesFeed = true ↔ p.stallTapeOut = true ∨ p.stallFault = true ∨
    p.copy.isSome = true ∨ 0 < p.markLeft ∨ ∃ b, p.reservation = .waiting b := by
  unfold Punch.refusesFeed Punch.stalled
  cases p.reservation <;> simp [or_assoc]

/-- A report begins at its header with the ring's entry numbers (R186). -/
theorem Journal.beginReport_eq (j : Journal) (clear : Bool) : j.beginReport clear = { j with
    report := some { snapshot := j.ring.map fun e => e.entryNo, toPrint := j.ring.map fun e => e.entryNo
                     wasEmpty := decide (j.ring = []), skip := 0, clear := clear, stage := .header } } := by
  have hempty : (j.ring.map fun e => e.entryNo).isEmpty = decide (j.ring = []) := by
    cases j.ring <;> rfl
  rw [Journal.beginReport, hempty]

/-- Settles O53: each key is taken from those handed on, and acts or rings by its condition. -/
theorem mechanismKeys : Obligations.MechanismKeys := by
  intro shift s hl
  have hleaves := s.takeHanded_leaves
  refine ⟨?paperFeed, ?tapeFeed, ⟨_, exec_tapeFeedRelease hl, leavesHanded_release _, rfl⟩, ?punchResume, ?journal⟩
  case paperFeed =>
    cases hp : s.print.paperPresent with
    | true => exact ⟨_, exec_settles (exec_paperFeed hl) (if_pos hp), hleaves _, rfl⟩
    | false => exact ⟨_, exec_settles (exec_paperFeed hl) (if_neg (hp ▸ nofun)), hleaves _, rfl⟩
  case tapeFeed =>
    by_cases hr : s.punch.refusesFeed = true
    · refine ⟨_, exec_settles (exec_tapeFeed hl) (if_pos hr), hleaves _, fun _ => rfl,
        fun hout hfault hcopy hmark hres => ?_⟩
      simp [Punch.refusesFeed_iff, hout, hfault, hcopy, hmark, hres] at hr
    · exact ⟨_, exec_settles (exec_tapeFeed hl) (if_neg hr), hleaves _,
        fun h => absurd (s.punch.refusesFeed_iff.mpr h) hr, fun _ _ _ _ _ => rfl⟩
  case punchResume =>
    by_cases h : s.punch.stalled = true ∧ s.punch.tapeOut = false
    · refine ⟨_, exec_settles (exec_punchResume hl) (if_pos h), hleaves _, fun _ _ => rfl, ?_⟩
      obtain ⟨hs, ht⟩ := h
      rintro (⟨hout, hfault⟩ | hout)
      · simp [Punch.stalled_iff, hout, hfault] at hs
      · rw [ht] at hout; cases hout
    · exact ⟨_, exec_settles (exec_punchResume hl) (if_neg h), hleaves _,
        fun hs ht => absurd ⟨s.punch.stalled_iff.mpr hs, ht⟩ h, fun _ => rfl⟩
  case journal =>
    by_cases hr : s.journal.report.isSome = true
    · refine ⟨_, exec_settles (exec_journal shift hl) (if_pos hr), hleaves _, fun _ => rfl, fun hnone => ?_⟩
      rw [hnone] at hr; cases hr
    · refine ⟨_, exec_settles (exec_journal shift hl) (if_neg hr), hleaves _, fun hsome => absurd hsome hr,
        fun _ => ?_⟩
      rw [s.journal.beginReport_eq]
      rfl

/-! ### The sensor inputs -/

theorem exec_tapeOut (hl : s.panel.phase = .done) : exec .tapeOut s = .next s.tapeRunsOut.settle :=
  congrArg _ (if_pos (s.live_iff.mpr hl))

/-- In the stall, or with an occurrence waiting, the tape-out switch changes its reading alone (R174). -/
theorem State.tapeRunsOut_begun (h : s.punch.stallTapeOut = true ∨ s.punch.outPending = true) :
    s.tapeRunsOut = { s with punch := { s.punch with tapeOut := true } } := if_pos h

/-- With an operation in flight the occurrence waits for its completion (R174). -/
theorem State.tapeRunsOut_waits (h : ¬ (s.punch.stallTapeOut = true ∨ s.punch.outPending = true))
    (hf : s.punch.flight.isSome = true) :
    s.tapeRunsOut = { s with punch := { s.punch with tapeOut := true, outPending := true } } :=
  (if_neg h).trans (if_pos hf)

/-- With nothing in flight the stall takes hold at once (R174). -/
theorem State.tapeRunsOut_stalls (h : ¬ (s.punch.stallTapeOut = true ∨ s.punch.outPending = true))
    (hf : s.punch.flight = none) :
    s.tapeRunsOut = { s with punch := { s.punch with tapeOut := true } }.stallTapeOut := by
  unfold State.tapeRunsOut
  exact (if_neg h).trans (if_neg (by simp [hf]))

/-- Settles O55: the tape-out switch by what has begun and what is in flight, and the other readings as they are. -/
theorem sensorInputs : Obligations.SensorInputs := by
  intro s
  refine ⟨rfl, rfl, rfl, rfl, rfl, fun hl => congrArg _ (if_neg (mt s.live_iff.mp hl)),
    fun hl hbegun => exec_settles (exec_tapeOut hl) (State.tapeRunsOut_begun hbegun), fun hl hout hpend => ?_⟩
  have hnew : ¬ (s.punch.stallTapeOut = true ∨ s.punch.outPending = true) := by simp [hout, hpend]
  exact ⟨fun hf => exec_settles (exec_tapeOut hl) (State.tapeRunsOut_waits hnew hf),
    fun hf => ⟨_, exec_settles (exec_tapeOut hl) (State.tapeRunsOut_stalls hnew hf),
      rfl, rfl, rfl, rfl, rfl, rfl, rfl, rfl, rfl, rfl, rfl⟩⟩

end Sys2Proof.Machine
end

section
/-! SUPPORT. The completion input of the punch: what the check of a code leaves of its source, and what a stall that
takes hold leaves (R169, R174, R175, R178). -/
namespace Sys2Proof.Machine

/-! ### The stall that takes hold (R174, R175, R178) -/

section
variable {p : Punch} (leader : Nat)

theorem Punch.takeStall_redo_code {c : Code} (h : p.flight = some (c, .code)) :
    (p.takeStall leader).redo = some c := by simp only [Punch.takeStall, h]

theorem Punch.takeStall_redo_other {c : Code} {src : PunchSource} (h : p.flight = some (c, src))
    (hs : src ≠ .code) : (p.takeStall leader).redo = p.redo := by
  cases src with
  | code => exact absurd rfl hs
  | copy | mark | leader | closer | feed => simp only [Punch.takeStall, h]

/-- A leading leader with blanks left is due whole again (R178). -/
theorem Punch.takeStall_leadLeft {n : Nat} (h : p.leadLeft = n + 1) : (p.takeStall leader).leadLeft = leader := by
  simp [Punch.takeStall, again, h]

/-- So is a closing leader (R178). -/
theorem Punch.takeStall_closeLeft {n : Nat} (h : p.closeLeft = some (n + 1)) :
    (p.takeStall leader).closeLeft = some leader := by simp [Punch.takeStall, again, h]

theorem Punch.takeStall_closeLeft_over (h : p.closeLeft = some 0 ∨ p.closeLeft = none) :
    (p.takeStall leader).closeLeft = p.closeLeft := by
  rcases h with h | h <;> simp [Punch.takeStall, again, h]

end

/-! ### The completion input (R169) -/

/-- The copy goes on behind the code punched. -/
theorem Punch.sourceAdvances_copy {p : Punch} {slot : Nat} {ph : PunchPhase}
    (h : p.copy = some { entry := slot, phase := ph }) :
    (p.sourceAdvances .copy).copy = some { entry := slot, phase := ph.advance } := by
  simp [Punch.sourceAdvances, h]

section
variable {s : State} {c sense : Code} {hole : Bool} {src : PunchSource}

theorem exec_punchOperationComplete (hl : s.panel.phase = .done) :
    exec (.punchOperationComplete sense hole) s = .next (s.punchCompletes sense hole).settle :=
  congrArg _ (State.acting_live (s.live_iff.mpr hl) _)

theorem State.punchCompletes_none (hf : s.punch.flight = none) : s.punchCompletes sense hole = s := by
  rw [State.punchCompletes, hf]

/-- With the tape out, or a tape-out reading begun in flight, the code is not checked (R174; log 21). -/
theorem State.punchCompletes_tapeOut (hf : s.punch.flight = some (c, src))
    (h : s.punch.outPending = true ∨ s.punch.tapeOut = true) : s.punchCompletes sense hole = s.stallTapeOut := by
  simp only [State.punchCompletes, hf, if_pos h]

theorem State.punchCompletes_punched (hf : s.punch.flight = some (c, src))
    (ht : ¬ (s.punch.outPending = true ∨ s.punch.tapeOut = true)) (h : sense = c ∧ hole = true) :
    s.punchCompletes sense hole = { s with punch := { s.punch with flight := none }.sourceAdvances src } := by
  simp only [State.punchCompletes, hf, if_neg ht, if_pos h]

theorem State.punchCompletes_fault (hf : s.punch.flight = some (c, src))
    (ht : ¬ (s.punch.outPending = true ∨ s.punch.tapeOut = true)) (h : ¬ (sense = c ∧ hole = true)) :
    s.punchCompletes sense hole = s.stallFault := by
  simp only [State.punchCompletes, hf, if_neg ht, if_neg h]

/-- A completion that does not punch its code begins an occurrence: TAPE OUT unchecked, else PUNCH FAULT. In both the
punch takes the same stall (R174, R175). -/
theorem State.punchCompletes_stalls (hf : s.punch.flight = some (c, src))
    (h : s.punch.outPending = true ∨ s.punch.tapeOut = true ∨ sense ≠ c ∨ hole = false) : ∃ (u : State) (a b : Bool),
    s.punchCompletes sense hole = u ∧ u = { s with punch := u.punch, print := u.print, journal := u.journal } ∧
    u.punch = { s.punch.takeStall s.panel.settings.leader with stallTapeOut := a, stallFault := b } ∧
    (s.punch.outPending = true ∨ s.punch.tapeOut = true → a = true ∧ b = s.punch.stallFault ∧
      u.print = s.print.place .tapeOut ∧ u.journal = s.journal.add .tapeOut {}) ∧
    (s.punch.outPending = false → s.punch.tapeOut = false → b = true ∧ a = s.punch.stallTapeOut ∧
      u.print = s.print.place .punchFault ∧ u.journal = s.journal.add .punchFault {}) := by
  by_cases ht : s.punch.outPending = true ∨ s.punch.tapeOut = true
  · refine ⟨_, true, s.punch.stallFault, State.punchCompletes_tapeOut hf ht, rfl, rfl,
      fun _ => ⟨rfl, rfl, rfl, rfl⟩, fun hpend hout => ?_⟩
    simp [hpend, hout] at ht
  · have hwrong : ¬ (sense = c ∧ hole = true) := by
      rintro ⟨rfl, rfl⟩
      rcases h with h | h | h | h
      · exact ht (.inl h)
      · exact ht (.inr h)
      · exact h rfl
      · cases h
    exact ⟨_, s.punch.stallTapeOut, true, State.punchCompletes_fault hf ht hwrong, rfl, rfl, fun h => absurd h ht,
      fun _ _ => ⟨rfl, rfl, rfl, rfl⟩⟩

end

end Sys2Proof.Machine
end

section
/-! SUPPORT. What the punch unit does of its own accord: when a copy begins, what a punch reserved for LOCAL issues, how
a store copy passes from phase to phase, and what a turning off leaves (R171 to R180). -/
namespace Sys2Proof.Machine

/-! ### What settling leaves at the punch -/

/-- What the punch unit comes to in a few steps is what settling leaves of the punch and the store: eight are more than
any operation of its sources needs. -/
theorem State.settles_at {s : State} (h : s.panel.phase = .done) {st : Store} (hst : s.settlePrint.store = st)
    {y : PunchSide} (hrun : ∀ k, PunchSide.run s.panel.settings.leader s.relocal (k + 8)
      { punch := s.punch, store := st } = y) : s.settle.punch = y.punch ∧ s.settle.store = y.store := by
  rw [State.settle_punch h, State.settle_store h, hst]
  exact ⟨congrArg PunchSide.punch (hrun (punchFuel - 8)), congrArg PunchSide.store (hrun (punchFuel - 8))⟩

/-! ### The beginning of a copy (R171) -/

/-- R171's conditions for a new copy. -/
theorem Punch.mayBegin_iff (p : Punch) : p.mayBegin = true ↔ p.copy = none ∧ p.stallTapeOut = false ∧
    p.stallFault = false ∧ p.markLeft = 0 ∧ p.tapeLow = false ∧ p.reservation = .none ∧ p.tapeFeed = false := by
  simp [Punch.mayBegin, Punch.stalled, and_assoc]

/-- No copy begins without an entry in the punch queue, without R171's conditions, or while a turning off waits. -/
theorem PunchSide.beginning_eq_some (x : PunchSide) (slot : Nat) : x.beginning = some slot ↔
    x.punch.mayBegin = true ∧ x.punch.offDue = false ∧ x.store.punchQ.head? = some slot := by
  unfold PunchSide.beginning
  split
  · rename_i h; simp [h]
  · rename_i h; simpa using fun hb ho => absurd ⟨hb, ho⟩ h

/-- The copy that begins stands before its leader. -/
theorem PunchSide.step_begins {l : Nat} {r : Bool} {x : PunchSide} {slot : Nat} (h : x.beginning = some slot) :
    x.step l r
      = some { x with punch := { x.punch with copy := some { entry := slot, phase := .lead l } } } := by
  unfold PunchSide.step
  rw [h]

/-! ### The order of the sources (R171 to R179) -/

section
variable {l : Nat} {x : PunchSide}

theorem PunchSide.issueNext_mark (h : 0 < x.punch.markLeft) :
    x.issueNext l = some { x with punch := x.punch.issue eraseCode .mark } := if_pos h

theorem PunchSide.issueNext_feed (hm : x.punch.markLeft = 0) (hf : x.punch.tapeFeed = true) :
    x.issueNext l = some { x with punch := x.punch.issue 0 .feed } := by simp [PunchSide.issueNext, hm, hf]

theorem PunchSide.issueNext_local (hm : x.punch.markLeft = 0) (hf : x.punch.tapeFeed = false)
    (hr : x.punch.reservation.holdsPunch = true) :
    x.issueNext l = (x.punch.localStep l).map fun p => { x with punch := p } := by
  simp [PunchSide.issueNext, hm, hf, hr]

/-- Without a reservation that holds the punch it issues for a restart mark, for TAPE FEED, or for the copy. -/
theorem PunchSide.issueNext_free {y : PunchSide} (h : x.issueNext l = some y)
    (hr : x.punch.reservation.holdsPunch = false) :
    (∃ code src, y = { x with punch := x.punch.issue code src }) ∨ x.copyStep l = some y := by
  unfold PunchSide.issueNext at h
  rw [hr] at h
  split at h
  · cases h; exact .inl ⟨_, _, rfl⟩
  · split at h
    · cases h; exact .inl ⟨_, _, rfl⟩
    · exact .inr h

end

/-! ### A punch reserved for LOCAL (R177, R178) -/

section
variable {p : Punch} {leader : Nat}

theorem Punch.localStep_redo {c : Code} (h : p.redo = some c) :
    p.localStep leader = some { p with redo := none, flight := some (c, .code) } := by
  simp only [Punch.localStep, h, Punch.issue]

theorem Punch.localStep_closer {n : Nat} (h : p.redo = none) (hc : p.closeLeft = some n) :
    p.localStep leader = some { p with flight := some (0, .closer) } := by
  simp only [Punch.localStep, h, hc, Punch.issue]

theorem Punch.localStep_leader (h : p.redo = none) (hc : p.closeLeft = none) (hl : 0 < p.leadLeft) :
    p.localStep leader = some { p with flight := some (0, .leader) } := by
  simp only [Punch.localStep, h, hc, if_pos hl, Punch.issue]

theorem Punch.localStep_code {c : Code} {rest : List Code} (h : p.redo = none) (hc : p.closeLeft = none)
    (hl : p.leadLeft = 0) (hf : p.fifo = c :: rest) :
    p.localStep leader = some { p with fifo := rest, flight := some (c, .code) } := by
  simp [Punch.localStep, h, hc, hl, hf, Punch.issue]

theorem Punch.localStep_active (h : p.redo = none) (hc : p.closeLeft = none) (hl : p.leadLeft = 0)
    (hf : p.fifo = []) (hr : p.reservation = .active) : p.localStep leader = none := by
  simp [Punch.localStep, h, hc, hl, hf, hr]

/-- In CLOSING the closing leader comes after the FIFO (R177). -/
theorem Punch.localStep_closing {b : Bool} (h : p.redo = none) (hc : p.closeLeft = none) (hl : p.leadLeft = 0)
    (hf : p.fifo = []) (hr : p.reservation = .closing b) :
    p.localStep leader = some { p with closeLeft := some leader } := by
  simp [Punch.localStep, h, hc, hl, hf, hr]

end

/-- The reservation has the punch: nothing in flight, no stall, turning off, restart mark or TAPE FEED, and no closing
leader that has just ended (R177). -/
structure Punch.servesLocal (p : Punch) : Prop where
  flight : p.flight = none
  stall : p.stalled = false
  off : p.offDue = false
  closing : p.closeLeft ≠ some 0
  mark : p.markLeft = 0
  feed : p.tapeFeed = false
  reserved : p.reservation.holdsPunch = true

theorem State.punchTurn.stall {s : State} (h : s.punchTurn) : s.punch.stalled = false := by
  simp [Punch.stalled, h.tapeOut, h.fault]

theorem State.punchTurn.servesLocal {s : State} (h : s.punchTurn) (hm : s.punch.markLeft = 0)
    (hf : s.punch.tapeFeed = false) (hr : s.punch.reservation.holdsPunch = true) : s.punch.servesLocal :=
  ⟨h.flight, h.stall, h.off, h.closing, hm, hf, hr⟩

/-- No copy begins under a reservation (R171). -/
theorem Punch.noBegin_reserved {p : Punch} (h : p.reservation.holdsPunch = true) : p.mayBegin = false := by
  refine Bool.eq_false_iff.mpr fun hb => ?_
  obtain ⟨-, -, -, -, -, hr, -⟩ := p.mayBegin_iff.mp hb
  rw [hr] at h
  cases h

section
variable {p q : Punch} {st : Store} {l : Nat} {r : Bool}

theorem Punch.servesLocal.step (h : p.servesLocal) : PunchSide.step { punch := p, store := st } l r
    = (p.localStep l).map fun q => { punch := q, store := st } := by
  rw [PunchSide.step_turn _ _ _ (PunchSide.no_beginning _ (.inl (Punch.noBegin_reserved h.reserved))) h.flight h.off
    h.closing h.stall, PunchSide.issueNext_local h.mark h.feed h.reserved]

/-- An operation of the reservation is issued, and no more. -/
theorem Punch.servesLocal.issues (h : p.servesLocal) (hs : p.localStep l = some q) (hq : q.flight.isSome = true)
    (hr : q.reservation = p.reservation) (k : Nat) : PunchSide.run l r (k + 1) { punch := p, store := st }
      = { punch := q, store := st } :=
  PunchSide.run_last (by rw [h.step, hs]; rfl) (PunchSide.step_in_flight _ _ _ hq
    (PunchSide.no_beginning _ (.inl (Punch.noBegin_reserved (hr ▸ h.reserved))))) k

/-- A closing leader that becomes due goes on from there. -/
theorem Punch.servesLocal.goesOn (h : p.servesLocal) (hs : p.localStep l = some q) (k : Nat) :
    PunchSide.run l r (k + 1) { punch := p, store := st } = PunchSide.run l r k { punch := q, store := st } :=
  PunchSide.run_succ (by rw [h.step, hs]; rfl) k

theorem Punch.servesLocal.stands (h : p.servesLocal) (hs : p.localStep l = none) (k : Nat) :
    PunchSide.run l r k { punch := p, store := st } = { punch := p, store := st } :=
  PunchSide.run_still _ _ _ _ (by rw [h.step, hs]; rfl)

end

/-! ### A store copy by its phases (R171, R172) -/

section
variable {st : Store} {l slot : Nat} {e : Entry} (he : st.entry slot = some e)
include he

theorem copyAct_lead_over : copyAct st l { entry := slot, phase := .lead 0 } = .move (.block 0) := by
  simp [copyAct, he]

theorem copyAct_lead (n : Nat) : copyAct st l { entry := slot, phase := .lead (n + 1) } = .punch 0 := by
  simp [copyAct, he]

/-- A leader with blanks left punches one. -/
theorem copyAct_lead_left {n : Nat} (hn : 0 < n) :
    copyAct st l { entry := slot, phase := .lead n } = .punch 0 := by
  obtain ⟨m, rfl⟩ := Nat.exists_eq_add_one.mpr hn
  exact copyAct_lead he m

theorem copyAct_block {b n : Nat} (hb : e.chain[b]? = some n) (hg : (st.block n).gap = 0) :
    copyAct st l { entry := slot, phase := .block b } = .move (.text b 0) := by
  simp [copyAct, he, hb, hg]

theorem copyAct_block_gap {b n : Nat} (hb : e.chain[b]? = some n) (hg : 0 < (st.block n).gap) :
    copyAct st l { entry := slot, phase := .block b } = .move (.gap b 8) := by
  simp [copyAct, he, hb, hg, markRun]

theorem copyAct_stored_end {b : Nat} (hb : e.chain[b]? = none) (hs : e.state ≠ .closed) :
    copyAct st l { entry := slot, phase := .block b } = .wait := by
  simp [copyAct, he, hb, hs]

theorem copyAct_incomplete_due {b : Nat} (hb : e.chain[b]? = none) (hs : e.state = .closed)
    (hr : e.reason.isSome = true) : copyAct st l { entry := slot, phase := .block b } = .move (.incomplete 8) := by
  simp [copyAct, he, hb, hs, hr, markRun]

theorem copyAct_trail_due {b : Nat} (hb : e.chain[b]? = none) (hs : e.state = .closed) (hr : e.reason = none) :
    copyAct st l { entry := slot, phase := .block b } = .move (.trail l) := by
  simp [copyAct, he, hb, hs, hr]

theorem copyAct_gap_over (b : Nat) : copyAct st l { entry := slot, phase := .gap b 0 } = .move (.text b 0) := by
  simp [copyAct, he]

theorem copyAct_gap (b n : Nat) : copyAct st l { entry := slot, phase := .gap b (n + 1) } = .punch 31 := by
  simp [copyAct, he, eraseCode]

theorem copyAct_text {b i n : Nat} {code : Code} (hb : e.chain[b]? = some n)
    (hc : (st.block n).codes[i]? = some code) :
    copyAct st l { entry := slot, phase := .text b i } = .punch code := by
  simp [copyAct, he, hb, hc]

theorem copyAct_text_over {b n : Nat} (hb : e.chain[b]? = some n) :
    copyAct st l { entry := slot, phase := .text b (st.block n).codes.length } = .move (.block (b + 1)) := by
  simp [copyAct, he, hb]

theorem copyAct_incomplete_over :
    copyAct st l { entry := slot, phase := .incomplete 0 } = .move (.trail l) := by simp [copyAct, he]

theorem copyAct_incomplete (n : Nat) :
    copyAct st l { entry := slot, phase := .incomplete (n + 1) } = .punch 31 := by simp [copyAct, he, eraseCode]

theorem copyAct_trail_over : copyAct st l { entry := slot, phase := .trail 0 } = .finish := by simp [copyAct, he]

theorem copyAct_trail (n : Nat) : copyAct st l { entry := slot, phase := .trail (n + 1) } = .punch 0 := by
  simp [copyAct, he]

/-- So does a trailing leader. -/
theorem copyAct_trail_left {n : Nat} (hn : 0 < n) :
    copyAct st l { entry := slot, phase := .trail n } = .punch 0 := by
  obtain ⟨m, rfl⟩ := Nat.exists_eq_add_one.mpr hn
  exact copyAct_trail he m

end

/-- The copy passes n phases without an operation, from its position to the one at which it punches a code. -/
inductive PunchCopy.comesTo (st : Store) (l : Nat) : Nat → PunchCopy → PunchCopy → Code → Prop
  | punches {c : PunchCopy} {code : Code} (h : copyAct st l c = .punch code) : PunchCopy.comesTo st l 0 c c code
  | moves {n : Nat} {c d : PunchCopy} {ph : PunchPhase} {code : Code} (h : copyAct st l c = .move ph)
      (hd : PunchCopy.comesTo st l n { c with phase := ph } d code) : PunchCopy.comesTo st l (n + 1) c d code

theorem State.punchTurn.servesCopy {s : State} (h : s.punchTurn) (hc : s.punch.copyFree) : s.punch.servesCopy := by
  obtain ⟨hm, hf, hr⟩ := hc
  exact ⟨h.flight, h.stall, h.off, h.closing, hm, hf, hr⟩

section
variable {p : Punch} {c d : PunchCopy} {code : Code} {st : Store} {l n : Nat} {r : Bool}

/-- The copy issues the code it comes to, and no more. -/
theorem Punch.servesCopy.issuesNext (h : p.servesCopy) (hc : p.copy = some c)
    (hd : PunchCopy.comesTo st l n c d code) {k : Nat} (hn : n ≤ k) :
    PunchSide.run l r (k + 1) { punch := p, store := st }
      = { punch := { p with copy := some d, flight := some (code, .copy) }, store := st } := by
  induction hd generalizing p k with
  | punches ha =>
    rw [← hc]
    exact h.issues hc ha k
  | moves ha _ ih =>
    obtain ⟨j, rfl⟩ := Nat.exists_eq_add_of_lt hn
    refine (h.moves hc ha _).trans ?_
    exact ih (p := { p with copy := some _ }) { h with } rfl (Nat.le_add_right _ _)

/-- A copy at its stored end waits. -/
theorem Punch.servesCopy.waits (h : p.servesCopy) (hc : p.copy = some c) (ha : copyAct st l c = .wait) (k : Nat) :
    PunchSide.run l r k { punch := p, store := st } = { punch := p, store := st } :=
  PunchSide.run_still _ _ _ _ (by rw [h.step hc]; simp [PunchSide.copyStep, hc, ha])

/-- The copy that finishes removes PUNCH and leaves the reservation that waited (R172, R177). -/
theorem Punch.servesCopy.finishes (h : p.servesCopy) (hc : p.copy = some c) (ha : copyAct st l c = .finish)
    (k : Nat) : PunchSide.run l r (k + 1) { punch := p, store := st } = PunchSide.run l r k
      { punch := { p with copy := none }.copyFinished l, store := st.removeObligation .punch c.entry } :=
  PunchSide.run_succ (by rw [h.step hc]; simp [PunchSide.copyStep, hc, ha]) k

/-- With no copy and none queued the punch rests. -/
theorem Punch.servesCopy.rests (h : p.servesCopy) (hc : p.copy = none) (hq : st.punchQ = []) (k : Nat) :
    PunchSide.run l r k { punch := p, store := st } = { punch := p, store := st } := by
  refine PunchSide.run_still _ _ _ _ ?_
  rw [PunchSide.step_turn _ _ _ (PunchSide.no_beginning _ (.inr hq)) h.flight h.off h.closing h.stall]
  simp [PunchSide.issueNext, PunchSide.copyStep, h.mark, h.feed, h.reserved, hc]

theorem Punch.copyFinished_waiting {b : Bool} (h : p.reservation = .waiting b) : p.copyFinished l =
    { p with reservation := if b = true then .active else .closing false, leadLeft := l, closeLeft := none } := by
  cases b <;> simp [Punch.copyFinished, h]

theorem Punch.copyFinished_none (h : p.reservation = .none) : p.copyFinished l = p := by
  simp [Punch.copyFinished, h]

/-- The reservation that waited for the copy has the punch next. -/
theorem Punch.servesCopy.leavesLocal (h : p.servesCopy) (b : Bool) : Punch.servesLocal
    { p with copy := none, reservation := if b = true then .active else .closing false
             leadLeft := l, closeLeft := none } where
  flight := h.flight
  stall := h.stall
  off := h.off
  closing := nofun
  mark := h.mark
  feed := h.feed
  reserved := by cases b <;> rfl

end

/-! ### The end of the closing leader (R177) -/

/-- The closing leader of a CLOSING reservation is over, with nothing in flight, no stall, turning off, restart mark or
TAPE FEED. -/
structure Punch.closes (p : Punch) (reopen : Bool) : Prop where
  flight : p.flight = none
  stall : p.stalled = false
  off : p.offDue = false
  ended : p.closeLeft = some 0
  reservation : p.reservation = .closing reopen
  mark : p.markLeft = 0
  feed : p.tapeFeed = false

section
variable {p : Punch} {st : Store} {l : Nat} {r b : Bool}

theorem Punch.closes.step (h : p.closes b) : PunchSide.step { punch := p, store := st } l r
    = some { punch := p.closed l, store := st } := by
  have hb : p.mayBegin = false := Punch.noBegin_reserved (by rw [h.reservation]; rfl)
  unfold PunchSide.step
  rw [PunchSide.no_beginning _ (.inl hb)]
  simp [h.flight, h.off, Punch.closingOver, h.ended]

/-- The session stayed ended: the reservation becomes NONE, and with no copy queued the punch rests. -/
theorem Punch.closes.ends (h : p.closes false) (hc : p.copy = none) (hq : st.punchQ = []) (k : Nat) :
    PunchSide.run l r (k + 1) { punch := p, store := st }
      = { punch := { p with reservation := .none, closeLeft := none }, store := st } := by
  have hclosed : p.closed l = { p with reservation := .none, closeLeft := none } := by
    simp only [Punch.closed, h.reservation]
  have hfree : Punch.servesCopy { p with reservation := .none, closeLeft := none } :=
    ⟨h.flight, h.stall, h.off, nofun, h.mark, h.feed, rfl⟩
  rw [PunchSide.run_succ h.step, hclosed]
  exact hfree.rests hc hq k

/-- LOCAL began meanwhile: the reservation is ACTIVE again, with its leading leader. -/
theorem Punch.closes.reopens (h : p.closes true) (hr : p.redo = none) (hl : 0 < l) (k : Nat) :
    PunchSide.run l r (k + 2) { punch := p, store := st } = { store := st, punch := { p with
      reservation := .active, closeLeft := none, leadLeft := l, flight := some (0, .leader) } } := by
  have hclosed : p.closed l = { p with reservation := .active, leadLeft := l, closeLeft := none } := by
    simp only [Punch.closed, h.reservation, Punch.reserve]
  have hactive : Punch.servesLocal { p with reservation := .active, leadLeft := l, closeLeft := none } :=
    ⟨h.flight, h.stall, h.off, nofun, h.mark, h.feed, rfl⟩
  rw [PunchSide.run_succ h.step, hclosed]
  exact hactive.issues (Punch.localStep_leader hr rfl hl) rfl rfl k

end

/-! ### A turning off (R180) -/

/-- What a turning off leaves: no copy, nothing of LOCAL, and no turning off due. -/
structure Punch.cleared (p : Punch) : Prop where
  off : p.offDue = false
  copy : p.copy = none
  fifo : p.fifo = []
  redo : p.redo = none
  reservation : p.reservation = .none
  lead : p.leadLeft = 0
  closing : p.closeLeft = none

theorem Punch.turnedOff_cleared (p : Punch) (leader : Nat) : (p.turnedOff leader false).cleared :=
  ⟨rfl, rfl, rfl, rfl, rfl, rfl, rfl⟩

/-- While no entry is queued, what the punch unit does leaves a cleared punch cleared: a restart mark or TAPE FEED is
all that can be issued. -/
theorem PunchSide.step_cleared {l : Nat} {r : Bool} {x y : PunchSide} (hx : x.punch.cleared ∧ x.store.punchQ = [])
    (h : x.step l r = some y) : y.punch.cleared ∧ y.store.punchQ = [] := by
  obtain ⟨hp, hq⟩ := hx
  rcases PunchSide.step_cases h with ⟨slot, hb, -⟩ | ⟨-, ⟨ho, -⟩ | ⟨-, ⟨hc, -⟩ | ⟨-, -, hi⟩⟩⟩
  · obtain ⟨-, -, hhead⟩ := (x.beginning_eq_some slot).mp hb
    rw [hq] at hhead
    cases hhead
  · rw [hp.off] at ho
    cases ho
  · simp [Punch.closingOver, hp.closing] at hc
  · rcases PunchSide.issueNext_free hi (by rw [hp.reservation]; rfl) with ⟨code, src, rfl⟩ | hcopy
    · exact ⟨{ hp with }, hq⟩
    · simp [PunchSide.copyStep, hp.copy] at hcopy

end Sys2Proof.Machine
end

section
/-! The settling of O56: the completion input, and the next operation of each source of the punch. -/
namespace Sys2Proof.Machine

variable {s : State}

/-! ### What settling leaves in the punch's turn -/

/-- The reservation's next operation is issued. -/
theorem State.punchTurn.localIssues (h : s.punchTurn) (hp : s.punch.servesLocal) {q : Punch}
    (hs : s.punch.localStep s.panel.settings.leader = some q) (hq : q.flight.isSome = true)
    (hr : q.reservation = s.punch.reservation) : s.settle.punch = q :=
  (State.settles_at h.live rfl fun k => hp.issues hs hq hr (k + 7)).1

/-- The store copy issues the code it comes to. -/
theorem State.punchTurn.copyIssues (h : s.punchTurn) (hf : s.punch.copyFree) (hk : s.printKeepsStore)
    {c d : PunchCopy} {code : Code} {n : Nat} (hc : s.punch.copy = some c)
    (hd : PunchCopy.comesTo s.store s.panel.settings.leader n c d code) (hn : n < 8) :
    s.settle.punch = { s.punch with copy := some d, flight := some (code, .copy) } :=
  (State.settles_at h.live hk.settlePrint fun k =>
    (h.servesCopy hf).issuesNext hc hd (k := k + 7) (by omega)).1

/-- The store copy issues a code where it stands. -/
theorem State.punchTurn.copyPunches (h : s.punchTurn) (hf : s.punch.copyFree) (hk : s.printKeepsStore)
    {c : PunchCopy} {code : Code} (hc : s.punch.copy = some c)
    (ha : copyAct s.store s.panel.settings.leader c = .punch code) :
    s.settle.punch = { s.punch with flight := some (code, .copy) } :=
  (h.copyIssues hf hk hc (.punches ha) (by decide)).trans (by rw [← hc])

/-- A stalled punch with nothing in flight stays as it is (R174). -/
theorem State.settle_punch_stalled (hl : s.panel.phase = .done) (hf : s.punch.flight = none)
    (ho : s.punch.offDue = false) (hc : s.punch.closeLeft ≠ some 0)
    (hs : s.punch.stallTapeOut = true ∨ s.punch.stallFault = true) : s.settle.punch = s.punch :=
  (State.settles_at hl rfl fun _ => PunchSide.run_still _ _ _ _ (PunchSide.step_stalled _ _ _
    (s.punch.stalled_iff.mpr hs) hf ho (by simpa [Punch.closingOver] using hc))).1

/-! ### The reservation's sources (R177, R178) -/

/-- The closing leader of a CLOSING reservation becomes due behind the FIFO, and its first blank is issued. -/
theorem State.punchTurn.closerBegins (h : s.punchTurn) (hp : s.punch.servesLocal) {b : Bool}
    (hredo : s.punch.redo = none) (hclose : s.punch.closeLeft = none) (hlead : s.punch.leadLeft = 0)
    (hfifo : s.punch.fifo = []) (hr : s.punch.reservation = .closing b) (hl : 0 < s.panel.settings.leader) :
    s.settle.punch = { s.punch with
      closeLeft := some s.panel.settings.leader, flight := some (0, .closer) } := by
  have hdue : Punch.servesLocal { s.punch with closeLeft := some s.panel.settings.leader } :=
    { hp with closing := fun h0 => absurd (Option.some.inj h0) (Nat.ne_of_gt hl) }
  exact (State.settles_at h.live rfl fun k =>
    (hp.goesOn (Punch.localStep_closing hredo hclose hlead hfifo hr) (k + 7)).trans
      (hdue.issues (Punch.localStep_closer hredo rfl) rfl rfl (k + 6))).1

/-- A closing leader of length 0 ends as it becomes due. -/
theorem State.punchTurn.closerEmpty (h : s.punchTurn) (hp : s.punch.servesLocal)
    (hredo : s.punch.redo = none) (hclose : s.punch.closeLeft = none) (hlead : s.punch.leadLeft = 0)
    (hfifo : s.punch.fifo = []) (hr : s.punch.reservation = .closing false) (hl : s.panel.settings.leader = 0)
    (hq : s.store.punchQ = []) (hc : s.punch.copy = none) :
    s.settle.punch = { s.punch with reservation := .none } := by
  have hdue : Punch.closes { s.punch with closeLeft := some s.panel.settings.leader } false :=
    ⟨hp.flight, hp.stall, hp.off, congrArg some hl, hr, hp.mark, hp.feed⟩
  refine (State.settles_at h.live rfl fun k =>
    (hp.goesOn (Punch.localStep_closing hredo hclose hlead hfifo hr) (k + 7)).trans
      (hdue.ends hc (s.settlePrint_punchQ.trans hq) (k + 6))).1.trans ?_
  rw [← hclose]

/-! ### The copy's phases (R171, R172) -/

section
variable {slot : Nat} {e : Entry} {st : Store} {l : Nat}

/-- The copy reaches the first code of a block: from its leader's end, from before the block, from the end of the gap
mark, or from the end of the block before. -/
theorem PunchCopy.comesTo_text (he : st.entry slot = some e) {ph : PunchPhase} {b n : Nat} {code : Code}
    (hph : ph = .lead 0 ∧ b = 0 ∧ (st.block n).gap = 0 ∨ ph = .block b ∧ (st.block n).gap = 0 ∨ ph = .gap b 0 ∨
      ∃ a m, ph = .text a (st.block m).codes.length ∧ e.chain[a]? = some m ∧ b = a + 1 ∧ (st.block n).gap = 0)
    (hb : e.chain[b]? = some n) (hc : (st.block n).codes[0]? = some code) :
    ∃ k < 7, PunchCopy.comesTo st l k { entry := slot, phase := ph } { entry := slot, phase := .text b 0 } code := by
  have htext : PunchCopy.comesTo st l 0 { entry := slot, phase := .text b 0 } _ code :=
    .punches (copyAct_text he hb hc)
  have hblock (hg : (st.block n).gap = 0) :
      PunchCopy.comesTo st l 1 { entry := slot, phase := .block b } _ code :=
    .moves (copyAct_block he hb hg) htext
  rcases hph with ⟨rfl, rfl, hg⟩ | ⟨rfl, hg⟩ | rfl | ⟨a, m, rfl, ha, rfl, hg⟩
  · exact ⟨2, by decide, .moves (copyAct_lead_over he) (hblock hg)⟩
  · exact ⟨1, by decide, hblock hg⟩
  · exact ⟨1, by decide, .moves (copyAct_gap_over he b) htext⟩
  · exact ⟨2, by decide, .moves (copyAct_text_over he ha) (hblock hg)⟩

end

/-- The copy that finishes before a WAITING reservation removes PUNCH, and the reservation issues its first operation
(R172, R177). -/
theorem State.punchTurn.copyLeavesLocal (h : s.punchTurn) (hf : s.punch.copyFree) (hk : s.printKeepsStore)
    {slot : Nat} {e : Entry} (he : s.store.entry slot = some e) {b : Bool} {q : Punch}
    (hc : s.punch.copy = some { entry := slot, phase := .trail 0 }) (hr : s.punch.reservation = .waiting b)
    (hs : Punch.localStep { s.punch with
      copy := none, reservation := if b = true then .active else .closing false
      leadLeft := s.panel.settings.leader, closeLeft := none } s.panel.settings.leader = some q)
    (hq : q.flight.isSome = true) (hqr : q.reservation = if b = true then .active else .closing false) :
    s.settle.store = s.store.removeObligation .punch slot ∧ s.settle.punch = q := by
  have hcopy := h.servesCopy hf
  refine (State.settles_at (y := { punch := q, store := s.store.removeObligation .punch slot }) h.live hk.settlePrint
    fun k => ?_).symm
  rw [hcopy.finishes hc (copyAct_trail_over he) (k + 7),
    Punch.copyFinished_waiting (p := { s.punch with copy := none }) hr]
  exact (hcopy.leavesLocal b).issues hs hq hqr (k + 6)

/-- The last copy that finishes with nothing reserved leaves the punch at rest. -/
theorem State.punchTurn.copyLeaves (h : s.punchTurn) (hf : s.punch.copyFree) (hk : s.printKeepsStore)
    {slot : Nat} {e : Entry} (he : s.store.entry slot = some e)
    (hc : s.punch.copy = some { entry := slot, phase := .trail 0 }) (hr : s.punch.reservation = .none)
    (hq : s.store.punchQ = [slot]) : s.settle.punch = { s.punch with copy := none } ∧
      s.settle.store = s.store.removeObligation .punch slot := by
  have hcopy := h.servesCopy hf
  have hfree : Punch.servesCopy { s.punch with copy := none } := { hcopy with }
  have hempty : (s.store.removeObligation .punch slot).punchQ = [] := by
    simp [Store.removeObligation_punchQ, hq]
  refine State.settles_at (y := { punch := { s.punch with copy := none }
                                  store := s.store.removeObligation .punch slot }) h.live hk.settlePrint fun k => ?_
  rw [hcopy.finishes hc (copyAct_trail_over he) (k + 7),
    Punch.copyFinished_none (p := { s.punch with copy := none }) hr]
  exact hfree.rests rfl hempty (k + 7)

/-- A copy that begins at the idle punch issues the code it comes to from its leader (R171). -/
theorem State.punchTurn.copyBegins (h : s.punchTurn) (hk : s.printKeepsStore) (hb : s.punch.mayBegin = true)
    {slot : Nat} {rest : List Nat} (hq : s.store.punchQ = slot :: rest) {d : PunchCopy} {code : Code} {n : Nat}
    (hd : PunchCopy.comesTo s.store s.panel.settings.leader n
      { entry := slot, phase := .lead s.panel.settings.leader } d code) (hn : n < 7) :
    s.settle.punch = { s.punch with copy := some d, flight := some (code, .copy) } := by
  obtain ⟨-, -, -, hm, -, hr, hf⟩ := s.punch.mayBegin_iff.mp hb
  have hbegin : PunchSide.beginning { punch := s.punch, store := s.store } = some slot :=
    (PunchSide.beginning_eq_some _ _).mpr ⟨hb, h.off, by rw [hq]; rfl⟩
  have hcopy : Punch.servesCopy { s.punch with
      copy := some { entry := slot, phase := .lead s.panel.settings.leader } } :=
    { h.servesCopy ⟨hm, hf, by rw [hr]; rfl⟩ with }
  exact (State.settles_at h.live hk.settlePrint fun k =>
    (PunchSide.run_succ (PunchSide.step_begins hbegin) (k + 7)).trans
      (hcopy.issuesNext rfl hd (k := k + 6) (by omega))).1

/-- A copy that begins while an operation is in flight stands before its leader (R171). -/
theorem State.settle_copyBegins (hl : s.panel.phase = .done) (hf : s.punch.flight.isSome = true)
    (hb : s.punch.mayBegin = true) (ho : s.punch.offDue = false) {slot : Nat} {rest : List Nat}
    (hq : s.store.punchQ = slot :: rest) :
    s.settle.punch.copy = some { entry := slot, phase := .lead s.panel.settings.leader } := by
  have hbegin : PunchSide.beginning { punch := s.punch, store := s.settlePrint.store } = some slot :=
    (PunchSide.beginning_eq_some _ _).mpr ⟨hb, ho, by rw [State.settlePrint_punchQ, hq]; rfl⟩
  exact congrArg Punch.copy (State.settles_at hl rfl fun k =>
    PunchSide.run_last (PunchSide.step_begins hbegin) (PunchSide.step_in_flight _ _ _ hf
      (PunchSide.no_beginning _ (.inl (Punch.noBegin rfl)))) (k + 7)).1

/-- With an operation in flight and no copy to begin the punch stays as it is. -/
theorem State.settle_punch_noBegin (hl : s.panel.phase = .done) (hf : s.punch.flight.isSome = true)
    (hn : ¬ (s.punch.mayBegin = true ∧ s.punch.offDue = false ∧ s.store.punchQ ≠ [])) :
    s.settle.punch = s.punch := by
  have hnone : PunchSide.beginning { punch := s.punch, store := s.settlePrint.store } = none := by
    refine Option.eq_none_iff_forall_ne_some.mpr fun slot hslot => hn ?_
    obtain ⟨hb, ho, hhead⟩ := (PunchSide.beginning_eq_some _ _).mp hslot
    refine ⟨hb, ho, fun hq => ?_⟩
    rw [State.settlePrint_punchQ, hq] at hhead
    cases hhead
  exact (State.settles_at hl rfl fun _ =>
    PunchSide.run_still _ _ _ _ (PunchSide.step_in_flight _ _ _ hf hnone)).1

/-! ### A turning off (R180) -/

/-- A turning off that waited takes effect with nothing in flight. -/
theorem State.settle_punch_cleared (hl : s.panel.phase = .done) (hf : s.punch.flight = none)
    (ho : s.punch.offDue = true) (hq : s.store.punchQ = []) (hr : s.relocal = false) : s.settle.punch.cleared := by
  have hq' : s.settlePrint.store.punchQ = [] := s.settlePrint_punchQ.trans hq
  have hoff : PunchSide.step { punch := s.punch, store := s.settlePrint.store } s.panel.settings.leader s.relocal
      = some { punch := s.punch.turnedOff s.panel.settings.leader false, store := s.settlePrint.store } := by
    unfold PunchSide.step
    rw [PunchSide.no_beginning _ (.inr hq')]
    simp [hf, ho, hr]
  rw [State.settle_punch hl, show punchFuel = 2047 + 1 from rfl, PunchSide.run_succ hoff]
  exact (PunchSide.run_keeps _ _ (fun x => x.punch.cleared ∧ x.store.punchQ = [])
    (fun _ _ => PunchSide.step_cleared) _ _ ⟨s.punch.turnedOff_cleared s.panel.settings.leader, hq'⟩).1

/-- Settles O56: the check of a code, then the next operation source by source. -/
theorem punchCompletion : Obligations.PunchCompletion := by
  unfold Obligations.PunchCompletion
  refine ⟨?completion, ?sources, fun s hl hf ho hc hs => State.settle_punch_stalled hl hf ho hc hs, ?closingOver,
    ?storeCopy, ?begins, ?inFlight, ?turnedOff⟩
  case completion =>
    intro c sense hole src s hl
    rw [exec_punchOperationComplete hl]
    refine ⟨fun hf => ?idle, fun hf hpend hout hok => ?punched, fun hf hbad => ?stall⟩
    case idle => rw [State.punchCompletes_none hf]
    case punched =>
      rw [State.punchCompletes_punched hf (by simp [hpend, hout]) hok]
      refine ⟨_, rfl, rfl, ?_⟩
      cases src with
      | copy =>
        have hadvance (e : Nat) (ph : PunchPhase) (hc : s.punch.copy = some { entry := e, phase := ph }) :=
          Punch.sourceAdvances_copy (p := { s.punch with flight := none }) hc
        exact ⟨rfl, rfl, rfl, rfl, rfl, fun h => absurd rfl h, fun e b i _ => hadvance e (.text b i),
          fun e n _ => hadvance e (.lead n), fun e b n _ => hadvance e (.gap b n),
          fun e n _ => hadvance e (.incomplete n), fun e n _ => hadvance e (.trail n)⟩
      | mark | code | leader | closer | feed =>
        exact ⟨rfl, rfl, rfl, rfl, rfl, fun _ => rfl, nofun, nofun, nofun, nofun, nofun⟩
    case stall =>
      obtain ⟨u, a, b, rfl, hframe, hp, hout, hfault⟩ := State.punchCompletes_stalls hf hbad
      refine ⟨_, rfl, hframe, ?_⟩
      rw [hp]
      exact ⟨rfl, rfl, rfl, rfl, rfl, fun hs => Punch.takeStall_redo_code s.panel.settings.leader (hs ▸ hf),
        Punch.takeStall_redo_other s.panel.settings.leader hf, fun _ => Punch.takeStall_leadLeft _,
        fun _ => Punch.takeStall_closeLeft _, Punch.takeStall_closeLeft_over _, rfl, hout, hfault⟩
  case sources =>
    intro s h
    refine ⟨fun hm => ?restartMark, fun hm hf => ?tapeFeed, fun hm hf hr => ?reserved⟩
    case restartMark =>
      have hb : s.punch.mayBegin = false := by simp [Punch.mayBegin, Nat.ne_of_gt hm]
      exact State.punch_issues h _ hb rfl hb fun _ => PunchSide.issueNext_mark hm
    case tapeFeed =>
      have hb : s.punch.mayBegin = false := by simp [Punch.mayBegin, hf]
      exact State.punch_issues h _ hb rfl hb fun _ => PunchSide.issueNext_feed hm hf
    case reserved =>
      have hp := h.servesLocal hm hf hr
      refine ⟨fun c hredo => h.localIssues hp (Punch.localStep_redo hredo) rfl rfl, fun hredo hclose => ?closingLeader,
        fun hredo hclose hlead => h.localIssues hp (Punch.localStep_leader hredo hclose hlead) rfl rfl,
        fun hredo hclose hlead =>
          ⟨fun c rest hfifo => h.localIssues hp (Punch.localStep_code hredo hclose hlead hfifo) rfl rfl,
          fun hfifo hres => ?active, fun b hfifo hres => h.closerBegins hp hredo hclose hlead hfifo hres,
          fun hfifo hres => h.closerEmpty hp hredo hclose hlead hfifo hres⟩⟩
      case closingLeader =>
        obtain ⟨n, hn⟩ := Option.isSome_iff_exists.mp hclose
        exact h.localIssues hp (Punch.localStep_closer hredo hn) rfl rfl
      case active =>
        exact (State.settles_at h.live rfl fun _ =>
          hp.stands (Punch.localStep_active hredo hclose hlead hfifo hres) _).1
  case closingOver =>
    intro s hl hf ho hover hout hfault hm hfeed
    have hcloses (b : Bool) (hr : s.punch.reservation = .closing b) : s.punch.closes b :=
      ⟨hf, by simp [Punch.stalled, hout, hfault], ho, hover, hr, hm, hfeed⟩
    exact ⟨fun hr hq hc => (State.settles_at hl rfl fun k =>
        (hcloses false hr).ends hc (s.settlePrint_punchQ.trans hq) (k + 7)).1,
      fun hr hredo hlead => (State.settles_at hl rfl fun k =>
        (hcloses true hr).reopens hredo hlead (k + 6)).1⟩
  case storeCopy =>
    intro s slot e h hfree hk he
    refine ⟨fun n hc => h.copyPunches hfree hk hc (copyAct_lead he n),
      fun b i n code hc hb hcode => h.copyPunches hfree hk hc (copyAct_text he hb hcode),
      fun ph b n code hc hph hb hcode => ?text,
      fun b n hc hb hg => h.copyIssues hfree hk hc
        (.moves (copyAct_block_gap he hb hg) (.punches (copyAct_gap he b 7))) (by decide),
      fun b n hc => h.copyPunches hfree hk hc (copyAct_gap he b n),
      fun b hc hb => ⟨fun hs => ?waits, fun hs hr => ?incomplete, fun hs hr hl => ?trail⟩,
      fun n hc => h.copyPunches hfree hk hc (copyAct_incomplete he n), fun hc hl => ?incompleteOver,
      fun n hc => h.copyPunches hfree hk hc (copyAct_trail he n),
      fun b hc hr hredo => ⟨fun hl => ?finishLeader, fun c rest hl hfifo => ?finishCode⟩,
      fun hc hr hq => h.copyLeaves hfree hk he hc hr hq⟩
    case text =>
      obtain ⟨k, hlt, hd⟩ := PunchCopy.comesTo_text he hph hb hcode
      exact h.copyIssues hfree hk hc hd (hlt.trans (by decide))
    case waits =>
      exact (State.settles_at h.live hk.settlePrint fun _ =>
        (h.servesCopy hfree).waits hc (copyAct_stored_end he hb hs) _).1
    case incomplete =>
      exact h.copyIssues hfree hk hc
        (.moves (copyAct_incomplete_due he hb hs hr) (.punches (copyAct_incomplete he 7))) (by decide)
    case trail =>
      exact h.copyIssues hfree hk hc
        (.moves (copyAct_trail_due he hb hs hr) (.punches (copyAct_trail_left he hl))) (by decide)
    case incompleteOver =>
      exact h.copyIssues hfree hk hc
        (.moves (copyAct_incomplete_over he) (.punches (copyAct_trail_left he hl))) (by decide)
    case finishLeader =>
      exact h.copyLeavesLocal hfree hk he hc hr (Punch.localStep_leader hredo rfl hl) rfl rfl
    case finishCode =>
      rw [← hl]
      exact h.copyLeavesLocal hfree hk he hc hr (Punch.localStep_code hredo rfl hl hfifo) rfl rfl
  case begins =>
    intro s slot rest e h hk hc hq he hm hlow hr hf
    have hb : s.punch.mayBegin = true := s.punch.mayBegin_iff.mpr ⟨hc, h.tapeOut, h.fault, hm, hlow, hr, hf⟩
    refine ⟨fun hl => h.copyBegins hk hb hq (.punches (copyAct_lead_left he hl)) (by decide),
      fun n code hl hn hg hcode => ?_⟩
    obtain ⟨k, hlt, hd⟩ := PunchCopy.comesTo_text he (ph := .lead s.panel.settings.leader)
      (.inl ⟨congrArg _ hl, rfl, hg⟩) hn hcode
    exact h.copyBegins hk hb hq hd hlt
  case inFlight =>
    intro s hl hc hf
    refine ⟨fun slot rest hq hout hfault hm hlow hr hfeed ho => State.settle_copyBegins hl hf
      (s.punch.mayBegin_iff.mpr ⟨hc, hout, hfault, hm, hlow, hr, hfeed⟩) ho hq,
      fun hwhy => State.settle_punch_noBegin hl hf ?_⟩
    rintro ⟨hb, ho, hq⟩
    obtain ⟨-, hout, hfault, hm, hlow, hr, hfeed⟩ := s.punch.mayBegin_iff.mp hb
    simp [hq, hout, hfault, hm, hlow, hr, hfeed, ho] at hwhy
  case turnedOff =>
    intro s hl hf ho hq hsel
    have hr : s.relocal = false := Bool.and_eq_false_iff.mpr hsel
    obtain ⟨hoff, hcopy, hfifo, hredo, hres, hlead, hclose⟩ := State.settle_punch_cleared hl hf ho hq hr
    exact ⟨hoff, hcopy, hfifo, hredo, hres, hlead, hclose⟩

end Sys2Proof.Machine
end

section
/-! The settling of O11: the journal's entries and their ring, the day clock's minute, and the lamps
(R183, R185, R189, R191, R197). -/
namespace Sys2Proof.Machine

/-! ### An entry of the journal -/

section
variable {j : Journal} {old : JournalEntry} {rest : List JournalEntry}

theorem Journal.makeRoom_room (h : j.ring.length < 48) : j.makeRoom = j := if_neg (Nat.not_le_of_lt h)

theorem Journal.makeRoom_full (hr : j.ring = old :: rest) (h : 48 ≤ j.ring.length) :
    j.makeRoom = { j with ring := rest, overwritten := min 255 (j.overwritten + 1)
                          report := j.report.map fun r => r.overwrite old.entryNo } := by
  refine (if_pos h).trans ?_
  simp only [hr]
  rfl

theorem Journal.add_room (h : j.ring.length < 48) (kind : JournalKind) (fields : JournalFields) :
    j.add kind fields = { j with
      ring := j.ring ++ [{ entryNo := j.nextNumber, time := j.time, kind := kind, fields := fields }]
      nextNumber := nextEntryNumber j.nextNumber } := by
  simp only [Journal.add, Journal.makeRoom_room h]

theorem Journal.add_full (hr : j.ring = old :: rest) (h : 48 ≤ j.ring.length) (kind : JournalKind)
    (fields : JournalFields) : j.add kind fields = { j with
      ring := rest ++ [{ entryNo := j.nextNumber, time := j.time, kind := kind, fields := fields }]
      nextNumber := nextEntryNumber j.nextNumber, overwritten := min 255 (j.overwritten + 1)
      report := j.report.map fun r => r.overwrite old.entryNo } := by
  simp only [Journal.add, Journal.makeRoom_full hr h]

end

/-- The overwritten entry is skipped when the report has still to print it (R185, R187). -/
theorem Report.overwrite_eq (r : Report) (n : Nat) : r.overwrite n = { r with
    snapshot := r.snapshot.filter fun m => m != n
    toPrint := r.toPrint.filter fun m => m != n
    skip := if n ∈ r.toPrint then r.skip + 1 else r.skip } := by
  simp only [Report.overwrite, List.contains_iff_mem]

/-! ### The minute of the day -/

section
variable {j : Journal} {n : Nat}

theorem Journal.divide_stopped (h : j.divider = none) : j.divide = j := by
  simp only [Journal.divide, h]

/-- A setting has restarted the divider before its waiting expiry was taken (log 26). -/
theorem Journal.divide_restarted (h : j.divider = some n) (hn : Config.minuteTime ≤ n) : j.divide = j := by
  simp only [Journal.divide, h, ge_iff_le, if_pos hn]

/-- After 1439, the last minute of the day, comes 0. -/
theorem Journal.divide_running (h : j.divider = some n) (hn : n < Config.minuteTime) (hm : j.minute ≤ 1439) :
    j.divide = { j with minute := (j.minute + 1) % 1440, divider := some Config.minuteTime } := by
  have hnext : (if 1439 ≤ j.minute then 0 else j.minute + 1) = (j.minute + 1) % 1440 := by
    split <;> omega
  simp only [Journal.divide, h, ge_iff_le, if_neg (Nat.not_le_of_lt hn), hnext]

end

theorem exec_dayClockDividerExpiry (s : State) :
    exec .dayClockDividerExpiry s = .next { s with journal := s.journal.divide } := rfl

/-! ### The lamps -/

theorem exec_lampFlash {s : State} (h : s.panel.phase = .done) : exec .lampFlash s = .next { s with
    panel := { s.panel with flashOn := !s.panel.flashOn, flashLeft := Config.flashTime } } :=
  congrArg _ (State.whenLive_live (s.live_iff.mpr h) _)

/-- The drive a condition asks for in a phase of the flash. -/
def LampShow.drive (flashOn : Bool) : LampShow → Bool
  | .dark => false
  | .steady => true
  | .flashing => flashOn

@[simp] theorem LampShow.drive_dark (flashOn : Bool) : LampShow.dark.drive flashOn = false := rfl
@[simp] theorem LampShow.drive_steady (flashOn : Bool) : LampShow.steady.drive flashOn = true := rfl
@[simp] theorem LampShow.drive_flashing (flashOn : Bool) : LampShow.flashing.drive flashOn = flashOn := rfl

@[simp] theorem LampShow.drive_steadyIf (flashOn b : Bool) : (steadyIf b).drive flashOn = b := by
  cases b <;> rfl

theorem State.lampLit_reading {s : State} (h : s.panel.phase ≠ .done) (l : Lamp) : s.lampLit l = true :=
  if_neg fun hl => h (s.live_iff.mp hl)

theorem State.lampLit_done {s : State} (h : s.panel.phase = .done) (l : Lamp) :
    s.lampLit l = (s.lampCondition l).drive s.panel.flashOn :=
  if_pos (s.live_iff.mpr h)

theorem Store.full_iff (st : Store) : st.full = true ↔ st.free < 8 ∨ 32 ≤ st.dir.length := by
  rw [Store.full, Bool.or_eq_true, decide_eq_true_iff, Store.dirFull, decide_eq_true_iff]
  rfl

theorem Keyboard.inLocal_iff (kb : Keyboard) :
    kb.inLocal = true ↔ kb.comp = .localMode ∨ ∃ ds, kb.comp = .timeEntry true ds := by
  unfold Keyboard.inLocal
  cases kb.comp <;> simp

/-- A fault flashes the LINE lamp; without one it shows the load latch. -/
theorem State.lampCondition_line_drive (s : State) (flashOn : Bool) :
    (s.lampCondition .line).drive flashOn = if s.line.lineFault then flashOn else s.line.latch := by
  cases hf : s.line.lineFault <;> simp [State.lampCondition, hf]

/-- A stall lights the PUNCH lamp; without one low tape flashes it. -/
theorem State.lampCondition_punch_drive (s : State) (flashOn : Bool) :
    (s.lampCondition .punch).drive flashOn =
      (s.punch.stallTapeOut || s.punch.stallFault || (s.punch.tapeLow && flashOn)) := by
  change _ = (s.punch.stalled || (s.punch.tapeLow && flashOn))
  cases hs : s.punch.stalled <;> cases hl : s.punch.tapeLow <;>
    simp [State.lampCondition, hs, hl]

/-- A lamp that never flashes is lit exactly by its own condition. -/
theorem State.lampLit_steady {s : State} (h : s.panel.phase = .done) {l : Lamp} {b : Bool}
    (hc : s.lampCondition l = steadyIf b) : s.lampLit l = b := by
  rw [State.lampLit_done h, hc, LampShow.drive_steadyIf]

/-! ### The obligation -/

/-- Settles O11: an entry by the room in the ring, the divider's expiry by what the divider stands at, and each
lamp by its condition once the read has ended. -/
theorem clockAndFlash : Obligations.ClockAndFlash := by
  refine ⟨?entry, fun s n => ⟨fun hd hn hm => ?minute, fun hd hn => ?restarted, fun hd => ?stopped,
    exec_lampFlash, State.lampLit_reading, fun hp => ?lamps⟩⟩
  case entry =>
    rintro j kind fields _ rfl
    refine ⟨rfl, j.add_minute kind fields, j.add_clockSet kind fields, j.add_divider kind fields,
      fun hroom => ?room, fun old rest hr hfull => ?full⟩
    case room =>
      rw [Journal.add_room hroom]
      exact ⟨rfl, rfl, rfl⟩
    case full =>
      rw [Journal.add_full hr hfull]
      refine ⟨rfl, rfl, fun hnone => ?_, fun r hsome => ?_⟩
      · simp only [hnone, Option.map_none]
      · simp only [hsome, Option.map_some, Report.overwrite_eq]
  case minute => rw [exec_dayClockDividerExpiry, Journal.divide_running hd hn hm]; rfl
  case restarted => rw [exec_dayClockDividerExpiry, Journal.divide_restarted hd hn]
  case stopped => rw [exec_dayClockDividerExpiry, Journal.divide_stopped hd]
  case lamps =>
    refine ⟨?line, State.lampLit_steady hp rfl, ?storeFull, State.lampLit_steady hp rfl, ?punch,
      State.lampLit_steady hp rfl, State.lampLit_steady hp rfl, ?localMode⟩
    case line => rw [State.lampLit_done hp, State.lampCondition_line_drive]
    case storeFull => rw [State.lampLit_steady hp (l := .storeFull) rfl, Store.full_iff]
    case punch => rw [State.lampLit_done hp, State.lampCondition_punch_drive]
    case localMode => rw [State.lampLit_steady hp (l := .localMode) rfl, Keyboard.inLocal_iff]

end Sys2Proof.Machine
end

section
/-! SUPPORT. The configuration read under way: what waits for its end, how its attempts follow each other, and the
machine at reset (R191, R198; logs 1 and 29). -/
namespace Sys2Proof.Machine

/-! ### Commands before the read has ended -/

/-- An answer read is acted on behind the guard of the read. -/
theorem State.answered_whenLive (s : State) (report : State → State) : s.answered report
    = s.whenLive fun s => State.settle (s.given (s.line.tx == .awaitAnswer) fun s =>
      report (s.withLine s.line.txIdle.readyRx)) := rfl

/-- The commands that wait for the read are those whose effect stands under its guard. -/
theorem exec_whenLive {c : Instr} (h : waitsForRead c = true) (s : State) :
    ∃ f, exec c s = .next (s.whenLive f) := by
  cases c with
  | powerOn | configReadAttemptFailed | configReadRetry | configReadEnd _ | paperOut | paperPresent | tapeOut
  | tapePresent | tapeLow | tapeLowCleared | restartContactOpened | dayClockDividerExpiry => cases h
  | accept | duplicate | wait | engaged | refuse | answerGarbled => exact ⟨_, congrArg _ (s.answered_whenLive _)⟩
  | _ => exact ⟨_, rfl⟩

/-- Settles O5: before the end of the read the guard lets no effect through. -/
theorem readingStopsBlocks : Obligations.ReadingStopsBlocks := by
  intro c s hc hp
  obtain ⟨f, hx⟩ := exec_whenLive hc s
  rw [hx, State.whenLive_reading (Bool.eq_false_iff.mpr (mt s.live_iff.mp hp))]

/-! ### The attempts of the read (R191) -/

section
variable {s : State}

theorem step_idle (h : s.pending = []) : step s = .next s.tick := by
  rw [step, h]

theorem State.tick_attempt {n : Nat} (h : s.panel.phase = .attempt n) : s.tick = s := by
  simp [State.tick, State.ownCommand, State.live, State.tickRead, h]

/-- The wait between attempts runs down by a cell's time and brings the new attempt at its end. -/
theorem State.tick_retryWait {n left : Nat} (h : s.panel.phase = .retryWait n left) : s.tick = { s with
    panel := { s.panel with phase := .retryWait n (left - s.cellTime) }
    pending := if left - s.cellTime = 0 then [.configReadRetry] else [] } := by
  simp [State.tick, State.ownCommand, State.live, State.tickRead, h]

theorem State.ownCommand_notResponding (h : s.panel.phase = .notResponding) :
    s.ownCommand = some (.configReadEnd []) := by
  simp [State.ownCommand, h]

theorem exec_configReadAttemptFailed {n : Nat} (h : s.panel.phase = .attempt n) :
    exec .configReadAttemptFailed s
      = .next (s.withPhase (if 3 ≤ n then .notResponding else .retryWait n Config.retryTime)) := by
  change execConfigReadAttemptFailed s = _
  rw [execConfigReadAttemptFailed, h]
  dsimp only
  split <;> rfl

theorem exec_configReadRetry {n left : Nat} (h : s.panel.phase = .retryWait n left) :
    exec .configReadRetry s = .next (s.withPhase (.attempt (n + 1))) := by
  change execConfigReadRetry s = _
  rw [execConfigReadRetry, h]

end

/-- Settles O7: time by the phase of the read, then its two commands. -/
theorem configReadAttempts : Obligations.ConfigReadAttempts := by
  intro n left s
  refine ⟨fun hq => ⟨fun h => ?awaited, fun h => step_own hq (State.ownCommand_notResponding h), ?wait⟩,
    fun h hn => ?again, fun h hn => ?third, exec_configReadRetry⟩
  case awaited => rw [step_idle hq, State.tick_attempt h]
  case wait =>
    rintro _ h rfl
    rw [step_idle hq, State.tick_retryWait h]
    rfl
  case again => rw [exec_configReadAttemptFailed h, if_neg (Nat.not_le_of_lt hn)]; rfl
  case third => rw [exec_configReadAttemptFailed h, if_pos hn]; rfl

/-! ### The machine at reset -/

theorem LineUnit.initial_bounded : LineUnit.initial.bounded :=
  ⟨Nat.zero_le _, Nat.zero_le _, Nat.le_refl _, Nat.zero_le _, Nat.zero_le _⟩

theorem State.reset_withinCapacity : State.reset.withinCapacity where
  circular := Nat.zero_le _
  sendList := Nat.zero_le _
  control := Nat.zero_le _
  watch := Nat.zero_le _
  number := ⟨Nat.le_refl 1, by decide⟩
  sequence := Nat.zero_le _
  held := Nat.zero_le _
  queue := Nat.zero_le _
  echo := Nat.zero_le _
  notices := Nat.zero_le _
  lost := Nat.zero_le _
  fifo := Nat.zero_le _
  directory := Nat.zero_le _

theorem Journal.initial_bounded : Journal.initial.bounded :=
  ⟨Nat.zero_le _, Nat.le_refl 1, by decide, Nat.zero_le _, Nat.zero_le _⟩

theorem State.reset_carriageBounded : State.reset.carriageBounded where
  low := Nat.le_refl 1
  high := by decide
  flight := .inl trivial
  pre := fun _ h => by cases h
  width := by decide
  before := fun _ => ⟨rfl, rfl⟩

/-- Settles O60: each block starts within its bounds, and the settings of CONFIG FAULT lie in their ranges. -/
theorem invariantsAtReset : Obligations.InvariantsAtReset :=
  ⟨LineUnit.initial_bounded, rfl, State.reset_withinCapacity, Journal.initial_bounded,
    ⟨Settings.configFault_inRange, Nat.le_refl 2⟩, State.reset_carriageBounded, Store.reset_sound⟩

end Sys2Proof.Machine
end

section
/-! SUPPORT. The end of the configuration read: the settings by the bytes and bits of the image, and what a valid
image and the stand-in values start (R192 to R195, R198). -/
namespace Sys2Proof.Machine

/-! ### The bytes and bits of an image -/

theorem unitAt_lt (us : List Byte) (i : Nat) : unitAt us i < 256 := (us.getD i 0).isLt

theorem imageBit_iff (image : List Byte) (byte bit : Nat) :
    imageBit image byte bit = true ↔ unitAt image byte / 2 ^ bit % 2 = 1 := by
  rw [imageBit, BitVec.getLsbD, Nat.testBit_eq_decide_div_mod_eq, decide_eq_true_iff]
  rfl

theorem imageBit_zero_iff (image : List Byte) (byte : Nat) :
    imageBit image byte 0 = true ↔ unitAt image byte % 2 = 1 := by
  rw [imageBit_iff, pow_zero, Nat.div_one]

theorem clamp_eq {lo hi : Nat} (h : lo ≤ hi) (v : Nat) :
    clamp lo hi v = if v < lo then lo else if hi < v then hi else v := by
  unfold clamp
  split_ifs <;> omega

/-- From 1 on the lower end takes the byte 0 alone. -/
theorem clamp_one {hi : Nat} (h : 1 ≤ hi) (v : Nat) :
    clamp 1 hi v = if v = 0 then 1 else if hi < v then hi else v := by
  simp only [clamp_eq h, Nat.lt_one_iff]

theorem clampPage_eq (v : Nat) :
    clampPage v = if v = 0 then 0 else if v ≤ 19 then 20 else if 99 < v then 99 else v := by
  simp only [clampPage, clamp_eq (show 20 ≤ 99 by decide), Nat.lt_succ_iff]

theorem clampPage_eq_zero (v : Nat) : clampPage v = 0 ↔ v = 0 := by
  unfold clampPage clamp
  split <;> omega

theorem answerbackCode_val (u : Byte) : (answerbackCode u).val = if 31 < u.toNat then 0 else u.toNat := by
  unfold answerbackCode
  by_cases h : u.toNat ≤ 31
  · rw [if_pos h, if_neg (Nat.not_lt_of_le h)]
    exact Nat.mod_eq_of_lt (Nat.lt_succ_of_le h)
  · rw [if_neg h, if_pos (Nat.lt_of_not_le h)]
    rfl

/-- Bytes 6 to 25 are the answerback (R193). -/
theorem settingsOf_answerback {image : List Byte} (hlen : image.length = 32) {i : Nat} (hi : i < 20) :
    ∃ c, (settingsOf image).answerback[i]? = some c ∧
      c.val = if 31 < unitAt image (6 + i) then 0 else unitAt image (6 + i) := by
  have hat : image[6 + i]? = some (image.getD (6 + i) 0) := by
    rw [List.getD_eq_getElem?_getD, List.getElem?_eq_getElem (by omega), Option.getD_some]
  refine ⟨answerbackCode (image.getD (6 + i) 0), ?_, answerbackCode_val _⟩
  simp only [settingsOf, List.getElem?_map, List.getElem?_take_of_lt hi, List.getElem?_drop, hat, Option.map_some]

/-- Settles O9: the image's settings byte by byte and bit by bit, then the last column. -/
theorem settingsInRange : Obligations.SettingsInRange := by
  refine ⟨?_, Settings.configFault_inRange, rfl⟩
  rintro image _ hv rfl
  obtain ⟨hlen, -⟩ := (imageValid_iff image).mp hv
  have hbit := imageBit_iff image
  refine ⟨settingsOf_inRange hv, clampPage_eq_zero _, rfl, imageBit_zero_iff image 1, hbit 1 1, hbit 1 2, hbit 1 3,
    hbit 1 4, hbit 1 5, ?level, clamp_eq (by decide) _, clampPage_eq _, ?leader, clamp_one (by decide) _,
    fun i hi => settingsOf_answerback hlen hi, clamp_one (by decide) _, clamp_one (by decide) _,
    clamp_one (by decide) _, imageBit_zero_iff image 29, hbit 29 1⟩
  case level =>
    have := unitAt_lt image 1
    change min 2 (unitAt image 1 / 64) = _
    split_ifs <;> omega
  case leader =>
    change min 60 (unitAt image 4) = _
    split_ifs <;> omega

/-! ### What a valid image and the stand-in values start -/

section
variable {s : State}

/-- The state once the read has ended, with the punch's tape-out switch read then (R182). -/
def State.tapeJudged (s : State) : State := if s.punch.tapeOut then s.tapeRunsOut else s

theorem State.tapeJudged_present (h : s.punch.tapeOut = false) : s.tapeJudged = s := by
  rw [State.tapeJudged, h]
  rfl

/-- A tape out found with nothing in flight begins its occurrence at once (R174). -/
theorem State.tapeJudged_out (h : s.punch.tapeOut = true) (hf : s.punch.flight = none)
    (hs : s.punch.stallTapeOut = false) (hp : s.punch.outPending = false) :
    s.tapeJudged = { s with punch := { s.punch with tapeOut := true } }.stallTapeOut :=
  (if_pos h).trans (State.tapeRunsOut_stalls (by simp [hs, hp]) hf)

/-- What the end of the read starts: a panel and a composer, one journal entry of a kind, and the print unit with its
notice. -/
def State.started (s : State) (panel : Panel) (kb : Keyboard) (kind : JournalKind) (p : PrintUnit) : State :=
  { s with panel := panel, kb := kb, journal := s.journal.add kind {}, print := p }

/-- A valid image gives its settings, the START entry, and READY at a station with ATTENDED on (R194, R195). -/
theorem State.readEnds_image (s : State) (image : List Byte) : s.readEnds (some image) = State.settle
    (s.started (s.panel.taken (settingsOf image) false) s.kb .start
      (if imageBit image 1 3 then s.print.place (.ready (unitAt image 0)) else s.print)).tapeJudged := by
  cases ha : imageBit image 1 3 <;>
    simp [State.readEnds, State.reportStart, State.started, State.tapeJudged, State.notice, State.log, State.own,
      Panel.taken, settingsOf, ha]

/-- Without an image the stand-in values hold, in LOCAL mode, with the CONFIG FAULT entry and notice (R143, R193,
R194). -/
theorem State.readEnds_fault (s : State) : s.readEnds none = State.settle
    (s.started (s.panel.taken Settings.configFault true) { s.kb with comp := .localMode, case := .unknown }
      .configFault (s.print.place .configFault)).tapeJudged := rfl

theorem exec_configReadEnd_attempt {n : Nat} (h : s.panel.phase = .attempt n) (image : List Byte) :
    exec (.configReadEnd image) s = .next (s.readEnds (judgeImage image)) := by
  change execConfigReadEnd image s = _
  rw [execConfigReadEnd, h]

theorem exec_configReadEnd_notResponding (h : s.panel.phase = .notResponding) (image : List Byte) :
    exec (.configReadEnd image) s = .next (s.readEnds none) := by
  change execConfigReadEnd image s = _
  rw [execConfigReadEnd, h]

/-- The read ends with a valid image. -/
theorem exec_configReadEnd_valid {n : Nat} (h : s.panel.phase = .attempt n) {image : List Byte}
    (hv : imageValid image = true) : exec (.configReadEnd image) s = .next (s.readEnds (some image)) := by
  rw [exec_configReadEnd_attempt h, judgeImage, if_pos hv]

/-- The read ends with an image at fault, or with the memory not responding. -/
theorem exec_configReadEnd_fault {n : Nat} {image : List Byte}
    (h : s.panel.phase = .attempt n ∧ imageValid image = false ∨ s.panel.phase = .notResponding) :
    exec (.configReadEnd image) s = .next (s.readEnds none) := by
  obtain ⟨hp, hv⟩ | hp := h
  · rw [exec_configReadEnd_attempt hp, judgeImage, hv]
    rfl
  · exact exec_configReadEnd_notResponding hp image

section
variable {panel : Panel} {kb : Keyboard} {kind : JournalKind} {p : PrintUnit}

/-- The one entry that an empty journal takes. -/
theorem State.started_journal (h : s.journal.ring = []) : (s.started panel kb kind p).journal = { s.journal with
    ring := [{ entryNo := s.journal.nextNumber, time := s.journal.time, kind := kind, fields := {} }]
    nextNumber := nextEntryNumber s.journal.nextNumber } := by
  have hroom : s.journal.ring.length < 48 := by rw [h]; decide
  rw [State.started, Journal.add_room hroom, h]
  rfl

/-- The entry behind it. -/
theorem State.started_journal_add (h : s.journal.ring = []) (next : JournalKind) :
    ((s.started panel kb kind p).journal.add next {}).ring =
      [{ entryNo := s.journal.nextNumber, time := s.journal.time, kind := kind, fields := {} },
       { entryNo := nextEntryNumber s.journal.nextNumber, time := s.journal.time, kind := next, fields := {} }] := by
  rw [Journal.add_ring, State.started_journal h]
  rfl

end

end

/-- Settles O8: the two outcomes of the read, then the tape-out reading in the state they start. -/
theorem configReadEnds : Obligations.ConfigReadEnds := by
  intro image n s hring hflight hstall hpend fault p hcase
  obtain ⟨panel, kb, hx, hvalid, hfault⟩ : ∃ panel kb,
      exec (.configReadEnd image) s
        = .next (s.started panel kb (if fault then .configFault else .start) p).tapeJudged.settle ∧
      (fault = false → kb = s.kb ∧ panel = s.panel.taken (settingsOf image) false) ∧
      (fault = true → kb = { s.kb with comp := .localMode, case := .unknown } ∧
        panel = s.panel.taken Settings.configFault true) := by
    obtain ⟨hp, hv, rfl, rfl⟩ | ⟨hp, rfl, rfl⟩ := hcase
    · exact ⟨_, _, (exec_configReadEnd_valid hp hv).trans (congrArg _ (s.readEnds_image image)), fun _ => ⟨rfl, rfl⟩,
        nofun⟩
    · exact ⟨_, _, (exec_configReadEnd_fault hp).trans (congrArg _ s.readEnds_fault), nofun, fun _ => ⟨rfl, rfl⟩⟩
  cases ht : s.punch.tapeOut with
  | false =>
    refine ⟨_, exec_settles hx (State.tapeJudged_present (s := s.started ..) ht), hvalid, hfault, ?_, rfl,
      fun _ => rfl, nofun, rfl, rfl, rfl, rfl, rfl⟩
    rw [State.started_journal hring]
    rfl
  | true =>
    exact ⟨_, exec_settles hx (State.tapeJudged_out (s := s.started ..) ht hflight hstall hpend), hvalid, hfault,
      State.started_journal_add (panel := panel) (kb := kb) (p := p) hring .tapeOut, rfl, nofun,
      fun _ => ⟨rfl, rfl, rfl, rfl, rfl⟩, rfl, rfl, rfl, rfl, rfl⟩

end Sys2Proof.Machine
end

section
/-! SUPPORT. RESTART block by block: the records closed, the messages abandoned, and what is left of the line unit, the
composer and the print unit (R31, R39, R96, R118, R142, R167, R199). -/
namespace Sys2Proof.Machine

/-! ### Reception (R96) -/

/-- Every circular record closes in its turn; beside the table only store and journal change. -/
theorem closeAllCircular_records (l : List Record) : ∀ s : State, s.recordsOnly (closeAllCircular l s) ∧
    ((closeAllCircular l s).store, (closeAllCircular l s).journal) = l.foldl restartRecord (s.store, s.journal) := by
  induction l with
  | nil => exact fun s => ⟨rfl, rfl⟩
  | cons r l ih =>
    intro s
    obtain ⟨honly, hrest⟩ := ih (s.closeCircular r (some .restart))
    exact ⟨(s.closeCircular_only r _).trans honly, hrest⟩

/-- The hold, if any, closes; the circular records stay. -/
theorem State.closeHold_restart (s : State) : ((s.closeHold (some .restart)).store,
      (s.closeHold (some .restart)).journal) = s.recv.hold.toList.foldl restartRecord (s.store, s.journal) ∧
    (s.closeHold (some .restart)).recv.circ = s.recv.circ := by
  cases hh : s.recv.hold with
  | none =>
    rw [State.closeHold, hh]
    exact ⟨rfl, rfl⟩
  | some r =>
    rw [State.closeHold_incomplete hh]
    exact ⟨rfl, rfl⟩

/-- Store and journal once RESTART has closed every record of the reassembly table. -/
def State.recordsRestarted (s : State) : Store × Journal :=
  (s.recv.hold.toList ++ s.recv.circ).foldl restartRecord (s.store, s.journal)

theorem State.restartReception_eq (s : State) : s.restartReception = { s with
    recv := Reception.initial, store := s.recordsRestarted.1, journal := s.recordsRestarted.2 } := by
  obtain ⟨hhold, hcirc⟩ := s.closeHold_restart
  obtain ⟨hall, hrest⟩ := closeAllCircular_records s.recv.circ (s.closeHold (some .restart))
  have honly := (s.closeHold_only _).trans hall
  rw [hhold, ← List.foldl_append] at hrest
  rw [State.restartReception, hcirc, State.recordsRestarted, ← hrest, honly]

/-! ### Sending (R118) -/

/-- An abandonment by RESTART places no notice and rings no bell. -/
theorem State.abandonMessage_silent (s : State) (r : SendRec) : s.abandonMessage r .restart none = { s with
    store := (restartMessage (s.store, s.journal) r).1
    journal := (restartMessage (s.store, s.journal) r).2
    kb := s.kb.loseMessage r.entry
    send := { s.send with sendList := refreshList (s.store.abandonEntry r.entry) []
                            (s.send.sendList.filter fun x => x.entry != r.entry) } } := rfl

/-- The keyboard unit once it has lost these messages one after another. -/
def Keyboard.loseAll (kb : Keyboard) (l : List SendRec) : Keyboard := l.foldl (fun kb r => kb.loseMessage r.entry) kb

theorem abandonAll_eq (l : List SendRec) : ∀ s : State, ∃ rest, abandonAll l s = { s with
    store := (l.foldl restartMessage (s.store, s.journal)).1
    journal := (l.foldl restartMessage (s.store, s.journal)).2
    kb := s.kb.loseAll l
    send := { s.send with sendList := rest } } := by
  induction l with
  | nil => exact fun s => ⟨_, rfl⟩
  | cons r l ih =>
    intro s
    rw [abandonAll, State.abandonMessage_silent]
    exact ih _

theorem State.restartSending_eq (s : State) : s.restartSending = { s with
    store := (s.send.sendList.foldl restartMessage (s.store, s.journal)).1
    journal := (s.send.sendList.foldl restartMessage (s.store, s.journal)).2
    kb := s.kb.loseAll s.send.sendList
    send := { s.send with sendList := [], control := [], watch := [] } } := by
  obtain ⟨rest, h⟩ := abandonAll_eq s.send.sendList s
  rw [State.restartSending, h]

/-! ### The composer (R142) -/

/-- Losing a message first makes no difference to a composer that is restarted. -/
theorem Keyboard.restart_loseMessage (kb : Keyboard) (slot : Nat) : (kb.loseMessage slot).restart = kb.restart := by
  by_cases hcur : kb.current = some slot
  · by_cases hcomp : kb.comp = .composing
    · have hline : kb.inLocal = false := by rw [Keyboard.inLocal, hcomp]
      rw [Keyboard.loseMessage_composing hcur hcomp, Keyboard.restart, Keyboard.restart, hline]
      rfl
    · rw [Keyboard.loseMessage_current hcur hcomp]
      rfl
  · rw [Keyboard.loseMessage_other hcur]

theorem Keyboard.restart_loseAll (l : List SendRec) : ∀ kb : Keyboard, (kb.loseAll l).restart = kb.restart := by
  induction l with
  | nil => exact fun _ => rfl
  | cons r l ih => exact fun kb => (ih _).trans (kb.restart_loseMessage r.entry)

/-! ### The line unit (R31, R39) -/

section
variable {l : LineUnit}

theorem LineUnit.cut_contend (h : l.tx = .contend) : l.cut = l.leaveContention := by rw [LineUnit.cut, h]

theorem LineUnit.cut_send (h : l.tx = .send) : l.cut = l.startBreak := by rw [LineUnit.cut, h]

theorem LineUnit.cut_other (hc : l.tx ≠ .contend) (hs : l.tx ≠ .send) : l.cut = l := by
  cases h : l.tx with
  | contend => exact absurd h hc
  | send => exact absurd h hs
  | idle | awaitAnswer | breaking => rw [LineUnit.cut, h]

/-- In every state of the transmitter a cut leaves the fault, the runs, the counts and the load estimate. -/
theorem LineUnit.cut_keeps (l : LineUnit) : l.cut.lineFault = l.lineFault ∧ l.cut.quietRun = l.quietRun ∧
    l.cut.domRun = l.domRun ∧ l.cut.discarded = l.discarded ∧ l.cut.busy = l.busy ∧ l.cut.loadE = l.loadE ∧
    l.cut.latch = l.latch := by
  unfold LineUnit.cut
  cases l.tx <;> exact ⟨rfl, rfl, rfl, rfl, rfl, rfl, rfl⟩

/-- An attempt that is cut drives the cell that begins only when that is its start cell (R51; log 45). -/
theorem LineUnit.leaveContention_drives (l : LineUnit) :
    l.leaveContention.drives = .dominant ↔ l.txSent = 0 := by
  by_cases h : l.txSent = 0 <;>
    simp [LineUnit.drives, LineUnit.leaveContention, LineUnit.hunt, LineUnit.txIdle, h]

end

/-! ### The print unit (R167) -/

/-- The echo is emptied and loses the printer, and the notice is placed. -/
theorem PrintUnit.restart_eq (p : PrintUnit) : p.restart = { p with
    echoFifo := [], echoLost := false, saved := none, reprint := [], echoScript := [], echoImage := []
    echoCase := .letters, echoIdle := none
    flight := p.flight.orphaned
    pre := if servesEcho p.preFor then [] else p.pre
    owner := if p.owner = some Stream.echo then none else p.owner
    holder := if p.holder = some Stream.echo then none else p.holder
    grantDue := p.grantDue || p.holder == some Stream.echo
    notices := (p.place .restart).notices, lost := (p.place .restart).lost } := by
  unfold PrintUnit.restart PrintUnit.place
  dsimp only
  split <;> rfl

section
variable {p : PrintUnit}

theorem PrintUnit.place_room (h : p.notices.length < 16) (n : Notice) :
    p.place n = { p with notices := p.notices ++ [n] } := if_pos h

theorem PrintUnit.place_full (h : 16 ≤ p.notices.length) (n : Notice) :
    p.place n = { p with lost := min 255 (p.lost + 1) } := if_neg (Nat.not_lt_of_le h)

end

/-! ### The command (R199) -/

/-- RESTART at every block. -/
theorem State.restartAll_eq {s : State} {x : Store × Journal} (hx : s.send.sendList.foldl restartMessage
      ((s.recv.hold.toList ++ s.recv.circ).foldl restartRecord (s.store, s.journal.add .restart {})) = x) :
    s.restartAll = { s with
      line := { s.line.cut with clash := false }
      recv := Reception.initial
      send := { s.send with sendList := [], control := [], watch := [] }
      store := x.1
      journal := x.2
      kb := s.kb.restart
      print := s.print.restart
      panel := { s.panel with restartTaken := true } } := by
  subst hx
  unfold State.restartAll
  dsimp only
  rw [State.restartReception_eq, State.restartSending_eq]
  dsimp only [State.withKb]
  rw [Keyboard.restart_loseAll]
  rfl

section
variable {s : State}

theorem exec_restart_taken (h : s.panel.phase = .done) (ht : s.panel.restartTaken = true) :
    exec .restart s = .next s.settle := by
  refine (congrArg _ (State.acting_live (s.live_iff.mpr h) _)).trans ?_
  rw [ht]
  rfl

theorem exec_restart_new (h : s.panel.phase = .done) (ht : s.panel.restartTaken = false) :
    exec .restart s = .next s.restartAll.settle := by
  refine (congrArg _ (State.acting_live (s.live_iff.mpr h) _)).trans ?_
  rw [ht]
  rfl

end

/-- Settles O10: a contact taken once, and RESTART block by block. -/
theorem restartBlocks : Obligations.RestartBlocks := by
  intro s
  refine ⟨rfl, exec_restart_taken, fun h ht => ⟨_, exec_settles (exec_restart_new h ht) (State.restartAll_eq rfl), ?_⟩⟩
  obtain ⟨hfault, hquiet, hdom, hdisc, hbusy, hload, hlatch⟩ := s.line.cut_keeps
  dsimp only
  rw [s.print.restart_eq]
  refine ⟨rfl, fun htx => ?contend, fun htx => ?send, fun hc hs => ?other, hfault, hquiet, hdom, hdisc, hbusy, hload,
    hlatch, rfl, rfl, rfl, rfl, rfl, rfl, rfl, rfl, rfl, rfl, rfl, rfl, rfl, rfl, rfl, rfl, rfl, rfl, rfl, rfl, rfl,
    rfl, rfl, rfl, fun hh => ⟨if_pos hh, ?granted⟩, fun hh => ⟨if_neg hh, ?kept⟩, fun hl => ?room, fun hl => ?full,
    rfl, rfl, rfl, rfl, rfl⟩
  case contend =>
    rw [LineUnit.cut_contend htx]
    exact ⟨rfl, rfl, rfl, s.line.leaveContention_drives⟩
  case send =>
    rw [LineUnit.cut_send htx]
    exact ⟨rfl, rfl, rfl⟩
  case other => rw [LineUnit.cut_other hc hs]
  case granted => simp [hh]
  case kept => simp [hh]
  case room =>
    rw [PrintUnit.place_room hl]
    exact ⟨rfl, rfl⟩
  case full =>
    rw [PrintUnit.place_full hl]
    exact ⟨rfl, rfl⟩

end Sys2Proof.Machine
end

section
/-! SUPPORT. The four selection keys: what each changes, and the punch obligations, the local punch FIFO and the held
LOCAL code when PUNCH is turned off (R63, R138, R146, R177, R180, R195). -/
namespace Sys2Proof.Machine

/-! ### The punch obligations (R63) -/

theorem freeAll_punchQ (l : List Nat) : ∀ st : Store, (freeAll st l).punchQ = st.punchQ := by
  induction l with
  | nil => exact fun _ => rfl
  | cons slot l ih => exact fun st => (ih _).trans (st.freeIfDone_punchQ slot)

theorem Store.removePunchAll_punchQ (st : Store) : st.removePunchAll.punchQ = [] := freeAll_punchQ _ _

/-- Freeing brings no entry into the directory. -/
theorem Store.mem_of_mem_freeIfDone {st : Store} {slot : Nat} {e : Entry} (h : e ∈ (st.freeIfDone slot).dir) :
    e ∈ st.dir := by
  rcases st.freeIfDone_dir slot with hd | hd
  · exact hd ▸ h
  · exact List.mem_of_mem_filter (hd ▸ h)

theorem mem_of_mem_freeAll {l : List Nat} {e : Entry} : ∀ {st : Store}, e ∈ (freeAll st l).dir → e ∈ st.dir := by
  induction l with
  | nil => exact id
  | cons slot l ih => exact fun h => Store.mem_of_mem_freeIfDone (ih h)

theorem Store.removePunchAll_obligations {st : Store} {e : Entry} (h : e ∈ st.removePunchAll.dir) :
    e.oblPunch = false := by
  obtain ⟨x, -, rfl⟩ := List.mem_map.mp (mem_of_mem_freeAll h)
  rfl

/-! ### The held LOCAL code (R138) -/

/-- Only the echo and the keystroke in hand have changed. -/
def State.echoOnly (s t : State) : Prop := ∃ p q h c,
  t = { s with print := p, kb := { s.kb with queue := q, hold := h, case := c } }

theorem State.echoOnly.keeps {s t : State} (h : s.echoOnly t) :
    t.kb.handed = s.kb.handed ∧ t.punch = s.punch ∧ t.store = s.store := by
  obtain ⟨p, q, hold, c, rfl⟩ := h
  exact ⟨rfl, rfl, rfl⟩

/-- With PUNCH off the codes of a keystroke go to the echo alone. -/
theorem State.emitLocal_off (k : Nat) : ∀ (es : List Emit) (s : State), s.panel.punchSel = false →
    s.echoOnly (s.emitLocal k es) := by
  induction k with
  | zero => exact fun _ s _ => ⟨_, _, _, _, rfl⟩
  | succ k ih =>
    intro es s hp
    cases es with
    | nil => exact ⟨_, _, _, _, rfl⟩
    | cons e rest =>
      cases he : emission s.kb.case e with
      | none =>
        rw [State.emitLocal, he]
        exact ih rest s hp
      | some x =>
        obtain ⟨c, left⟩ := x
        obtain ⟨p, q, h, cs, heq⟩ := ih (left ++ rest)
          ((s.placeEcho (.code c)).withKb { s.kb with case := caseAfter s.kb.case c }) hp
        refine ⟨p, q, h, cs, ?_⟩
        simp only [State.emitLocal, he]
        exact (if_neg (by simp [hp])).trans heq

/-- Without a held LOCAL code there is nothing to resume. -/
theorem State.resumeLocal_none {s : State} (h : ∀ x es, s.kb.hold ≠ .localCode x es) : s.resumeLocal = s := by
  unfold State.resumeLocal
  split
  · next hh => exact absurd hh (h _ _)
  · rfl

theorem State.resumeLocal_echoOnly {s : State} (hp : s.panel.punchSel = false) : s.echoOnly s.resumeLocal := by
  by_cases hh : ∃ x es, s.kb.hold = .localCode x es
  · obtain ⟨x, es, hh⟩ := hh
    rw [State.resumeLocal_off hh hp]
    exact State.emitLocal_off emitFuel es s hp
  · rw [State.resumeLocal_none fun x es h => hh ⟨x, es, h⟩]
    exact ⟨_, _, _, _, rfl⟩

/-! ### The keys -/

section
variable {s : State}

@[simp] theorem State.takeHanded_print (s : State) (key : Key) : (s.takeHanded key).print = s.print := rfl

theorem exec_attend (hl : s.panel.phase = .done) : exec .attend s = .next (State.settle
    ((((s.takeHanded .attend).withPanel { s.panel with attended := !s.panel.attended }).motorJudged).notice
      (.attended !s.panel.attended))) :=
  congrArg _ (State.acting_live (s.live_iff.mpr hl) _)

theorem exec_print (hl : s.panel.phase = .done) : exec .print s = .next (State.settle
    (((s.takeHanded .print).withPanel { s.panel with printSel := !s.panel.printSel }).notice
      (.printSel !s.panel.printSel))) :=
  congrArg _ (State.acting_live (s.live_iff.mpr hl) _)

theorem exec_level (hl : s.panel.phase = .done) : exec .level s = .next (State.settle
    (((s.takeHanded .level).withPanel { s.panel with acceptLevel := nextLevel s.panel.acceptLevel }).notice
      (.level (nextLevel s.panel.acceptLevel)))) :=
  congrArg _ (State.acting_live (s.live_iff.mpr hl) _)

/-- The state with PUNCH on or off and named, its consequences still to come. -/
def State.punchToggled (s : State) (on : Bool) : State :=
  ((s.takeHanded .punch).withPanel { s.panel with punchSel := on }).notice (.punchSel on)

theorem exec_punch_on (hl : s.panel.phase = .done) (hs : s.panel.punchSel = false) :
    exec .punch s = .next (s.punchToggled true).punchOn.settle := by
  refine (congrArg _ (State.acting_live (s.live_iff.mpr hl) _)).trans ?_
  rw [hs]
  rfl

/-- PUNCH on in LOCAL begins a reservation, unless a turning off waits (R177; log 20). -/
theorem State.punchOn_eq (s : State) : s.punchOn = { s with
    punch := if s.kb.inLocal = true ∧ s.punch.offDue = false
      then s.punch.localBegins s.panel.settings.leader else s.punch } := by
  unfold State.punchOn State.punchLocalBegins
  cases s.kb.inLocal <;> cases ho : s.punch.offDue <;> simp

/-- The motor idle beyond the idle time of the new selection is stopped (R146). -/
theorem State.motorJudged_eq (s : State) : s.motorJudged = { s with
    print := if s.print.motor = .running ∧ s.print.flight = .none ∧
        motorIdleTime s.panel.settings s.panel.attended ≤ s.print.motorIdle
      then { s.print with motor := .off, flight := .motorStop } else s.print } := by
  rcases s.motorJudged_cases with ⟨hm, hf, ht, h⟩ | ⟨hn, h⟩
  · rw [h, if_pos ⟨hm, hf, ht⟩]
  · rw [h, if_neg]
    rintro ⟨hm, hf, ht⟩
    rcases hn with hn | hn | hn
    · exact hn hm
    · exact hn hf
    · exact Nat.not_le_of_lt hn ht

/-- The state with PUNCH off, the held LOCAL code still to go its way. -/
def State.punchStopped (s : State) : State :=
  { s.punchToggled false with store := s.store.removePunchAll, punch := { s.punch with offDue := true } }

theorem exec_punch_off (hl : s.panel.phase = .done) (hs : s.panel.punchSel = true) :
    exec .punch s = .next s.punchStopped.resumeLocal.settle := by
  refine (congrArg _ (State.acting_live (s.live_iff.mpr hl) _)).trans ?_
  rw [hs]
  rfl

/-- A turning off with nothing in flight takes effect as the punch settles (R180). -/
theorem State.settle_punchStopped {u : State} (h : s.punchStopped.echoOnly u) (hl : s.panel.phase = .done)
    (hf : s.punch.flight = none) : u.settle.punch.cleared := by
  obtain ⟨p, q, hold, c, rfl⟩ := h
  refine State.settle_punch_cleared hl hf rfl s.store.removePunchAll_punchQ rfl

/-- A turning off with an operation in flight waits for it (R180). -/
theorem State.settle_punchStopped_waits {u : State} (h : s.punchStopped.echoOnly u) (hl : s.panel.phase = .done)
    (hf : s.punch.flight.isSome = true) : u.settle.punch = { s.punch with offDue := true } := by
  obtain ⟨p, q, hold, c, rfl⟩ := h
  exact State.settle_punch_noBegin hl hf fun hb => Bool.noConfusion hb.2.1

end

/-- Settles O52: key by key; PUNCH off by what the composer holds and what the punch has in flight. -/
theorem selectionKeys : Obligations.SelectionKeys := by
  intro s hl
  have hleaves := s.takeHanded_leaves
  refine ⟨⟨_, exec_settles (exec_attend hl) rfl, ?attend⟩, ⟨_, exec_print hl, hleaves _, rfl⟩,
    ⟨_, exec_level hl, hleaves _, fun h => congrArg nextLevel h, fun h => congrArg nextLevel h,
      fun h => congrArg nextLevel h, rfl⟩,
    fun hs => ⟨_, exec_settles (exec_punch_on hl hs) (State.punchOn_eq _), hleaves _, rfl⟩, fun hs => ?off⟩
  case attend =>
    rw [State.motorJudged_eq]
    refine ⟨hleaves _, rfl, ?_, rfl⟩
    cases ha : s.panel.attended <;> simp [motorIdleTime]
  case off =>
    have hecho := State.resumeLocal_echoOnly (s := s.punchStopped) rfl
    obtain ⟨hhanded, hpunch, hstore⟩ := hecho.keeps
    refine ⟨_, s.punchStopped, exec_punch_off hl hs, hhanded ▸ hleaves .punch, hhanded, rfl,
      s.store.removePunchAll_punchQ, fun _ => Store.removePunchAll_obligations,
      State.resumeLocal_none (s := s.punchStopped), fun x hh => State.resumeLocal_off (s := s.punchStopped) hh rfl,
      fun x es hh => State.resumeLocal_off (s := s.punchStopped) hh rfl, hpunch, hstore, fun hf => ?_,
      State.settle_punchStopped_waits hecho hl⟩
    obtain ⟨hdue, hcopy, hfifo, hredo, hreservation, hlead, hclose⟩ := State.settle_punchStopped hecho hl hf
    exact ⟨hcopy, hfifo, hreservation, hlead, hclose, hredo, hdue⟩

end Sys2Proof.Machine
end

section
/-! SUPPORT. The step with a command waiting, beside `step_idle` for the empty queue (log 1). -/
namespace Sys2Proof.Machine

/-- A waiting command leaves the front of the queue before it runs. -/
theorem step_front {s : State} {c : Instr} {rest : List Instr} (h : s.pending = c :: rest) :
    step s = exec c { s with pending := rest } := by
  rw [step, h]

/-- Settles O1: `step_front` at a state whose queue is written out; the second update of the queue replaces the
first. -/
theorem stepRunsFrontCommand : Obligations.StepRunsFrontCommand :=
  fun c rest s => step_front (s := { s with pending := c :: rest }) rfl

end Sys2Proof.Machine
end
